-- ==== Sys2Proof/Word.lean ====
section
/-! DEFINITION. Word.lean: the word types of the Fervala 4220 (spec/00_scope.md section 5, R1, R29, R73). -/

namespace Sys2Proof

/-- One byte: a sample code, a program byte, a bank. -/
abbrev Byte := BitVec 8

/-- A 16-bit word of store memory (spec/00_scope.md 5.2). -/
abbrev Word := BitVec 16

/-- A 24-bit byte address (R1). -/
abbrev Addr := BitVec 24

/-- A value of the frame count F (R29). -/
abbrev Frame := BitVec 32

/-- The tag an own read carries (R73, R107, R67, R159). -/
abbrev Generation := BitVec 8

end Sys2Proof
end

