-- ==== Sys2Proof/Syntax.lean ====
section
/-! DEFINITION. Syntax.lean: the commands of the block, one constructor per row of
spec/opcode_table.json. The table gives no operands; the operands are the model's (log 17). -/

namespace Sys2Proof

/-- An output slot, 0 to 255 (R70). -/
abbrev Slot := Fin 256

/-- A program number, 0 to 255 (R53). -/
abbrev Program := Fin 256

/-- A tone generator, TG0 to TG15 (R92). -/
abbrev GenIx := Fin 16

/-- An announcement player, AP0 to AP7 (R106). -/
abbrev PlayerIx := Fin 8

/-- The two masters of the store bus (R1). -/
inductive Master where
  | engine
  | callProcessor
  deriving DecidableEq, Repr

/-- The byte strobes of a request: the low strobe selects the byte at the even address (R1). -/
structure Strobes where
  low : Bool
  high : Bool
  deriving DecidableEq, Repr

/-- The direction of a request; a store carries its data (R1). -/
inductive Direction where
  | read
  | store (data : Word)
  deriving DecidableEq, Repr

/-- A request on the store bus (spec/01 section 1.1). -/
structure Request where
  master : Master
  dir : Direction
  addr : Addr
  strobes : Strobes
  deriving DecidableEq, Repr

/-- One block's handling of a frame mark (R36): the generators', one player's, the dwell expiry of
one slot, or the oldest wait timeout. -/
inductive MarkTask where
  | tones
  | player (n : PlayerIx)
  | dwell (j : Slot)
  | wait
  deriving DecidableEq, Repr

/-- The commands. `elapsed` is the number of REFCLK periods that pass before the arrival (R28, log 3);
`order` is the order in which blocks take the frame mark, blocks it does not name following in the
order of log 5; `data` is the word memory delivers (of the last word for a completed burst). -/
inductive Instr where
  /-- Release of RESET with the straps as they stand (R14). -/
  | reset (bootsel : Byte)
  /-- Arrival of a switching-engine read of a connection entry (R6). -/
  | connectionRead (addr : Addr) (strobes : Strobes) (elapsed : Nat) (order : List MarkTask)
  /-- Arrival of a switching-engine read of a virtual speech word (R7). -/
  | virtualRead (addr : Addr) (strobes : Strobes)
  /-- Arrival of any other request (R5, R10). -/
  | passingRequest (r : Request)
  /-- Memory's completion of the passing request on the port (R2). -/
  | passingCompletion (data : Word)
  /-- Return of the answer to a connection read (R76). -/
  | adoptionCheck (data : Word)
  /-- Memory's acceptance of a store into the connection store (R74). -/
  | connectionStore
  /-- Memory's acceptance of a store into the program table (R64). -/
  | programStore
  /-- Memory's acceptance of a store to the consumer word (R165). -/
  | consumerStore
  /-- Memory's acceptance of a store to the command word (R23). -/
  | commandStore
  /-- The interval timer reaching 533 periods (R32, R33). -/
  | windowExpiry (order : List MarkTask)
  /-- The interval timer reaching 512 periods in HOLDOVER (R34). -/
  | flywheelExpiry (order : List MarkTask)
  /-- A generator's frames left having reached 0 (R98). -/
  | cadenceStepEnd (g : GenIx)
  /-- A player's join-window frames left having reached 0 (R115). -/
  | joinWindowClose (n : PlayerIx)
  /-- A slot's dwell deadline having passed (R88). -/
  | dwellExpiry (j : Slot)
  /-- The oldest passed wait deadline (R148). -/
  | waitTimeout
  /-- Completion of the LOADING status write (R17). -/
  | loadingWriteComplete
  /-- Completion of the record read (R18). -/
  | recordReadComplete (data : Word)
  /-- Completion of the boot's congestion descriptor fetch (R19). -/
  | congestionFetchComplete (data : Word)
  /-- Completion of one ring clearing write (R20). -/
  | ringClearWriteComplete
  /-- Completion of the RUNNING status write (R21). -/
  | runningWriteComplete
  /-- Completion of a failure status write (R22). -/
  | failureWriteComplete
  /-- Completion of a slot's descriptor fetch (R79). -/
  | attachFetchComplete (data : Word)
  /-- Completion of a filler fetch (R103). -/
  | fillerFetchComplete (data : Word)
  /-- Completion of TG15's refetch (R68). -/
  | refetchComplete (data : Word)
  /-- Completion of a player's binding fetch (R109). -/
  | bindingFetchComplete (data : Word)
  /-- Completion of a walker's step fetch (R129). -/
  | stepFetchComplete (data : Word)
  /-- Completion of a fill (R132). -/
  | fillComplete (data : Word)
  /-- Completion of a report write (R164). -/
  | reportWriteComplete
  /-- Completion of a word of an own burst that is not its last (R13). -/
  | burstWordComplete (data : Word)
  /-- The SBI starts the first word of the chosen own request (R154). -/
  | ownBurstStart
  deriving DecidableEq, Repr

end Sys2Proof
end

