-- ==== Sys2Proof/Decode.lean ====
section
/-! DEFINITION. Decode.lean: the command a word spells. No row of spec/opcode_table.json has bits
("fields": [] in all 31 rows), so no word spells a command (log 17). -/

namespace Sys2Proof

/-- The command spelled by the table's bits: none, since no row has bits. -/
def decodeTableWord (_nbits _w : Nat) : Option Instr := none

end Sys2Proof
end

