-- ==== Sys2Proof/Config.lean ====
section
/-! DEFINITION. Config.lean: what an installation of the part fixes. The spec leaves no result of a
command undefined, so no opaque value stands here. -/

namespace Sys2Proof.Config

/-- BOOTSEL as sampled in `State.reset`. The straps' value is the installation's and the spec gives
none (R3). DESIGN CHOICE, log 1, unsafe: a statement about `State.reset` may use this value; the
command RESET carries any straps. -/
def resetStraps : Byte := 0

end Sys2Proof.Config
end

