-- ==== Sys2Proof/Machine/State.lean ====
section
/-! DEFINITION. Machine/State.lean: every piece of state the spec gives the Fervala 4220, as plain
data, and the part right after the release of RESET. Each field's rule stands in INVENTORY.md too. -/

namespace Sys2Proof.Machine

/-! ### Store Bus Interface (spec/01) -/

/-- What the memory port carries: a passing request, or a word of the own burst under way (R12). -/
inductive PortUse where
  | passing (r : Request)
  | ownWord
  deriving DecidableEq, Repr

/-- What the part carried up the store bus to a master: a read's answer, or a store's end (R2). -/
inductive Ending where
  | answer (w : Word)
  | stored
  deriving DecidableEq, Repr

/-- The two sides of the SBI: the port, the passing requests waiting for it in arrival order (R12),
and the last ending carried up to each master (R2, R7; the latch is the model's, log 20). -/
structure Bus where
  port : Option PortUse
  waiting : List Request
  engineEnd : Option Ending
  cpuEnd : Option Ending
  deriving DecidableEq, Repr

/-! ### Boot Loader (spec/02) -/

/-- The device state (R15). -/
inductive Device where
  | boot
  | run
  | bypass
  deriving DecidableEq, Repr

/-- The fields of a boot record (R171). -/
structure BootRecord where
  signature : Word
  version : Word
  cb : Addr
  sb : Addr
  pb : Addr
  limit : Word
  congestion : Word
  ab : Addr
  size : Addr
  rb : Addr
  cw : Addr
  commandWord : Word
  statusWord : Word
  deriving DecidableEq, Repr

/-- The status codes (Table 13-7). -/
inductive StatusCode where
  | loading
  | running
  | badSignature
  | badVersion
  | badRegion
  | badLimit
  | badCongestion
  deriving DecidableEq, Repr

/-- The stages of the boot sequence (Table 2-2), with the failure write (R22). -/
inductive BootStage where
  | drain
  | loading
  | record
  | congestion
  | clearing
  | running
  | failing
  deriving DecidableEq, Repr

/-- The mask of a cadence step (spec/05 section 5.2.2). -/
inductive CadenceMask where
  | none
  | one
  | two
  | both
  deriving DecidableEq, Repr

/-- A cadence step: duration in units of 5 ms, and mask (R56). -/
structure CadenceStep where
  duration : Byte
  mask : CadenceMask
  deriving DecidableEq, Repr

/-- What a generator takes from a TONE descriptor (R93): the steps after the clamp of R51. -/
structure ToneCopy where
  step1 : Word
  step2 : Word
  att1 : BitVec 7
  att2 : BitVec 7
  cadence : List CadenceStep
  deriving DecidableEq, Repr

/-- The Boot Loader's state (R15, R16, R19, R159). The watch ranges are computed from it (R3). -/
structure BootLoader where
  bootsel : Byte
  device : Device
  accepted : Option BootRecord
  working : Option BootRecord
  congestionCopy : Option ToneCopy
  stage : Option BootStage
  bootGen : Generation
  deriving DecidableEq, Repr

/-! ### Frame Monitor (spec/03) -/

/-- The lock states (R26). -/
inductive LockState where
  | unlocked
  | locking
  | locked
  | holdover
  | stalled
  deriving DecidableEq, Repr

/-- The Frame Monitor's items (spec/03 section 3.1). `endsOpen` is the model's own: a frame mark was
taken and the timers it ended may still be untaken (log 4). -/
structure FrameMonitor where
  lock : LockState
  onTime : Nat
  misses : Nat
  stallReported : Bool
  frame : Frame
  timer : Option Nat
  endsOpen : Bool
  deriving DecidableEq, Repr

/-! ### Slot Context Table (spec/06) -/

/-- The announcement fields of a context (R81). -/
structure AnnFields where
  listens : Nat
  maxWait : Byte
  priority : BitVec 2
  filler : Option Program
  after : Option Program
  deriving DecidableEq, Repr

/-- An armed dwell: its deadline and the next program held with it (R80). -/
structure Dwell where
  deadline : Frame
  next : Option Program
  deriving DecidableEq, Repr

/-- The state of a context with the fields Table 6-1 gives it: the current program `p` in every state
but IDLE; in TONE its generator and dwell; in WAITING its announcement fields and the filler's
generator; in PLAYING its player, remaining listens and underrun mark. -/
inductive SlotState where
  | idle
  | attaching (p : Program)
  | tone (p : Program) (g : GenIx) (dwell : Option Dwell)
  | waiting (p : Program) (ann : AnnFields) (filler : Option GenIx)
  | playing (p : Program) (ann : AnnFields) (n : PlayerIx) (remaining : Nat) (underrunMark : Frame)
  | overflow (p : Program)
  | fault (p : Program)
  deriving DecidableEq, Repr

/-- One of the 256 contexts (spec/06 section 6.1). -/
structure SlotContext where
  state : SlotState
  shadow : Word
  gen : Generation
  deriving DecidableEq, Repr

/-- Where a slot's code comes from (R72). -/
inductive SoundSource where
  | silent
  | generator (g : GenIx)
  | player (n : PlayerIx)
  deriving DecidableEq, Repr

/-! ### Tone Generator Bank (spec/07) -/

/-- What a BOUND generator holds: program, fresh flag, copy, and the cadence index and frames left,
absent for a continuous tone (spec/07 section 7.1). -/
structure ToneBinding where
  program : Program
  fresh : Bool
  copy : ToneCopy
  cadence : Option (Nat × Nat)
  deriving DecidableEq, Repr

/-- One generator record; FREE when it has no binding (spec/07 section 7.1). -/
structure Generator where
  binding : Option ToneBinding
  count : Nat
  phase1 : Word
  phase2 : Word
  code : Byte
  deriving DecidableEq, Repr

/-- TG15's refetch state and refetch generation (R67). -/
structure Refetch where
  busy : Bool
  gen : Generation
  deriving DecidableEq, Repr

/-! ### Announcement Players and their walkers (spec/08, spec/09) -/

/-- The states of a player (spec/08 section 8.1). -/
inductive PlayerState where
  | free
  | priming
  | running
  deriving DecidableEq, Repr

/-- The two sample halves (R111). -/
inductive HalfName where
  | a
  | b
  deriving DecidableEq, Repr

/-- The causes of a playlist fault (Table 9-3). -/
inductive PlaylistFault where
  | stackFull
  | badStep
  | zeroCount
  | outOfStore
  | noAudio
  deriving DecidableEq, Repr

/-- The kinds of MARK chunk (R111). -/
inductive MarkKind where
  | join
  | endPass
  | fault (cause : PlaylistFault)
  deriving DecidableEq, Repr

/-- A chunk (R111). -/
inductive Chunk where
  | samples (codes : List Byte)
  | silence (frames : Nat)
  | mark (m : MarkKind)
  deriving DecidableEq, Repr

/-- A sample half; FILLING holds the offset of its chunk's first code and the chunk's length (R131). -/
inductive Half where
  | empty
  | filling (first : Nat) (length : Nat)
  | full (chunk : Chunk)
  deriving DecidableEq, Repr

/-- What a player takes from its own copy of the descriptor (R110). -/
structure PlayerCopy where
  start : Addr
  window : Byte
  attenuation : BitVec 7
  deriving DecidableEq, Repr

/-- The fields of a playlist step as read (R174). -/
structure PlaylistStep where
  kind : Byte
  long : Bool
  ref : Word
  refHigh : Byte
  count : Word
  deriving DecidableEq, Repr

/-- The walk state, with the pending fault of HALTING (spec/09 section 9.2). -/
inductive WalkState where
  | stopped
  | walking
  | halting (cause : PlaylistFault)
  deriving DecidableEq, Repr

/-- A step being taken, with its offset; a PLAY holds its next reference and remaining count (9.2). -/
inductive CurrentStep where
  | play (offset : Nat) (ref : Nat) (remaining : Nat)
  | gap (offset : Nat) (count : Nat)
  | join (offset : Nat)
  | endPass (offset : Nat)
  deriving DecidableEq, Repr

/-- The next entry of the step queue (spec/09 section 9.2). -/
inductive NextEntry where
  | empty
  | fetching (offset : Nat)
  | held (offset : Nat) (step : PlaylistStep)
  | unreachable (offset : Nat) (cause : PlaylistFault)
  deriving DecidableEq, Repr

/-- A return stack entry: the return offset, and the saved bank of a long entry (R134). -/
structure ReturnEntry where
  offset : Nat
  savedBank : Option Byte
  deriving DecidableEq, Repr

/-- A playlist walker (spec/09 section 9.2); the stack's newest entry is its head. -/
structure Walker where
  state : WalkState
  current : Option CurrentStep
  next : NextEntry
  stack : List ReturnEntry
  bank : Byte
  zeroTime : Nat
  nextHalf : HalfName
  deriving DecidableEq, Repr

/-- One player record (spec/08 section 8.1). Listeners stand in increasing order (log 19).
`windowOpen` is the model's latch of the join window: set when it opens, clear once its close is
taken (R115, log 4). -/
structure Player where
  state : PlayerState
  program : Option Program
  fresh : Option Bool
  gen : Generation
  listeners : List Slot
  framesLeft : Nat
  windowOpen : Bool
  copy : Option PlayerCopy
  walker : Walker
  halfA : Half
  halfB : Half
  current : HalfName
  cursor : Nat
  underruns : Frame
  code : Byte
  deriving DecidableEq, Repr

/-! ### Waiting Queue (spec/10) -/

/-- A waiting entry (spec/10 section 10.1). -/
structure WaitEntry where
  slot : Slot
  program : Program
  priority : BitVec 2
  deadline : Frame
  deriving DecidableEq, Repr

/-! ### Memory Request Arbiter (spec/11) -/

/-- A source of report records: slot 0 to 255, or 256 for the device (spec/12 section 12.1). -/
abbrev Source := Fin 257

/-- The kinds of own request, each with its requester (Table 11-1). -/
inductive OwnKind where
  | bootRead
  | congestionFetch
  | statusWrite (code : StatusCode)
  | ringClear (k : Nat)
  | reportWrite (src : Source)
  | attachFetch (j : Slot) (p : Program)
  | fillerFetch (j : Slot) (p : Program)
  | bindingFetch (n : PlayerIx) (p : Program)
  | refetch (p : Program)
  | stepFetch (n : PlayerIx)
  | fill (n : PlayerIx) (h : HalfName)
  deriving DecidableEq, Repr

/-- One own request (spec/11 section 11.1): a read carries a generation, a write its data; the
overtaken mark is R63's, `drain` marks a write of the drain (R16); `done` words are completed, and
`answer` holds the words read so far. -/
structure OwnRequest where
  kind : OwnKind
  gen : Option Generation
  addr : Addr
  length : Nat
  data : List Word
  overtaken : Bool
  drain : Bool
  done : Nat
  answer : List Word
  deriving DecidableEq, Repr

/-- The request queue: the requests queued in order, the chosen one, and the one under way (R154). -/
structure Arbiter where
  queued : List OwnRequest
  chosen : Option OwnRequest
  underWay : Option OwnRequest
  deriving DecidableEq, Repr

/-! ### Report Ring Writer (spec/12) -/

/-- The kinds of record (Table 13-8). -/
inductive ReportKind where
  | dwellEnd
  | annDone
  | waitTimeout
  | queueFull
  | noGenerator
  | slotFault
  | reloaded
  | frameStall
  | frameRelock
  | congKept
  deriving DecidableEq, Repr

/-- An outcome, formed as a record (R162). -/
structure Outcome where
  kind : ReportKind
  source : Source
  program : Program
  detail : Word
  impaired : Bool
  faulted : Bool
  superseded : Bool
  stamp : Frame
  underruns : Word
  deriving DecidableEq, Repr

/-- The Report Ring Writer's state (spec/12 section 12.2). ATTN is computed from P and C (R164). -/
structure ReportRing where
  producer : BitVec 9
  consumer : BitVec 9
  phase : Bool
  pendingFlags : Vector Bool 257
  held : Vector (Option Outcome) 257
  order : List Source
  consumerCopy : Word
  deriving DecidableEq, Repr

/-! ### The whole part -/

/-- The Fervala 4220. `pending` is the queue of commands that wait, first in first out; the rest is
the spec's state, one field per block. -/
structure State where
  pending : List Instr
  bus : Bus
  pairing : Option Slot
  boot : BootLoader
  fm : FrameMonitor
  slots : Vector SlotContext 256
  gens : Vector Generator 16
  refetch : Refetch
  players : Vector Player 8
  queue : List WaitEntry
  mra : Arbiter
  rrw : ReportRing
  deriving DecidableEq, Repr

/-- The reasons a step faults: none. No rule of the spec names an event that stops the part, and
every failure it names is a state of the part (INVENTORY.md, Faults). Safe: nothing raises it. -/
inductive Fault where
  deriving DecidableEq, Repr

/-- The reasons a step is refused. -/
inductive Refusal where
  /-- A command whose meaning is not written, raised by `exec`'s arm alone (safe: nothing is claimed
  of it). No arm of this model raises it. -/
  | notModelled (mnemonic : String)
  deriving DecidableEq, Repr

/-! ### Reset values -/

/-- The context of R70 at the release of RESET. -/
def SlotContext.reset : SlotContext := { state := .idle, shadow := 0, gen := 0 }

/-- The FREE generator of R92. -/
def Generator.reset : Generator := { binding := none, count := 0, phase1 := 0, phase2 := 0, code := 128 }

/-- The walker of R127. -/
def Walker.reset : Walker :=
  { state := .stopped, current := none, next := .empty, stack := [], bank := 0, zeroTime := 0, nextHalf := .a }

/-- The FREE player of R106. -/
def Player.reset : Player :=
  { state := .free, program := none, fresh := none, gen := 0, listeners := [], framesLeft := 0,
    windowOpen := false, copy := none, walker := Walker.reset, halfA := .empty, halfB := .empty,
    current := .a, cursor := 0, underruns := 0, code := 128 }

/-- The Frame Monitor of R26. -/
def FrameMonitor.reset : FrameMonitor :=
  { lock := .unlocked, onTime := 0, misses := 0, stallReported := false, frame := 0, timer := none,
    endsOpen := false }

/-- The Report Ring Writer of R168. -/
def ReportRing.reset : ReportRing :=
  { producer := 0, consumer := 0, phase := true, pendingFlags := Vector.replicate 257 false,
    held := Vector.replicate 257 none, order := [], consumerCopy := 0 }

/-- The LOADING write of the first boot (R15, R16): the code LOADING (0001h) to the status word, at
offset 62 of the record at BOOTSEL × 65536 (R171). -/
def OwnRequest.firstLoading (bootsel : Byte) : OwnRequest :=
  { kind := .statusWrite .loading, gen := none, addr := bootsel ++ (62 : BitVec 16), length := 1,
    data := [1], overtaken := false, drain := false, done := 0, answer := [] }

/-- The part at the release of RESET with the straps sampled as `bootsel` (R14): every block at its
reset values, the device in BOOT, and the first boot's LOADING write queued and, being the only
request, chosen at that event (R16, R156; log 18). -/
def State.released (bootsel : Byte) (pending : List Instr) : State :=
  { pending := pending
    bus := { port := none, waiting := [], engineEnd := none, cpuEnd := none }
    pairing := none
    boot := { bootsel := bootsel, device := .boot, accepted := none, working := none,
              congestionCopy := none, stage := some .loading, bootGen := 0 }
    fm := FrameMonitor.reset
    slots := Vector.replicate 256 SlotContext.reset
    gens := Vector.replicate 16 Generator.reset
    refetch := { busy := false, gen := 0 }
    players := Vector.replicate 8 Player.reset
    queue := []
    mra := { queued := [], chosen := some (OwnRequest.firstLoading bootsel), underWay := none }
    rrw := ReportRing.reset }

/-- The part right after reset: released with the straps of `Config.resetStraps`, no command waiting. -/
def State.reset : State := State.released Config.resetStraps []

end Sys2Proof.Machine
end

