-- ==== Sys2Proof/Machine/Operands.lean ====
section
/-! DEFINITION. Machine/Operands.lean: the formats of spec/13 (R169 to R176), in which the part reads
boot records, connection words, descriptors and playlist steps, and writes report records; the boot
record's checks (R18) and a descriptor's (R60). -/

namespace Sys2Proof.Machine

/-! ### Words and bytes (R1, R169) -/

/-- The byte at the even address of a word. -/
def lowByte (w : Word) : Byte := w.extractLsb' 0 8

/-- The byte at the odd address of a word. -/
def highByte (w : Word) : Byte := w.extractLsb' 8 8

/-- A word of two bytes. -/
def wordOf (high low : Byte) : Word := high ++ low

/-- The strobed bytes of `new` replace those of `old`; the others are kept (R74, R165). -/
def mergeBytes (old new : Word) (b : Strobes) : Word :=
  wordOf (if b.high then highByte new else highByte old) (if b.low then lowByte new else lowByte old)

/-- The word of a record at an even byte offset; a record's words are in increasing address order. -/
def wordAt (ws : List Word) (offset : Nat) : Word := ws.getD (offset / 2) 0

/-- The byte of a record at an offset. -/
def byteAt (ws : List Word) (offset : Nat) : Byte :=
  if offset % 2 = 0 then lowByte (wordAt ws offset) else highByte (wordAt ws offset)

/-- A 24-bit value at an offset: a word, then the low byte of the next (R169). -/
def addrAt (ws : List Word) (offset : Nat) : Addr := byteAt ws (offset + 2) ++ wordAt ws offset

/-- The program a byte numbers (R53). -/
def programOf (b : Byte) : Program := ⟨b.toNat, b.isLt⟩

/-- A number as a word of a record. -/
def wordOfNat (n : Nat) : Word := BitVec.ofNat 16 n

/-- A word begins at the address with its lowest bit cleared (R1). -/
def wordBase (a : Addr) : Nat := a.toNat - a.toNat % 2

/-! ### Connection and consumer words (R172) -/

/-- ACTIVE, bit 15 of a connection entry. -/
def isActive (w : Word) : Bool := w.getLsbD 15

/-- SOURCE, bits 8 to 0 of a connection entry. -/
def sourceOf (w : Word) : Nat := (w.extractLsb' 0 9).toNat

/-- The program a connection word asks for: ACTIVE with SOURCE 256 or above (R53, R75). -/
def requestedProgram (w : Word) : Option Program :=
  if isActive w && w.getLsbD 8 then some (programOf (lowByte w)) else none

/-- The requested index N, bits 8 to 0 of the consumer word. -/
def requestedIndex (w : Word) : BitVec 9 := w.extractLsb' 0 9

/-- The form of an answered speech word: high byte 0, the code in the low byte. -/
def speechWord (code : Byte) : Word := wordOf 0 code

/-! ### Boot record (R171, R176) -/

/-- The working copy of the 32 words read (R17, Table 13-1). -/
def parseBootRecord (ws : List Word) : BootRecord :=
  { signature := wordAt ws 0
    version := wordAt ws 2
    cb := addrAt ws 4
    sb := addrAt ws 8
    pb := addrAt ws 12
    limit := wordAt ws 16
    congestion := wordAt ws 18
    ab := addrAt ws 20
    size := addrAt ws 24
    rb := addrAt ws 28
    cw := addrAt ws 32
    commandWord := wordAt ws 60
    statusWord := wordAt ws 62 }

/-- The numeric status codes (Table 13-7). -/
def StatusCode.code : StatusCode → Word
  | .loading => 0x0001
  | .running => 0x0002
  | .badSignature => 0x0011
  | .badVersion => 0x0012
  | .badRegion => 0x0013
  | .badLimit => 0x0014
  | .badCongestion => 0x0015

/-- The boot record's address, BOOTSEL × 65536 (R171). -/
def bootBase (bootsel : Byte) : Nat := bootsel.toNat * 65536

/-- Two spans, each a first address and a size, overlap when each begins before the other ends; the
ends are sums without wrap (R18). -/
def spansOverlap (a sizeA b sizeB : Nat) : Bool := decide (a < b + sizeB) && decide (b < a + sizeA)

/-- The ring overlaps one of the areas that check 6 names (R18). -/
def ringOverlaps (bootsel : Byte) (r : BootRecord) : Bool :=
  let rb := r.rb.toNat
  spansOverlap rb 8192 r.cb.toNat 512 || spansOverlap rb 8192 r.sb.toNat 1024 ||
  spansOverlap rb 8192 r.pb.toNat (32 * r.limit.toNat) || spansOverlap rb 8192 (bootBase bootsel) 64 ||
  spansOverlap rb 8192 r.cw.toNat 2

/-- An even address. -/
def isEven (a : Addr) : Bool := a.toNat % 2 == 0

/-- The record checks in the order of Table 2-3: the code of the first that fails (R18). -/
def recordCheck (bootsel : Byte) (r : BootRecord) : Option StatusCode :=
  if r.signature ≠ 0x4D2A then some .badSignature
  else if r.version ≠ 1 then some .badVersion
  else if !(isEven r.cb && isEven r.sb && isEven r.pb && isEven r.ab && isEven r.rb && isEven r.cw) then
    some .badRegion
  else if 2 ^ 24 < r.ab.toNat + r.size.toNat then some .badRegion
  else if r.limit.toNat < 1 ∨ 256 < r.limit.toNat then some .badLimit
  else if 2 ^ 24 < r.rb.toNat + 8192 ∨ ringOverlaps bootsel r = true then some .badRegion
  else if r.limit.toNat ≤ r.congestion.toNat then some .badCongestion
  else none

/-! ### Descriptors (R53 to R61, R173) -/

/-- The first word of program `p`'s descriptor: a 24-bit sum that wraps (R53). -/
def descriptorAddr (pb : Addr) (p : Nat) : Addr := pb + BitVec.ofNat 24 (32 * p)

/-- The causes of a descriptor's failure, and BINDING (Table 13-9). -/
inductive Cause where
  | range
  | absent
  | type
  | reserved
  | highway
  | binding
  deriving DecidableEq, Repr

/-- The numeric causes (Table 13-9). -/
def causeCode : Cause → Word
  | .range => 1
  | .absent => 2
  | .type => 3
  | .reserved => 4
  | .highway => 5
  | .binding => 6

/-- The type byte is TONE. -/
def isTone (ws : List Word) : Bool := byteAt ws 0 == 1

/-- The type byte is ANNOUNCEMENT. -/
def isAnnouncement (ws : List Word) : Bool := byteAt ws 0 == 2

/-- Some bit of a word at or above bit `k` is set. -/
def bitsFrom (k : Nat) (w : Word) : Bool := w >>> k != 0

/-- A reserved field of a TONE descriptor is not zero (R54, Table 13-3); all four cadence steps count. -/
def toneReservedSet (ws : List Word) : Bool :=
  wordAt ws 2 != 0 || (byteAt ws 8).getLsbD 7 || (byteAt ws 9).getLsbD 7 || bitsFrom 12 (wordAt ws 10) ||
  bitsFrom 10 (wordAt ws 12) || bitsFrom 10 (wordAt ws 14) || bitsFrom 10 (wordAt ws 16) ||
  bitsFrom 10 (wordAt ws 18) || bitsFrom 9 (wordAt ws 20)

/-- A reserved field of an ANNOUNCEMENT descriptor is not zero (R54, Table 13-4). -/
def annReservedSet (ws : List Word) : Bool :=
  wordAt ws 2 != 0 || byteAt ws 8 >>> 4 != 0 || byteAt ws 9 >>> 2 != 0 || (byteAt ws 10).getLsbD 7 ||
  bitsFrom 9 (wordAt ws 20) || bitsFrom 9 (wordAt ws 22)

/-- Checks 2 to 4 of Table 5-1, and check 5 where a slot's highway is given: the cause of the first
that fails (R60). -/
def checkCopy (highway : Option Nat) (ws : List Word) : Option Cause :=
  if byteAt ws 0 = 0 then some .absent
  else if !(isTone ws || isAnnouncement ws) then some .type
  else if isTone ws && toneReservedSet ws || isAnnouncement ws && annReservedSet ws then some .reserved
  else match highway with
    | some h => if (byteAt ws 1).getLsbD h then none else some .highway
    | none => none

/-- The highway of slot j is j div 32 (R60). -/
def highwayOf (j : Slot) : Nat := j.val / 32

/-- The checks without the highway, and the type TONE required (Table 5-2). -/
def checkTone (highway : Option Nat) (ws : List Word) : Option Cause :=
  match checkCopy highway ws with
  | some c => some c
  | none => if isTone ws then none else some .type

/-- The checks without the highway, and the type ANNOUNCEMENT required (R109). -/
def checkAnnouncement (ws : List Word) : Option Cause :=
  match checkCopy none ws with
  | some c => some c
  | none => if isAnnouncement ws then none else some .type

/-- An option field: bit 8 is the valid flag, the low byte the program (R173). -/
def optionOf (w : Word) : Option Program := if w.getLsbD 8 then some (programOf (lowByte w)) else none

/-- A frequency step above 32767 is taken as 32767 (R51). -/
def clampStep (w : Word) : Word := if 32767 < w.toNat then 32767 else w

/-- The mask of a cadence step, bits 9 and 8 (Table 13-3). -/
def maskOf (w : Word) : CadenceMask :=
  if w.getLsbD 9 then (if w.getLsbD 8 then .both else .two) else (if w.getLsbD 8 then .one else .none)

/-- One cadence step as laid out (Table 13-3). -/
def cadenceStepOf (w : Word) : CadenceStep := { duration := lowByte w, mask := maskOf w }

/-- The cadence list: the leading steps whose duration is not zero (R56). -/
def cadenceOf (ws : List Word) : List CadenceStep :=
  ([wordAt ws 12, wordAt ws 14, wordAt ws 16, wordAt ws 18].map cadenceStepOf).takeWhile
    (fun c => c.duration != 0)

/-- What a generator takes from a TONE copy (R55, R56, R93). -/
def toneCopyOf (ws : List Word) : ToneCopy :=
  { step1 := clampStep (wordAt ws 4)
    step2 := clampStep (wordAt ws 6)
    att1 := (byteAt ws 8).extractLsb' 0 7
    att2 := (byteAt ws 9).extractLsb' 0 7
    cadence := cadenceOf ws }

/-- The dwell of a TONE copy, in units of 100 ms (R57). -/
def dwellOf (ws : List Word) : Nat := ((wordAt ws 10).extractLsb' 0 12).toNat

/-- The next program of a TONE copy (R57). -/
def nextProgramOf (ws : List Word) : Option Program := optionOf (wordAt ws 20)

/-- The announcement fields a slot takes from its copy; a listen count of 0 is taken as 1 (R58, R81). -/
def annFieldsOf (ws : List Word) : AnnFields :=
  let l := ((byteAt ws 8).extractLsb' 0 4).toNat
  { listens := if l = 0 then 1 else l
    maxWait := byteAt ws 24
    priority := (byteAt ws 9).extractLsb' 0 2
    filler := optionOf (wordAt ws 20)
    after := optionOf (wordAt ws 22) }

/-- What a player takes from its own copy (R58, R110). -/
def playerCopyOf (ws : List Word) : PlayerCopy :=
  { start := addrAt ws 4, window := byteAt ws 11, attenuation := (byteAt ws 10).extractLsb' 0 7 }

/-! ### Playlist steps (R174) -/

/-- The fields of the four words of a step. -/
def parseStep (ws : List Word) : PlaylistStep :=
  { kind := byteAt ws 0, long := (byteAt ws 1).getLsbD 0, ref := wordAt ws 2, refHigh := byteAt ws 4,
    count := wordAt ws 6 }

/-- A reference: long, the 24-bit offset; short, bank × 65536 plus the 16-bit offset (R131, R134). -/
def referenceOf (st : PlaylistStep) (bank : Byte) : Nat :=
  (if st.long then st.refHigh.toNat else bank.toNat) * 65536 + st.ref.toNat

/-- The numeric playlist faults (Table 13-9). -/
def PlaylistFault.code : PlaylistFault → Word
  | .stackFull => 16
  | .badStep => 17
  | .zeroCount => 18
  | .outOfStore => 19
  | .noAudio => 20

/-! ### Fills (R132) -/

/-- The words a fill reads for `length` codes from offset `first`. -/
def fillWords (first length : Nat) : Nat := (length + first % 2 + 1) / 2

/-- The bytes of the words read, the low byte first. -/
def bytesOf (ws : List Word) : List Byte := ws.flatMap fun w => [lowByte w, highByte w]

/-- The chunk's codes in the words read: those outside the chunk are not used. -/
def codesOf (first length : Nat) (ws : List Word) : List Byte := ((bytesOf ws).drop (first % 2)).take length

/-! ### Report records (R175, R176) -/

/-- The numeric kinds (Table 13-8). -/
def ReportKind.code : ReportKind → Byte
  | .dwellEnd => 1
  | .annDone => 2
  | .waitTimeout => 3
  | .queueFull => 4
  | .noGenerator => 5
  | .slotFault => 6
  | .reloaded => 16
  | .frameStall => 17
  | .frameRelock => 18
  | .congKept => 19

/-- The flags byte of a record (Table 13-6). -/
def Outcome.flags (o : Outcome) : Byte :=
  (if o.impaired then 1 else 0) ||| (if o.faulted then 2 else 0) ||| (if o.superseded then 4 else 0)

/-- The eight words of a record, written with a lap phase (Table 13-6). -/
def recordWords (o : Outcome) (phase : Bool) : List Word :=
  [ wordOf o.flags o.kind.code,
    wordOfNat o.source.val,
    wordOfNat o.program.val,
    o.detail,
    o.stamp.extractLsb' 0 16,
    o.stamp.extractLsb' 16 16,
    o.underruns,
    if phase then 1 else 0 ]

/-- The source of slot j's records. -/
def slotSource (j : Slot) : Source := ⟨j.val, Nat.lt_succ_of_lt j.isLt⟩

/-- The device's source, 256. -/
def deviceSource : Source := 256

end Sys2Proof.Machine
end

