-- ==== Sys2Proof/Machine/Flags.lean ====
section
/-! DEFINITION. Machine/Flags.lean: the tests and flags computed from state: intervals and expiries
(R28), deadlines (R37), ATTN (R164), open and fresh players (R115, R145), buffered frames (R112),
the code heard (R72), the watch ranges (R3, R4). -/

namespace Sys2Proof.Machine

/-! ### Frame timing -/

/-- The class of an engine mark's interval (Table 3-1). -/
inductive Interval where
  | early
  | onTime
  | late
  deriving DecidableEq, Repr

/-- The thresholds of Table 3-1, in whole REFCLK periods. -/
def intervalOf (periods : Nat) : Interval :=
  if periods ≤ 491 then .early else if periods ≤ 532 then .onTime else .late

/-- The count at which the interval timer expires, by the lock state (R28). -/
def expiryCount : LockState → Option Nat
  | .unlocked => none
  | .locking => some 533
  | .locked => some 533
  | .holdover => some 512
  | .stalled => none

/-- The periods still to count until the interval timer expires; none where it holds no value or its lock
state has no expiry (R28). -/
def FrameMonitor.untilExpiry (m : FrameMonitor) : Option Nat :=
  match m.timer, expiryCount m.lock with
  | some t, some e => some (e - t)
  | _, _ => none

/-- The interval timer stands at the expiry count of its lock state (R28). -/
def FrameMonitor.atExpiry (m : FrameMonitor) : Bool := m.untilExpiry == some 0

/-- The deadline `n` frames after count `f` (R37). -/
def deadlineAfter (f : Frame) (n : Nat) : Frame := f + BitVec.ofNat 32 n

/-- A deadline `d` is passed at count `f` (R37). -/
def deadlinePassed (f d : Frame) : Bool := decide ((f - d).toNat < 2 ^ 31)

/-! ### Report ring -/

/-- ATTN is high while P differs from C (R164). -/
def State.attn (s : State) : Bool := s.rrw.producer != s.rrw.consumer

/-! ### Players -/

/-- A player is open to direct arrivals: RUNNING, fresh, its window open (R115). -/
def Player.isOpen (pl : Player) : Bool :=
  pl.state == .running && pl.fresh == some true && pl.windowOpen

/-- A fresh player of program p: PRIMING, where it counts as fresh until its copy says otherwise
(R108), or RUNNING with its fresh flag set (R145). -/
def Player.isFreshFor (p : Program) (pl : Player) : Bool :=
  pl.program == some p &&
    (pl.state == .priming && pl.fresh != some false || pl.state == .running && pl.fresh == some true)

/-- The codes or frames of a chunk; a mark has none (R111). -/
def Chunk.frames : Chunk → Nat
  | .samples codes => codes.length
  | .silence n => n
  | .mark _ => 0

/-- The frames a half holds while FULL (R112). -/
def Half.frames : Half → Nat
  | .full c => c.frames
  | .empty => 0
  | .filling _ _ => 0

/-- The other half. -/
def HalfName.other : HalfName → HalfName
  | .a => .b
  | .b => .a

/-- A player's half by name. -/
def Player.half (pl : Player) : HalfName → Half
  | .a => pl.halfA
  | .b => pl.halfB

/-- A player's buffered frames; 0 unless RUNNING (R112). -/
def Player.buffered (pl : Player) : Nat :=
  if pl.state = .running then
    ((pl.half pl.current).frames - pl.cursor) + (pl.half pl.current.other).frames
  else 0

/-! ### Slots -/

/-- The sound source of each state (Table 6-3). -/
def SlotState.source : SlotState → SoundSource
  | .idle => .silent
  | .attaching _ => .silent
  | .tone _ g _ => .generator g
  | .waiting _ _ filler => match filler with
    | some g => .generator g
    | none => .silent
  | .playing _ _ n _ _ => .player n
  | .overflow _ => .generator 15
  | .fault _ => .silent

/-- The current program, present in every state but IDLE (Table 6-1). -/
def SlotState.program : SlotState → Option Program
  | .idle => none
  | .attaching p => some p
  | .tone p _ _ => some p
  | .waiting p _ _ => some p
  | .playing p _ _ _ _ => some p
  | .overflow p => some p
  | .fault p => some p

/-! ### Watch ranges (R3, R4, Table 1-1) -/

/-- A word's bytes lie in the range of `size` bytes from `lo`, which stops at FFFFFFh (R4). -/
def inRange (lo size base : Nat) : Bool :=
  decide (lo ≤ base + 1) && decide (base < min (lo + size) (2 ^ 24))

/-- The record whose ranges are in force in RUN (R3). -/
def State.ranges (s : State) : Option BootRecord :=
  if s.boot.device = .run then s.boot.accepted else none

/-- The connection entry a word lies in, where that range is in force (R1, R3). -/
def State.connectionEntry (s : State) (a : Addr) : Option Slot :=
  match s.ranges with
  | none => none
  | some r =>
    if inRange r.cb.toNat 512 (wordBase a) then some (Fin.ofNat 256 ((wordBase a - r.cb.toNat) / 2)) else none

/-- The word is a virtual speech word, 256 to 511, where that range is in force (R1, R3). -/
def State.isVirtualWord (s : State) (a : Addr) : Bool :=
  match s.ranges with
  | none => false
  | some r => inRange (r.sb.toNat + 512) 512 (wordBase a)

/-- The program whose descriptor a word lies in, where that range is in force (R3, R9). -/
def State.programAt (s : State) (a : Addr) : Option Program :=
  match s.ranges with
  | none => none
  | some r =>
    if inRange r.pb.toNat (32 * r.limit.toNat) (wordBase a) then
      some (Fin.ofNat 256 ((wordBase a - r.pb.toNat) / 32))
    else none

/-- The word is the consumer word, watched in every state once a record is accepted (R3). -/
def State.isConsumerWord (s : State) (a : Addr) : Bool :=
  match s.boot.accepted with
  | none => false
  | some r => inRange r.cw.toNat 2 (wordBase a)

/-- The word is the command word of the strapped record, watched in every state (R3, R171). -/
def State.isCommandWord (s : State) (a : Addr) : Bool :=
  inRange (bootBase s.boot.bootsel + 60) 2 (wordBase a)

end Sys2Proof.Machine
end

