-- ==== Sys2Proof/Machine/Ops.lean ====
section
/-! DEFINITION. Machine/Ops.lean: the one way each part of State is read and written. -/

namespace Sys2Proof.Machine

/-! ### Whole blocks -/

def State.withPending (s : State) (x : List Instr) : State := { s with pending := x }
def State.withBus (s : State) (x : Bus) : State := { s with bus := x }
def State.withPairing (s : State) (x : Option Slot) : State := { s with pairing := x }
def State.withBoot (s : State) (x : BootLoader) : State := { s with boot := x }
def State.withFm (s : State) (x : FrameMonitor) : State := { s with fm := x }
def State.withSlots (s : State) (x : Vector SlotContext 256) : State := { s with slots := x }
def State.withGens (s : State) (x : Vector Generator 16) : State := { s with gens := x }
def State.withRefetch (s : State) (x : Refetch) : State := { s with refetch := x }
def State.withPlayers (s : State) (x : Vector Player 8) : State := { s with players := x }
def State.withQueue (s : State) (x : List WaitEntry) : State := { s with queue := x }
def State.withMra (s : State) (x : Arbiter) : State := { s with mra := x }
def State.withRrw (s : State) (x : ReportRing) : State := { s with rrw := x }

/-! ### Banks of like records -/

/-- Every record of a bank changed alike. -/
def mapBank {α : Type} {n : Nat} (f : α → α) (v : Vector α n) : Vector α n :=
  ⟨⟨v.toList.map f⟩, by simp⟩

/-- The context of slot j. -/
def State.slot (s : State) (j : Slot) : SlotContext := s.slots[j.val]

/-- Slot j's context replaced. -/
def State.setSlot (s : State) (j : Slot) (c : SlotContext) : State := s.withSlots (s.slots.set j.val c)

/-- The record of generator g. -/
def State.generator (s : State) (g : GenIx) : Generator := s.gens[g.val]

/-- Generator g's record replaced. -/
def State.setGenerator (s : State) (g : GenIx) (x : Generator) : State := s.withGens (s.gens.set g.val x)

/-- The record of player n. -/
def State.player (s : State) (n : PlayerIx) : Player := s.players[n.val]

/-- Player n's record replaced. -/
def State.setPlayer (s : State) (n : PlayerIx) (x : Player) : State := s.withPlayers (s.players.set n.val x)

/-- Player n's record changed. -/
def State.modifyPlayer (s : State) (n : PlayerIx) (f : Player → Player) : State :=
  s.setPlayer n (f (s.player n))

/-- The sixteen generators in number order. -/
def allGenerators : List GenIx := [0, 1, 2, 3, 4, 5, 6, 7, 8, 9, 10, 11, 12, 13, 14, 15]

/-- The eight players in number order. -/
def allPlayers : List PlayerIx := [0, 1, 2, 3, 4, 5, 6, 7]

/-- The present frame count F. -/
def State.frame (s : State) : Frame := s.fm.frame

/-- The program limit L of the accepted record. -/
def State.limit (s : State) : Nat :=
  match s.boot.accepted with
  | some r => r.limit.toNat
  | none => 0

/-! ### Generations (R73, R107, R67) -/

/-- A generation advanced by 1, and by 1 more where that is the generation of a read under way. -/
def nextGeneration (g : Generation) (underWay : Option Generation) : Generation :=
  if underWay = some (g + 1) then g + 2 else g + 1

end Sys2Proof.Machine
end

