-- ==== Sys2Proof/Machine/Requests.lean ====
section
/-! DEFINITION. Machine/Requests.lean: the Memory Request Arbiter (spec/11) and the memory port
(R12, R13): queuing, withdrawing, choosing, and giving the port. -/

namespace Sys2Proof.Machine

/-! ### Kinds of own request (Table 11-1) -/

/-- The slot on whose behalf a read was queued. -/
def OwnKind.slot? : OwnKind → Option Slot
  | .attachFetch j _ => some j
  | .fillerFetch j _ => some j
  | .bootRead => none
  | .congestionFetch => none
  | .statusWrite _ => none
  | .ringClear _ => none
  | .reportWrite _ => none
  | .bindingFetch _ _ => none
  | .refetch _ => none
  | .stepFetch _ => none
  | .fill _ _ => none

/-- The player on whose behalf a read was queued. -/
def OwnKind.player? : OwnKind → Option PlayerIx
  | .bindingFetch n _ => some n
  | .stepFetch n => some n
  | .fill n _ => some n
  | .bootRead => none
  | .congestionFetch => none
  | .statusWrite _ => none
  | .ringClear _ => none
  | .reportWrite _ => none
  | .attachFetch _ _ => none
  | .fillerFetch _ _ => none
  | .refetch _ => none

/-- The program whose descriptor a serving block's fetch reads. -/
def OwnKind.descriptor? : OwnKind → Option Program
  | .attachFetch _ p => some p
  | .fillerFetch _ p => some p
  | .bindingFetch _ p => some p
  | .refetch p => some p
  | .bootRead => none
  | .congestionFetch => none
  | .statusWrite _ => none
  | .ringClear _ => none
  | .reportWrite _ => none
  | .stepFetch _ => none
  | .fill _ _ => none

/-- TG15's refetch. -/
def OwnKind.isRefetch : OwnKind → Bool
  | .refetch _ => true
  | _ => false

/-- A report write. -/
def OwnKind.isReport : OwnKind → Bool
  | .reportWrite _ => true
  | _ => false

/-- A request of the boot sequence (R158). -/
def OwnKind.isBoot : OwnKind → Bool
  | .bootRead => true
  | .congestionFetch => true
  | .statusWrite _ => true
  | .ringClear _ => true
  | _ => false

/-- A step fetch or a fill, class 1 of R157: its player. -/
def OwnKind.sound? : OwnKind → Option PlayerIx
  | .stepFetch n => some n
  | .fill n _ => some n
  | _ => none

/-- An own read as it is queued (R154). -/
def ownRead (kind : OwnKind) (gen : Generation) (addr : Addr) (length : Nat) : OwnRequest :=
  { kind := kind, gen := some gen, addr := addr, length := length, data := [], overtaken := false,
    drain := false, done := 0, answer := [] }

/-- An own write as it is queued (R154); writes carry no generation. -/
def ownWrite (kind : OwnKind) (addr : Addr) (data : List Word) : OwnRequest :=
  { kind := kind, gen := none, addr := addr, length := data.length, data := data, overtaken := false,
    drain := false, done := 0, answer := [] }

/-! ### The request queue -/

/-- A request queued behind those queued before it (R154). -/
def State.enqueue (s : State) (r : OwnRequest) : State :=
  s.withMra { s.mra with queued := s.mra.queued ++ [r] }

/-- Every request of these kinds with no word begun leaves the queue; one that is chosen is still
queued (R154, R159). -/
def State.withdraw (s : State) (f : OwnKind → Bool) : State :=
  s.withMra { s.mra with
    queued := s.mra.queued.filter (fun r => !f r.kind)
    chosen := s.mra.chosen.filter (fun r => !f r.kind) }

/-- The generation of a read of these kinds that is under way (R73). -/
def State.underWayGen (s : State) (f : OwnKind → Bool) : Option Generation :=
  match s.mra.underWay with
  | some r => if f r.kind then r.gen else none
  | none => none

/-- The requests not yet completed: under way, chosen, then queued (R154). -/
def State.requestsHeld (s : State) : List OwnRequest :=
  s.mra.underWay.toList ++ s.mra.chosen.toList ++ s.mra.queued

/-- The report writes queued and not yet completed (R163). -/
def State.reportsHeld (s : State) : Nat := (s.requestsHeld.filter (fun r => r.kind.isReport)).length

/-- A slot's reads (R73). -/
def readOfSlot (j : Slot) (k : OwnKind) : Bool := k.slot? == some j

/-- A player's reads (R107). -/
def readOfPlayer (n : PlayerIx) (k : OwnKind) : Bool := k.player? == some n

/-! ### Choosing (R156 to R158) -/

/-- The rank of a class 1 request: fewest buffered frames, then the lower player number (R157). -/
def State.soundRank (s : State) (r : OwnRequest) : Nat :=
  match r.kind.sound? with
  | some n => (s.player n).buffered * 8 + n.val
  | none => 0

/-- The first request of least rank. -/
def firstLeast (rank : OwnRequest → Nat) : List OwnRequest → Option OwnRequest
  | [] => none
  | r :: rs => match firstLeast rank rs with
    | none => some r
    | some b => if rank b < rank r then some b else some r

/-- The request that R157 prefers in RUN: class 1, then class 2, then class 3. -/
def State.pickRun (s : State) : Option OwnRequest :=
  match firstLeast s.soundRank (s.mra.queued.filter (fun r => r.kind.sound?.isSome)) with
  | some r => some r
  | none => match s.mra.queued.find? (fun r => r.kind.descriptor?.isSome) with
    | some r => some r
    | none => s.mra.queued.find? (fun r => r.kind.isReport)

/-- The request the device state allows and R157 or R158 prefers. -/
def State.pick (s : State) : Option OwnRequest :=
  match s.boot.device with
  | .run => s.pickRun
  | .boot => s.mra.queued.find? (fun r => r.drain || r.kind.isBoot)
  | .bypass => none

/-- The MRA's choice, made where no own request is chosen or under way (R156). -/
def State.choose (s : State) : State :=
  if s.mra.chosen.isSome || s.mra.underWay.isSome then s
  else match s.pick with
    | none => s
    | some r => s.withMra { s.mra with queued := s.mra.queued.erase r, chosen := some r }

/-! ### The memory port (R12, R13) -/

/-- A free port goes to the first waiting passing request, or else to the burst under way. -/
def State.grant (s : State) : State :=
  match s.bus.port with
  | some _ => s
  | none => match s.bus.waiting with
    | r :: rest => s.withBus { s.bus with port := some (.passing r), waiting := rest }
    | [] => if s.mra.underWay.isSome then s.withBus { s.bus with port := some .ownWord } else s

/-- What ends every event: the MRA's choice, and the port given where it is free. -/
def State.finish (s : State) : State := s.choose.grant

/-- One more word of a burst completed; a read keeps the word memory delivers (R155). -/
def OwnRequest.advance (r : OwnRequest) (data : Word) : OwnRequest :=
  { r with done := r.done + 1, answer := if r.data = [] then r.answer ++ [data] else r.answer }

/-- Memory completes a word of the own burst, on the port: where it is the last, the completed
request and the part with it gone from the queue and the port free (R155). -/
def State.lastWord (s : State) (data : Word) : Option (OwnRequest × State) :=
  match s.bus.port, s.mra.underWay with
  | some .ownWord, some r =>
    if r.done + 1 = r.length then
      some (r.advance data,
        (s.withMra { s.mra with underWay := none }).withBus { s.bus with port := none })
    else none
  | _, _ => none

/-- A completed own request is delivered to its requester, and the event ends (R155, R156).
`deliver` answers none where the request is not of the command's kind; the command then names no
event of the part and nothing happens (log 8). -/
def State.complete (s : State) (data : Word) (deliver : OwnRequest → State → Option State) : State :=
  match s.lastWord data with
  | none => s
  | some (r, t) => match deliver r t with
    | none => s
    | some t' => t'.finish

/-- Memory completes a word of the own burst that is not its last: a waiting passing request takes
the port, or the burst goes on to its next word (R13). -/
def State.wordDone (s : State) (data : Word) : State :=
  match s.bus.port, s.mra.underWay with
  | some .ownWord, some r =>
    if r.done + 1 < r.length then
      ((s.withMra { s.mra with underWay := some (r.advance data) }).withBus { s.bus with port := none }).grant
    else s
  | _, _ => s

/-- The SBI puts the first word of the chosen request on a free port while no passing request waits;
the request is then under way (R12, R154). -/
def State.startBurst (s : State) : State :=
  match s.bus.port, s.bus.waiting, s.mra.underWay, s.mra.chosen with
  | none, [], none, some r =>
    (s.withMra { s.mra with chosen := none, underWay := some r }).withBus { s.bus with port := some .ownWord }
  | _, _, _, _ => s

/-! ### What memory sees (R2, R155) -/

/-- The requester tag of the memory bus (R2). -/
inductive BusTag where
  | master (m : Master)
  | device
  deriving DecidableEq, Repr

/-- A request as presented on the memory bus. -/
structure BusRequest where
  tag : BusTag
  dir : Direction
  addr : Addr
  strobes : Strobes
  deriving DecidableEq, Repr

/-- The word of an own burst that is being transferred: words in increasing address order, whole
words with both strobes, tagged device (R2, R155, R170). -/
def OwnRequest.busWord (r : OwnRequest) : BusRequest :=
  { tag := .device
    dir := if r.data = [] then .read else .store (r.data.getD r.done 0)
    addr := r.addr + BitVec.ofNat 24 (2 * r.done)
    strobes := { low := true, high := true } }

/-- The request on the memory bus. -/
def State.memoryRequest (s : State) : Option BusRequest :=
  match s.bus.port with
  | none => none
  | some (.passing r) => some { tag := .master r.master, dir := r.dir, addr := r.addr, strobes := r.strobes }
  | some .ownWord => s.mra.underWay.map OwnRequest.busWord

end Sys2Proof.Machine
end

