-- ==== Sys2Proof/Machine/Reports.lean ====
section
/-! DEFINITION. Machine/Reports.lean: the Report Ring Writer (spec/12). -/

namespace Sys2Proof.Machine

/-- A source's pending flag set or cleared. -/
def ReportRing.setFlag (x : ReportRing) (src : Source) (b : Bool) : ReportRing :=
  { x with pendingFlags := x.pendingFlags.set src.val b }

/-- A source's held outcome replaced or removed. -/
def ReportRing.setHeld (x : ReportRing) (src : Source) (o : Option Outcome) : ReportRing :=
  { x with held := x.held.set src.val o }

/-- A source's pending flag (R163). -/
def State.isPending (s : State) (src : Source) : Bool := s.rrw.pendingFlags[src.val]

/-- A source's held outcome (R163). -/
def State.heldOutcome (s : State) (src : Source) : Option Outcome := s.rrw.held[src.val]

/-- The index, modulo 512, and the lap phase fixed for the next record queued (R163). -/
def State.nextIndex (s : State) : Nat × Bool :=
  let sum := s.rrw.producer.toNat + s.reportsHeld
  (sum % 512, if 511 < sum then !s.rrw.phase else s.rrw.phase)

/-- An outcome queued at once: its flag is set and one report write of 8 words queued (R163). -/
def State.queueReport (s : State) (rb : Addr) (o : Outcome) : State :=
  (s.withRrw (s.rrw.setFlag o.source true)).enqueue
    (ownWrite (.reportWrite o.source) (rb + BitVec.ofNat 24 (16 * s.nextIndex.1))
      (recordWords o s.nextIndex.2))

/-- An outcome held; it is marked SUPERSEDED where it replaces one (R163). -/
def State.holdOutcome (s : State) (o : Outcome) : State :=
  s.withRrw (s.rrw.setHeld o.source
    (some (if (s.heldOutcome o.source).isSome then { o with superseded := true } else o)))

/-- An outcome taken by the Report Ring Writer: discarded where no record is accepted (R167), held
where its source's flag is set, queued otherwise (R162, R163). -/
def State.takeOutcome (s : State) (o : Outcome) : State :=
  match s.boot.accepted with
  | none => s
  | some r => if s.isPending o.source then s.holdOutcome o else s.queueReport r.rb o

/-- An outcome of slot j with the frame stamp of the event (R38, R89). -/
def State.slotOutcome (s : State) (j : Slot) (kind : ReportKind) (p : Program) (detail : Word) : State :=
  s.takeOutcome { kind := kind, source := slotSource j, program := p, detail := detail, impaired := false,
                  faulted := false, superseded := false, stamp := s.frame, underruns := 0 }

/-- A device outcome with the frame stamp of the event (R38). -/
def State.deviceOutcome (s : State) (kind : ReportKind) (p : Program) (detail : Word) : State :=
  s.takeOutcome { kind := kind, source := deviceSource, program := p, detail := detail, impaired := false,
                  faulted := false, superseded := false, stamp := s.frame, underruns := 0 }

/-- The completion of a report write: P advances, its phase flips past 511, and the source joins the
ring order list (R164). -/
def State.reportWritten (s : State) (src : Source) : State :=
  s.withRrw { s.rrw with
    producer := s.rrw.producer + 1
    phase := if s.rrw.producer = 511 then !s.rrw.phase else s.rrw.phase
    order := s.rrw.order ++ [src] }

/-- One record released: its source's flag is cleared, and its held outcome queued at once (R165). -/
def State.releaseSource (s : State) (src : Source) : State :=
  let t := s.withRrw (s.rrw.setFlag src false)
  match s.heldOutcome src with
  | none => t
  | some o => (t.withRrw (t.rrw.setHeld src none)).takeOutcome o

/-- How many records a requested index releases: those up to it, clamped to P (R165). -/
def ReportRing.releasedCount (x : ReportRing) (n : BitVec 9) : Nat :=
  min (n - x.consumer).toNat (x.producer - x.consumer).toNat

/-- A store to the consumer word: the copy merged, records released oldest first, C moved (R165). -/
def State.consumerTaken (s : State) (data : Word) (b : Strobes) : State :=
  let copy := mergeBytes s.rrw.consumerCopy data b
  let k := s.rrw.releasedCount (requestedIndex copy)
  let t := s.withRrw { s.rrw with
    consumerCopy := copy
    consumer := s.rrw.consumer + BitVec.ofNat 9 k
    order := s.rrw.order.drop k }
  (s.rrw.order.take k).foldl State.releaseSource t

/-- A reload discards every held outcome and leaves the rest (R167). -/
def State.discardHeld (s : State) : State := s.withRrw { s.rrw with held := Vector.replicate 257 none }

/-- The restart on a new ring: indices 0, phase 1, flags, held outcomes, order list and consumer copy
cleared, and the report writes for the old ring withdrawn (R167). -/
def State.restartRing (s : State) : State := (s.withRrw ReportRing.reset).withdraw OwnKind.isReport

end Sys2Proof.Machine
end

