-- ==== Sys2Proof/Machine/Samples.lean ====
section
/-! DEFINITION. Machine/Samples.lean: the sample arithmetic of spec/04 (R40 to R52). -/

namespace Sys2Proof.Machine

/-- The idle code, positive zero (R43). -/
def idleCode : Byte := 128

/-! ### The store code (R41, R42) -/

/-- The magnitude a code decodes to: the midpoint of its step's span (R41). -/
def decodedMagnitude (x : Byte) : Nat :=
  let segment := x.toNat % 128 / 16
  let step := x.toNat % 16
  if segment = 0 then step * 16 + 8
  else 256 * 2 ^ (segment - 1) + step * 16 * 2 ^ (segment - 1) + 8 * 2 ^ (segment - 1)

/-- The signed linear value of a code (R41). -/
def decodeCode (x : Byte) : Int :=
  if 128 ≤ x.toNat then (decodedMagnitude x : Int) else -(decodedMagnitude x : Int)

/-- The segment of a magnitude (R42, Table 4-1). -/
def segmentOf (m : Nat) : Nat :=
  if m < 256 then 0 else if m < 512 then 1 else if m < 1024 then 2 else if m < 2048 then 3
  else if m < 4096 then 4 else if m < 8192 then 5 else if m < 16384 then 6 else 7

/-- The step of a magnitude within its segment (R42). -/
def stepOf (m : Nat) : Nat :=
  let k := segmentOf m
  if k = 0 then m / 16 else (m - 256 * 2 ^ (k - 1)) / (16 * 2 ^ (k - 1))

/-- The code of a signed value; a magnitude above 32767 is taken as 32767 (R42). -/
def encodeValue (v : Int) : Byte :=
  let m := min v.natAbs 32767
  BitVec.ofNat 8 ((if 0 ≤ v then 128 else 0) + segmentOf m * 16 + stepOf m)

/-! ### The sine table (R44, R45): 32767 × sin(π i / 512) rounded, i from 0 to 256 -/

/-- S[0] to S[42]. -/
def sinePart0 : List Nat :=
  [
   0, 201, 402, 603, 804, 1005, 1206, 1407, 1608, 1809, 2009, 2210,
   2410, 2611, 2811, 3012, 3212, 3412, 3612, 3811, 4011, 4210, 4410, 4609,
   4808, 5007, 5205, 5404, 5602, 5800, 5998, 6195, 6393, 6590, 6786, 6983,
   7179, 7375, 7571, 7767, 7962, 8157, 8351 ]

/-- S[43] to S[85]. -/
def sinePart1 : List Nat :=
  [
   8545, 8739, 8933, 9126, 9319, 9512, 9704, 9896, 10087, 10278, 10469, 10659,
   10849, 11039, 11228, 11417, 11605, 11793, 11980, 12167, 12353, 12539, 12725, 12910,
   13094, 13279, 13462, 13645, 13828, 14010, 14191, 14372, 14553, 14732, 14912, 15090,
   15269, 15446, 15623, 15800, 15976, 16151, 16325 ]

/-- S[86] to S[128]. -/
def sinePart2 : List Nat :=
  [
   16499, 16673, 16846, 17018, 17189, 17360, 17530, 17700, 17869, 18037, 18204, 18371,
   18537, 18703, 18868, 19032, 19195, 19357, 19519, 19680, 19841, 20000, 20159, 20317,
   20475, 20631, 20787, 20942, 21096, 21250, 21403, 21554, 21705, 21856, 22005, 22154,
   22301, 22448, 22594, 22739, 22884, 23027, 23170 ]

/-- S[129] to S[171]. -/
def sinePart3 : List Nat :=
  [
   23311, 23452, 23592, 23731, 23870, 24007, 24143, 24279, 24413, 24547, 24680, 24811,
   24942, 25072, 25201, 25329, 25456, 25582, 25708, 25832, 25955, 26077, 26198, 26319,
   26438, 26556, 26674, 26790, 26905, 27019, 27133, 27245, 27356, 27466, 27575, 27683,
   27790, 27896, 28001, 28105, 28208, 28310, 28411 ]

/-- S[172] to S[214]. -/
def sinePart4 : List Nat :=
  [
   28510, 28609, 28706, 28803, 28898, 28992, 29085, 29177, 29268, 29358, 29447, 29534,
   29621, 29706, 29791, 29874, 29956, 30037, 30117, 30195, 30273, 30349, 30424, 30498,
   30571, 30643, 30714, 30783, 30852, 30919, 30985, 31050, 31113, 31176, 31237, 31297,
   31356, 31414, 31470, 31526, 31580, 31633, 31685 ]

/-- S[215] to S[256]. -/
def sinePart5 : List Nat :=
  [
   31736, 31785, 31833, 31880, 31926, 31971, 32014, 32057, 32098, 32137, 32176, 32213,
   32250, 32285, 32318, 32351, 32382, 32412, 32441, 32469, 32495, 32521, 32545, 32567,
   32589, 32609, 32628, 32646, 32663, 32678, 32692, 32705, 32717, 32728, 32737, 32745,
   32752, 32757, 32761, 32765, 32766, 32767 ]

/-- The 257 entries S[0] to S[256] (R44). -/
def sineTable : List Nat :=
  sinePart0 ++ sinePart1 ++ sinePart2 ++ sinePart3 ++ sinePart4 ++ sinePart5

/-- S[i] (R44). -/
def sineEntry (i : Nat) : Nat := sineTable.getD i 0

/-- The table value of a phase (R45, Table 4-3). -/
def tableValue (phase : Word) : Int :=
  let q := phase.toNat / 16384
  let i := phase.toNat % 16384 / 64
  if q = 0 then (sineEntry i : Int) else if q = 1 then (sineEntry (256 - i) : Int)
  else if q = 2 then -(sineEntry i : Int) else -(sineEntry (256 - i) : Int)

/-! ### Attenuation and gain (R46, R47) -/

/-- The gain table (Table 4-4). -/
def gainTable : List Nat :=
  [32768, 30935, 29205, 27571, 26029, 24573, 23198, 21900, 20675, 19519, 18427, 17396]

/-- G[k] (R46). -/
def gainEntry (k : Nat) : Nat := gainTable.getD k 0

/-- A magnitude scaled by an attenuation: the rounding division of R47. -/
def scaledMagnitude (m : Nat) (a : BitVec 7) : Nat :=
  let c := a.toNat / 12
  (m * gainEntry (a.toNat % 12) + 2 ^ (14 + c)) / 2 ^ (15 + c)

/-- A signed value scaled by an attenuation; the sign is applied to the rounded magnitude (R47). -/
def scaleValue (v : Int) (a : BitVec 7) : Int :=
  if 0 ≤ v then (scaledMagnitude v.natAbs a : Int) else -(scaledMagnitude v.natAbs a : Int)

/-! ### Tone samples (R48, R49) -/

/-- The mask includes component 1. -/
def CadenceMask.hasOne : CadenceMask → Bool
  | .none => false
  | .one => true
  | .two => false
  | .both => true

/-- The mask includes component 2. -/
def CadenceMask.hasTwo : CadenceMask → Bool
  | .none => false
  | .one => false
  | .two => true
  | .both => true

/-- The contribution of one component, `on` where the mask includes it (R48). -/
def contribution (on : Bool) (step phase : Word) (a : BitVec 7) : Int :=
  if step = 0 ∨ on = false then 0 else scaleValue (tableValue phase) a

/-- The sum of two contributions clamped to a signed 16-bit range (R49). -/
def clampSum (v : Int) : Int := if 32767 < v then 32767 else if v < -32768 then -32768 else v

/-- The code of a generator from its mask, copy and phases (R49). -/
def toneCode (mask : CadenceMask) (copy : ToneCopy) (phase1 phase2 : Word) : Byte :=
  match mask with
  | .none => idleCode
  | m => encodeValue (clampSum (contribution m.hasOne copy.step1 phase1 copy.att1 +
      contribution m.hasTwo copy.step2 phase2 copy.att2))

/-! ### Announcement samples (R52) -/

/-- A recorded code at a program's attenuation (R52). -/
def rescaleCode (x : Byte) (a : BitVec 7) : Byte := encodeValue (scaleValue (decodeCode x) a)

end Sys2Proof.Machine
end

