-- ==== Sys2Proof/Machine/Tones.lean ====
section
/-! DEFINITION. Machine/Tones.lean: the Tone Generator Bank (spec/07): binding, reference counts,
frame marks, cadence, TG15's refetch. Fillers stand with the slots. -/

namespace Sys2Proof.Machine

/-- TG15, the congestion generator (R101). -/
def congestionGen : GenIx := 15

/-! ### Binding (R93, R94) -/

/-- The cadence at a new binding or an adoption: step 0 with its full duration, or continuous (R93). -/
def initialCadence (copy : ToneCopy) : Option (Nat × Nat) :=
  match copy.cadence with
  | [] => none
  | c :: _ => some (0, c.duration.toNat * 40)

/-- A generator bound to program p from a copy: phases 0, code 128 (R93). -/
def boundGenerator (p : Program) (copy : ToneCopy) (fresh : Bool) (count : Nat) : Generator :=
  { binding := some { program := p, fresh := fresh, copy := copy, cadence := initialCadence copy }
    count := count
    phase1 := 0
    phase2 := 0
    code := idleCode }

/-- The generator is BOUND to p and fresh. -/
def Generator.isFreshFor (p : Program) (x : Generator) : Bool :=
  match x.binding with
  | some b => b.program == p && b.fresh
  | none => false

/-- The generator is FREE. -/
def Generator.isFree (x : Generator) : Bool := x.binding.isNone

/-- A fresh generator of p; there is at most one (R66). -/
def State.freshGenerator (s : State) (p : Program) : Option GenIx :=
  allGenerators.find? (fun g => (s.generator g).isFreshFor p)

/-- The lowest-numbered FREE one of TG0 to TG14 (R94). -/
def State.freeGenerator (s : State) : Option GenIx :=
  allGenerators.find? (fun g => g != congestionGen && (s.generator g).isFree)

/-- Generator g bound to p (R93). -/
def State.bindGenerator (s : State) (g : GenIx) (p : Program) (copy : ToneCopy) (fresh : Bool) (count : Nat) :
    State :=
  s.setGenerator g (boundGenerator p copy fresh count)

/-! ### Reference counts (R95, R96) -/

/-- A context's sound source becomes generator g. -/
def State.joinGenerator (s : State) (g : GenIx) : State :=
  s.setGenerator g { s.generator g with count := (s.generator g).count + 1 }

/-- A context's sound source ceases to be generator g: one of TG0 to TG14 whose count reaches 0 goes
FREE; TG15 stays BOUND (R96). -/
def State.releaseGenerator (s : State) (g : GenIx) : State :=
  let n := (s.generator g).count - 1
  if n = 0 ∧ g ≠ congestionGen then s.setGenerator g Generator.reset
  else s.setGenerator g { s.generator g with count := n }

/-- The release of a generator that may be absent. -/
def State.releaseFiller (s : State) (filler : Option GenIx) : State :=
  match filler with
  | some g => s.releaseGenerator g
  | none => s

/-! ### Frame marks (R97, R98) -/

/-- The mask of the current cadence step, or both for a continuous tone (R97). -/
def ToneBinding.mask (b : ToneBinding) : CadenceMask :=
  match b.cadence with
  | none => .both
  | some (i, _) => match b.copy.cadence[i]? with
    | some c => c.mask
    | none => .both

/-- Frames left counted down at a mark; the end of the step is CADENCE_STEP_END's (R98, log 4). -/
def ToneBinding.countFrame (b : ToneBinding) : ToneBinding :=
  { b with cadence := b.cadence.map (fun c => (c.1, c.2 - 1)) }

/-- A generator's handling of a frame mark: its code, then its phases, then its cadence (R97). -/
def Generator.mark (x : Generator) : Generator :=
  match x.binding with
  | none => x
  | some b =>
    { x with
      code := toneCode b.mask b.copy x.phase1 x.phase2
      phase1 := x.phase1 + b.copy.step1
      phase2 := x.phase2 + b.copy.step2
      binding := some b.countFrame }

/-- The Bank's handling of a frame mark (R97). -/
def State.markTones (s : State) : State := s.withGens (mapBank Generator.mark s.gens)

/-- The cadence with its step at an end moved to the next step, frames left reloaded (R98). -/
def nextStep (cadence : List CadenceStep) : Option (Nat × Nat) → Option (Nat × Nat)
  | some (i, 0) =>
    let k := (i + 1) % cadence.length
    match cadence[k]? with
    | some c => some (k, c.duration.toNat * 40)
    | none => some (i, 0)
  | other => other

/-- The generator's cadence step ends where its frames left have reached 0 (R98). -/
def Generator.stepEnd (x : Generator) : Generator :=
  match x.binding with
  | none => x
  | some b => { x with binding := some { b with cadence := nextStep b.copy.cadence b.cadence } }

/-- The end of generator g's cadence step (R98). -/
def State.endCadenceStep (s : State) (g : GenIx) : State := s.setGenerator g (s.generator g).stepEnd

/-! ### Program stores and TG15 (R64, R67, R68, R100) -/

/-- A generator bound to p loses its fresh flag (R64). -/
def Generator.makeStale (p : Program) (x : Generator) : Generator :=
  match x.binding with
  | none => x
  | some b => if b.program = p then { x with binding := some { b with fresh := false } } else x

/-- A store into p makes each of TG0 to TG14 bound to p stale; TG15 is not reached (R64, R100). -/
def State.staleGenerators (s : State) (p : Program) : State :=
  allGenerators.foldl (fun t g =>
    if g = congestionGen then t else t.setGenerator g ((t.generator g).makeStale p)) s

/-- TG15's refetch of program c begins or restarts: a new generation, the earlier fetch withdrawn if
no word of it is read, a new fetch queued (R67). -/
def State.startRefetch (s : State) (pb : Addr) (c : Program) : State :=
  let g := nextGeneration s.refetch.gen (s.underWayGen OwnKind.isRefetch)
  ((s.withdraw OwnKind.isRefetch).withRefetch { busy := true, gen := g }).enqueue
    (ownRead (.refetch c) g (descriptorAddr pb c.val) 16)

/-- TG15 adopts a copy: steps, attenuations and cadence from step 0; phases, code, count stay (R68). -/
def Generator.adopt (copy : ToneCopy) (x : Generator) : Generator :=
  match x.binding with
  | none => x
  | some b => { x with binding := some { b with copy := copy, cadence := initialCadence copy } }

/-- A completed refetch of c whose generation matches: a passing TONE copy is adopted; a failing one
leaves TG15 as it is and CONG_KEPT is handed over (R68). -/
def State.refetchDone (s : State) (c : Program) (gen : Option Generation) (ws : List Word) : State :=
  if gen = some s.refetch.gen ∧ s.refetch.busy = true then
    let t := s.withRefetch { s.refetch with busy := false }
    match checkTone none ws with
    | none => t.setGenerator congestionGen ((t.generator congestionGen).adopt (toneCopyOf ws))
    | some cause => t.deviceOutcome .congKept c (causeCode cause)
  else s

end Sys2Proof.Machine
end

