-- ==== Sys2Proof/Machine/Waiting.lean ====
section
/-! DEFINITION. Machine/Waiting.lean: binding and freeing a player (R107, R108, R122), the queue
(R142, R143) and the allocator (R146). -/

namespace Sys2Proof.Machine

/-- The program table base PB of the accepted record. -/
def State.programBase (s : State) : Addr :=
  match s.boot.accepted with
  | some r => r.pb
  | none => 0

/-- Player n's next binding generation (R107). -/
def State.nextPlayerGen (s : State) (n : PlayerIx) : Generation :=
  nextGeneration (s.player n).gen (s.underWayGen (readOfPlayer n))

/-- Player n enters PRIMING for p: its record as R108 gives, its queued reads withdrawn (R107), and
its binding fetch queued. -/
def State.bindPlayer (s : State) (n : PlayerIx) (p : Program) : State :=
  ((s.withdraw (readOfPlayer n)).setPlayer n
    { Player.reset with state := .priming, program := some p, gen := s.nextPlayerGen n }).enqueue
    (ownRead (.bindingFetch n p) (s.nextPlayerGen n) (descriptorAddr s.programBase p.val) 16)

/-- Player n enters FREE, not by a reload: everything is discarded but the underrun total, and its
queued reads are withdrawn (R107, R122, R127). -/
def State.freePlayer (s : State) (n : PlayerIx) : State :=
  (s.withdraw (readOfPlayer n)).setPlayer n
    { Player.reset with gen := s.nextPlayerGen n, underruns := (s.player n).underruns }

/-- A fresh player of p exists (R145). -/
def State.hasFreshPlayer (s : State) (p : Program) : Bool :=
  allPlayers.any (fun n => (s.player n).isFreshFor p)

/-- An entry is eligible when no fresh player of its program exists (R146). -/
def State.eligible (s : State) (e : WaitEntry) : Bool := !s.hasFreshPlayer e.program

/-- Of the highest priority, the entry nearest the head (R146). -/
def firstHighest : List WaitEntry → Option WaitEntry
  | [] => none
  | e :: es => match firstHighest es with
    | none => some e
    | some b => if e.priority < b.priority then some b else some e

/-- The allocator's run at player n's freeing (R146). -/
def State.allocate (s : State) (n : PlayerIx) : State :=
  match firstHighest (s.queue.filter s.eligible) with
  | none => s
  | some e => s.bindPlayer n e.program

/-- Player n goes FREE and tells the allocator, at one event (R122, R146). -/
def State.releasePlayer (s : State) (n : PlayerIx) : State := (s.freePlayer n).allocate n

/-- The entry of slot j leaves the queue (R143). -/
def State.leaveQueue (s : State) (j : Slot) : State :=
  s.withQueue (s.queue.filter (fun e => e.slot != j))

/-- The slots of p's entries, in queue order (R114, R109). -/
def State.waitersFor (s : State) (p : Program) : List Slot :=
  (s.queue.filter (fun e => e.program == p)).map (fun e => e.slot)

/-- The queue holds an entry for p. -/
def State.hasWaiter (s : State) (p : Program) : Bool := s.queue.any (fun e => e.program == p)

/-- The lowest-numbered FREE player (R145). -/
def State.freePlayerNumber (s : State) : Option PlayerIx :=
  allPlayers.find? (fun n => (s.player n).state == .free)

/-- The open player of p: fresh and open, so there is at most one (R144 case 1, R145). -/
def State.openPlayer (s : State) (p : Program) : Option PlayerIx :=
  allPlayers.find? (fun n => (s.player n).program == some p && (s.player n).isOpen)

/-- The queue's bound (R142). -/
def queueLimit : Nat := 32

end Sys2Proof.Machine
end

