-- ==== Sys2Proof/Machine/Slots.lean ====
section
/-! DEFINITION. Machine/Slots.lean: the Slot Context Table (spec/06), with the arrival decision (R144),
fillers (R102 to R105), dwell expiries (R88) and wait timeouts (R148). -/

namespace Sys2Proof.Machine

/-! ### Entering a state (R70, R73) -/

/-- Slot j's context enters a state: its generation advances and its queued reads are withdrawn;
fields the new state lacks are discarded with the old one (R70, R73). -/
def State.enter (s : State) (j : Slot) (st : SlotState) : State :=
  (s.withdraw (readOfSlot j)).setSlot j
    { s.slot j with
      state := st
      gen := nextGeneration (s.slot j).gen (s.underWayGen (readOfSlot j)) }

/-! ### Detach (R77) -/

/-- The slot leaves the player's listener set; an emptied player goes FREE (R77, R123). -/
def State.leavePlayer (s : State) (n : PlayerIx) (j : Slot) : State :=
  let t := s.modifyPlayer n (fun pl => { pl with listeners := pl.listeners.filter (fun i => i != j) })
  if (t.player n).listeners = [] then t.releasePlayer n else t

/-- The transition out of WAITING: the entry leaves the queue and the filler is released (R105, R143). -/
def State.leaveWaiting (s : State) (j : Slot) (filler : Option GenIx) : State :=
  (s.leaveQueue j).releaseFiller filler

/-- What a detach releases in each state (Table 6-4); the state that follows is the caller's. -/
def State.detach (s : State) (j : Slot) : State :=
  match (s.slot j).state with
  | .idle => s
  | .attaching _ => s
  | .tone _ g _ => s.releaseGenerator g
  | .waiting _ _ filler => s.leaveWaiting j filler
  | .playing _ _ n _ _ => s.leavePlayer n j
  | .overflow _ => s.releaseGenerator congestionGen
  | .fault _ => s

/-! ### Attach (R78) and slot requests (R74, R75) -/

/-- Slot j enters FAULT with a SLOT_FAULT record (R61). -/
def State.faultSlot (s : State) (j : Slot) (p : Program) (cause : Cause) : State :=
  (s.enter j (.fault p)).slotOutcome j .slotFault p (causeCode cause)

/-- The attach of slot j to p begins: the range check, then ATTACHING and one descriptor fetch with
the new generation (R62, R78). -/
def State.attach (s : State) (j : Slot) (p : Program) : State :=
  if s.limit ≤ p.val then s.faultSlot j p .range
  else
    let t := s.enter j (.attaching p)
    t.enqueue (ownRead (.attachFetch j p) (t.slot j).gen (descriptorAddr s.programBase p.val) 16)

/-- A slot request whose merged word is already the shadow: an attach, a restart or a detach (R75). -/
def State.slotRequest (s : State) (j : Slot) : State :=
  match requestedProgram (s.slot j).shadow with
  | some p => (s.detach j).attach j p
  | none => if (s.slot j).state = .idle then s else (s.detach j).enter j .idle

/-- Slot j's shadow replaced. -/
def State.setShadow (s : State) (j : Slot) (w : Word) : State := s.setSlot j { s.slot j with shadow := w }

/-- A connection store into entry j, merged and taken as a slot request (R74). -/
def State.connectionTaken (s : State) (j : Slot) (data : Word) (b : Strobes) : State :=
  (s.setShadow j (mergeBytes (s.slot j).shadow data b)).slotRequest j

/-- ACTIVE and SOURCE of two connection words agree (R76). -/
def sameConnection (a b : Word) : Bool := isActive a == isActive b && sourceOf a == sourceOf b

/-- The adoption check of the answer to a connection read of entry j (R76). -/
def State.adoptionChecked (s : State) (j : Slot) (answer : Word) : State :=
  if sameConnection answer (s.slot j).shadow then s else (s.setShadow j answer).slotRequest j

/-! ### Congestion (R86) -/

/-- Slot j enters OVERFLOW, counted on TG15, and the record its caller names is handed over (R86). -/
def State.overflowSlot (s : State) (j : Slot) (p : Program) (kind : ReportKind) (detail : Word) : State :=
  ((s.joinGenerator congestionGen).enter j (.overflow p)).slotOutcome j kind p detail

/-! ### Tone placement (R80) -/

/-- The dwell armed at count F: a deadline d × 800 frames on with the next program, or none (R80). -/
def dwellArmed (f : Frame) (d : Nat) (next : Option Program) : Option Dwell :=
  if d = 0 then none else some { deadline := deadlineAfter f (d * 800), next := next }

/-- A TONE copy places slot j on a generator of p, or in OVERFLOW (R80). -/
def State.placeTone (s : State) (j : Slot) (p : Program) (fresh : Bool) (ws : List Word) : State :=
  let dwell := dwellArmed s.frame (dwellOf ws) (nextProgramOf ws)
  match s.freshGenerator p with
  | some g => (s.joinGenerator g).enter j (.tone p g dwell)
  | none => match s.freeGenerator with
    | some g => (s.bindGenerator g p (toneCopyOf ws) fresh 1).enter j (.tone p g dwell)
    | none => s.overflowSlot j p .noGenerator 0

/-! ### Fillers (R102 to R104) -/

/-- The Bank gives a waiting slot a generator: its sound source, not a new state (R83). -/
def State.giveFiller (s : State) (j : Slot) (g : GenIx) : State :=
  match (s.slot j).state with
  | .waiting p ann _ => s.setSlot j { s.slot j with state := .waiting p ann (some g) }
  | _ => s

/-- The filler of a slot that has just entered WAITING (R102). -/
def State.takeFiller (s : State) (j : Slot) (f : Program) : State :=
  match s.freshGenerator f with
  | some g => (s.joinGenerator g).giveFiller j g
  | none =>
    if s.limit ≤ f.val then s
    else s.enqueue (ownRead (.fillerFetch j f) (s.slot j).gen (descriptorAddr s.programBase f.val) 16)

/-- A filler fetch of f for slot j completes (R103); a filler that cannot be had is lost (R104). -/
def State.fillerDone (s : State) (j : Slot) (f : Program) (gen : Option Generation) (fresh : Bool)
    (ws : List Word) : State :=
  match (s.slot j).state with
  | .waiting _ _ none =>
    if gen = some (s.slot j).gen then
      match checkTone (some (highwayOf j)) ws with
      | some _ => s
      | none => match s.freshGenerator f with
        | some g => (s.joinGenerator g).giveFiller j g
        | none => match s.freeGenerator with
          | some g => (s.bindGenerator g f (toneCopyOf ws) fresh 1).giveFiller j g
          | none => s
    else s
  | _ => s

/-! ### Joins and the arrival decision (R84, R144, R145) -/

/-- A slot added to a listener set, kept in increasing order (log 19). -/
def addListener (j : Slot) : List Slot → List Slot
  | [] => [j]
  | i :: is => if j < i then j :: i :: is else if i = j then i :: is else i :: addListener j is

/-- Slot j joins player n: PLAYING, its remaining listens its listen count, its underrun mark the
player's total (R84). -/
def State.joinPlayer (s : State) (n : PlayerIx) (j : Slot) (p : Program) (ann : AnnFields) : State :=
  (s.enter j (.playing p ann n ann.listens (s.player n).underruns)).modifyPlayer n
    (fun pl => { pl with listeners := addListener j pl.listeners })

/-- A join from WAITING: the entry leaves the queue and the filler is released (R84, R114). -/
def State.joinWaiting (s : State) (n : PlayerIx) (j : Slot) : State :=
  match (s.slot j).state with
  | .waiting p ann filler => (s.leaveWaiting j filler).joinPlayer n j p ann
  | _ => s.leaveQueue j

/-- A player bound for p at an enqueue, where no fresh player of p exists and one is FREE (R145). -/
def State.bindForArrival (s : State) (p : Program) : State :=
  if s.hasFreshPlayer p then s
  else match s.freePlayerNumber with
    | some n => s.bindPlayer n p
    | none => s

/-- The enqueue: the entry appended with its deadline, WAITING entered, the filler taken (R83, R144). -/
def State.enqueueSlot (s : State) (j : Slot) (p : Program) (ann : AnnFields) : State :=
  let e : WaitEntry :=
    { slot := j, program := p, priority := ann.priority
      deadline := deadlineAfter s.frame (ann.maxWait.toNat * 800) }
  let t := (s.withQueue (s.queue ++ [e])).enter j (.waiting p ann none)
  match ann.filler with
  | some f => t.takeFiller j f
  | none => t

/-- The arrival decision: join, WAIT_TIMEOUT, QUEUE_FULL, or enqueue (R144). -/
def State.arrive (s : State) (j : Slot) (p : Program) (ann : AnnFields) : State :=
  match s.openPlayer p with
  | some n => s.joinPlayer n j p ann
  | none =>
    if ann.maxWait = 0 then s.overflowSlot j p .waitTimeout 0
    else if queueLimit ≤ s.queue.length then s.overflowSlot j p .queueFull 0
    else (s.enqueueSlot j p ann).bindForArrival p

/-- A slot's descriptor fetch completes: with a matching generation it is checked and the slot faulted
or placed (R79 to R81); otherwise it is discarded (R73). -/
def State.attachDone (s : State) (j : Slot) (p : Program) (gen : Option Generation) (fresh : Bool)
    (ws : List Word) : State :=
  if gen = some (s.slot j).gen ∧ (s.slot j).state = .attaching p then
    match checkCopy (some (highwayOf j)) ws with
    | some cause => s.faultSlot j p cause
    | none => if isTone ws then s.placeTone j p fresh ws else s.arrive j p (annFieldsOf ws)
  else s

/-! ### Completion (R87) -/

/-- The attach of a program the part begins itself, or IDLE where there is none (R82, R87). -/
def State.attachOrIdle (s : State) (j : Slot) (next : Option Program) : State :=
  match next with
  | some p => s.attach j p
  | none => s.enter j .idle

/-- The underrun count of a record is clamped to 65 535 (R118). -/
def clampCount (c : Frame) : Word := if 65535 < c.toNat then 65535 else c.setWidth 16

/-- Listener j of player n completes: it leaves the set, ANN_DONE is handed over with the underrun
count and the fault, and its after program is attached or IDLE entered (R87, R118, R119, R121). -/
def State.completeListener (s : State) (n : PlayerIx) (cause : Option PlaylistFault) (j : Slot) : State :=
  let t := s.modifyPlayer n (fun pl => { pl with listeners := pl.listeners.filter (fun i => i != j) })
  match (s.slot j).state with
  | .playing p ann _ _ mark =>
    let c := (s.player n).underruns - mark
    (t.takeOutcome
      { kind := .annDone, source := slotSource j, program := p
        detail := match cause with
          | some f => f.code
          | none => 0
        impaired := c != 0, faulted := cause.isSome, superseded := false
        stamp := s.frame, underruns := clampCount c }).attachOrIdle j ann.after
  | _ => t

/-! ### Dwell expiry (R88) -/

/-- The detail of DWELL_END: the next program, or FFFFh where absent (R88). -/
def dwellDetail : Option Program → Word
  | some q => wordOfNat q.val
  | none => 0xFFFF

/-- Slot j's dwell expiry, where it is TONE with a passed deadline (R88). -/
def State.takeDwell (s : State) (j : Slot) : State :=
  match (s.slot j).state with
  | .tone p g (some d) =>
    if deadlinePassed s.frame d.deadline then
      let t := s.slotOutcome j .dwellEnd p (dwellDetail d.next)
      match d.next with
      | some q => (t.releaseGenerator g).attach j q
      | none => t.setSlot j { t.slot j with state := .tone p g none }
    else s
  | _ => s

/-! ### Wait timeout (R148) -/

/-- The oldest entry whose deadline is passed (R148). -/
def State.timedOut (s : State) : Option WaitEntry :=
  s.queue.find? (fun e => deadlinePassed s.frame e.deadline)

/-- The oldest passed wait deadline: the entry leaves, the slot goes to OVERFLOW with WAIT_TIMEOUT and
its max wait (R148). -/
def State.takeTimeout (s : State) : State :=
  match s.timedOut with
  | none => s
  | some e => match (s.slot e.slot).state with
    | .waiting p ann filler =>
      (s.leaveWaiting e.slot filler).overflowSlot e.slot p .waitTimeout (ann.maxWait.setWidth 16)
    | _ => s.leaveQueue e.slot

/-! ### The code heard (R72) -/

/-- The code slot j hears at this instant (R72). -/
def State.heardCode (s : State) (j : Slot) : Byte :=
  match (s.slot j).state.source with
  | .silent => idleCode
  | .generator g => (s.generator g).code
  | .player n => (s.player n).code

end Sys2Proof.Machine
end

