-- ==== Sys2Proof/Machine/Walker.lean ====
section
/-! DEFINITION. Machine/Walker.lean: the playlist walker of a player (spec/09): reaching, promoting and
taking steps, placing chunks. -/

namespace Sys2Proof.Machine

/-- Player n's walker changed. -/
def State.modifyWalker (s : State) (n : PlayerIx) (f : Walker → Walker) : State :=
  s.modifyPlayer n (fun pl => { pl with walker := f pl.walker })

/-- A half of a player replaced. -/
def Player.setHalf (pl : Player) (h : HalfName) (x : Half) : Player :=
  match h with
  | .a => { pl with halfA := x }
  | .b => { pl with halfB := x }

/-- The announcement store's base AB of the accepted record. -/
def State.storeBase (s : State) : Addr :=
  match s.boot.accepted with
  | some r => r.ab
  | none => 0

/-- The announcement store's size AS of the accepted record. -/
def State.storeSize (s : State) : Nat :=
  match s.boot.accepted with
  | some r => r.size.toNat
  | none => 0

/-- The playlist start of player n's copy. -/
def Player.start (pl : Player) : Nat :=
  match pl.copy with
  | some c => c.start.toNat
  | none => 0

/-- The bank of an offset: the offset div 65536 (R128, R134). -/
def bankOf (offset : Nat) : Byte := BitVec.ofNat 8 (offset / 65536)

/-! ### Reaching a step (R129) -/

/-- The fault of a step at an offset that cannot be read: odd, or beyond the store (R129). Of an offset that is both,
R129 and Table 9-3 do not say which: odd is tested first (DESIGN CHOICE, unsafe, log 27). -/
def stepFault (storeSize offset : Nat) : Option PlaylistFault :=
  if offset % 2 = 1 then some .badStep
  else if storeSize < offset + 8 then some .outOfStore
  else none

/-- The walker's next entry set to the step at an offset: UNREACHABLE, or FETCHING with one step fetch
of 4 words queued (R129). -/
def State.setNext (s : State) (n : PlayerIx) (offset : Nat) : State :=
  match stepFault s.storeSize offset with
  | some cause => s.modifyWalker n (fun w => { w with next := .unreachable offset cause })
  | none =>
    (s.modifyWalker n (fun w => { w with next := .fetching offset })).enqueue
      (ownRead (.stepFetch n) (s.player n).gen (s.storeBase + BitVec.ofNat 24 offset) 4)

/-! ### Promotion (R130) -/

/-- The seven kinds of step (R174). -/
inductive StepKind where
  | play
  | gap
  | join
  | call
  | ret
  | bank
  | endPass
  deriving DecidableEq, Repr

/-- The kind of a step; any other value is not a kind (R174). -/
def stepKind (st : PlaylistStep) : Option StepKind :=
  match st.kind.toNat with
  | 1 => some .play
  | 2 => some .gap
  | 3 => some .join
  | 4 => some .call
  | 5 => some .ret
  | 6 => some .bank
  | 7 => some .endPass
  | _ => none

/-- The kinds that check 4 bounds: those that yield no sound (R138). -/
def StepKind.isSilent : StepKind → Bool
  | .play => false
  | .gap => false
  | .join => true
  | .call => true
  | .ret => true
  | .bank => true
  | .endPass => true

/-- The checks of Table 9-2 in order: the fault of the first that fails (R130). -/
def promotionFault (storeSize : Nat) (w : Walker) (st : PlaylistStep) : Option PlaylistFault :=
  match stepKind st with
  | none => some .badStep
  | some k =>
    if (k = .play ∨ k = .gap) ∧ st.count = 0 then some .zeroCount
    else if k = .play ∧ storeSize < referenceOf st w.bank + st.count.toNat then some .outOfStore
    else if k.isSilent = true ∧ 15 ≤ w.zeroTime then some .noAudio
    else if k = .call ∧ 4 ≤ w.stack.length then some .stackFull
    else none

/-- The step at an offset taken at its promotion: the walker after it, and the successor's offset
(R131, R133 to R137). `start` is the playlist start. -/
def takeStep (start : Nat) (w : Walker) (offset : Nat) (st : PlaylistStep) : StepKind → Walker × Nat
  | .play =>
    ({ w with current := some (.play offset (referenceOf st w.bank) st.count.toNat) }, offset + 8)
  | .gap => ({ w with current := some (.gap offset st.count.toNat) }, offset + 8)
  | .join => ({ w with current := some (.join offset), zeroTime := w.zeroTime + 1 }, offset + 8)
  | .bank => ({ w with bank := lowByte st.ref, zeroTime := w.zeroTime + 1 }, offset + 8)
  | .call =>
    ({ w with
        stack := { offset := offset + 8, savedBank := if st.long then some w.bank else none } :: w.stack
        bank := if st.long then bankOf (referenceOf st w.bank) else w.bank
        zeroTime := w.zeroTime + 1 },
      referenceOf st w.bank)
  | .ret =>
    match w.stack with
    | e :: es =>
      ({ w with
          stack := es
          bank := match e.savedBank with
            | some b => b
            | none => w.bank
          zeroTime := w.zeroTime + 1 },
        e.offset)
    | [] => ({ w with current := some (.endPass offset), zeroTime := w.zeroTime + 1 }, start)
  | .endPass => ({ w with current := some (.endPass offset), zeroTime := w.zeroTime + 1 }, start)

/-- The walker halts with a fault to place; the step concerned is not taken (R139). -/
def Walker.halt (w : Walker) (cause : PlaylistFault) : Walker :=
  { w with state := .halting cause, current := none, next := .empty }

/-- The next entry promoted (R130); none where it cannot be. -/
def State.promote (s : State) (n : PlayerIx) : Option State :=
  let w := (s.player n).walker
  match w.next with
  | .empty => none
  | .fetching _ => none
  | .unreachable _ cause => some (s.modifyWalker n (fun w => w.halt cause))
  | .held offset st =>
    match promotionFault s.storeSize w st, stepKind st with
    | none, some k =>
      let r := takeStep (s.player n).start w offset st k
      some ((s.modifyWalker n (fun _ => r.1)).setNext n r.2)
    | some cause, _ => some (s.modifyWalker n (fun w => w.halt cause))
    | none, none => none

/-! ### Placing (R131 to R133, R137, R139) -/

/-- The length of a PLAY's next chunk: the lesser of the remaining count and 64 less the reference
mod 2 (R131). -/
def chunkLength (ref remaining : Nat) : Nat := min remaining (64 - ref % 2)

/-- A chunk placed FULL into the next half; the next half changes (R111, R133). -/
def Player.placeFull (pl : Player) (c : Chunk) (w : Walker) : Player :=
  { pl.setHalf pl.walker.nextHalf (.full c) with walker := { w with nextHalf := pl.walker.nextHalf.other } }

/-- What the current step or the pending fault places into the next half, which is EMPTY; a SAMPLES
chunk is placed FILLING and its fill queued. None where nothing stands to be placed (R140). -/
def State.place (s : State) (n : PlayerIx) : Option State :=
  let pl := s.player n
  let w := pl.walker
  match w.state, w.current with
  | .walking, some (.play offset ref remaining) =>
    let len := chunkLength ref remaining
    let rest := remaining - len
    some ((s.setPlayer n
        { pl.setHalf w.nextHalf (.filling ref len) with
          walker := { w with
            current := if rest = 0 then none else some (.play offset (ref + len) rest)
            zeroTime := 0
            nextHalf := w.nextHalf.other } }).enqueue
      (ownRead (.fill n w.nextHalf) pl.gen (s.storeBase + BitVec.ofNat 24 (ref - ref % 2)) (fillWords ref len)))
  | .walking, some (.gap _ count) =>
    some (s.setPlayer n (pl.placeFull (.silence count) { w with current := none, zeroTime := 0 }))
  | .walking, some (.join _) =>
    some (s.setPlayer n (pl.placeFull (.mark .join) { w with current := none }))
  | .walking, some (.endPass _) =>
    some (s.setPlayer n
      (pl.placeFull (.mark .endPass) { w with current := none, stack := [], bank := bankOf pl.start }))
  | .halting cause, _ =>
    some (s.setPlayer n (pl.placeFull (.mark (.fault cause)) { w with state := .stopped, current := none }))
  | _, _ => none

/-! ### Moving (R140) -/

/-- One move of the walker: it places where the next half is EMPTY and something stands to be placed;
with no current step and WALKING it promotes; none where neither applies (R140). -/
def State.walkOnce (s : State) (n : PlayerIx) : Option State :=
  let pl := s.player n
  if pl.half pl.walker.nextHalf = .empty ∧ (s.place n).isSome = true then s.place n
  else if pl.walker.state = .walking ∧ pl.walker.current = none then s.promote n
  else none

/-- The moves of one event repeated until neither applies. One event can place into two halves and
promote a held step and then an unreachable one, so 8 moves are more than any event takes (log 16). -/
def State.walk (n : PlayerIx) : Nat → State → State
  | 0, s => s
  | k + 1, s => match s.walkOnce n with
    | none => s
    | some t => State.walk n k t

/-- The bound on the moves of one event (log 16). -/
def walkBound : Nat := 8

/-- The walker's advance at an event of R140. -/
def State.advanceWalker (s : State) (n : PlayerIx) : State := State.walk n walkBound s

/-- The walker's start at a fresh binding (R128); it then advances (R140). -/
def State.startWalker (s : State) (n : PlayerIx) : State :=
  ((s.modifyWalker n (fun _ =>
      { Walker.reset with state := .walking, bank := bankOf (s.player n).start })).setNext n
    (s.player n).start).advanceWalker n

end Sys2Proof.Machine
end

