-- ==== Sys2Proof/Machine/Players.lean ====
section
/-! DEFINITION. Machine/Players.lean: the announcement players (spec/08): priming, join points, output,
pass ends, faults, and the completions of their reads. -/

namespace Sys2Proof.Machine

/-! ### Join points (R114) -/

/-- A join point of player n: a fresh binding takes every waiting entry for its program in queue order
and opens its window; a stale one takes none and its frames left become 0 (R114). -/
def State.joinPoint (s : State) (n : PlayerIx) : State :=
  match (s.player n).fresh, (s.player n).program with
  | some true, some p =>
    ((s.waitersFor p).foldl (fun t j => t.joinWaiting n j) s).modifyPlayer n (fun pl =>
      let frames := match pl.copy with
        | some c => c.window.toNat * 80
        | none => 0
      { pl with framesLeft := frames, windowOpen := frames != 0 })
  | _, _ => s.modifyPlayer n (fun pl => { pl with framesLeft := 0, windowOpen := false })

/-! ### Marks at the head of output (R119 to R121) -/

/-- Slot j's remaining listens decremented (R119). -/
def State.countListen (s : State) (j : Slot) : State :=
  match (s.slot j).state with
  | .playing p ann n r mark => s.setSlot j { s.slot j with state := .playing p ann n (r - 1) mark }
  | _ => s

/-- Slot j has heard its last pass. -/
def State.heardAll (s : State) (j : Slot) : Bool :=
  match (s.slot j).state with
  | .playing _ _ _ r _ => r == 0
  | _ => false

/-- Player n plays on, or goes FREE where no listener is left and either it is stale or no entry for its
program waits (R120). -/
def State.playOn (s : State) (n : PlayerIx) : State :=
  let pl := s.player n
  let waited := match pl.program with
    | some p => pl.fresh == some true && s.hasWaiter p
    | none => false
  if pl.listeners = [] ∧ waited = false then s.releasePlayer n else s.joinPoint n

/-- A pass end: every listener's remaining listens fall by 1, those at 0 complete in increasing order,
and the player plays on or goes FREE (R119, R120). -/
def State.passEnd (s : State) (n : PlayerIx) : State :=
  let t := (s.player n).listeners.foldl State.countListen s
  let done := (t.player n).listeners.filter t.heardAll
  (done.foldl (fun u j => u.completeListener n none j) t).playOn n

/-- A FAULT mark: every listener completes with FAULTED and the player goes FREE (R121). -/
def State.faultMark (s : State) (n : PlayerIx) (cause : PlaylistFault) : State :=
  ((s.player n).listeners.foldl (fun t j => t.completeListener n (some cause) j) s).releasePlayer n

/-- A mark taken in RUNNING (R116 step 2). -/
def State.takeMark (s : State) (n : PlayerIx) : MarkKind → State
  | .join => s.joinPoint n
  | .endPass => s.passEnd n
  | .fault cause => s.faultMark n cause

/-- Output has taken the whole of the current half's chunk: the half is EMPTY, the current half is the
other, the cursor 0, and the walker is told (R111, R116). -/
def State.emptyCurrent (s : State) (n : PlayerIx) : State :=
  (s.modifyPlayer n (fun pl =>
    { pl.setHalf pl.current .empty with current := pl.current.other, cursor := 0 })).advanceWalker n

/-- The marks at the head of output, taken while the player stays RUNNING (R116 step 2). One event can
meet the marks of two halves, a current step, a held step and a fault: 8 is more (log 16). -/
def State.takeMarks (n : PlayerIx) : Nat → State → State
  | 0, s => s
  | k + 1, s =>
    match (s.player n).state, (s.player n).half (s.player n).current with
    | .running, .full (.mark m) =>
      let t := s.takeMark n m
      if (t.player n).state = .running then State.takeMarks n k (t.emptyCurrent n) else t
    | _, _ => s

/-! ### Output at a frame mark (R116, R117) -/

/-- Frames left counted down; its fall to 0 is JOIN_WINDOW_CLOSE's to close (R115, R116 step 1, log 4). -/
def Player.countWindow (pl : Player) : Player := { pl with framesLeft := pl.framesLeft - 1 }

/-- One code from sound, from silence, or an underrun frame (R116 step 3, R117). -/
def Player.output (pl : Player) : Player :=
  match pl.half pl.current with
  | .full (.samples codes) =>
    { pl with
      code := rescaleCode (codes.getD pl.cursor idleCode) (match pl.copy with
        | some c => c.attenuation
        | none => 0)
      cursor := pl.cursor + 1 }
  | .full (.silence _) => { pl with code := idleCode, cursor := pl.cursor + 1 }
  | _ => { pl with code := idleCode, underruns := pl.underruns + 1 }

/-- The cursor has reached the length of the current half's chunk (R116 step 4). -/
def Player.chunkSpent (pl : Player) : Bool :=
  match pl.half pl.current with
  | .full c => decide (c.frames ≤ pl.cursor)
  | .empty => false
  | .filling _ _ => false

/-- Steps 3 and 4 of R116. -/
def State.outputFrame (s : State) (n : PlayerIx) : State :=
  let t := s.modifyPlayer n Player.output
  if (t.player n).chunkSpent then t.emptyCurrent n else t

/-- Player n's handling of a frame mark; a player not RUNNING takes no step (R116). -/
def State.markPlayer (s : State) (n : PlayerIx) : State :=
  if (s.player n).state = .running then
    let t := State.takeMarks n walkBound (s.modifyPlayer n Player.countWindow)
    if (t.player n).state = .running then t.outputFrame n else t
  else s

/-- JOIN_WINDOW_CLOSE: where frames left have reached 0 the player is closed to arrivals (R115). -/
def State.closeWindow (s : State) (n : PlayerIx) : State :=
  if (s.player n).framesLeft = 0 then s.modifyPlayer n (fun pl => { pl with windowOpen := false }) else s

/-! ### Priming (R113) -/

/-- The first pass start: RUNNING with cursor 0, a join point, after which a player with no listener goes
FREE; where the chunk is a FAULT mark and a slot joined, the fault follows (R113, R114). -/
def State.firstPassStart (s : State) (n : PlayerIx) (fault : Option PlaylistFault) : State :=
  let t := (s.modifyPlayer n (fun pl => { pl with state := .running, cursor := 0 })).joinPoint n
  if (t.player n).listeners = [] then t.releasePlayer n
  else match fault with
    | some cause => t.faultMark n cause
    | none => t

/-- A PRIMING player takes FULL chunks at once: JOIN and END marks are passed over, the first audible
chunk or a FAULT mark is the first pass start (R113; the bound as in log 16). -/
def State.takePriming (n : PlayerIx) : Nat → State → State
  | 0, s => s
  | k + 1, s =>
    match (s.player n).state, (s.player n).half (s.player n).current with
    | .priming, .full (.mark (.fault cause)) => s.firstPassStart n (some cause)
    | .priming, .full (.mark _) => State.takePriming n k (s.emptyCurrent n)
    | .priming, .full _ => s.firstPassStart n none
    | _, _ => s

/-- What follows where a half of player n may have become FULL outside a frame mark (R113). -/
def State.primed (s : State) (n : PlayerIx) : State := State.takePriming n walkBound s

/-! ### Completions of a player's reads -/

/-- A failed binding: the player goes FREE, then every waiting entry for p faults in queue order, then
the allocator runs (R109). -/
def State.bindingFailed (s : State) (n : PlayerIx) (p : Program) : State :=
  ((s.waitersFor p).foldl (fun t j =>
      match (t.slot j).state with
      | .waiting q _ filler => (t.leaveWaiting j filler).faultSlot j q .binding
      | _ => t.leaveQueue j)
    (s.freePlayer n)).allocate n

/-- The binding fetch of player n completes (R109, R110): a failing copy fails the binding; a stale one
frees the player; a fresh one is taken and the walker starts. -/
def State.bindingDone (s : State) (n : PlayerIx) (p : Program) (gen : Option Generation) (fresh : Bool)
    (ws : List Word) : State :=
  if gen = some (s.player n).gen ∧ (s.player n).state = .priming ∧ (s.player n).fresh = none then
    match checkAnnouncement ws with
    | some _ => s.bindingFailed n p
    | none =>
      if fresh then
        ((s.modifyPlayer n (fun pl =>
          { pl with fresh := some true, copy := some (playerCopyOf ws) })).startWalker n).primed n
      else s.releasePlayer n
  else s

/-- A step fetch of player n completes: the next entry is HELD, and the walker advances (R129, R140); in
HALTING it takes no answer (R139). -/
def State.stepDone (s : State) (n : PlayerIx) (gen : Option Generation) (ws : List Word) : State :=
  match (s.player n).walker.state, (s.player n).walker.next with
  | .walking, .fetching offset =>
    if gen = some (s.player n).gen then
      ((s.modifyWalker n (fun w => { w with next := .held offset (parseStep ws) })).advanceWalker n).primed n
    else s
  | _, _ => s

/-- A fill of player n's half completes: the half is FULL with the chunk's codes (R132). -/
def State.fillDone (s : State) (n : PlayerIx) (h : HalfName) (gen : Option Generation) (ws : List Word) :
    State :=
  match (s.player n).half h with
  | .filling first length =>
    if gen = some (s.player n).gen then
      (s.modifyPlayer n (fun pl => pl.setHalf h (.full (.samples (codesOf first length ws))))).primed n
    else s
  | _ => s

/-! ### Program stores (R124) -/

/-- A program store into p at player n: a PRIMING player with its copy in hand goes FREE; a fresh RUNNING
one is made stale and closed; a player whose fetch is not complete is not reached (R124). -/
def State.stalePlayer (s : State) (p : Program) (n : PlayerIx) : State :=
  let pl := s.player n
  if pl.program = some p ∧ pl.fresh = some true then
    match pl.state with
    | .priming => s.releasePlayer n
    | .running => s.setPlayer n { pl with fresh := some false, framesLeft := 0, windowOpen := false }
    | .free => s
  else s

end Sys2Proof.Machine
end

