-- ==== Sys2Proof/Machine/Boot.lean ====
section
/-! DEFINITION. Machine/Boot.lean: the Boot Loader (spec/02): the stages of a boot, the entry to RUN or
BYPASS, and the reload. -/

namespace Sys2Proof.Machine

/-- The boot loader's state changed. -/
def State.modifyBoot (s : State) (f : BootLoader → BootLoader) : State := s.withBoot (f s.boot)

/-! ### Stages (Table 2-2) -/

/-- A status word write queued, at offset 62 of the record (R171, R176). -/
def State.queueStatus (s : State) (code : StatusCode) : State :=
  s.enqueue (ownWrite (.statusWrite code) (BitVec.ofNat 24 (bootBase s.boot.bootsel + 62)) [code.code])

/-- A stage entered with its status write: LOADING, RUNNING or a failure (R17, R21, R22). -/
def State.statusStage (s : State) (stage : BootStage) (code : StatusCode) : State :=
  (s.modifyBoot (fun b => { b with stage := some stage })).queueStatus code

/-- The LOADING write is complete: the record read of 32 words is issued (R17). -/
def State.loadingWritten (s : State) : State :=
  (s.modifyBoot (fun b => { b with stage := some .record })).enqueue
    (ownRead .bootRead s.boot.bootGen (BitVec.ofNat 24 (bootBase s.boot.bootsel)) 32)

/-- The record read is complete: the working copy is formed and the record checks applied (R17, R18). -/
def State.recordRead (s : State) (gen : Option Generation) (ws : List Word) : State :=
  if gen = some s.boot.bootGen then
    let r := parseBootRecord ws
    let t := s.modifyBoot (fun b => { b with working := some r })
    match recordCheck s.boot.bootsel r with
    | some code => t.statusStage .failing code
    | none =>
      (t.modifyBoot (fun b => { b with stage := some .congestion })).enqueue
        (ownRead .congestionFetch s.boot.bootGen (descriptorAddr r.pb r.congestion.toNat) 16)
  else s

/-- Record k of the new ring cleared: one write of 8 zero words (R20). -/
def State.clearRecord (s : State) (rb : Addr) (k : Nat) : State :=
  s.enqueue (ownWrite (.ringClear k) (rb + BitVec.ofNat 24 (16 * k)) (List.replicate 8 0))

/-- The ring of the working copy is not the accepted one (R20, R167). -/
def BootLoader.ringMoves (b : BootLoader) (w : BootRecord) : Bool :=
  match b.accepted with
  | none => true
  | some a => a.rb != w.rb

/-- The congestion fetch is complete: checks 1 to 4 and the type TONE, then the ring clearing where the
ring moves, or the RUNNING write (R19, R20). Check 1 was made as check 7 of the record. -/
def State.congestionFetched (s : State) (gen : Option Generation) (ws : List Word) : State :=
  match s.boot.working with
  | none => s
  | some w =>
    if gen = some s.boot.bootGen then
      match checkTone none ws with
      | some _ => s.statusStage .failing .badCongestion
      | none =>
        let t := s.modifyBoot (fun b => { b with congestionCopy := some (toneCopyOf ws) })
        if s.boot.ringMoves w then
          (t.modifyBoot (fun b => { b with stage := some .clearing })).clearRecord w.rb 0
        else t.statusStage .running .running
    else s

/-- One ring clearing write is complete: the next is issued, or after the 512th the RUNNING write (R20). -/
def State.recordCleared (s : State) (k : Nat) : State :=
  match s.boot.working with
  | none => s
  | some w => if k + 1 < 512 then s.clearRecord w.rb (k + 1) else s.statusStage .running .running

/-- The congestion program of a record, as the program TG15 serves. -/
def BootRecord.congestionProgram (r : BootRecord) : Program := Fin.ofNat 256 r.congestion.toNat

/-- TG15 bound at the entry to RUN: fresh, count 0, initial values (R21, R93). -/
def State.bindCongestion (s : State) (c : Program) (copy : Option ToneCopy) : State :=
  match copy with
  | some x => s.bindGenerator congestionGen c x true 0
  | none => s

/-- The RUNNING write is complete, one event: the ring restarted where it moves (R167), the accepted
record replaced, RUN entered with the ranges it gives, TG15 bound, RELOADED handed over (R21). -/
def State.enterRun (s : State) : State :=
  match s.boot.working with
  | none => s
  | some w =>
    let t := if s.boot.ringMoves w then s.restartRing else s
    let u := (t.modifyBoot (fun b => { b with
      device := .run
      accepted := some w
      working := none
      congestionCopy := none
      stage := none })).withPairing none
    (u.bindCongestion w.congestionProgram s.boot.congestionCopy).deviceOutcome .reloaded 0 0

/-- A failure write is complete: BYPASS; the working copy and any descriptor copy are discarded, the rest
stays as before the boot (R22). -/
def State.enterBypass (s : State) : State :=
  s.modifyBoot (fun b => { b with device := .bypass, working := none, congestionCopy := none, stage := none })

/-! ### Reload (R23, R24, R160) -/

/-- A report write is kept for the drain; every other own request goes (R160). -/
def keepForDrain (r : OwnRequest) : Option OwnRequest :=
  if r.kind.isReport then some { r with drain := true } else none

/-- The request queue at a reload: reads withdrawn or stopped, ring clear and status writes abandoned,
report writes kept for the drain (R16, R160). -/
def Arbiter.abandon (m : Arbiter) : Arbiter :=
  { queued := m.queued.filterMap keepForDrain
    chosen := m.chosen.bind keepForDrain
    underWay := m.underWay.bind keepForDrain }

/-- A context at a reload: IDLE with shadow 0000h; its generation advances where it was not IDLE (R91). -/
def SlotContext.reload (c : SlotContext) : SlotContext :=
  { state := .idle, shadow := 0, gen := if c.state = .idle then c.gen else nextGeneration c.gen none }

/-- A player at a reload: its values after RESET; its binding generation advances where it was not FREE
(R106). -/
def Player.reload (pl : Player) : Player :=
  { Player.reset with gen := if pl.state = .free then pl.gen else nextGeneration pl.gen none }

/-- The serving blocks at a reload taken in RUN or BYPASS (R23, R91, R92, R106, R142). -/
def State.resetServing (s : State) : State :=
  ((((s.withSlots (mapBank SlotContext.reload s.slots)).withGens
      (Vector.replicate 16 Generator.reset)).withRefetch { s.refetch with busy := false }).withPlayers
    (mapBank Player.reload s.players)).withQueue []

/-- A write of the drain is still to complete (R16). -/
def State.drainLeft (s : State) : Bool := s.requestsHeld.any (fun r => r.drain)

/-- The boot's first stage: the drain where it holds a write, or else LOADING (R16). -/
def State.beginBoot (s : State) : State :=
  if s.drainLeft then s.modifyBoot (fun b => { b with stage := some .drain })
  else s.statusStage .loading .loading

/-- A reload request (R23, R24): the requests abandoned, the serving blocks reset unless the part was in
BOOT already, held outcomes discarded, the pairing invalid, and a boot begun with a new generation. -/
def State.reload (s : State) : State :=
  let t := s.withMra s.mra.abandon
  let u := if s.boot.device = .boot then t else t.resetServing
  ((u.discardHeld.withPairing none).modifyBoot (fun b => { b with
    device := .boot
    working := none
    congestionCopy := none
    bootGen := b.bootGen + 1 })).beginBoot

/-- A report write is complete; after the last of a drain the LOADING write is queued (R16, R164). -/
def State.reportDone (s : State) (src : Source) : State :=
  let t := s.reportWritten src
  if t.boot.stage = some .drain ∧ t.drainLeft = false then t.statusStage .loading .loading else t

end Sys2Proof.Machine
end

