-- ==== Sys2Proof/WellFormed.lean ====
section
/-! DEFINITION. WellFormed.lean: which terms of the command syntax name an event the spec knows.
`exec` has a meaning for ill-formed terms too; the checks say what a sender sends. -/

namespace Sys2Proof

/-- The strobes select the low byte, the high byte or both (spec/01 section 1.1). -/
def Strobes.wellFormed (b : Strobes) : Bool := b.low || b.high

/-- A task is a block's whole handling of the mark, which it takes once (R36). -/
def MarkTask.isBlock : MarkTask → Bool
  | .tones => true
  | .player _ => true
  | .dwell _ => false
  | .wait => false

/-- No block is named twice in an order (R36). -/
def orderWellFormed (order : List MarkTask) : Bool :=
  decide (order.filter MarkTask.isBlock).Nodup

/-- The checks on a command. -/
def Instr.wellFormed : Instr → Bool
  | .reset _ => true
  | .connectionRead _ b _ order => b.wellFormed && orderWellFormed order
  | .virtualRead _ b => b.wellFormed
  | .passingRequest r => r.strobes.wellFormed
  | .passingCompletion _ => true
  | .adoptionCheck _ => true
  | .connectionStore => true
  | .programStore => true
  | .consumerStore => true
  | .commandStore => true
  | .windowExpiry order => orderWellFormed order
  | .flywheelExpiry order => orderWellFormed order
  | .cadenceStepEnd _ => true
  | .joinWindowClose _ => true
  | .dwellExpiry _ => true
  | .waitTimeout => true
  | .loadingWriteComplete => true
  | .recordReadComplete _ => true
  | .congestionFetchComplete _ => true
  | .ringClearWriteComplete => true
  | .runningWriteComplete => true
  | .failureWriteComplete => true
  | .attachFetchComplete _ => true
  | .fillerFetchComplete _ => true
  | .refetchComplete _ => true
  | .bindingFetchComplete _ => true
  | .stepFetchComplete _ => true
  | .fillComplete _ => true
  | .reportWriteComplete => true
  | .burstWordComplete _ => true
  | .ownBurstStart => true

end Sys2Proof
end

