-- ==== Sys2Proof/Machine/Frames.lean ====
section
/-! DEFINITION. Machine/Frames.lean: the Frame Monitor (spec/03): the interval timer, marks, the lock
machine, expiries, the passing of time, and what a mark drives in the blocks (R36). -/

namespace Sys2Proof.Machine

/-- The Frame Monitor changed. -/
def State.modifyFm (s : State) (f : FrameMonitor → FrameMonitor) : State := s.withFm (f s.fm)

/-- `n` periods counted on the interval timer, none of them past an expiry (R28). -/
def State.count (s : State) (n : Nat) : State := s.modifyFm (fun m => { m with timer := m.timer.map (· + n) })

/-! ### What a frame mark drives (R36) -/

/-- A block's handling of the present mark. -/
def State.runTask (s : State) : MarkTask → State
  | .tones => s.markTones
  | .player n => s.markPlayer n
  | .dwell j => s.takeDwell j
  | .wait => s.takeTimeout

/-- The blocks that handle every mark, in the order taken where none is named (log 5). -/
def markBlocks : List MarkTask := .tones :: allPlayers.map .player

/-- A block's second naming in an order does nothing: it takes a mark once (R36). -/
def onceEach (order : List MarkTask) : List MarkTask :=
  order.foldl (fun acc t => if t.isBlock && acc.contains t then acc else acc ++ [t]) []

/-- The tasks of a mark: those named, then the blocks not named (log 5). -/
def schedule (order : List MarkTask) : List MarkTask :=
  onceEach order ++ markBlocks.filter (fun t => !order.contains t)

/-- A frame mark handed to the blocks (R36). -/
def State.handMark (s : State) (order : List MarkTask) : State := (schedule order).foldl State.runTask s

/-- The Frame Monitor's part of every mark: F advances and the timer restarts (R28, R29); the ends of
timers at this mark are now open (log 4). -/
def FrameMonitor.mark (m : FrameMonitor) : FrameMonitor :=
  { m with frame := m.frame + 1, timer := some 0, endsOpen := true }

/-! ### The ends of timers at a mark (log 4) -/

/-- The slots whose dwell deadline is passed (R88). -/
def State.dueDwells (s : State) : List Slot :=
  (List.finRange 256).filter (fun j =>
    match (s.slot j).state with
    | .tone _ _ (some d) => deadlinePassed s.frame d.deadline
    | _ => false)

/-- Every passed wait deadline, oldest first (R148). -/
def State.takeTimeouts : Nat → State → State
  | 0, s => s
  | k + 1, s => if s.timedOut.isSome then State.takeTimeouts k s.takeTimeout.finish else s

/-- The ends of the last mark's timers that their own commands have not taken: cadence steps, join
windows, dwells, waits (R98, R115, R88, R148; log 4). -/
def State.takeEnds (s : State) : State :=
  if s.fm.endsOpen then
    let a := s.modifyFm (fun m => { m with endsOpen := false })
    let b := allPlayers.foldl State.closeWindow (allGenerators.foldl State.endCadenceStep a)
    let c := b.dueDwells.foldl (fun t j => (t.takeDwell j).finish) b
    State.takeTimeouts c.queue.length c
  else s

/-! ### Engine marks (R27, R30, R31) -/

/-- The lock state, on-time count and miss count after an engine mark (Table 3-2). -/
def lockAfter (lock : LockState) (onTime misses : Nat) (i : Interval) : LockState × Nat × Nat :=
  match lock, i with
  | .locking, .onTime => if onTime = 0 then (.locking, 1, 0) else (.locked, 2, 0)
  | .locked, .onTime => (.locked, onTime, misses)
  | _, _ => (.locking, 0, 0)

/-- The interval of a mark; a timer with no value is not read (R28). -/
def FrameMonitor.interval (m : FrameMonitor) : Interval :=
  match m.timer with
  | some t => intervalOf t
  | none => .onTime

/-- The Frame Monitor's taking of an engine mark (R28 to R31). -/
def FrameMonitor.engineMark (m : FrameMonitor) : FrameMonitor :=
  let r := lockAfter m.lock m.onTime m.misses m.interval
  { m.mark with
    lock := r.1
    onTime := r.2.1
    misses := r.2.2
    stallReported := m.stallReported && r.1 != .locked }

/-- An engine mark relocks after a reported stall (R31). -/
def FrameMonitor.relocks (m : FrameMonitor) : Bool := m.stallReported && m.engineMark.lock == .locked

/-- An engine frame mark: the Frame Monitor takes it, FRAME_RELOCK is handed over where it relocks (log
14), and the mark is handed to the blocks (R30, R31, R36). -/
def State.engineMark (s : State) (order : List MarkTask) : State :=
  let t := s.modifyFm FrameMonitor.engineMark
  (if s.fm.relocks then t.deviceOutcome .frameRelock 0 0 else t).handMark order

/-! ### Expiries (R32 to R34) -/

/-- A flywheel mark with its new miss count: HOLDOVER, and a frame mark (R33, R34). -/
def State.flywheelMark (s : State) (misses : Nat) (order : List MarkTask) : State :=
  (s.modifyFm (fun m => { m.mark with lock := .holdover, misses := misses })).handMark order

/-- The interval timer stands at 533 periods: LOCKING gives up, LOCKED takes its first flywheel mark. A timer
short of 533 periods, or in a state that has no expiry there, gives nothing (R28, R32, R33, R35). -/
def State.windowExpired (s : State) (order : List MarkTask) : State :=
  if s.fm.atExpiry then
    match s.fm.lock with
    | .locking => s.modifyFm (fun m => { m with lock := .unlocked, onTime := 0, misses := 0 })
    | .locked => s.flywheelMark 1 order
    | .unlocked => s
    | .holdover => s
    | .stalled => s
  else s

/-- The stall: the third miss; no mark is taken, the flag is set and FRAME_STALL handed over (R34). -/
def State.stall (s : State) : State :=
  (s.modifyFm (fun m => { m with lock := .stalled, misses := 3, stallReported := true })).deviceOutcome .frameStall 0 0

/-- The interval timer stands at 512 periods in HOLDOVER: the second flywheel mark, or the stall. A timer short of
512 periods, or in another state, gives nothing (R28, R34, R35). -/
def State.flywheelExpired (s : State) (order : List MarkTask) : State :=
  if s.fm.atExpiry then
    match s.fm.lock with
    | .holdover => if s.fm.misses ≤ 1 then s.flywheelMark 2 order else s.stall
    | .locking => s
    | .locked => s
    | .unlocked => s
    | .stalled => s
  else s

/-! ### The passing of time (R28, R39) -/

/-- The expiry at which the timer stands, taken as time goes on: the blocks take its mark in the order of log 5,
and the ends of that mark's timers follow (logs 3, 4). -/
def State.expire (s : State) : State :=
  (match s.fm.lock with
    | .holdover => s.flywheelExpired []
    | .locking => s.windowExpired []
    | .locked => s.windowExpired []
    | .unlocked => s
    | .stalled => s).finish.takeEnds

/-- `n` REFCLK periods with at most `k` expiries among them: where the timer reaches its expiry count before the
last of them, the expiry is taken there and the rest is counted after it (R28). -/
def State.passTime : Nat → Nat → State → State
  | 0, n, s => s.count n
  | k + 1, n, s => match s.fm.untilExpiry with
    | none => s.count n
    | some r => if n ≤ r then s.count n else State.passTime k (n - r) (s.count r).expire

/-- `n` REFCLK periods pass. From LOCKED the third expiry is the stall, after which the timer counts on, so no time
holds more than three (R34; log 16). A timer that the last period brings to its expiry count stands there: the
expiry, or an engine mark of the same instant, may be taken first (R35; log 3). -/
def State.tick (s : State) (n : Nat) : State := State.passTime 3 n s

end Sys2Proof.Machine
end

