-- ==== Sys2Proof/Machine/BootCommands.lean ====
section
/-! DEFINITION. Machine/BootCommands.lean: the meanings of the completions of the boot sequence. Each takes
a completed own request of its kind; of another kind it names no event and nothing happens (log 8). -/

namespace Sys2Proof.Machine

/-- LOADING_WRITE_COMPLETE: the record read is issued (R17). -/
def execLoadingWriteComplete (s : State) : Host.Outcome State Fault Refusal :=
  .next (s.takeEnds.complete 0 fun r t => match r.kind with
    | .statusWrite .loading => some t.loadingWritten
    | _ => none)

/-- RECORD_READ_COMPLETE: the working copy is formed and checked (R17, R18). -/
def execRecordReadComplete (data : Word) (s : State) : Host.Outcome State Fault Refusal :=
  .next (s.takeEnds.complete data fun r t => match r.kind with
    | .bootRead => some (t.recordRead r.gen r.answer)
    | _ => none)

/-- CONGESTION_FETCH_COMPLETE: the congestion descriptor is checked and the boot goes on (R19, R20). -/
def execCongestionFetchComplete (data : Word) (s : State) : Host.Outcome State Fault Refusal :=
  .next (s.takeEnds.complete data fun r t => match r.kind with
    | .congestionFetch => some (t.congestionFetched r.gen r.answer)
    | _ => none)

/-- RING_CLEAR_WRITE_COMPLETE: the next record is cleared, or the RUNNING write queued (R20). -/
def execRingClearWriteComplete (s : State) : Host.Outcome State Fault Refusal :=
  .next (s.takeEnds.complete 0 fun r t => match r.kind with
    | .ringClear k => some (t.recordCleared k)
    | _ => none)

/-- RUNNING_WRITE_COMPLETE: the entry to RUN (R21, R167). -/
def execRunningWriteComplete (s : State) : Host.Outcome State Fault Refusal :=
  .next (s.takeEnds.complete 0 fun r t => match r.kind with
    | .statusWrite .running => some t.enterRun
    | _ => none)

/-- A status code of a failed boot (R18, R19). -/
def StatusCode.isFailure : StatusCode → Bool
  | .loading => false
  | .running => false
  | .badSignature => true
  | .badVersion => true
  | .badRegion => true
  | .badLimit => true
  | .badCongestion => true

/-- FAILURE_WRITE_COMPLETE: the entry to BYPASS (R22). -/
def execFailureWriteComplete (s : State) : Host.Outcome State Fault Refusal :=
  .next (s.takeEnds.complete 0 fun r t => match r.kind with
    | .statusWrite code => if code.isFailure then some t.enterBypass else none
    | _ => none)

end Sys2Proof.Machine
end

