-- ==== Sys2Proof/Machine/StoreBus.lean ====
section
/-! DEFINITION. Machine/StoreBus.lean: the Store Bus Interface (spec/01): arrivals, memory's completions
of passing requests, and the watched stores. -/

namespace Sys2Proof.Machine

/-- The master's request has not been ended (R1). -/
def State.outstanding (s : State) (m : Master) : Bool :=
  (match s.bus.port with
    | some (.passing r) => r.master == m
    | some .ownWord => false
    | none => false) || s.bus.waiting.any (fun r => r.master == m)

/-- An ending carried up the store bus to a master (R2). -/
def State.endTo (s : State) (m : Master) (e : Ending) : State :=
  match m with
  | .engine => s.withBus { s.bus with engineEnd := some e }
  | .callProcessor => s.withBus { s.bus with cpuEnd := some e }

/-- A request passed toward memory: behind those that arrived before it (R12). -/
def State.pass (s : State) (r : Request) : State := s.withBus { s.bus with waiting := s.bus.waiting ++ [r] }

/-! ### Arrivals (R5 to R8, R10) -/

/-- What the SBI makes of a request at its arrival (R5, Table 1-2). -/
inductive ArrivalClass where
  | connection (j : Slot)
  | answered
  | passed
  deriving DecidableEq, Repr

/-- The class of an arriving request: a read that lies both in the connection store and among the virtual
words is a connection read (R4, R5). -/
def State.arrivalClass (s : State) (r : Request) : ArrivalClass :=
  match r.master, r.dir with
  | .engine, .read => match s.connectionEntry r.addr with
    | some j => .connection j
    | none => if s.isVirtualWord r.addr then .answered else .passed
  | _, _ => .passed

/-- A virtual read answered at once: the paired slot's code, or the idle code; the pairing is left
invalid (R7). -/
def State.answerVirtual (s : State) : State :=
  (s.endTo .engine (.answer (speechWord (match s.pairing with
    | some j => s.heardCode j
    | none => idleCode)))).withPairing none

/-- A connection read of entry j arrives in RUN: the pairing is set, entry 0 is an engine frame mark, and
the read goes to memory (R6). -/
def State.connectionArrives (s : State) (j : Slot) (r : Request) (order : List MarkTask) : State :=
  let t := s.withPairing (some j)
  ((if j = 0 then t.engineMark order else t).pass r).finish

/-- The arrival of a request after `elapsed` REFCLK periods. A master presents none while its last is
outstanding, so such an arrival is no event (R1, log 6). -/
def State.arriveRequest (s : State) (r : Request) (elapsed : Nat) (order : List MarkTask) : State :=
  let t := s.tick elapsed
  if t.outstanding r.master then t
  else match t.arrivalClass r with
    | .connection j => t.connectionArrives j r order
    | .answered => t.answerVirtual
    | .passed => (t.pass r).finish

/-! ### Program stores (R64) -/

/-- A fetch of p under way with a word read gets the overtaken mark (R63, R64). -/
def OwnRequest.overtake (p : Program) (r : OwnRequest) : OwnRequest :=
  if r.kind.descriptor? = some p ∧ 1 ≤ r.done then { r with overtaken := true } else r

/-- The congestion program of the accepted record is p (R67). -/
def State.isCongestion (s : State) (p : Program) : Bool :=
  match s.boot.accepted with
  | some r => r.congestionProgram == p
  | none => false

/-- A program store into p reaches the fetch under way, the generators, the players, and TG15 where p is
the congestion program (R64, R67, R100, R124; the order of log 23). -/
def State.programTaken (s : State) (p : Program) : State :=
  let a := s.withMra { s.mra with underWay := s.mra.underWay.map (OwnRequest.overtake p) }
  let b := allPlayers.foldl (fun t n => t.stalePlayer p n) (a.staleGenerators p)
  if b.isCongestion p then b.startRefetch b.programBase p else b

/-! ### Memory's completions of passing requests (R2, R9) -/

/-- The blocks that take a store by a watch range (R4). -/
inductive StoreTaker where
  | connection
  | program
  | consumer
  deriving DecidableEq, Repr

/-- One block's taking of an accepted store, where it lies in that block's range (R4, R9). -/
def State.takeStore (r : Request) (data : Word) (s : State) : StoreTaker → State
  | .connection => match s.connectionEntry r.addr with
    | some j => s.connectionTaken j data r.strobes
    | none => s
  | .program => match s.programAt r.addr with
    | some p => s.programTaken p
    | none => s
  | .consumer => if s.isConsumerWord r.addr then s.consumerTaken data r.strobes else s

/-- The port freed by the completion of what it carried. -/
def State.freePort (s : State) : State := s.withBus { s.bus with port := none }

/-- Memory accepts a passing store: the store ends, and it is taken as a reload request alone where it is
to the command word, or else by the block of each range it lies in (R2, R4, R9). -/
def State.storeAccepted (s : State) (r : Request) (data : Word) (takers : List StoreTaker) : State :=
  let t := s.freePort.endTo r.master .stored
  (if t.isCommandWord r.addr then t.reload else takers.foldl (State.takeStore r data) t).finish

/-- Memory answers a passing read: the answer goes up unchanged, and the answer to a switching-engine read
of a connection entry goes to the adoption check in RUN (R2, R6, R76; log 9). -/
def State.readAnswered (s : State) (r : Request) (data : Word) : State :=
  let t := s.freePort.endTo r.master (.answer data)
  (match r.master, t.connectionEntry r.addr with
    | .engine, some j => t.adoptionChecked j data
    | _, _ => t).finish

/-- Memory's acceptance of the passing store on the port, its blocks in the order given (log 10). -/
def State.acceptStore (s : State) (takers : List StoreTaker) : State :=
  match s.bus.port with
  | some (.passing r) => match r.dir with
    | .store data => s.storeAccepted r data takers
    | .read => s
  | some .ownWord => s
  | none => s

/-- Memory's answer to the passing read on the port. -/
def State.answerRead (s : State) (data : Word) : State :=
  match s.bus.port with
  | some (.passing r) => match r.dir with
    | .read => s.readAnswered r data
    | .store _ => s
  | some .ownWord => s
  | none => s

/-- Memory's completion of the passing request on the port, whichever it is (R2). -/
def State.completePassing (s : State) (data : Word) : State :=
  match s.bus.port with
  | some (.passing r) => match r.dir with
    | .read => s.readAnswered r data
    | .store w => s.storeAccepted r w [.connection, .program, .consumer]
  | some .ownWord => s
  | none => s

end Sys2Proof.Machine
end

