-- ==== Sys2Proof/Machine/BusCommands.lean ====
section
/-! DEFINITION. Machine/BusCommands.lean: the meanings of RESET, the arrivals, memory's completions of
passing requests, and the words of an own burst. Each command but RESET first takes the ends of the
last mark's timers that are untaken (log 4). -/

namespace Sys2Proof.Machine

/-- RESET: every block at its reset values with the straps sampled, BOOT, and the first boot's LOADING
write queued (R3, R8, R14, R15, R26, R69, R70, R92, R106, R127, R142, R154, R168). -/
def execReset (bootsel : Byte) (s : State) : Host.Outcome State Fault Refusal :=
  .next (State.released bootsel s.pending)

/-- CONNECTION_READ: a switching-engine read arrives; in RUN, within the connection store, it sets the
pairing register, gives a frame mark where it reads entry 0, and goes to memory (R6, R27). The part
classes the read itself: elsewhere it is answered or passed as R5 and R10 give (log 7). -/
def execConnectionRead (addr : Addr) (strobes : Strobes) (elapsed : Nat) (order : List MarkTask) (s : State) :
    Host.Outcome State Fault Refusal :=
  .next (s.takeEnds.arriveRequest { master := .engine, dir := .read, addr := addr, strobes := strobes }
    elapsed order)

/-- VIRTUAL_READ: a switching-engine read arrives; in RUN, of speech words 256 to 511, it is answered at
once and the pairing invalidated (R7). The part classes the read itself (log 7). -/
def execVirtualRead (addr : Addr) (strobes : Strobes) (s : State) : Host.Outcome State Fault Refusal :=
  .next (s.takeEnds.arriveRequest { master := .engine, dir := .read, addr := addr, strobes := strobes } 0 [])

/-- PASSING_REQUEST: any request arrives and is classed; all but connection and virtual reads in RUN are
passed to memory unchanged (R2, R5, R10, R12). -/
def execPassingRequest (r : Request) (s : State) : Host.Outcome State Fault Refusal :=
  .next (s.takeEnds.arriveRequest r 0 [])

/-- PASSING_COMPLETION: memory completes the passing request on the port: a read's answer or a store's
end goes up to its master (R2). A connection read's answer or a watched store is taken by its block as
ADOPTION_CHECK and the store commands take it (log 7). -/
def execPassingCompletion (data : Word) (s : State) : Host.Outcome State Fault Refusal :=
  .next (s.takeEnds.completePassing data)

/-- ADOPTION_CHECK: memory answers the passing read on the port; in RUN a switching-engine read of entry j
is compared with slot j's shadow, and a difference is taken as a slot request (R6, R76). -/
def execAdoptionCheck (data : Word) (s : State) : Host.Outcome State Fault Refusal :=
  .next (s.takeEnds.answerRead data)

/-- CONNECTION_STORE: memory accepts the store on the port; in RUN, into entry j, it is merged into the
shadow and taken as a slot request (R9, R74, R75). -/
def execConnectionStore (s : State) : Host.Outcome State Fault Refusal :=
  .next (s.takeEnds.acceptStore [.connection, .program, .consumer])

/-- PROGRAM_STORE: memory accepts the store on the port; in RUN, into program p, it makes p's bindings
stale and marks p's fetches under way (R64, R67, R124). -/
def execProgramStore (s : State) : Host.Outcome State Fault Refusal :=
  .next (s.takeEnds.acceptStore [.program, .connection, .consumer])

/-- CONSUMER_STORE: memory accepts the store on the port; to the consumer word, it releases records
(R165). -/
def execConsumerStore (s : State) : Host.Outcome State Fault Refusal :=
  .next (s.takeEnds.acceptStore [.consumer, .connection, .program])

/-- COMMAND_STORE: memory accepts the store on the port; to the command word, it is a reload request in
every device state (R4, R23, R24). -/
def execCommandStore (s : State) : Host.Outcome State Fault Refusal :=
  .next (s.takeEnds.acceptStore [.connection, .program, .consumer])

/-- OWN_BURST_START: the SBI starts the first word of the chosen own request (R12, R154). -/
def execOwnBurstStart (s : State) : Host.Outcome State Fault Refusal := .next s.takeEnds.startBurst

/-- BURST_WORD_COMPLETE: a word of the own burst that is not its last completes (R13). -/
def execBurstWordComplete (data : Word) (s : State) : Host.Outcome State Fault Refusal :=
  .next (s.takeEnds.wordDone data)

end Sys2Proof.Machine
end

