-- ==== Sys2Proof/Machine/FetchCommands.lean ====
section
/-! DEFINITION. Machine/FetchCommands.lean: the meanings of the completions of the serving blocks' own
requests. A binding built from a fetch is fresh where the fetch was not overtaken (R65). Each takes a
completed own request of its kind; of another kind it names no event and nothing happens (log 8). -/

namespace Sys2Proof.Machine

/-- ATTACH_FETCH_COMPLETE: the slot is faulted or placed (R79 to R81), or the answer discarded (R73). -/
def execAttachFetchComplete (data : Word) (s : State) : Host.Outcome State Fault Refusal :=
  .next (s.takeEnds.complete data fun r t => match r.kind with
    | .attachFetch j p => some (t.attachDone j p r.gen (!r.overtaken) r.answer)
    | _ => none)

/-- FILLER_FETCH_COMPLETE: the waiting slot is given a generator, or the filler is lost (R103, R104). -/
def execFillerFetchComplete (data : Word) (s : State) : Host.Outcome State Fault Refusal :=
  .next (s.takeEnds.complete data fun r t => match r.kind with
    | .fillerFetch j f => some (t.fillerDone j f r.gen (!r.overtaken) r.answer)
    | _ => none)

/-- REFETCH_COMPLETE: TG15 adopts the copy, or keeps its own with CONG_KEPT (R68). -/
def execRefetchComplete (data : Word) (s : State) : Host.Outcome State Fault Refusal :=
  .next (s.takeEnds.complete data fun r t => match r.kind with
    | .refetch c => some (t.refetchDone c r.gen r.answer)
    | _ => none)

/-- BINDING_FETCH_COMPLETE: the player's binding fails, is stale from its start, or is taken (R109, R110). -/
def execBindingFetchComplete (data : Word) (s : State) : Host.Outcome State Fault Refusal :=
  .next (s.takeEnds.complete data fun r t => match r.kind with
    | .bindingFetch n p => some (t.bindingDone n p r.gen (!r.overtaken) r.answer)
    | _ => none)

/-- STEP_FETCH_COMPLETE: the walker's next entry is HELD and the walker advances (R129, R140). -/
def execStepFetchComplete (data : Word) (s : State) : Host.Outcome State Fault Refusal :=
  .next (s.takeEnds.complete data fun r t => match r.kind with
    | .stepFetch n => some (t.stepDone n r.gen r.answer)
    | _ => none)

/-- FILL_COMPLETE: the half is FULL with the chunk's codes (R132). -/
def execFillComplete (data : Word) (s : State) : Host.Outcome State Fault Refusal :=
  .next (s.takeEnds.complete data fun r t => match r.kind with
    | .fill n h => some (t.fillDone n h r.gen r.answer)
    | _ => none)

/-- REPORT_WRITE_COMPLETE: P advances, the source joins the order list, and a drain may end (R16, R164). -/
def execReportWriteComplete (s : State) : Host.Outcome State Fault Refusal :=
  .next (s.takeEnds.complete 0 fun r t => match r.kind with
    | .reportWrite src => some (t.reportDone src)
    | _ => none)

end Sys2Proof.Machine
end

