-- ==== Sys2Proof/Machine/TimerCommands.lean ====
section
/-! DEFINITION. Machine/TimerCommands.lean: the meanings of the interval timer's expiries and of the ends
of timers at a frame mark. -/

namespace Sys2Proof.Machine

/-- WINDOW_EXPIRY: the expiry of the interval timer at 533 periods, in LOCKING and LOCKED (R28, R32, R33). Where the
timer does not stand there, no expiry is happening (log 8). -/
def execWindowExpiry (order : List MarkTask) (s : State) : Host.Outcome State Fault Refusal :=
  .next (s.takeEnds.windowExpired order).finish

/-- FLYWHEEL_EXPIRY: the expiry of the interval timer at 512 periods, in HOLDOVER (R28, R34). Where the timer does not
stand there, no expiry is happening (log 8). -/
def execFlywheelExpiry (order : List MarkTask) (s : State) : Host.Outcome State Fault Refusal :=
  .next (s.takeEnds.flywheelExpired order).finish

/-- CADENCE_STEP_END: a generator whose frames left have reached 0 moves to its next step (R98). -/
def execCadenceStepEnd (g : GenIx) (s : State) : Host.Outcome State Fault Refusal :=
  .next (s.endCadenceStep g)

/-- JOIN_WINDOW_CLOSE: a player whose frames left have reached 0 is closed to direct arrivals (R115). -/
def execJoinWindowClose (n : PlayerIx) (s : State) : Host.Outcome State Fault Refusal :=
  .next (s.closeWindow n)

/-- DWELL_EXPIRY: slot j's passed dwell deadline is taken (R88). -/
def execDwellExpiry (j : Slot) (s : State) : Host.Outcome State Fault Refusal :=
  .next (s.takeDwell j).finish

/-- WAIT_TIMEOUT: the oldest passed wait deadline is taken (R148). -/
def execWaitTimeout (s : State) : Host.Outcome State Fault Refusal := .next s.takeTimeout.finish

end Sys2Proof.Machine
end

