-- ==== Sys2Proof/Machine/Dispatch.lean ====
section
/-! DEFINITION. Machine/Dispatch.lean: one arm per command, each one call of its meaning. -/

namespace Sys2Proof.Machine

-- A command's effect on everything but the queue.
def exec (i : Instr) (s : State) : Host.Outcome State Fault Refusal :=
  match i with
  | .reset bootsel => Sys2Proof.Machine.execReset bootsel s
  | .connectionRead addr strobes elapsed order => Sys2Proof.Machine.execConnectionRead addr strobes elapsed order s
  | .virtualRead addr strobes => Sys2Proof.Machine.execVirtualRead addr strobes s
  | .passingRequest r => Sys2Proof.Machine.execPassingRequest r s
  | .passingCompletion data => Sys2Proof.Machine.execPassingCompletion data s
  | .adoptionCheck data => Sys2Proof.Machine.execAdoptionCheck data s
  | .connectionStore => Sys2Proof.Machine.execConnectionStore s
  | .programStore => Sys2Proof.Machine.execProgramStore s
  | .consumerStore => Sys2Proof.Machine.execConsumerStore s
  | .commandStore => Sys2Proof.Machine.execCommandStore s
  | .windowExpiry order => Sys2Proof.Machine.execWindowExpiry order s
  | .flywheelExpiry order => Sys2Proof.Machine.execFlywheelExpiry order s
  | .cadenceStepEnd g => Sys2Proof.Machine.execCadenceStepEnd g s
  | .joinWindowClose n => Sys2Proof.Machine.execJoinWindowClose n s
  | .dwellExpiry j => Sys2Proof.Machine.execDwellExpiry j s
  | .waitTimeout => Sys2Proof.Machine.execWaitTimeout s
  | .loadingWriteComplete => Sys2Proof.Machine.execLoadingWriteComplete s
  | .recordReadComplete data => Sys2Proof.Machine.execRecordReadComplete data s
  | .congestionFetchComplete data => Sys2Proof.Machine.execCongestionFetchComplete data s
  | .ringClearWriteComplete => Sys2Proof.Machine.execRingClearWriteComplete s
  | .runningWriteComplete => Sys2Proof.Machine.execRunningWriteComplete s
  | .failureWriteComplete => Sys2Proof.Machine.execFailureWriteComplete s
  | .attachFetchComplete data => Sys2Proof.Machine.execAttachFetchComplete data s
  | .fillerFetchComplete data => Sys2Proof.Machine.execFillerFetchComplete data s
  | .refetchComplete data => Sys2Proof.Machine.execRefetchComplete data s
  | .bindingFetchComplete data => Sys2Proof.Machine.execBindingFetchComplete data s
  | .stepFetchComplete data => Sys2Proof.Machine.execStepFetchComplete data s
  | .fillComplete data => Sys2Proof.Machine.execFillComplete data s
  | .reportWriteComplete => Sys2Proof.Machine.execReportWriteComplete s
  | .burstWordComplete data => Sys2Proof.Machine.execBurstWordComplete data s
  | .ownBurstStart => Sys2Proof.Machine.execOwnBurstStart s

end Sys2Proof.Machine
end

