-- ==== Sys2Proof/Machine/Step.lean ====
section
/-! DEFINITION. Machine/Step.lean: one step takes the command at the front of the queue. -/

namespace Sys2Proof.Machine

/-- The idle step of an empty queue: time moves on by one REFCLK period, after the ends of the last mark's
timers (R28; logs 2, 4). -/
def idle (s : State) : State := s.takeEnds.tick 1

/-- One step: the command at the front of the queue is run with the queue's rest; an empty queue idles. -/
def step (s : State) : Host.Outcome State Fault Refusal :=
  match s.pending with
  | [] => .next (idle s)
  | i :: rest => exec i (s.withPending rest)

/-- `s` with the command that a word spells at the front of its queue; no word spells one (log 17). -/
def State.withFetchWord (s : State) (nbits w : Nat) : State :=
  match decodeTableWord nbits w with
  | none => s
  | some i => s.withPending (i :: s.pending)

end Sys2Proof.Machine
end

