-- ==== Sys2Proof/Safety.lean ====
section
/-! DEFINITION. Safety.lean: the laws of the part that a run keeps, and the terms in which the statements
about its commands are written. -/

namespace Sys2Proof.Machine

/-! ### What a command leaves unchanged -/

/-- `t` differs from `s` at most in the slot contexts, the generators, the players, the waiting queue, the
request queue and the report ring. -/
structure ServingOnly (s t : State) : Prop where
  pending : t.pending = s.pending
  bus : t.bus = s.bus
  pairing : t.pairing = s.pairing
  boot : t.boot = s.boot
  fm : t.fm = s.fm
  refetch : t.refetch = s.refetch

/-- The blocks that serve callers, and the report ring, are as they were. -/
structure SoundUnchanged (s t : State) : Prop where
  slots : t.slots = s.slots
  gens : t.gens = s.gens
  refetch : t.refetch = s.refetch
  players : t.players = s.players
  queue : t.queue = s.queue
  rrw : t.rrw = s.rrw

/-- The command queue, the pairing register, the Boot Loader and the Frame Monitor are as they were. -/
structure ControlUnchanged (s t : State) : Prop where
  pending : t.pending = s.pending
  pairing : t.pairing = s.pairing
  boot : t.boot = s.boot
  fm : t.fm = s.fm

/-- The own requests not yet completed are the same ones: a choice may have been made among them (R156). -/
def SameRequests (s t : State) : Prop := t.requestsHeld.Perm s.requestsHeld

/-- No end of a timer of the last frame mark waits to be taken (log 4). -/
def State.Settled (s : State) : Prop := s.fm.endsOpen = false

/-- Memory is about to complete the last word of the own request `r`, which is on the port. -/
structure State.LastWordOf (s : State) (r : OwnRequest) : Prop where
  port : s.bus.port = some .ownWord
  underWay : s.mra.underWay = some r
  last : r.done + 1 = r.length

/-- The passing request on the memory port. -/
def State.PassingOnPort (s : State) (r : Request) : Prop := s.bus.port = some (.passing r)

/-- The request r goes toward memory unchanged: on a free port at once, or else behind the passing requests
that arrived before it; nothing is carried up to a master (R2, R12, R13). -/
structure Forwarded (s t : State) (r : Request) : Prop where
  free : s.bus.port = none → s.bus.waiting = [] → t.bus.port = some (.passing r) ∧ t.bus.waiting = []
  busy : s.bus.port ≠ none → t.bus.port = s.bus.port ∧ t.bus.waiting = s.bus.waiting ++ [r]
  engineEnd : t.bus.engineEnd = s.bus.engineEnd
  cpuEnd : t.bus.cpuEnd = s.bus.cpuEnd

/-- What the port carries once the word on it is completed: the passing request that arrived first, or else
the own burst under way, or else nothing (R12, R13). -/
def nextOnPort (waiting : List Request) (m : Arbiter) : Option PortUse :=
  match waiting with
  | q :: _ => some (.passing q)
  | [] => if m.underWay.isSome then some .ownWord else none

/-- A passing request of master m has ended with e, and the port has gone on (R2, R12, R13). -/
structure Ended (s t : State) (m : Master) (e : Ending) : Prop where
  engineEnd : t.bus.engineEnd = if m = .engine then some e else s.bus.engineEnd
  cpuEnd : t.bus.cpuEnd = if m = .callProcessor then some e else s.bus.cpuEnd
  port : t.bus.port = nextOnPort s.bus.waiting t.mra
  waiting : t.bus.waiting = s.bus.waiting.tail

/-- The request q is queued or chosen, with no word of it transferred (R154). -/
def State.Waiting (s : State) (q : OwnRequest) : Prop := q ∈ s.mra.queued ∨ s.mra.chosen = some q

/-- A record of the outcome o waits to be written, as 8 words at the k-th index after those that the writes of `s`
take, with the lap phase of that index (R163). -/
def WaitsAt (s t : State) (rec : BootRecord) (k : Nat) (o : Outcome) : Prop :=
  ∃ q, t.Waiting q ∧ q.kind = .reportWrite o.source ∧
    q.addr = rec.rb + BitVec.ofNat 24 (16 * ((s.rrw.producer.toNat + s.reportsHeld + k) % 512)) ∧
    q.data = recordWords o (if 511 < s.rrw.producer.toNat + s.reportsHeld + k then !s.rrw.phase else s.rrw.phase)

/-- The Report Ring Writer has taken the outcome o at an event whose earlier outcomes have queued k records: it is
discarded where no record is accepted, held where its source has an unconsumed record, and otherwise its record
waits at the next index, with the source's pending flag set (R162, R163, R167). -/
def HandedOver (s t : State) (k : Nat) (o : Outcome) : Prop :=
  ∀ rec, s.boot.accepted = some rec →
    if s.isPending o.source then
      t.heldOutcome o.source = some { o with superseded := o.superseded || (s.heldOutcome o.source).isSome }
    else t.isPending o.source = true ∧ WaitsAt s t rec k o

/-- The Report Ring Writer has taken the outcome o, the first of its event (R162, R163, R167). -/
def Reported (s t : State) (o : Outcome) : Prop := HandedOver s t 0 o

/-- Of outcomes of these slots, one for each, how many are queued as records: the others are held (R163). -/
def State.recordsOf (s : State) (slots : List Slot) : Nat :=
  (slots.filter (fun i => !s.isPending (slotSource i))).length

/-- An outcome of slot j without flags, stamped with the frame count (R38, R89). -/
def slotRecord (s : State) (j : Slot) (kind : ReportKind) (p : Program) (detail : Word) : Outcome :=
  { kind := kind, source := slotSource j, program := p, detail := detail, impaired := false, faulted := false,
    superseded := false, stamp := s.fm.frame, underruns := 0 }

/-- An own request has completed: none is under way, the port has gone on to the passing request that waits
first, and the command queue, the pairing register and the Frame Monitor are as they were (R12, R13, R155). -/
structure Completed (s t : State) : Prop where
  pending : t.pending = s.pending
  pairing : t.pairing = s.pairing
  fm : t.fm = s.fm
  engineEnd : t.bus.engineEnd = s.bus.engineEnd
  cpuEnd : t.bus.cpuEnd = s.bus.cpuEnd
  underWay : t.mra.underWay = none
  port : t.bus.port = nextOnPort s.bus.waiting t.mra
  waiting : t.bus.waiting = s.bus.waiting.tail

/-- The answer of the completed request is discarded with no effect: every block is as it was, and the other
own requests are the same ones (R73, R107, R159). -/
structure Discarded (s t : State) : Prop where
  completed : Completed s t
  boot : t.boot = s.boot
  sound : SoundUnchanged s t
  requests : t.requestsHeld.Perm (s.mra.chosen.toList ++ s.mra.queued)

/-- An outcome of the device without flags, with its stamp (R38). -/
def deviceRecord (stamp : Frame) (kind : ReportKind) (p : Program) (detail : Word) : Outcome :=
  { kind := kind, source := deviceSource, program := p, detail := detail, impaired := false, faulted := false,
    superseded := false, stamp := stamp, underruns := 0 }

/-- A waiting entry is eligible where player n is being freed: no other player is fresh for its program (R145, R146). -/
def State.EligibleBeside (t : State) (n : PlayerIx) (e : WaitEntry) : Prop :=
  ∀ m, m ≠ n → (t.player m).isFreshFor e.program = false

/-- Player n has gone FREE, its generation advanced and its underrun total kept, and the allocator has run on the
entries left in the queue: with none eligible the player stays FREE; or else it is bound, with a further
generation and its binding fetch queued, to the program of the eligible entry of the highest priority, of those
the one nearest the head (R107, R108, R122, R146). -/
structure Freed (s t : State) (n : PlayerIx) : Prop where
  free : (∀ e ∈ t.queue, ¬ t.EligibleBeside n e) → t.player n = { Player.reset with
    gen := nextGeneration (s.player n).gen (t.underWayGen (readOfPlayer n))
    underruns := (s.player n).underruns }
  bound : ∀ older e newer gen, t.queue = older ++ e :: newer → t.EligibleBeside n e →
    (∀ x ∈ older, t.EligibleBeside n x → x.priority < e.priority) →
    (∀ x ∈ newer, t.EligibleBeside n x → x.priority ≤ e.priority) →
    gen = nextGeneration (nextGeneration (s.player n).gen (t.underWayGen (readOfPlayer n)))
      (t.underWayGen (readOfPlayer n)) →
    t.player n = { Player.reset with state := .priming, program := some e.program, gen := gen } ∧
    ∃ q, t.Waiting q ∧ q.kind = .bindingFetch n e.program ∧ q.gen = some gen ∧ q.length = 16 ∧
      q.addr = t.programBase + BitVec.ofNat 24 (32 * e.program.val)

/-- The attach of slot j to q has begun: ATTACHING with one fetch of q queued that carries its generation (R62,
R78). -/
def AttachBegun (s t : State) (j : Slot) (q : Program) : Prop :=
  (t.slot j).state = .attaching q ∧ ∃ r, t.Waiting r ∧ r.kind = .attachFetch j q ∧ r.gen = some (t.slot j).gen ∧
    r.length = 16 ∧ r.addr = s.programBase + BitVec.ofNat 24 (32 * q.val)

/-- Slot j has completed its announcement: it is IDLE, or the attach of its after program has begun, or, where that does
not exist, it is in FAULT (R78, R82, R87). -/
structure AfterTaken (s t : State) (j : Slot) (ann : AnnFields) : Prop where
  idle : ann.after = none → (t.slot j).state = .idle
  attaching : ∀ q, ann.after = some q → q.val < s.limit → AttachBegun s t j q
  fault : ∀ q, ann.after = some q → s.limit ≤ q.val → (t.slot j).state = .fault q

/-- Generator g has lost one of its slots: of TG0 to TG14, at a count of 0 it is FREE (R95, R96). -/
def releasedGenerator (g : GenIx) (x : Generator) : Generator :=
  if x.count - 1 = 0 ∧ g ≠ congestionGen then Generator.reset else { x with count := x.count - 1 }

/-- Slot j has taken a slot request with merged word w: it is detached, and then ATTACHING with one fetch of
the requested program queued with its new generation, or FAULT with RANGE, or IDLE (R73, R75, R77, R78). -/
structure SlotRequestTaken (s t : State) (j : Slot) (w : Word) : Prop where
  shadow : (t.slot j).shadow = w
  others : ∀ i, i ≠ j → t.slot i = s.slot i
  gens : t.gens = (s.detach j).gens
  players : t.players = (s.detach j).players
  queue : t.queue = (s.detach j).queue
  generation : requestedProgram w ≠ none ∨ (s.slot j).state ≠ .idle →
    (t.slot j).gen = nextGeneration (s.slot j).gen (s.underWayGen (readOfSlot j)) ∧
    ∀ q, t.Waiting q → q.kind.slot? = some j → q.gen = some (t.slot j).gen
  attach : ∀ p, requestedProgram w = some p → p.val < s.limit → (t.slot j).state = .attaching p ∧
    t.rrw = s.rrw ∧ ∃ q, t.Waiting q ∧ q.kind = .attachFetch j p ∧ q.gen = some (t.slot j).gen ∧ q.length = 16 ∧
      q.overtaken = false ∧ q.addr = s.programBase + BitVec.ofNat 24 (32 * p.val)
  range : ∀ p, requestedProgram w = some p → s.limit ≤ p.val → (t.slot j).state = .fault p ∧
    Reported s t (slotRecord s j .slotFault p 1)
  detach : requestedProgram w = none → (t.slot j).state = .idle ∧ t.rrw = s.rrw
  idle : requestedProgram w = none → (s.slot j).state = .idle → (t.slot j).gen = (s.slot j).gen

/-- The commands by which memory's acceptance of a passing store is sent (log 7). -/
def IsAcceptance : Instr → Prop
  | .passingCompletion _ => True
  | .connectionStore => True
  | .programStore => True
  | .consumerStore => True
  | .commandStore => True
  | _ => False

/-- Memory is about to accept the passing store r with these data. -/
structure State.StoreOnPort (s : State) (r : Request) (data : Word) : Prop where
  port : s.bus.port = some (.passing r)
  dir : r.dir = .store data

/-- The part after these commands, run in turn. -/
def State.afterAll (s : State) (cs : List Instr) : State :=
  cs.foldl (fun t c => match exec c t with
    | .next u => u
    | .fault _ => t
    | .refused _ => t) s

/-! ### Frame Monitor (R26 to R34) -/

/-- The counts and the stall flag that each lock state can hold, and the timer's bound (R28, R30 to R34). -/
def FrameMonitor.Lawful (m : FrameMonitor) : Prop :=
  (match m.lock with
    | .unlocked => m.onTime = 0 ∧ m.misses = 0
    | .locking => m.onTime ≤ 1 ∧ m.misses = 0
    | .locked => m.onTime = 2 ∧ m.misses = 0 ∧ m.stallReported = false
    | .holdover => m.onTime = 2 ∧ (m.misses = 1 ∨ m.misses = 2) ∧ m.stallReported = false
    | .stalled => m.onTime = 2 ∧ m.misses = 3 ∧ m.stallReported = true) ∧
  (m.lock ≠ .unlocked → m.timer.isSome = true) ∧
  (∀ t e, m.timer = some t → expiryCount m.lock = some e → t ≤ e)

/-! ### Waiting queue and listener sets (R71, R123, R142) -/

/-- The queue holds at most 32 entries (R142). -/
def State.QueueBounded (s : State) : Prop := s.queue.length ≤ queueLimit

/-- A slot is in the queue if and only if it is WAITING for the entry's program, once; it is in a player's
listener set if and only if it is PLAYING with that player; a player has listeners if and only if it is
RUNNING (R71, R123). -/
structure State.Membership (s : State) : Prop where
  entriesOnce : (s.queue.map (fun e => e.slot)).Nodup
  waiting : ∀ j p, (∃ e ∈ s.queue, e.slot = j ∧ e.program = p) ↔
    ∃ ann filler, (s.slot j).state = .waiting p ann filler
  playing : ∀ j n, j ∈ (s.player n).listeners ↔ ∃ p ann r mark, (s.slot j).state = .playing p ann n r mark
  ordered : ∀ n, (s.player n).listeners.Pairwise (fun a b => a < b)
  listening : ∀ n, (s.player n).state = .running ↔ (s.player n).listeners ≠ []

/-! ### Walkers (R111, R134, R138) -/

/-- A half holds, or is being filled with, at most 64 codes (R111, R131). -/
def Half.Bounded : Half → Prop
  | .empty => True
  | .filling _ length => length ≤ 64
  | .full (.samples codes) => codes.length ≤ 64
  | .full (.silence _) => True
  | .full (.mark _) => True

/-- The return stack holds at most 4 entries, the zero-time count stays below 16, and each half at most
64 codes (R111, R134, R138). -/
def Player.Bounded (pl : Player) : Prop :=
  pl.walker.stack.length ≤ 4 ∧ pl.walker.zeroTime ≤ 15 ∧ pl.halfA.Bounded ∧ pl.halfB.Bounded

/-- Every player is within its bounds. -/
def State.PlayersBounded (s : State) : Prop := ∀ n, (s.player n).Bounded

/-- A player's window latch is set while frames are left, and with none left only until the window's close at
that mark is taken (R115; log 4). -/
def State.WindowsLatched (s : State) : Prop :=
  ∀ n, (0 < (s.player n).framesLeft → (s.player n).windowOpen = true) ∧
    ((s.player n).windowOpen = true → (s.player n).framesLeft = 0 → s.fm.endsOpen = true)

/-! ### Fresh bindings (R66, R145) -/

/-- At most one fresh player is bound to any one program (R145). -/
def State.OneFreshPlayer (s : State) : Prop :=
  ∀ p n m, (s.player n).isFreshFor p = true → (s.player m).isFreshFor p = true → n = m

/-- At most one fresh generator is bound to any one program (R66). -/
def State.OneFreshGenerator (s : State) : Prop :=
  ∀ p g h, (s.generator g).isFreshFor p = true → (s.generator h).isFreshFor p = true → g = h

/-! ### Boot (R15, R22, R91, R92, R106, R142) -/

/-- The requests of the boot sequence not yet completed. -/
def State.bootHeld (s : State) : List OwnRequest := s.requestsHeld.filter (fun r => r.kind.isBoot)

/-- A request whose completion leads to the entry to RUN: it stands only after the congestion copy is
taken (R19 to R21). -/
def OwnKind.isLate : OwnKind → Bool
  | .statusWrite .running => true
  | .ringClear _ => true
  | _ => false

/-- The boot sequence has one request at a time, in BOOT alone and not during the drain; past the
congestion fetch the working copy and the descriptor copy are in hand (R16 to R22, Table 2-2). -/
structure State.BootLaw (s : State) : Prop where
  onlyInBoot : s.boot.device ≠ .boot → s.boot.stage = none ∧ s.bootHeld = []
  drainFirst : s.boot.stage = some .drain → s.bootHeld = []
  oneAtATime : s.bootHeld.length ≤ 1
  copiesInHand : ∀ r ∈ s.requestsHeld, r.kind.isLate = true →
    s.boot.working.isSome = true ∧ s.boot.congestionCopy.isSome = true

/-- Outside RUN the part serves nobody: the pairing is invalid, every context IDLE with shadow 0000h, every
generator FREE, every player FREE and the queue empty (R8, R91, R92, R106, R142). -/
structure State.QuietOutsideRun (s : State) : Prop where
  pairing : s.boot.device ≠ .run → s.pairing = none
  slots : s.boot.device ≠ .run → ∀ j, (s.slot j).state = .idle ∧ (s.slot j).shadow = 0
  gens : s.boot.device ≠ .run → ∀ g, s.generator g = Generator.reset
  players : s.boot.device ≠ .run → ∀ n, s.player n = { Player.reset with gen := (s.player n).gen }
  queue : s.boot.device ≠ .run → s.queue = []

/-- In RUN a record is accepted and TG15 is bound and fresh for its congestion program (R66, R101). -/
def State.CongestionServed (s : State) : Prop :=
  s.boot.device = .run → ∃ r b, s.boot.accepted = some r ∧ (s.generator congestionGen).binding = some b ∧
    b.program = r.congestionProgram ∧ b.fresh = true

/-! ### The arbiter's choice (R156 to R158) -/

/-- The device state lets the MRA choose the request: in RUN one of the three classes, in BOOT the boot's own or the
drain's, in BYPASS none (R157, R158). -/
def State.mayChoose (s : State) (r : OwnRequest) : Bool :=
  match s.boot.device with
  | .run => r.kind.sound?.isSome || r.kind.descriptor?.isSome || r.kind.isReport
  | .boot => r.drain || r.kind.isBoot
  | .bypass => false

/-- Where no own request is chosen or under way, none is queued that the MRA may choose: the choice was made as soon
as one could be (R156). -/
def State.ChoiceMade (s : State) : Prop :=
  s.mra.chosen = none → s.mra.underWay = none → ∀ r ∈ s.mra.queued, s.mayChoose r = false

/-! ### Reference counts (R95) -/

/-- How many contexts have generator g as their sound source. -/
def State.sourceCount (s : State) (g : GenIx) : Nat :=
  (List.finRange 256).countP (fun j => (s.slot j).state.source == .generator g)

/-- Each generator's reference count is the number of contexts whose sound source it is, and one of TG0 to
TG14 is FREE exactly where its count is 0 (R95, R96). -/
structure State.CountsExact (s : State) : Prop where
  count : ∀ g, (s.generator g).count = s.sourceCount g
  free : ∀ g, g ≠ congestionGen → ((s.generator g).binding = none ↔ (s.generator g).count = 0)

/-! ### Report ring (R163 to R165) -/

/-- The source of a report write. -/
def OwnKind.reportSource? : OwnKind → Option Source
  | .reportWrite src => some src
  | _ => none

/-- The report writes not yet completed, in the order in which they were queued. -/
def State.reportWrites (s : State) : List OwnRequest := s.requestsHeld.filter (fun r => r.kind.isReport)

/-- The sources of the records written and unconsumed, then of those queued, oldest first. -/
def State.unconsumed (s : State) : List Source :=
  s.rrw.order ++ s.reportWrites.filterMap (fun r => r.kind.reportSource?)

/-- Each source has at most one unconsumed record, and its pending flag says whether it has one; an outcome
is held only for such a source; and the order list has an entry for each record from C to P (R163 to
R165). -/
structure State.RingLaw (s : State) : Prop where
  once : s.unconsumed.Nodup
  flags : ∀ src, s.isPending src = true ↔ src ∈ s.unconsumed
  held : ∀ src o, s.heldOutcome src = some o → s.isPending src = true ∧ o.source = src
  indices : s.rrw.order.length = (s.rrw.producer - s.rrw.consumer).toNat

/-- Each report write not yet completed stands at the address fixed for it: the k-th of them at index P + k
of the ring in use (R163). Writes of a drain precede the others (R16). -/
structure State.WritesInOrder (s : State) : Prop where
  addresses : ∀ rec, s.boot.accepted = some rec → ∀ k r, s.reportWrites[k]? = some r →
    r.addr = rec.rb + BitVec.ofNat 24 (16 * ((s.rrw.producer.toNat + k) % 512))
  drainFirst : s.reportWrites.Pairwise (fun a b => b.drain = true → a.drain = true)

end Sys2Proof.Machine
end

