-- ==== Sys2Proof/Certificates/Slice0/Obligations.lean ====
section
/-! DEFINITION. Certificates/Slice0/Obligations.lean: the statements about the Fervala 4220. Each says what a
command, an operation or the whole part does, by the rules it names. `Settled` and the operand of log 4 are
explained in `Obligations.EndsTakenFirst`: a command first takes the ends of the last mark's timers, so
nothing is shut out by assuming there are none. -/

open Sys2Proof Sys2Proof.Machine

/-! ### The machine -/

/-- A step takes the command at the front of the queue and runs it with the queue's rest. -/
def Obligations.FrontCommandStep : Prop :=
  ∀ (s : State) (c : Instr) (rest : List Instr), s.pending = c :: rest → step s = exec c (s.withPending rest)

/-- Every command but RESET and the four ends of timers first takes the ends of the last mark's timers that wait (the
model's choice, log 4), so it does in any state what it does in the settled state they leave. Where they wait, they are
these commands in turn (in the order of log 22): every CADENCE_STEP_END, every JOIN_WINDOW_CLOSE, the DWELL_EXPIRY of
each slot whose dwell is passed, and WAIT_TIMEOUT until no deadline is passed (R88, R98, R115, R148); none of them is
then left to take. Where none waits nothing is taken. An empty queue of commands takes them too, and one REFCLK period
passes (R28; log 2). -/
def Obligations.EndsTakenFirst : Prop :=
  ∀ s : State, s.takeEnds.fm = { s.fm with endsOpen := false } ∧ s.takeEnds.pairing = s.pairing ∧
    s.takeEnds.boot = s.boot ∧ s.takeEnds.refetch = s.refetch ∧ s.takeEnds.pending = s.pending ∧
    (s.Settled → s.takeEnds = s) ∧
    (¬ s.Settled →
      (∃ (dwells : List Slot) (k : Nat), dwells.Pairwise (fun i j => i < j) ∧ k ≤ s.queue.length ∧
        (∀ j, j ∈ dwells ↔ ∃ p g d, (s.slot j).state = .tone p g (some d) ∧
          deadlinePassed s.fm.frame d.deadline = true) ∧
        s.takeEnds = (s.withFm { s.fm with endsOpen := false }).afterAll
          ((List.finRange 16).map .cadenceStepEnd ++ (List.finRange 8).map .joinWindowClose ++
            dwells.map .dwellExpiry ++ List.replicate k .waitTimeout)) ∧
      (∀ g b i, (s.takeEnds.generator g).binding = some b → b.copy.cadence ≠ [] →
        (∀ c ∈ b.copy.cadence, c.duration ≠ 0) → b.cadence ≠ some (i, 0)) ∧
      (∀ n, (s.takeEnds.player n).framesLeft = 0 → (s.takeEnds.player n).windowOpen = false) ∧
      (∀ j p g d, (s.takeEnds.slot j).state = .tone p g (some d) →
        deadlinePassed s.fm.frame d.deadline = false) ∧
      (∀ e ∈ s.takeEnds.queue, deadlinePassed s.fm.frame e.deadline = false)) ∧
    (s.pending = [] → step s = .next (s.takeEnds.tick 1)) ∧
    ∀ c : Instr, (match c with
      | .reset _ | .cadenceStepEnd _ | .joinWindowClose _ | .dwellExpiry _ | .waitTimeout => True
      | _ => exec c s = exec c s.takeEnds)

/-- Every command completes, in every state, and leaves the queue of commands alone. That a command whose event cannot
be happening answers a next state, and no refusal, is the model's choice (log 8). -/
def Obligations.EveryCommandCompletes : Prop :=
  ∀ (c : Instr) (s : State), ∃ t, exec c s = .next t ∧ t.pending = s.pending

/-! ### RESET -/

/-- RESET puts every block at its values after RESET, whatever the state was; the device is in BOOT, and the
first boot's LOADING write (0001h to the word at BOOTSEL × 65536 + 62) is chosen. The model's own: that the write is
chosen at the release (log 18), that the first boot's generation is 0 (log 12), and the two latches of endings, which
are empty (log 20). -/
def Obligations.ResetRestoresAll : Prop :=
  ∀ (b : Byte) (s : State), ∃ t, exec (.reset b) s = .next t ∧ t.pending = s.pending ∧
    t.bus = { port := none, waiting := [], engineEnd := none, cpuEnd := none } ∧ t.pairing = none ∧
    t.boot = { bootsel := b, device := .boot, accepted := none, working := none, congestionCopy := none,
               stage := some .loading, bootGen := 0 } ∧
    t.fm.lock = .unlocked ∧ t.fm.onTime = 0 ∧ t.fm.misses = 0 ∧ t.fm.stallReported = false ∧ t.fm.frame = 0 ∧
    t.fm.timer = none ∧ t.Settled ∧
    (∀ j, t.slot j = { state := .idle, shadow := 0, gen := 0 }) ∧
    (∀ g, t.generator g = { binding := none, count := 0, phase1 := 0, phase2 := 0, code := 128 }) ∧
    t.refetch = { busy := false, gen := 0 } ∧
    (∀ n, t.player n = Player.reset) ∧
    t.queue = [] ∧ t.mra.queued = [] ∧ t.mra.underWay = none ∧
    (∃ q, t.mra.chosen = some q ∧ q.kind = .statusWrite .loading ∧ q.data = [0x0001] ∧ q.length = 1 ∧ q.done = 0 ∧
      q.addr.toNat = b.toNat * 65536 + 62) ∧
    t.rrw.producer = 0 ∧ t.rrw.consumer = 0 ∧ t.rrw.phase = true ∧ t.rrw.order = [] ∧ t.rrw.consumerCopy = 0 ∧
    (∀ src, t.isPending src = false ∧ t.heldOutcome src = none) ∧ t.attn = false

/-- The laws of the part hold of the part right after reset, the arbiter's choice among them, since the first boot's
LOADING write is chosen there (log 18). -/
def Obligations.LawsAtReset : Prop :=
  State.reset.fm.Lawful ∧ State.reset.QueueBounded ∧ State.reset.Membership ∧ State.reset.PlayersBounded ∧
  State.reset.WindowsLatched ∧ State.reset.OneFreshPlayer ∧ State.reset.OneFreshGenerator ∧ State.reset.BootLaw ∧
  State.reset.QuietOutsideRun ∧ State.reset.CongestionServed ∧ State.reset.CountsExact ∧ State.reset.RingLaw ∧
  State.reset.WritesInOrder ∧ State.reset.ChoiceMade

/-! ### The store bus -/

/-- The command word is the word at BOOTSEL × 65536 + 60, in every state. Where no record is accepted there is no
connection entry, virtual speech word, program word or consumer word. Where one is, a request's word lies in
connection entry j, in RUN, exactly where it is the word at CB + 2j; among the virtual speech words where it is speech
word 256 to 511; in program p's descriptor where it lies in the 32 bytes from PB + 32p with p below L; the consumer word
is the word at CW in every state. L, PB, AB and AS are the accepted record's. -/
def Obligations.WatchRanges : Prop :=
  ∀ (s : State) (a : Addr),
    (s.isCommandWord a = true ↔ wordBase a = s.boot.bootsel.toNat * 65536 + 60) ∧
    (s.boot.accepted = none → s.connectionEntry a = none ∧ s.isVirtualWord a = false ∧ s.programAt a = none ∧
      s.isConsumerWord a = false) ∧
    (∀ r : BootRecord, s.boot.accepted = some r → s.limit = r.limit.toNat ∧ s.programBase = r.pb ∧
      s.storeBase = r.ab ∧ s.storeSize = r.size.toNat) ∧
    ∀ r : BootRecord, s.boot.accepted = some r → r.limit.toNat ≤ 256 →
      r.cb.toNat % 2 = 0 → r.sb.toNat % 2 = 0 → r.pb.toNat % 2 = 0 → r.cw.toNat % 2 = 0 →
      (∀ j : Slot, s.connectionEntry a = some j ↔ s.boot.device = .run ∧ wordBase a = r.cb.toNat + 2 * j.val) ∧
      (s.isVirtualWord a = true ↔ s.boot.device = .run ∧
        ∃ w, 256 ≤ w ∧ w < 512 ∧ wordBase a = r.sb.toNat + 2 * w) ∧
      (∀ p : Program, s.programAt a = some p ↔ s.boot.device = .run ∧ p.val < r.limit.toNat ∧
        r.pb.toNat + 32 * p.val ≤ wordBase a ∧ wordBase a < r.pb.toNat + 32 * p.val + 32) ∧
      (s.isConsumerWord a = true ↔ wordBase a = r.cw.toNat)

/-- CONNECTION_READ of entry j, not 0, in RUN: the REFCLK periods before it pass first (log 3; what they do is said in
FrameCountAtMarksOnly); then the pairing register holds slot j, the read goes to memory unchanged, and nothing else
happens. -/
def Obligations.ConnectionReadPairs : Prop :=
  ∀ (s u : State) (a : Addr) (b : Strobes) (n : Nat) (order : List MarkTask) (j : Slot), s.Settled →
    s.boot.device = .run → s.connectionEntry a = some j → j ≠ 0 → s.outstanding .engine = false → u = s.tick n →
    ∃ t, exec (.connectionRead a b n order) s = .next t ∧ t.pairing = some j ∧
      Forwarded u t { master := .engine, dir := .read, addr := a, strobes := b } ∧ t.fm = u.fm ∧
      SoundUnchanged u t ∧ SameRequests u t ∧ t.boot = s.boot ∧ t.pending = s.pending

/-- CONNECTION_READ of entry 0 in RUN is an engine frame mark, after the REFCLK periods before it have passed (log 3): F
advances by 1, the timer restarts, the lock machine moves as Table 3-2 gives by the interval read from the timer, and
the stall flag is cleared at LOCKED. Where that clears a set flag, FRAME_RELOCK of the device, program 0, detail 0,
stamped with the mark's F, is handed over, before the blocks take the mark (the model's choice, log 14). The mark is
handed to every block, in the order of the operand (log 5); the read sets the pairing and goes to memory. -/
def Obligations.EngineFrameMark : Prop :=
  ∀ (s u : State) (a : Addr) (b : Strobes) (n : Nat) (order : List MarkTask), s.Settled →
    s.boot.device = .run → s.connectionEntry a = some 0 → s.outstanding .engine = false →
    (s.fm.lock = .locked → s.fm.misses = 0) → u = s.tick n →
    ∃ t v w, exec (.connectionRead a b n order) s = .next t ∧ t.pairing = some 0 ∧ t.boot = s.boot ∧
      t.pending = s.pending ∧ Forwarded u t { master := .engine, dir := .read, addr := a, strobes := b } ∧
      t.fm.frame = u.fm.frame + 1 ∧ t.fm.timer = some 0 ∧ t.fm.endsOpen = true ∧
      (u.fm.lock = .unlocked ∨ u.fm.lock = .holdover ∨ u.fm.lock = .stalled →
        t.fm.lock = .locking ∧ t.fm.onTime = 0 ∧ t.fm.misses = 0) ∧
      (∀ p, u.fm.timer = some p → ¬ (492 ≤ p ∧ p ≤ 532) →
        u.fm.lock = .locking ∨ u.fm.lock = .locked → t.fm.lock = .locking ∧ t.fm.onTime = 0 ∧ t.fm.misses = 0) ∧
      (∀ p, u.fm.timer = some p → 492 ≤ p ∧ p ≤ 532 →
        (u.fm.lock = .locking → u.fm.onTime = 0 → t.fm.lock = .locking ∧ t.fm.onTime = 1 ∧ t.fm.misses = 0) ∧
        (u.fm.lock = .locking → u.fm.onTime = 1 → t.fm.lock = .locked ∧ t.fm.onTime = 2 ∧ t.fm.misses = 0) ∧
        (u.fm.lock = .locked → t.fm.lock = .locked ∧ t.fm.onTime = u.fm.onTime ∧ t.fm.misses = 0)) ∧
      t.fm.stallReported = (u.fm.stallReported && t.fm.lock != .locked) ∧
      (u.fm.stallReported = true → t.fm.lock = .locked →
        Reported u t (deviceRecord (u.fm.frame + 1) .frameRelock 0 0)) ∧
      (u.fm.stallReported = false → t.isPending deviceSource = u.isPending deviceSource ∧
        t.heldOutcome deviceSource = u.heldOutcome deviceSource) ∧
      v = (u.withPairing (some 0)).withFm t.fm ∧
      w = (if u.fm.stallReported = true ∧ t.fm.lock = .locked then v.deviceOutcome .frameRelock 0 0
           else v).handMark order ∧
      t.slots = w.slots ∧ t.gens = w.gens ∧ t.refetch = s.refetch ∧ t.players = w.players ∧ t.queue = w.queue ∧
      t.rrw = w.rrw

/-- VIRTUAL_READ of speech word 256 to 511 in RUN is answered at once with high byte 0 and the code the paired
slot hears, or the idle code where the pairing is invalid; the pairing is left invalid, and nothing else
changes: the read does not reach the memory port. The code a slot hears is that of its sound source: the
generator's in TONE, in WAITING with a filler given, and TG15's in OVERFLOW; the player's in PLAYING; the idle
code otherwise. -/
def Obligations.VirtualReadAnswered : Prop :=
  (∀ (s : State) (a : Addr) (b : Strobes), s.Settled → s.boot.device = .run → s.isVirtualWord a = true →
    s.connectionEntry a = none → s.outstanding .engine = false →
    ∃ w, exec (.virtualRead a b) s =
        .next { s with bus := { s.bus with engineEnd := some (.answer w) }, pairing := none } ∧
      highByte w = 0 ∧ (∀ j, s.pairing = some j → lowByte w = s.heardCode j) ∧
      (s.pairing = none → lowByte w = 128)) ∧
  (∀ (s : State) (j : Slot),
    ((s.slot j).state = .idle → s.heardCode j = 128) ∧
    (∀ p, (s.slot j).state = .attaching p → s.heardCode j = 128) ∧
    (∀ p g d, (s.slot j).state = .tone p g d → s.heardCode j = (s.generator g).code) ∧
    (∀ p f g, (s.slot j).state = .waiting p f (some g) → s.heardCode j = (s.generator g).code) ∧
    (∀ p f, (s.slot j).state = .waiting p f none → s.heardCode j = 128) ∧
    (∀ p f n r m, (s.slot j).state = .playing p f n r m → s.heardCode j = (s.player n).code) ∧
    (∀ p, (s.slot j).state = .overflow p → s.heardCode j = (s.generator 15).code) ∧
    (∀ p, (s.slot j).state = .fault p → s.heardCode j = 128))

/-- PASSING_REQUEST: in RUN every request but a switching-engine read of the connection store or of a virtual
word, and in BOOT and BYPASS every request, goes to memory unchanged and does nothing else. A master's request is
outstanding while it is on the port or waits for it. -/
def Obligations.OtherRequestsPass : Prop :=
  (∀ (s : State) (m : Master), s.outstanding m = true ↔
    (∃ r, s.bus.port = some (.passing r) ∧ r.master = m) ∨ ∃ r ∈ s.bus.waiting, r.master = m) ∧
  ∀ (s : State) (r : Request), s.Settled → s.outstanding r.master = false →
    (s.boot.device ≠ .run ∨ r.master = .callProcessor ∨ r.dir ≠ .read ∨
      (s.connectionEntry r.addr = none ∧ s.isVirtualWord r.addr = false)) →
    ∃ t, exec (.passingRequest r) s = .next t ∧ Forwarded s t r ∧ ControlUnchanged s t ∧ SoundUnchanged s t ∧
      SameRequests s t

/-- A passing request that no block takes ends at memory's completion and does nothing else: a read, which is
not a switching-engine read of a connection entry in RUN or whose answer agrees with the shadow in ACTIVE and
SOURCE, with its answer carried up unchanged; a store in no watched range. -/
def Obligations.PassingRequestEnds : Prop :=
  (∀ (s : State) (r : Request) (data : Word) (c : Instr), c = .passingCompletion data ∨ c = .adoptionCheck data →
    s.Settled → s.PassingOnPort r → r.dir = .read →
    (∀ j, s.connectionEntry r.addr = some j → r.master = .callProcessor ∨
      (isActive data = isActive (s.slot j).shadow ∧ sourceOf data = sourceOf (s.slot j).shadow)) →
    ∃ t, exec c s = .next t ∧ Ended s t r.master (.answer data) ∧ ControlUnchanged s t ∧ SoundUnchanged s t ∧
      SameRequests s t) ∧
  (∀ (s : State) (q : Request) (data : Word) (c : Instr), IsAcceptance c → s.Settled → s.StoreOnPort q data →
    s.connectionEntry q.addr = none → s.programAt q.addr = none → s.isConsumerWord q.addr = false →
    s.isCommandWord q.addr = false →
    ∃ t, exec c s = .next t ∧ Ended s t q.master .stored ∧ ControlUnchanged s t ∧ SoundUnchanged s t ∧
      SameRequests s t)

/-! ### Watched stores and slot requests -/

/-- What a detach releases in each state (Table 6-4): nothing in IDLE, ATTACHING and FAULT; the generator's
count in TONE and OVERFLOW; the queue entry and the filler's count in WAITING; the place among the listeners in
PLAYING, where an emptied player goes FREE and tells the allocator. It changes no context and hands over no record. -/
def Obligations.DetachReleases : Prop :=
  ∀ (s : State) (j : Slot), ServingOnly s (s.detach j) ∧ (s.detach j).slots = s.slots ∧ (s.detach j).rrw = s.rrw ∧
    ((s.slot j).state = .idle → s.detach j = s) ∧
    (∀ p, (s.slot j).state = .attaching p ∨ (s.slot j).state = .fault p → s.detach j = s) ∧
    (∀ p g d, (s.slot j).state = .tone p g d ∨ ((s.slot j).state = .overflow p ∧ g = 15) →
      s.detach j = s.setGenerator g (releasedGenerator g (s.generator g))) ∧
    (∀ p f g, (s.slot j).state = .waiting p f g →
      (s.detach j).queue = s.queue.filter (fun e => e.slot != j) ∧ (s.detach j).players = s.players ∧
      (∀ h, (s.detach j).generator h =
        if g = some h then releasedGenerator h (s.generator h) else s.generator h)) ∧
    (∀ p f n r m, (s.slot j).state = .playing p f n r m →
      (s.detach j).queue = s.queue ∧ (s.detach j).gens = s.gens ∧
      (∀ k, k ≠ n → (s.detach j).player k = s.player k) ∧
      ((s.player n).listeners.filter (fun i => i != j) ≠ [] → (s.detach j).player n =
        { s.player n with listeners := (s.player n).listeners.filter (fun i => i != j) }) ∧
      ((s.player n).listeners.filter (fun i => i != j) = [] → Freed s (s.detach j) n))

/-- CONNECTION_STORE: a store into entry j accepted in RUN is merged byte by byte into slot j's shadow and taken
as a slot request: a detach, then an attach where ACTIVE is set with SOURCE 256 or above. A generation advances by 1,
and by 2 where the next one is carried by a read of its own kinds that is under way: a slot's are its descriptor and
filler fetches, a player's its binding and step fetches and its fills, TG15's its refetch. -/
def Obligations.ConnectionStoreTaken : Prop :=
  (∀ (s : State) (q : Request) (data : Word) (c : Instr) (j : Slot), IsAcceptance c → s.Settled →
    s.StoreOnPort q data → s.connectionEntry q.addr = some j → s.programAt q.addr = none →
    s.isConsumerWord q.addr = false → s.isCommandWord q.addr = false →
    ∃ t w, exec c s = .next t ∧ Ended s t q.master .stored ∧ ControlUnchanged s t ∧ t.refetch = s.refetch ∧
      lowByte w = (if q.strobes.low then lowByte data else lowByte (s.slot j).shadow) ∧
      highByte w = (if q.strobes.high then highByte data else highByte (s.slot j).shadow) ∧
      SlotRequestTaken s t j w) ∧
  (∀ (s : State) (f : OwnKind → Bool) (g : Generation),
    ((∃ r, s.mra.underWay = some r ∧ f r.kind = true ∧ r.gen = some (g + 1)) →
      nextGeneration g (s.underWayGen f) = g + 2) ∧
    ((∀ r, s.mra.underWay = some r → f r.kind = true → r.gen ≠ some (g + 1)) →
      nextGeneration g (s.underWayGen f) = g + 1)) ∧
  (∀ k : OwnKind, (∀ j, readOfSlot j k = true ↔ ∃ p, k = .attachFetch j p ∨ k = .fillerFetch j p) ∧
    (∀ n, readOfPlayer n k = true ↔ (∃ p, k = .bindingFetch n p) ∨ k = .stepFetch n ∨ ∃ h, k = .fill n h) ∧
    (k.isRefetch = true ↔ ∃ p, k = .refetch p))

/-- ADOPTION_CHECK: an answer to a switching-engine read of entry j, returned in RUN, that differs from slot j's
shadow in ACTIVE or SOURCE is taken as a slot request whose merged word is the answer; the answer goes up
unchanged. A read that arrived before the entry to RUN and returns in RUN is checked too (the model's choice, log 9).
ACTIVE is bit 15 of a connection word, SOURCE its bits 8 to 0, of which 256 and above ask for program SOURCE - 256; the
requested index is bits 8 to 0 of the consumer word; an answered speech word has the high byte 0 (R172). -/
def Obligations.AdoptionTaken : Prop :=
  (∀ (s : State) (q : Request) (data : Word) (c : Instr) (j : Slot),
    c = .passingCompletion data ∨ c = .adoptionCheck data → s.Settled → s.PassingOnPort q → q.dir = .read →
    q.master = .engine → s.connectionEntry q.addr = some j →
    (isActive data ≠ isActive (s.slot j).shadow ∨ sourceOf data ≠ sourceOf (s.slot j).shadow) →
    ∃ t, exec c s = .next t ∧ Ended s t .engine (.answer data) ∧ ControlUnchanged s t ∧ t.refetch = s.refetch ∧
      SlotRequestTaken s t j data) ∧
  (∀ w : Word, (isActive w = true ↔ 32768 ≤ w.toNat) ∧ sourceOf w = w.toNat % 512 ∧
    (∀ p : Program, requestedProgram w = some p ↔ 32768 ≤ w.toNat ∧ w.toNat % 512 = 256 + p.val) ∧
    (requestedIndex w).toNat = w.toNat % 512 ∧
    (lowByte w).toNat = w.toNat % 256 ∧ (highByte w).toNat = w.toNat / 256) ∧
  (∀ code : Byte, (speechWord code).toNat = code.toNat)

/-- PROGRAM_STORE: a store into program p accepted in RUN makes the generators of p among TG0 to TG14 stale and
leaves TG15's record; it closes a fresh RUNNING player of p and frees a PRIMING one with its copy in hand; it
marks a fetch of p with a word read as overtaken; and where p is the congestion program it starts or restarts TG15's
refetch with a new generation. No context is reached. -/
def Obligations.ProgramStoreTaken : Prop :=
  ∀ (s : State) (q : Request) (data : Word) (c : Instr) (rec : BootRecord) (p : Program), IsAcceptance c →
    s.Settled → s.StoreOnPort q data → s.boot.accepted = some rec → s.programAt q.addr = some p →
    s.connectionEntry q.addr = none → s.isConsumerWord q.addr = false → s.isCommandWord q.addr = false →
    ∃ t, exec c s = .next t ∧ Ended s t q.master .stored ∧ ControlUnchanged s t ∧ t.slots = s.slots ∧
      t.queue = s.queue ∧ t.rrw = s.rrw ∧
      (∀ g b, (s.generator g).binding = some b → b.program = p → g ≠ 15 →
        t.generator g = { s.generator g with binding := some { b with fresh := false } }) ∧
      (∀ g, (∀ b, (s.generator g).binding = some b → b.program ≠ p) ∨ g = 15 → t.generator g = s.generator g) ∧
      (∀ n, (s.player n).program = some p → (s.player n).fresh = some true → (s.player n).state = .running →
        t.player n = { s.player n with fresh := some false, framesLeft := 0, windowOpen := false }) ∧
      (∀ n, (s.player n).program = some p → (s.player n).fresh = some true → (s.player n).state = .priming →
        (t.player n).state ≠ .running ∧ (t.player n).fresh = none ∧ (t.player n).listeners = [] ∧
        (s.OneFreshPlayer → Freed s t n)) ∧
      (∀ n, (s.player n).program ≠ some p ∨ (s.player n).fresh ≠ some true → t.player n = s.player n) ∧
      (∀ r, s.mra.underWay = some r → t.mra.underWay =
        some { r with overtaken := r.overtaken || (r.kind.descriptor? == some p && decide (1 ≤ r.done)) }) ∧
      (rec.congestionProgram ≠ p → t.refetch = s.refetch) ∧
      (rec.congestionProgram = p → t.refetch.busy = true ∧
        t.refetch.gen = nextGeneration s.refetch.gen (s.underWayGen OwnKind.isRefetch) ∧
        (∃ r, t.Waiting r ∧ r.kind = .refetch p ∧ r.gen = some t.refetch.gen ∧ r.length = 16) ∧
        ∀ r, t.Waiting r → r.kind.isRefetch = true → r.gen = some t.refetch.gen)

/-- CONSUMER_STORE: a store to the consumer word is merged into the consumer copy; the records up to the
requested index, or all written ones where it lies beyond P, are released oldest first: each source's pending
flag is cleared, and a held outcome is queued at once, which sets the flag again: of the held outcomes released, the
i-th takes the i-th index after those of the writes not yet completed, with that index's lap phase. -/
def Obligations.ConsumerStoreTaken : Prop :=
  ∀ (s : State) (q : Request) (data copy : Word) (c : Instr) (rec : BootRecord) (k : Nat), IsAcceptance c →
    s.Settled → s.StoreOnPort q data → s.boot.accepted = some rec → s.isConsumerWord q.addr = true →
    s.connectionEntry q.addr = none → s.programAt q.addr = none → s.isCommandWord q.addr = false → s.RingLaw →
    lowByte copy = (if q.strobes.low then lowByte data else lowByte s.rrw.consumerCopy) →
    highByte copy = (if q.strobes.high then highByte data else highByte s.rrw.consumerCopy) →
    k = min (copy.extractLsb' 0 9 - s.rrw.consumer).toNat (s.rrw.producer - s.rrw.consumer).toNat →
    ∃ t, exec c s = .next t ∧ Ended s t q.master .stored ∧ ControlUnchanged s t ∧ t.slots = s.slots ∧
      t.gens = s.gens ∧ t.refetch = s.refetch ∧ t.players = s.players ∧ t.queue = s.queue ∧
      t.rrw.consumerCopy = copy ∧ t.rrw.consumer = s.rrw.consumer + BitVec.ofNat 9 k ∧
      t.rrw.producer = s.rrw.producer ∧ t.rrw.phase = s.rrw.phase ∧ t.rrw.order = s.rrw.order.drop k ∧
      (∀ src, src ∈ s.rrw.order.take k → s.heldOutcome src = none → t.isPending src = false) ∧
      (∀ i src o, ((s.rrw.order.take k).filter (fun x => (s.heldOutcome x).isSome))[i]? = some src →
        s.heldOutcome src = some o → t.isPending src = true ∧ t.heldOutcome src = none ∧ WaitsAt s t rec i o) ∧
      (∀ src, src ∉ s.rrw.order.take k → t.isPending src = s.isPending src ∧ t.heldOutcome src = s.heldOutcome src) ∧
      (t.attn = true ↔ t.rrw.producer ≠ t.rrw.consumer)

/-- COMMAND_STORE in RUN or BYPASS is a reload: BOOT, the pairing invalid, every context IDLE with shadow 0000h,
generators and players FREE, the queue empty, held outcomes discarded, and every own request abandoned but the
report writes, which are the drain; the accepted record, the Frame Monitor and the ring's indices stand. The
drain comes first where it holds a write, and is then all that is held; where no report write was held the LOADING
write (0001h to the word at BOOTSEL × 65536 + 62) is queued and chosen at once, and it alone is held. In BOOT it restarts the boot: the copies are
discarded, the boot generation advances and the own requests are abandoned but the report writes; the serving
blocks are not reset again. The model's own: a reload advances generations by exactly 1 (log 11), and in BOOT every
report write still held joins the drain (log 13). -/
def Obligations.CommandStoreReloads : Prop :=
  (∀ (s : State) (q : Request) (data : Word) (c : Instr), IsAcceptance c → s.Settled → s.StoreOnPort q data →
     s.isCommandWord q.addr = true → s.boot.device ≠ .boot →
     ∃ t, exec c s = .next t ∧ Ended s t q.master .stored ∧ t.pending = s.pending ∧ t.pairing = none ∧ t.fm = s.fm ∧
       t.boot = { s.boot with device := .boot, working := none, congestionCopy := none, bootGen := s.boot.bootGen + 1,
                              stage := some (if s.reportWrites = [] then .loading else .drain) } ∧
       (∀ j, (t.slot j).state = .idle ∧ (t.slot j).shadow = 0 ∧
         (t.slot j).gen = if (s.slot j).state = .idle then (s.slot j).gen else (s.slot j).gen + 1) ∧
       (∀ g, t.generator g = Generator.reset) ∧ t.refetch = { s.refetch with busy := false } ∧
       (∀ n, t.player n = { Player.reset with
         gen := if (s.player n).state = .free then (s.player n).gen else (s.player n).gen + 1 }) ∧
       t.queue = [] ∧ t.rrw = { s.rrw with held := Vector.replicate 257 none } ∧
       t.reportWrites = s.reportWrites.map (fun r => { r with drain := true }) ∧
       (s.reportWrites = [] → ∃ w, t.requestsHeld = [w] ∧ t.mra.chosen = some w ∧ w.kind = .statusWrite .loading ∧
         w.data = [0x0001] ∧ w.length = 1 ∧ w.done = 0 ∧
         w.addr = BitVec.ofNat 24 (s.boot.bootsel.toNat * 65536 + 62)) ∧
       (s.reportWrites ≠ [] → t.requestsHeld = t.reportWrites)) ∧
  (∀ (s : State) (q : Request) (data : Word) (c : Instr), IsAcceptance c → s.Settled → s.StoreOnPort q data →
     s.isCommandWord q.addr = true → s.boot.device = .boot →
     ∃ t, exec c s = .next t ∧ Ended s t q.master .stored ∧ t.pending = s.pending ∧ t.pairing = none ∧ t.fm = s.fm ∧
       t.boot = { s.boot with working := none, congestionCopy := none, bootGen := s.boot.bootGen + 1,
                              stage := some (if s.reportWrites = [] then .loading else .drain) } ∧
       t.slots = s.slots ∧ t.gens = s.gens ∧ t.refetch = s.refetch ∧ t.players = s.players ∧ t.queue = s.queue ∧
       t.rrw = { s.rrw with held := Vector.replicate 257 none } ∧
       t.reportWrites = s.reportWrites.map (fun r => { r with drain := true }) ∧
       (s.reportWrites = [] → ∃ w, t.requestsHeld = [w] ∧ t.mra.chosen = some w ∧ w.kind = .statusWrite .loading ∧
         w.data = [0x0001] ∧ w.length = 1 ∧ w.done = 0 ∧
         w.addr = BitVec.ofNat 24 (s.boot.bootsel.toNat * 65536 + 62)) ∧
       (s.reportWrites ≠ [] → t.requestsHeld = t.reportWrites))

/-! ### Own bursts -/

/-- OWN_BURST_START: where the port is free and no passing request waits, the chosen own request takes the port
with its first word and is under way; otherwise nothing happens. BURST_WORD_COMPLETE: the word is counted, and kept
where the request is a read; the passing request that waits first takes the port, or else the burst goes on at its
next word. Memory sees a passing request unchanged with its master's tag, and of a burst its words at increasing
addresses, both bytes strobed, with the device tag (R2, R155, R170). -/
def Obligations.OwnBurstWords : Prop :=
  (∀ (s : State) (r : OwnRequest), s.Settled → s.mra.chosen = some r → s.mra.underWay = none →
     (s.bus.port = none → s.bus.waiting = [] → exec .ownBurstStart s =
       .next { s with bus := { s.bus with port := some .ownWord },
                      mra := { s.mra with chosen := none, underWay := some r } }) ∧
     (s.bus.port ≠ none ∨ s.bus.waiting ≠ [] → exec .ownBurstStart s = .next s)) ∧
  (∀ (s : State) (r : OwnRequest) (data : Word), s.Settled → s.bus.port = some .ownWord →
     s.mra.underWay = some r → r.done + 1 < r.length →
     exec (.burstWordComplete data) s =
       .next ((s.withBus { s.bus with port := nextOnPort s.bus.waiting s.mra, waiting := s.bus.waiting.tail }).withMra
         { s.mra with underWay := some (r.advance data) })) ∧
  (∀ (r : OwnRequest) (data : Word), r.advance data =
     { r with done := r.done + 1, answer := if r.data = [] then r.answer ++ [data] else r.answer }) ∧
  (∀ s : State, s.bus.port = none → s.memoryRequest = none) ∧
  (∀ (s : State) (q : Request), s.bus.port = some (.passing q) →
     s.memoryRequest = some { tag := .master q.master, dir := q.dir, addr := q.addr, strobes := q.strobes }) ∧
  (∀ (s : State) (r : OwnRequest), s.bus.port = some .ownWord → s.mra.underWay = some r → ∃ b,
     s.memoryRequest = some b ∧ b.tag = .device ∧ b.strobes = { low := true, high := true } ∧
     b.addr = r.addr + BitVec.ofNat 24 (2 * r.done) ∧ (r.data = [] → b.dir = .read) ∧
     ∀ w, r.data[r.done]? = some w → b.dir = .store w)

/-! ### The boot sequence -/

/-- The record checks (Table 2-3) in order: the code found is that of the first check that fails, and none is
found exactly where all seven pass. Overlap of the ring with an area means that each begins before the other
ends. The working copy's fields stand at the offsets of Table 13-1; an address is a word and, above it, the low byte of
the next word (R169, R171). -/
def Obligations.RecordChecksInOrder : Prop :=
  (∀ (b : Byte) (r : BootRecord),
    let even := r.cb.toNat % 2 = 0 ∧ r.sb.toNat % 2 = 0 ∧ r.pb.toNat % 2 = 0 ∧ r.ab.toNat % 2 = 0 ∧
      r.rb.toNat % 2 = 0 ∧ r.cw.toNat % 2 = 0
    let clear := fun (lo size : Nat) => r.rb.toNat + 8192 ≤ lo ∨ lo + size ≤ r.rb.toNat
    let ring := r.rb.toNat + 8192 ≤ 2 ^ 24 ∧ clear r.cb.toNat 512 ∧ clear r.sb.toNat 1024 ∧
      clear r.pb.toNat (32 * r.limit.toNat) ∧ clear (b.toNat * 65536) 64 ∧ clear r.cw.toNat 2
    let limit := 1 ≤ r.limit.toNat ∧ r.limit.toNat ≤ 256
    let region := r.ab.toNat + r.size.toNat ≤ 2 ^ 24
    (recordCheck b r = some .badSignature ↔ r.signature ≠ 0x4D2A) ∧
    (recordCheck b r = some .badVersion ↔ r.signature = 0x4D2A ∧ r.version ≠ 1) ∧
    (recordCheck b r = some .badLimit ↔ r.signature = 0x4D2A ∧ r.version = 1 ∧ even ∧ region ∧ ¬ limit) ∧
    (recordCheck b r = some .badRegion ↔ r.signature = 0x4D2A ∧ r.version = 1 ∧
      (¬ even ∨ ¬ region ∨ (limit ∧ ¬ ring))) ∧
    (recordCheck b r = some .badCongestion ↔ r.signature = 0x4D2A ∧ r.version = 1 ∧ even ∧ region ∧ limit ∧ ring ∧
      r.limit.toNat ≤ r.congestion.toNat) ∧
    (recordCheck b r = none ↔ r.signature = 0x4D2A ∧ r.version = 1 ∧ even ∧ region ∧ limit ∧ ring ∧
      r.congestion.toNat < r.limit.toNat)) ∧
  (∀ (ws : List Word) (k : Nat) (w : Word), ws[k]? = some w → wordAt ws (2 * k) = w ∧
    (byteAt ws (2 * k)).toNat = w.toNat % 256 ∧ (byteAt ws (2 * k + 1)).toNat = w.toNat / 256) ∧
  (∀ (ws : List Word) (r : BootRecord), r = parseBootRecord ws →
    let addr := fun (o : Nat) => (wordAt ws o).toNat + 65536 * ((wordAt ws (o + 2)).toNat % 256)
    r.signature = wordAt ws 0 ∧ r.version = wordAt ws 2 ∧ r.cb.toNat = addr 4 ∧ r.sb.toNat = addr 8 ∧
    r.pb.toNat = addr 12 ∧ r.limit = wordAt ws 16 ∧ r.congestion = wordAt ws 18 ∧ r.ab.toNat = addr 20 ∧
    r.size.toNat = addr 24 ∧ r.rb.toNat = addr 28 ∧ r.cw.toNat = addr 32 ∧ r.commandWord = wordAt ws 60 ∧
    r.statusWord = wordAt ws 62)

/-- RECORD_READ_COMPLETE: the 32 words are the working copy; the first failing check's code is written to the
status word, or, where all pass, the congestion descriptor of the copy is fetched, 16 words at PB + 32c. -/
def Obligations.RecordReadChecked : Prop :=
  ∀ (s : State) (r : OwnRequest) (data : Word), s.Settled → s.LastWordOf r → r.kind = .bootRead →
    r.gen = some s.boot.bootGen →
    ∃ t w q, exec (.recordReadComplete data) s = .next t ∧ w = parseBootRecord (r.advance data).answer ∧
      Completed s t ∧ SoundUnchanged s t ∧
      t.requestsHeld.Perm (s.mra.chosen.toList ++ s.mra.queued ++ [q]) ∧
      (∀ code, recordCheck s.boot.bootsel w = some code →
        t.boot = { s.boot with working := some w, stage := some .failing } ∧ q.kind = .statusWrite code ∧
        q.data = [code.code] ∧ q.addr = BitVec.ofNat 24 (s.boot.bootsel.toNat * 65536 + 62)) ∧
      (recordCheck s.boot.bootsel w = none →
        t.boot = { s.boot with working := some w, stage := some .congestion } ∧ q.kind = .congestionFetch ∧
        q.gen = some s.boot.bootGen ∧ q.length = 16 ∧ q.addr = w.pb + BitVec.ofNat 24 (32 * w.congestion.toNat))

/-- CONGESTION_FETCH_COMPLETE: a copy that fails checks 1 to 4 or is not TONE ends the boot with
BAD_CONGESTION; one that passes is kept, and the boot clears the ring from record 0 where the working copy's RB
is not the accepted one, or else writes RUNNING. -/
def Obligations.CongestionCopyChecked : Prop :=
  ∀ (s : State) (r : OwnRequest) (data : Word) (w : BootRecord), s.Settled → s.LastWordOf r →
    r.kind = .congestionFetch → r.gen = some s.boot.bootGen → s.boot.working = some w →
    ∃ t q ws, exec (.congestionFetchComplete data) s = .next t ∧ ws = (r.advance data).answer ∧
      Completed s t ∧ SoundUnchanged s t ∧
      t.requestsHeld.Perm (s.mra.chosen.toList ++ s.mra.queued ++ [q]) ∧
      (checkCopy none ws ≠ none ∨ isTone ws = false →
        t.boot = { s.boot with stage := some .failing } ∧ q.kind = .statusWrite .badCongestion ∧
        q.data = [0x0015]) ∧
      (checkCopy none ws = none → isTone ws = true → (∃ a, s.boot.accepted = some a ∧ a.rb = w.rb) →
        t.boot = { s.boot with congestionCopy := some (toneCopyOf ws), stage := some .running } ∧
        q.kind = .statusWrite .running ∧ q.data = [0x0002]) ∧
      (checkCopy none ws = none → isTone ws = true → (∀ a, s.boot.accepted = some a → a.rb ≠ w.rb) →
        t.boot = { s.boot with congestionCopy := some (toneCopyOf ws), stage := some .clearing } ∧
        q.kind = .ringClear 0 ∧ q.data = List.replicate 8 0 ∧ q.addr = w.rb)

/-- The boot's own writes lead on, and nothing else happens. LOADING_WRITE_COMPLETE leads to the record read, 32
words from BOOTSEL × 65536 with the boot generation. RING_CLEAR_WRITE_COMPLETE of record k leads to the clearing
of the next record, 16 bytes on, until the 512th, after which the RUNNING write is queued. -/
def Obligations.BootWritesLeadOn : Prop :=
  (∀ (s : State) (r : OwnRequest), s.Settled → s.LastWordOf r → r.kind = .statusWrite .loading →
    ∃ t q, exec .loadingWriteComplete s = .next t ∧ Completed s t ∧ SoundUnchanged s t ∧
      t.boot = { s.boot with stage := some .record } ∧
      t.requestsHeld.Perm (s.mra.chosen.toList ++ s.mra.queued ++ [q]) ∧ q.kind = .bootRead ∧
      q.gen = some s.boot.bootGen ∧ q.length = 32 ∧ q.data = [] ∧
      q.addr = BitVec.ofNat 24 (s.boot.bootsel.toNat * 65536)) ∧
  (∀ (s : State) (r : OwnRequest) (k : Nat) (w : BootRecord), s.Settled → s.LastWordOf r →
    r.kind = .ringClear k → s.boot.working = some w →
    ∃ t q, exec .ringClearWriteComplete s = .next t ∧ Completed s t ∧ SoundUnchanged s t ∧
      t.requestsHeld.Perm (s.mra.chosen.toList ++ s.mra.queued ++ [q]) ∧
      (k < 511 → t.boot = s.boot ∧ q.kind = .ringClear (k + 1) ∧ q.data = List.replicate 8 0 ∧ q.length = 8 ∧
        q.addr = w.rb + BitVec.ofNat 24 (16 * (k + 1))) ∧
      (511 ≤ k → t.boot = { s.boot with stage := some .running } ∧ q.kind = .statusWrite .running ∧
        q.data = [0x0002] ∧ q.addr = BitVec.ofNat 24 (s.boot.bootsel.toNat * 65536 + 62)))

/-- RUNNING_WRITE_COMPLETE: one event replaces the accepted record with the working copy, enters RUN, leaves the
pairing invalid, binds TG15 to the congestion program from the kept copy, fresh with count 0, and hands over
RELOADED of the device. Where RB stands, RELOADED takes the next index of the ring, or is held where the device has an
unconsumed record, SUPERSEDED where it replaces a held outcome. Where RB moves, the ring is first restarted, so
RELOADED is queued at index 0 with phase 1 and the writes for the old ring are withdrawn. -/
def Obligations.RunEntered : Prop :=
  ∀ (s : State) (r : OwnRequest) (w : BootRecord) (copy : ToneCopy), s.Settled → s.LastWordOf r →
    r.kind = .statusWrite .running → s.boot.working = some w → s.boot.congestionCopy = some copy →
    ∃ t reloaded, exec .runningWriteComplete s = .next t ∧ Completed s { t with pairing := s.pairing } ∧
      reloaded = (deviceRecord s.fm.frame .reloaded 0 0) ∧
      t.boot = { s.boot with device := .run, accepted := some w, working := none, congestionCopy := none,
                             stage := none } ∧
      t.pairing = none ∧ t.slots = s.slots ∧ t.players = s.players ∧ t.queue = s.queue ∧ t.refetch = s.refetch ∧
      t.gens = s.gens.set 15 (boundGenerator (Fin.ofNat 256 w.congestion.toNat) copy true 0) ∧
      (∀ a, s.boot.accepted = some a → a.rb = w.rb → t.rrw.producer = s.rrw.producer ∧
        t.rrw.consumer = s.rrw.consumer ∧ t.rrw.phase = s.rrw.phase ∧ t.rrw.order = s.rrw.order ∧
        t.rrw.consumerCopy = s.rrw.consumerCopy ∧ Reported s t reloaded ∧
        (∀ src, src ≠ deviceSource →
          t.isPending src = s.isPending src ∧ t.heldOutcome src = s.heldOutcome src) ∧
        (s.isPending deviceSource = true → t.isPending deviceSource = true) ∧
        (s.isPending deviceSource = false → t.heldOutcome deviceSource = s.heldOutcome deviceSource)) ∧
      ((∀ a, s.boot.accepted = some a → a.rb ≠ w.rb) → t.rrw.producer = 0 ∧ t.rrw.consumer = 0 ∧
        t.rrw.phase = true ∧ t.rrw.order = [] ∧ t.rrw.consumerCopy = 0 ∧ t.attn = false ∧
        (∀ src, t.heldOutcome src = none) ∧ (∀ src, t.isPending src = true ↔ src = deviceSource) ∧
        ∃ q, t.reportWrites = [q] ∧ q.kind = .reportWrite deviceSource ∧ q.addr = w.rb ∧
          q.data = recordWords reloaded true)

/-- FAILURE_WRITE_COMPLETE: BYPASS is entered, the working copy and the descriptor copy are discarded, and the
accepted record, the ring and every serving block stay as they were. -/
def Obligations.BypassEntered : Prop :=
  ∀ (s : State) (r : OwnRequest) (code : StatusCode), s.Settled → s.LastWordOf r → r.kind = .statusWrite code →
    code ≠ .loading → code ≠ .running →
    ∃ t, exec .failureWriteComplete s = .next t ∧
      t.boot = { s.boot with device := .bypass, working := none, congestionCopy := none, stage := none } ∧
      Completed s t ∧ SoundUnchanged s t ∧ t.mra.queued = s.mra.queued ∧ t.mra.chosen = s.mra.chosen

/-! ### Frame timing -/

/-- WINDOW_EXPIRY with the timer at 533 periods in LOCKING gives up: UNLOCKED with both counts 0, no mark, F
unchanged, no outcome, and the timer counts on without expiring until the next engine mark, which returns the lock
machine to LOCKING. In LOCKED it is the first miss: HOLDOVER with miss count 1 and a flywheel mark, which advances F,
restarts the timer and is handed to every block. With the timer short of 533 periods, as after an engine mark that was
taken first (R35), nothing happens (logs 3, 8). -/
def Obligations.WindowExpiryTaken : Prop :=
  ∀ (s : State) (order : List MarkTask), s.Settled →
    (∀ p, s.fm.lock = .locking → s.fm.timer = some p → 533 ≤ p →
      ∃ t, exec (.windowExpiry order) s = .next t ∧
        t.fm = { s.fm with lock := .unlocked, onTime := 0, misses := 0 } ∧
        (∀ n, t.tick n = t.withFm { t.fm with timer := some (p + n) }) ∧
        (∀ a b n o, t.boot.device = .run → t.connectionEntry a = some 0 → t.outstanding .engine = false →
          ∃ v, exec (.connectionRead a b n o) t = .next v ∧ v.fm.lock = .locking ∧ v.fm.onTime = 0 ∧ v.fm.misses = 0) ∧
        SoundUnchanged s t ∧ SameRequests s t ∧ t.boot = s.boot ∧ t.pairing = s.pairing ∧ t.pending = s.pending) ∧
    (∀ p, s.fm.lock = .locked → s.fm.timer = some p → 533 ≤ p →
      ∃ t u, exec (.windowExpiry order) s = .next t ∧
        t.fm = { s.fm with lock := .holdover, misses := 1, frame := s.fm.frame + 1, timer := some 0,
                           endsOpen := true } ∧
        t.boot = s.boot ∧ t.pairing = s.pairing ∧ t.refetch = s.refetch ∧ t.pending = s.pending ∧
        u = (s.withFm t.fm).handMark order ∧ t.slots = u.slots ∧ t.gens = u.gens ∧ t.players = u.players ∧
        t.queue = u.queue ∧ t.rrw = u.rrw) ∧
    ((∀ p, s.fm.timer = some p → p < 533) →
      ∃ t, exec (.windowExpiry order) s = .next t ∧ ControlUnchanged s t ∧ SoundUnchanged s t ∧ SameRequests s t)

/-- FLYWHEEL_EXPIRY with the timer at 512 periods in HOLDOVER: at miss count 1 a second flywheel mark with miss count 2;
at miss count 2 the stall, with miss count 3, the stall flag set, no mark, the timer counting on, and FRAME_STALL of
the device stamped with F. With the timer short of 512 periods nothing happens (logs 3, 8); in every other lock state
this expiry does nothing, nor does WINDOW_EXPIRY outside LOCKING and LOCKED. -/
def Obligations.FlywheelExpiryInHoldover : Prop :=
  ∀ (s : State) (order : List MarkTask), s.Settled →
    (∀ p, s.fm.lock = .holdover → s.fm.misses = 1 → s.fm.timer = some p → 512 ≤ p →
      ∃ t u, exec (.flywheelExpiry order) s = .next t ∧
      t.fm = { s.fm with misses := 2, frame := s.fm.frame + 1, timer := some 0, endsOpen := true } ∧
      t.boot = s.boot ∧ t.pairing = s.pairing ∧ t.refetch = s.refetch ∧ t.pending = s.pending ∧
      u = (s.withFm t.fm).handMark order ∧ t.slots = u.slots ∧ t.gens = u.gens ∧ t.players = u.players ∧
      t.queue = u.queue ∧ t.rrw = u.rrw) ∧
    (∀ p, s.fm.lock = .holdover → s.fm.misses = 2 → s.fm.timer = some p → 512 ≤ p →
      ∃ t, exec (.flywheelExpiry order) s = .next t ∧
      t.fm = { s.fm with lock := .stalled, misses := 3, stallReported := true } ∧
      (∀ n, t.tick n = t.withFm { t.fm with timer := some (p + n) }) ∧
      t.slots = s.slots ∧ t.gens = s.gens ∧ t.players = s.players ∧ t.queue = s.queue ∧ t.refetch = s.refetch ∧
      t.boot = s.boot ∧ t.pairing = s.pairing ∧ t.pending = s.pending ∧
      Reported s t (deviceRecord s.fm.frame .frameStall 0 0)) ∧
    (s.fm.lock ≠ .holdover ∨ (∀ p, s.fm.timer = some p → p < 512) →
      ∃ t, exec (.flywheelExpiry order) s = .next t ∧ ControlUnchanged s t ∧ SoundUnchanged s t ∧ SameRequests s t) ∧
    (s.fm.lock ≠ .locking → s.fm.lock ≠ .locked →
      ∃ t, exec (.windowExpiry order) s = .next t ∧ ControlUnchanged s t ∧ SoundUnchanged s t ∧ SameRequests s t)

/-- F changes at frame marks alone: RESET sets it to 0; it advances by 1 at an engine mark, which is a
switching-engine read of entry 0 arriving in RUN, and at the flywheel marks of the expiries, in LOCKED with the timer at
533 periods and in HOLDOVER with it at 512; no other command changes it. The REFCLK periods that pass before a
CONNECTION_READ, and the one of an idle step, pass one after another (logs 2, 3): a period is counted on the timer; but
with the timer at its expiry count the expiry is taken first, as its command takes it with no order named, and the ends
of its mark's timers after it. -/
def Obligations.FrameCountAtMarksOnly : Prop :=
  (∀ (c : Instr) (s t : State), exec c s = .next t → (∀ a b n order, c ≠ .connectionRead a b n order) →
    t.fm.frame = s.fm.frame ∨
    (∃ b, c = .reset b ∧ t.fm.frame = 0) ∨
    (t.fm.frame = s.fm.frame + 1 ∧
      ((∃ a b, c = .virtualRead a b ∧ s.boot.device = .run ∧ s.connectionEntry a = some 0) ∨
       (∃ r, c = .passingRequest r ∧ r.master = .engine ∧ r.dir = .read ∧ s.boot.device = .run ∧
          s.connectionEntry r.addr = some 0) ∨
       (∃ order p, c = .windowExpiry order ∧ s.fm.lock = .locked ∧ s.fm.timer = some p ∧ 533 ≤ p) ∨
       (∃ order p, c = .flywheelExpiry order ∧ s.fm.lock = .holdover ∧ s.fm.misses ≤ 1 ∧ s.fm.timer = some p ∧
          512 ≤ p)))) ∧
  (∀ (a : Addr) (b : Strobes) (n : Nat) (order : List MarkTask) (s t u : State), u = s.takeEnds.tick n →
    exec (.connectionRead a b n order) s = .next t →
    t.fm.frame = u.fm.frame ∨
    (t.fm.frame = u.fm.frame + 1 ∧ s.boot.device = .run ∧ s.connectionEntry a = some 0)) ∧
  (∀ s : State, s.tick 0 = s ∧ (∀ m n, s.tick (m + n) = (s.tick m).tick n) ∧
    ((∀ p, s.fm.timer = some p → (s.fm.lock = .locking ∨ s.fm.lock = .locked → p < 533) ∧
        (s.fm.lock = .holdover → p < 512)) →
      s.tick 1 = s.withFm { s.fm with timer := s.fm.timer.map (fun p => p + 1) }) ∧
    (∀ p v, s.Settled → s.fm.timer = some p →
      ((s.fm.lock = .locking ∨ s.fm.lock = .locked) ∧ 533 ≤ p ∧ exec (.windowExpiry []) s = .next v) ∨
        (s.fm.lock = .holdover ∧ 512 ≤ p ∧ exec (.flywheelExpiry []) s = .next v) →
      s.tick 1 = v.takeEnds.withFm { v.takeEnds.fm with timer := v.fm.timer.map (fun p => p + 1) }))

/-- A deadline set n frames after count f is not passed before the n-th mark and is passed at it and at each
mark after it, up to 2^31 marks on, across the wrap of F. -/
def Obligations.DeadlineAtNthMark : Prop :=
  ∀ (f : Frame) (n k : Nat), n < 2 ^ 31 → k < n + 2 ^ 31 →
    (deadlinePassed (f + BitVec.ofNat 32 k) (deadlineAfter f n) = true ↔ n ≤ k)

/-! ### Formats and sample arithmetic -/

/-- A code decodes to the midpoint of its step's span, with its sign; a value encodes with sign 1 exactly where it is
zero or above, and with the segment and step of its magnitude taken as at most 32767; decoding a code and encoding the
result gives the code back. The table value of a phase is read upward in quadrants 0 and 2, downward in 1 and 3, and
is negative in 2 and 3. Scaling multiplies by the gain entry of a mod 12 and divides by 2^(15 + a div 12), rounded; at
attenuation 0 it changes nothing and at any attenuation makes no magnitude larger or of the other sign. A recorded
code is output unchanged at attenuation 0, and the idle code as the idle code at every attenuation. -/
def Obligations.SampleCodes : Prop :=
  (∀ x : Byte,
    (x.toNat % 128 < 16 → (decodeCode x).natAbs = x.toNat % 16 * 16 + 8) ∧
    (∀ k, 1 ≤ k → x.toNat % 128 / 16 = k → (decodeCode x).natAbs =
      256 * 2 ^ (k - 1) + x.toNat % 16 * 16 * 2 ^ (k - 1) + 8 * 2 ^ (k - 1)) ∧
    (0 ≤ decodeCode x ↔ 128 ≤ x.toNat) ∧ encodeValue (decodeCode x) = x) ∧
  (∀ (v : Int) (m : Nat), m = min v.natAbs 32767 →
    (128 ≤ (encodeValue v).toNat ↔ 0 ≤ v) ∧ (m < 256 → (encodeValue v).toNat % 128 = m / 16) ∧
    (∀ k, 1 ≤ k → k ≤ 7 → 256 * 2 ^ (k - 1) ≤ m → m < 256 * 2 ^ k →
      (encodeValue v).toNat % 128 = k * 16 + (m - 256 * 2 ^ (k - 1)) / (16 * 2 ^ (k - 1)))) ∧
  (∀ (phase : Word) (i : Nat), i = phase.toNat % 16384 / 64 →
    (phase.toNat / 16384 = 0 → tableValue phase = sineEntry i) ∧
    (phase.toNat / 16384 = 1 → tableValue phase = sineEntry (256 - i)) ∧
    (phase.toNat / 16384 = 2 → tableValue phase = -(sineEntry i : Int)) ∧
    (phase.toNat / 16384 = 3 → tableValue phase = -(sineEntry (256 - i) : Int))) ∧
  (List.range 12).map gainEntry =
    [32768, 30935, 29205, 27571, 26029, 24573, 23198, 21900, 20675, 19519, 18427, 17396] ∧
  (∀ (v : Int) (a : BitVec 7), v.natAbs ≤ 32767 →
    (scaleValue v a).natAbs =
      (v.natAbs * gainEntry (a.toNat % 12) + 2 ^ (14 + a.toNat / 12)) / 2 ^ (15 + a.toNat / 12) ∧
    (scaleValue v a).natAbs ≤ v.natAbs ∧ (0 ≤ v → 0 ≤ scaleValue v a) ∧ (v ≤ 0 → scaleValue v a ≤ 0) ∧
    scaleValue v 0 = v) ∧
  (∀ x : Byte, rescaleCode x 0 = x) ∧ (∀ a : BitVec 7, rescaleCode 128 a = 128)

/-- The record written for an outcome has eight words (Table 13-6): kind and flags, source, program, detail, the
frame stamp with its low word first, the underrun count, and the lap phase in bit 0 of the last. Status codes, kinds,
causes and playlist faults have the numbers of Tables 13-7 to 13-9; the sources are the slots and, as 256, the
device. -/
def Obligations.ReportRecordLayout : Prop :=
  (∀ (o : Outcome) (phase : Bool),
    (recordWords o phase).length = 8 ∧ byteAt (recordWords o phase) 0 = o.kind.code ∧
    (byteAt (recordWords o phase) 1).getLsbD 0 = o.impaired ∧
    (byteAt (recordWords o phase) 1).getLsbD 1 = o.faulted ∧
    (byteAt (recordWords o phase) 1).getLsbD 2 = o.superseded ∧
    (byteAt (recordWords o phase) 1).toNat < 8 ∧
    (wordAt (recordWords o phase) 2).toNat = o.source.val ∧ (wordAt (recordWords o phase) 4).toNat = o.program.val ∧
    wordAt (recordWords o phase) 6 = o.detail ∧
    wordAt (recordWords o phase) 10 ++ wordAt (recordWords o phase) 8 = o.stamp ∧
    wordAt (recordWords o phase) 12 = o.underruns ∧
    wordAt (recordWords o phase) 14 = if phase then 0x0001 else 0x0000) ∧
  [StatusCode.loading, .running, .badSignature, .badVersion, .badRegion, .badLimit, .badCongestion].map
    StatusCode.code = [0x0001, 0x0002, 0x0011, 0x0012, 0x0013, 0x0014, 0x0015] ∧
  [ReportKind.dwellEnd, .annDone, .waitTimeout, .queueFull, .noGenerator, .slotFault, .reloaded, .frameStall,
    .frameRelock, .congKept].map ReportKind.code = [1, 2, 3, 4, 5, 6, 16, 17, 18, 19] ∧
  [Cause.range, .absent, .type, .reserved, .highway, .binding].map causeCode = [1, 2, 3, 4, 5, 6] ∧
  [PlaylistFault.stackFull, .badStep, .zeroCount, .outOfStore, .noAudio].map PlaylistFault.code =
    [16, 17, 18, 19, 20] ∧
  (∀ j : Slot, (slotSource j).val = j.val) ∧ deviceSource.val = 256

/-- The checks 2 to 5 of a descriptor (Table 5-1) in order, and what the part takes from a copy: steps above
32767 as 32767, the leading run of cadence steps whose duration is not zero, each with the components its mask bits 8
and 9 name, a listen count of 0 as 1, an option program exactly where its valid flag is set, and a player's playlist
start, window and attenuation. -/
def Obligations.DescriptorCopyRead : Prop :=
  (∀ (ws : List Word) (h : Nat), h < 8 →
    let kind := (byteAt ws 0).toNat
    let set := fun (o b : Nat) => (wordAt ws o).getLsbD b = true
    let options := ∃ b, 9 ≤ b ∧ b < 16 ∧ set 20 b
    let reserved := (∃ b, b < 16 ∧ set 2 b) ∨
      (kind = 1 ∧ (set 8 7 ∨ set 8 15 ∨ (∃ b, 12 ≤ b ∧ b < 16 ∧ set 10 b) ∨ options ∨
        ∃ o b, (o = 12 ∨ o = 14 ∨ o = 16 ∨ o = 18) ∧ 10 ≤ b ∧ b < 16 ∧ set o b)) ∨
      (kind = 2 ∧ ((∃ b, 4 ≤ b ∧ b < 8 ∧ set 8 b) ∨ (∃ b, 10 ≤ b ∧ b < 16 ∧ set 8 b) ∨ set 10 7 ∨ options ∨
        ∃ b, 9 ≤ b ∧ b < 16 ∧ set 22 b))
    (checkCopy (some h) ws = some .absent ↔ kind = 0) ∧
    (checkCopy (some h) ws = some .type ↔ 2 < kind) ∧
    (checkCopy (some h) ws = some .reserved ↔ (kind = 1 ∨ kind = 2) ∧ reserved) ∧
    (checkCopy (some h) ws = some .highway ↔ (kind = 1 ∨ kind = 2) ∧ ¬ reserved ∧ ¬ set 0 (8 + h)) ∧
    (checkCopy (some h) ws = none ↔ (kind = 1 ∨ kind = 2) ∧ ¬ reserved ∧ set 0 (8 + h)) ∧
    (checkCopy none ws = none ↔ (kind = 1 ∨ kind = 2) ∧ ¬ reserved) ∧ (isTone ws = true ↔ kind = 1)) ∧
  (∀ ws : List Word,
    (toneCopyOf ws).step1.toNat = min (wordAt ws 4).toNat 32767 ∧
    (toneCopyOf ws).step2.toNat = min (wordAt ws 6).toNat 32767 ∧
    (toneCopyOf ws).att1.toNat = (byteAt ws 8).toNat % 128 ∧ (toneCopyOf ws).att2.toNat = (byteAt ws 9).toNat % 128 ∧
    (∀ k, k ≤ 4 → (∀ i, i < k → lowByte (wordAt ws (12 + 2 * i)) ≠ 0) →
      (k < 4 → lowByte (wordAt ws (12 + 2 * k)) = 0) →
      (toneCopyOf ws).cadence = (List.range k).map (fun i => cadenceStepOf (wordAt ws (12 + 2 * i)))) ∧
    dwellOf ws = (wordAt ws 10).toNat % 4096 ∧
    (annFieldsOf ws).listens = max 1 ((byteAt ws 8).toNat % 16) ∧
    (annFieldsOf ws).priority.toNat = (byteAt ws 9).toNat % 4 ∧ (annFieldsOf ws).maxWait = byteAt ws 24 ∧
    (∀ p : Program, (nextProgramOf ws = some p ↔ (wordAt ws 20).getLsbD 8 = true ∧ p.val = (byteAt ws 20).toNat) ∧
      ((annFieldsOf ws).filler = some p ↔ (wordAt ws 20).getLsbD 8 = true ∧ p.val = (byteAt ws 20).toNat) ∧
      ((annFieldsOf ws).after = some p ↔ (wordAt ws 22).getLsbD 8 = true ∧ p.val = (byteAt ws 22).toNat)) ∧
    (playerCopyOf ws).start.toNat = (wordAt ws 4).toNat + 65536 * (byteAt ws 6).toNat ∧
    (playerCopyOf ws).window = byteAt ws 11 ∧
    (playerCopyOf ws).attenuation.toNat = (byteAt ws 10).toNat % 128) ∧
  (∀ w : Word, (cadenceStepOf w).duration = lowByte w ∧
    ((cadenceStepOf w).mask.hasOne = w.getLsbD 8) ∧ ((cadenceStepOf w).mask.hasTwo = w.getLsbD 9)) ∧
  ([CadenceMask.none, .one, .two, .both].map (fun m => (m.hasOne, m.hasTwo)) =
    [(false, false), (true, false), (false, true), (true, true)])

/-! ### Placing a slot -/

/-- ATTACH_FETCH_COMPLETE: an answer whose generation does not match is discarded with no effect. A matching
answer that fails checks 2 to 5 puts the slot in FAULT, with SLOT_FAULT and the cause of the first check that
fails. -/
def Obligations.AttachFetchChecked : Prop :=
  ∀ (s : State) (r : OwnRequest) (data : Word) (j : Slot) (p : Program), s.Settled → s.LastWordOf r →
    r.kind = .attachFetch j p →
    ∃ t ws, exec (.attachFetchComplete data) s = .next t ∧ ws = (r.advance data).answer ∧ Completed s t ∧
      (r.gen ≠ some (s.slot j).gen → Discarded s t) ∧
      (∀ cause, r.gen = some (s.slot j).gen → (s.slot j).state = .attaching p →
        checkCopy (some (j.val / 32)) ws = some cause →
        t.slot j = { s.slot j with state := .fault p, gen := (s.slot j).gen + 1 } ∧
        (∀ i, i ≠ j → t.slot i = s.slot i) ∧ t.gens = s.gens ∧ t.refetch = s.refetch ∧ t.players = s.players ∧
        t.queue = s.queue ∧ t.boot = s.boot ∧ Reported s t (slotRecord s j .slotFault p (causeCode cause)))

/-- ATTACH_FETCH_COMPLETE with a valid TONE copy places the slot at once, in this order: on the fresh generator
of p; or on the lowest-numbered FREE one of TG0 to TG14, bound from the copy with phases 0, code 128 and
reference count 1; or, where there is neither, in OVERFLOW with NO_GENERATOR. A dwell d is armed d × 800 frames
on, with the next program held; a dwell of 0 is none. -/
def Obligations.TonePlaced : Prop :=
  ∀ (s : State) (r : OwnRequest) (data : Word) (j : Slot) (p : Program) (ws : List Word) (dwell : Option Dwell),
    s.Settled → s.LastWordOf r → r.kind = .attachFetch j p → r.gen = some (s.slot j).gen →
    (s.slot j).state = .attaching p → ws = (r.advance data).answer → checkCopy (some (j.val / 32)) ws = none →
    isTone ws = true → s.OneFreshGenerator →
    dwell = (if dwellOf ws = 0 then none
      else some { deadline := s.fm.frame + BitVec.ofNat 32 (dwellOf ws * 800), next := nextProgramOf ws }) →
    ∃ t, exec (.attachFetchComplete data) s = .next t ∧ Completed s t ∧ (∀ i, i ≠ j → t.slot i = s.slot i) ∧
      t.refetch = s.refetch ∧ t.players = s.players ∧ t.queue = s.queue ∧ t.boot = s.boot ∧
      (∀ g, (s.generator g).isFreshFor p = true →
        t.slot j = { s.slot j with state := .tone p g dwell, gen := (s.slot j).gen + 1 } ∧ t.rrw = s.rrw ∧
        t.generator g = { s.generator g with count := (s.generator g).count + 1 } ∧
        ∀ h, h ≠ g → t.generator h = s.generator h) ∧
      ((∀ h, (s.generator h).isFreshFor p = false) →
        (∀ g, g ≠ 15 → (s.generator g).binding = none → (∀ h, h < g → (s.generator h).binding ≠ none) →
          t.slot j = { s.slot j with state := .tone p g dwell, gen := (s.slot j).gen + 1 } ∧ t.rrw = s.rrw ∧
          t.generator g = boundGenerator p (toneCopyOf ws) (!r.overtaken) 1 ∧
          ∀ h, h ≠ g → t.generator h = s.generator h) ∧
        ((∀ g, g ≠ 15 → (s.generator g).binding ≠ none) →
          t.slot j = { s.slot j with state := .overflow p, gen := (s.slot j).gen + 1 } ∧
          t.generator 15 = { s.generator 15 with count := (s.generator 15).count + 1 } ∧
          (∀ h, h ≠ 15 → t.generator h = s.generator h) ∧
          Reported s t (slotRecord s j .noGenerator p 0)))

/-- ATTACH_FETCH_COMPLETE with a valid ANNOUNCEMENT copy takes the first case that applies: the slot joins the
open player of p; with max wait 0 it goes to OVERFLOW with WAIT_TIMEOUT, detail 0; with 32 entries queued, to
OVERFLOW with QUEUE_FULL. -/
def Obligations.ArrivalServedOrRefused : Prop :=
  ∀ (s : State) (r : OwnRequest) (data : Word) (j : Slot) (p : Program) (ws : List Word) (ann : AnnFields),
    s.Settled → s.LastWordOf r → r.kind = .attachFetch j p → r.gen = some (s.slot j).gen →
    (s.slot j).state = .attaching p → ws = (r.advance data).answer → checkCopy (some (j.val / 32)) ws = none →
    isTone ws = false → s.OneFreshPlayer → ann = annFieldsOf ws →
    ∃ t, exec (.attachFetchComplete data) s = .next t ∧ Completed s t ∧ (∀ i, i ≠ j → t.slot i = s.slot i) ∧
      (∀ n, (s.player n).program = some p → (s.player n).isOpen = true →
        t.slot j = { s.slot j with state := .playing p ann n ann.listens (s.player n).underruns
                                   gen := (s.slot j).gen + 1 } ∧
        (∀ i, i ∈ (t.player n).listeners ↔ i = j ∨ i ∈ (s.player n).listeners) ∧
        t.player n = { s.player n with listeners := (t.player n).listeners } ∧
        (∀ m, m ≠ n → t.player m = s.player m) ∧ t.gens = s.gens ∧ t.queue = s.queue ∧ t.rrw = s.rrw) ∧
      ((∀ n, (s.player n).program = some p → (s.player n).isOpen = false) →
        (ann.maxWait = 0 ∨ 32 ≤ s.queue.length →
          t.slot j = { s.slot j with state := .overflow p, gen := (s.slot j).gen + 1 } ∧
          t.generator 15 = { s.generator 15 with count := (s.generator 15).count + 1 } ∧
          (∀ h, h ≠ 15 → t.generator h = s.generator h) ∧ t.players = s.players ∧ t.queue = s.queue ∧
          Reported s t (slotRecord s j (if ann.maxWait = 0 then .waitTimeout else .queueFull) p 0)))

/-- ATTACH_FETCH_COMPLETE with a valid ANNOUNCEMENT copy, no open player of p, a max wait and room in the queue:
the entry is appended with its priority and a deadline max wait × 800 frames on; the slot is WAITING, on the
fresh generator of its filler where there is one, or else on the idle code with a filler fetch queued where the
filler lies below L; and where no fresh player of p exists the lowest-numbered FREE player is bound to p, PRIMING
with its binding fetch queued. -/
def Obligations.ArrivalQueued : Prop :=
  ∀ (s : State) (r : OwnRequest) (data : Word) (j : Slot) (p : Program) (ws : List Word) (ann : AnnFields),
    s.Settled → s.LastWordOf r → r.kind = .attachFetch j p → r.gen = some (s.slot j).gen →
    (s.slot j).state = .attaching p → ws = (r.advance data).answer → checkCopy (some (j.val / 32)) ws = none →
    isTone ws = false → s.OneFreshGenerator → ann = annFieldsOf ws →
    (∀ n, (s.player n).program = some p → (s.player n).isOpen = false) → ann.maxWait ≠ 0 → s.queue.length < 32 →
    ∃ t filler, exec (.attachFetchComplete data) s = .next t ∧ Completed s t ∧
      (∀ i, i ≠ j → t.slot i = s.slot i) ∧ t.rrw = s.rrw ∧
      t.queue = s.queue ++ [{ slot := j, program := p, priority := ann.priority,
                              deadline := s.fm.frame + BitVec.ofNat 32 (ann.maxWait.toNat * 800) }] ∧
      t.slot j = { s.slot j with state := .waiting p ann filler, gen := (s.slot j).gen + 1 } ∧
      (ann.filler = none → filler = none) ∧
      (∀ f, ann.filler = some f →
        (∀ g, (s.generator g).isFreshFor f = true → filler = some g) ∧
        ((∀ g, (s.generator g).isFreshFor f = false) → filler = none ∧
          (f.val < s.limit → ∃ q, t.Waiting q ∧ q.kind = .fillerFetch j f ∧ q.gen = some (t.slot j).gen ∧
            q.length = 16 ∧ q.addr = s.programBase + BitVec.ofNat 24 (32 * f.val)))) ∧
      (∀ g, t.generator g = if filler = some g then { s.generator g with count := (s.generator g).count + 1 }
        else s.generator g) ∧
      ((∃ n, (s.player n).isFreshFor p = true) ∨ (∀ n, (s.player n).state ≠ .free) → t.players = s.players) ∧
      (∀ n, (∀ m, (s.player m).isFreshFor p = false) → (s.player n).state = .free →
        (∀ m, m < n → (s.player m).state ≠ .free) →
        (∀ m, m ≠ n → t.player m = s.player m) ∧
        t.player n = { Player.reset with state := .priming, program := some p, gen := (s.player n).gen + 1 } ∧
        ∃ q, t.Waiting q ∧ q.kind = .bindingFetch n p ∧ q.gen = some (t.player n).gen ∧ q.length = 16 ∧
          q.addr = s.programBase + BitVec.ofNat 24 (32 * p.val))

/-- FILLER_FETCH_COMPLETE: an answer whose generation does not match is discarded. A matching copy that passes
with the type TONE gives the waiting slot the fresh generator of the filler, or the lowest-numbered FREE one of
TG0 to TG14 bound from the copy with count 1; where the copy fails or there is no generator the filler is lost
and the slot waits on the idle code with no record. -/
def Obligations.FillerFetchTaken : Prop :=
  ∀ (s : State) (r : OwnRequest) (data : Word) (j : Slot) (p f : Program) (ann : AnnFields), s.Settled →
    s.LastWordOf r → r.kind = .fillerFetch j f → s.OneFreshGenerator →
    ∃ t ws, exec (.fillerFetchComplete data) s = .next t ∧ ws = (r.advance data).answer ∧ Completed s t ∧
      (r.gen ≠ some (s.slot j).gen → Discarded s t) ∧
      (r.gen = some (s.slot j).gen → (s.slot j).state = .waiting p ann none →
        (checkCopy (some (j.val / 32)) ws ≠ none ∨ isTone ws = false → SoundUnchanged s t) ∧
        (checkCopy (some (j.val / 32)) ws = none → isTone ws = true →
          (∀ i, i ≠ j → t.slot i = s.slot i) ∧ t.refetch = s.refetch ∧ t.players = s.players ∧ t.queue = s.queue ∧
          t.rrw = s.rrw ∧ t.boot = s.boot ∧
          (∀ g, (s.generator g).isFreshFor f = true →
            t.slot j = { s.slot j with state := .waiting p ann (some g) } ∧
            t.generator g = { s.generator g with count := (s.generator g).count + 1 } ∧
            ∀ h, h ≠ g → t.generator h = s.generator h) ∧
          ((∀ h, (s.generator h).isFreshFor f = false) →
            (∀ g, g ≠ 15 → (s.generator g).binding = none → (∀ h, h < g → (s.generator h).binding ≠ none) →
              t.slot j = { s.slot j with state := .waiting p ann (some g) } ∧
              t.generator g = boundGenerator f (toneCopyOf ws) (!r.overtaken) 1 ∧
              ∀ h, h ≠ g → t.generator h = s.generator h) ∧
            ((∀ g, g ≠ 15 → (s.generator g).binding ≠ none) → SoundUnchanged s t))))

/-! ### Ends of timers -/

/-- DWELL_EXPIRY of a TONE slot whose deadline is passed: DWELL_END with the next program's number, or FFFFh; with
a next program the generator is released and the next program's attach begins. Where it does not exist the slot is in
FAULT: SLOT_FAULT with RANGE is held behind the DWELL_END record, which is queued where the slot has no unconsumed
record; where it has one, SLOT_FAULT takes the place of the DWELL_END held (R163). With no next program the slot stays in
TONE without a dwell. A dwell not passed, or no dwell, is not taken. -/
def Obligations.DwellExpiryTaken : Prop :=
  ∀ (s : State) (j : Slot) (p : Program) (g : GenIx) (d : Dwell),
    ((s.slot j).state = .tone p g (some d) → deadlinePassed s.fm.frame d.deadline = true →
      ∃ t, exec (.dwellExpiry j) s = .next t ∧ ServingOnly { s with bus := t.bus } t ∧
        (∀ i, i ≠ j → t.slot i = s.slot i) ∧ t.players = s.players ∧ t.queue = s.queue ∧
        (d.next = none → t.slot j = { s.slot j with state := .tone p g none } ∧ t.gens = s.gens ∧
          Reported s t (slotRecord s j .dwellEnd p 0xFFFF)) ∧
        (∀ q, d.next = some q →
          t.generator g = releasedGenerator g (s.generator g) ∧ (∀ h, h ≠ g → t.generator h = s.generator h) ∧
          (t.slot j).shadow = (s.slot j).shadow ∧
          (q.val < s.limit → (t.slot j).state = .attaching q ∧
            Reported s t (slotRecord s j .dwellEnd p (wordOfNat q.val)) ∧
            ∃ r, t.Waiting r ∧ r.kind = .attachFetch j q ∧ r.gen = some (t.slot j).gen ∧ r.length = 16 ∧
              r.addr = s.programBase + BitVec.ofNat 24 (32 * q.val)) ∧
          (s.limit ≤ q.val → (t.slot j).state = .fault q ∧
            (s.isPending (slotSource j) = false → Reported s t (slotRecord s j .dwellEnd p (wordOfNat q.val))) ∧
            (s.boot.accepted.isSome = true → t.heldOutcome (slotSource j) =
              some { slotRecord s j .slotFault q 1 with
                superseded := s.isPending (slotSource j) || (s.heldOutcome (slotSource j)).isSome })))) ∧
    ((∀ q h e, (s.slot j).state = .tone q h (some e) → deadlinePassed s.fm.frame e.deadline = false) →
      ∃ t, exec (.dwellExpiry j) s = .next t ∧ ControlUnchanged s t ∧ SoundUnchanged s t ∧ SameRequests s t)

/-- WAIT_TIMEOUT takes the oldest entry whose deadline is passed: the entry leaves the queue, the slot goes to
OVERFLOW with its filler released and TG15 counted, and WAIT_TIMEOUT carries the slot's max wait. Where no
deadline is passed nothing is taken. -/
def Obligations.WaitTimeoutTaken : Prop :=
  ∀ s : State,
    (∀ (older newer : List WaitEntry) (e : WaitEntry) (ann : AnnFields) (filler : Option GenIx), s.Membership →
      s.queue = older ++ e :: newer → (∀ x ∈ older, deadlinePassed s.fm.frame x.deadline = false) →
      deadlinePassed s.fm.frame e.deadline = true → (s.slot e.slot).state = .waiting e.program ann filler →
      ∃ t, exec .waitTimeout s = .next t ∧ ServingOnly { s with bus := t.bus } t ∧ t.queue = older ++ newer ∧
        (t.slot e.slot).state = .overflow e.program ∧ (t.slot e.slot).shadow = (s.slot e.slot).shadow ∧
        (∀ i, i ≠ e.slot → t.slot i = s.slot i) ∧ t.players = s.players ∧
        (∀ g h, filler = some g → h ≠ g → h ≠ 15 → t.generator h = s.generator h) ∧
        (∀ g, filler = some g → g ≠ 15 → t.generator g = releasedGenerator g (s.generator g)) ∧
        (filler ≠ some 15 → t.generator 15 = { s.generator 15 with count := (s.generator 15).count + 1 }) ∧
        (filler = none → ∀ h, h ≠ 15 → t.generator h = s.generator h) ∧
        Reported s t (slotRecord s e.slot .waitTimeout e.program (ann.maxWait.setWidth 16))) ∧
    ((∀ x ∈ s.queue, deadlinePassed s.fm.frame x.deadline = false) →
      ∃ t, exec .waitTimeout s = .next t ∧ ControlUnchanged s t ∧ SoundUnchanged s t ∧ SameRequests s t)

/-- JOIN_WINDOW_CLOSE closes a player whose frames left are 0 to direct arrivals and changes nothing else; one
whose frames left are above 0 stays as it is. A player is open where it is RUNNING and fresh with its window open.
CADENCE_STEP_END moves a generator whose frames left are 0 to the next step of its list, cyclically, with that step's
duration × 40 frames left; one with frames left, or without a cadence, stays as it is. -/
def Obligations.WindowAndCadenceEnds : Prop :=
  (∀ pl : Player, pl.isOpen = true ↔ pl.state = .running ∧ pl.fresh = some true ∧ pl.windowOpen = true) ∧
  (∀ (s : State) (n : PlayerIx), ∃ t, exec (.joinWindowClose n) s = .next t ∧
    ((s.player n).framesLeft = 0 → t = s.setPlayer n { s.player n with windowOpen := false } ∧
      (t.player n).isOpen = false) ∧
    ((s.player n).framesLeft ≠ 0 → t = s)) ∧
  (∀ (s : State) (g : GenIx), ∃ t, exec (.cadenceStepEnd g) s = .next t ∧
    (∀ b i c, (s.generator g).binding = some b → b.cadence = some (i, 0) →
      b.copy.cadence[(i + 1) % b.copy.cadence.length]? = some c →
      t = s.setGenerator g { s.generator g with
        binding := some { b with cadence := some ((i + 1) % b.copy.cadence.length, c.duration.toNat * 40) } }) ∧
    ((∀ b i, (s.generator g).binding = some b → b.cadence ≠ some (i, 0)) → t = s))

/-! ### Generators -/

/-- A frame mark is handed to the blocks in turn: the generators once and each of AP0 to AP7 once, with the dwell and
wait ends that the order names at their places; a well-formed order comes first as it stands (R36; log 5). At a BOUND
generator the code is made from its phases as they stand by the mask of its cadence step, the idle code where that is
none; then each phase advances by its step, on or off, and the cadence counts one frame. A FREE generator takes no step.
A cadence step with `frames` frames left is left after exactly that many marks, each followed by CADENCE_STEP_END (the
step's end is a command of its own by log 4), and not before. A generator is fresh for the program it is bound to while
its fresh flag stands. -/
def Obligations.GeneratorMarked : Prop :=
  (∀ (s : State) (order : List MarkTask), ∃ l : List MarkTask, s.handMark order = l.foldl State.runTask s ∧
    l.count .tones = 1 ∧ (∀ n, l.count (.player n) = 1) ∧ (∀ j, l.count (.dwell j) = order.count (.dwell j)) ∧
    l.count .wait = order.count .wait ∧ (orderWellFormed order = true → order <+: l)) ∧
  (∀ s : State, s.runTask .tones = s.markTones ∧ (∀ n, s.runTask (.player n) = s.markPlayer n) ∧
    (∀ j, exec (.dwellExpiry j) s = .next (s.runTask (.dwell j)).finish) ∧
    exec .waitTimeout s = .next (s.runTask .wait).finish) ∧
  (∀ (s : State) (g : GenIx), s.markTones = s.withGens s.markTones.gens ∧
    ((s.generator g).binding = none → s.markTones.generator g = s.generator g) ∧
    ∀ b mask, (s.generator g).binding = some b →
      (b.cadence = none ∧ mask = .both ∨
        ∃ i frames c, b.cadence = some (i, frames) ∧ b.copy.cadence[i]? = some c ∧ mask = c.mask) →
      ∃ code, s.markTones.generator g = {
          binding := some { b with cadence := b.cadence.map (fun c => (c.1, c.2 - 1)) }
          count := (s.generator g).count
          phase1 := (s.generator g).phase1 + b.copy.step1
          phase2 := (s.generator g).phase2 + b.copy.step2
          code := code } ∧
        (mask = .none → code = 128) ∧
        (mask ≠ .none → code = encodeValue (max (-32768) (min 32767
          ((if b.copy.step1 ≠ 0 ∧ mask ≠ .two then scaleValue (tableValue (s.generator g).phase1) b.copy.att1 else 0) +
           (if b.copy.step2 ≠ 0 ∧ mask ≠ .one then scaleValue (tableValue (s.generator g).phase2) b.copy.att2
            else 0)))))) ∧
  (∀ (s : State) (g : GenIx) (b : ToneBinding) (i frames : Nat) (c : CadenceStep) (mark : State → State),
    mark = (fun u => u.markTones.afterAll [.cadenceStepEnd g]) → (s.generator g).binding = some b →
    b.cadence = some (i, frames) → 1 ≤ frames → b.copy.cadence[(i + 1) % b.copy.cadence.length]? = some c →
    (∀ m, m < frames → ((mark^[m] s).generator g).binding = some { b with cadence := some (i, frames - m) }) ∧
    ((mark^[frames] s).generator g).binding =
      some { b with cadence := some ((i + 1) % b.copy.cadence.length, c.duration.toNat * 40) }) ∧
  (∀ (p : Program) (x : Generator), x.isFreshFor p = true ↔
    ∃ b, x.binding = some b ∧ b.program = p ∧ b.fresh = true)

/-- REFETCH_COMPLETE: an answer whose generation does not match is discarded. A matching answer makes the refetch
idle; a TONE copy that passes checks 1 to 4 is adopted by TG15, whose cadence starts again at step 0 and whose
phases, code and count stay; any other copy leaves TG15 as it is, and CONG_KEPT carries the cause. -/
def Obligations.RefetchTaken : Prop :=
  ∀ (s : State) (r : OwnRequest) (data : Word) (c : Program), s.Settled → s.LastWordOf r → r.kind = .refetch c →
    ∃ t ws, exec (.refetchComplete data) s = .next t ∧ ws = (r.advance data).answer ∧ Completed s t ∧
      (r.gen ≠ some s.refetch.gen → Discarded s t) ∧
      (r.gen = some s.refetch.gen → s.refetch.busy = true →
        t.refetch = { s.refetch with busy := false } ∧ t.slots = s.slots ∧ t.players = s.players ∧
        t.queue = s.queue ∧ t.boot = s.boot ∧
        (checkCopy none ws = none → isTone ws = true → t.rrw = s.rrw ∧
          (∀ h, h ≠ 15 → t.generator h = s.generator h) ∧
          ∀ b, (s.generator 15).binding = some b →
            t.generator 15 = { s.generator 15 with binding := some { b with
              copy := toneCopyOf ws
              cadence := (toneCopyOf ws).cadence.head?.map (fun step => (0, step.duration.toNat * 40)) } }) ∧
        (∀ cause, checkCopy none ws = some cause ∨ (checkCopy none ws = none ∧ isTone ws = false ∧ cause = .type) →
          t.gens = s.gens ∧
          Reported s t (deviceRecord s.fm.frame .congKept c (causeCode cause))))

/-! ### Players and walkers -/

/-- BINDING_FETCH_COMPLETE: an answer whose generation does not match is discarded. A copy that fails, or is not
ANNOUNCEMENT, frees the player and puts every slot waiting for p in FAULT with BINDING, out of the queue, in queue
order; the allocator then runs on the entries that are left. A valid copy that a store overtook frees the player,
leaves the entries in the queue, and the allocator runs on them. No other player is reached. -/
def Obligations.BindingFetchFails : Prop :=
  ∀ (s : State) (r : OwnRequest) (data : Word) (n : PlayerIx) (p : Program), s.Settled → s.LastWordOf r →
    r.kind = .bindingFetch n p → s.Membership →
    ∃ t ws, exec (.bindingFetchComplete data) s = .next t ∧ ws = (r.advance data).answer ∧ Completed s t ∧
      (r.gen ≠ some (s.player n).gen → Discarded s t) ∧
      (r.gen = some (s.player n).gen → (s.player n).state = .priming → (s.player n).fresh = none →
        t.boot = s.boot ∧ t.refetch = s.refetch ∧ (∀ m, m ≠ n → t.player m = s.player m) ∧
        (checkCopy none ws ≠ none ∨ isTone ws = true → Freed s t n ∧
          t.queue = s.queue.filter (fun e => e.program != p) ∧
          (∀ j ann filler, (s.slot j).state = .waiting p ann filler → (t.slot j).state = .fault p ∧
            (t.slot j).shadow = (s.slot j).shadow) ∧
          (∀ older e newer, s.queue.filter (fun e => e.program == p) = older ++ e :: newer →
            HandedOver s t (s.recordsOf (older.map (fun x => x.slot))) (slotRecord s e.slot .slotFault p 6)) ∧
          ∀ j, (∀ ann filler, (s.slot j).state ≠ .waiting p ann filler) → t.slot j = s.slot j) ∧
        (checkCopy none ws = none → isTone ws = false → r.overtaken = true → Freed s t n ∧
          t.queue = s.queue ∧ t.slots = s.slots ∧ t.gens = s.gens ∧ t.rrw = s.rrw))

/-- BINDING_FETCH_COMPLETE with a valid ANNOUNCEMENT copy not overtaken: the player takes playlist start, window
and attenuation, is fresh, and stays in PRIMING; its walker starts at the playlist start with an empty stack, the
bank of the start and zero-time count 0, fetching the step there, 4 words at AB + start. A start that is odd or
beyond the store is a FAULT at the first pass start: the slots waiting for p join and complete in increasing order,
with ANN_DONE FAULTED and the cause, BAD_STEP for an odd start (also where it lies beyond the store: the model's choice,
log 27) and OUT_OF_STORE else; every entry for p has left the queue, and the player goes FREE and tells the
allocator. -/
def Obligations.BindingFetchTaken : Prop :=
  ∀ (s : State) (r : OwnRequest) (data : Word) (n : PlayerIx) (p : Program) (ws : List Word) (start : Nat),
    s.Settled → s.LastWordOf r → r.kind = .bindingFetch n p → r.overtaken = false → s.Membership →
    s.player n = { Player.reset with state := .priming, program := some p, gen := (s.player n).gen } →
    r.gen = some (s.player n).gen → ws = (r.advance data).answer → checkCopy none ws = none → isTone ws = false →
    start = (playerCopyOf ws).start.toNat →
    ∃ t, exec (.bindingFetchComplete data) s = .next t ∧ Completed s t ∧ t.boot = s.boot ∧ t.refetch = s.refetch ∧
      (start % 2 = 0 → start + 8 ≤ s.storeSize →
        t.player n = { s.player n with
          fresh := some true
          copy := some (playerCopyOf ws)
          walker := { Walker.reset with
            state := .walking
            bank := BitVec.ofNat 8 (start / 65536)
            next := .fetching start } } ∧
        (∀ m, m ≠ n → t.player m = s.player m) ∧ t.slots = s.slots ∧ t.gens = s.gens ∧ t.queue = s.queue ∧
        t.rrw = s.rrw ∧ ∃ q, t.Waiting q ∧ q.kind = .stepFetch n ∧ q.gen = some (s.player n).gen ∧ q.length = 4 ∧
          q.addr = s.storeBase + BitVec.ofNat 24 start) ∧
      (∀ cause : PlaylistFault, start % 2 = 1 ∧ cause = .badStep ∨ start % 2 = 0 ∧ s.storeSize < start + 8 ∧ cause = .outOfStore →
        Freed s t n ∧ t.queue = s.queue.filter (fun e => e.program != p) ∧ (∀ m, m ≠ n → t.player m = s.player m) ∧
        (∀ j, (∀ ann filler, (s.slot j).state ≠ .waiting p ann filler) → t.slot j = s.slot j) ∧
        ∀ waiting, waiting.Pairwise (fun i j => i < j) →
          (∀ j, j ∈ waiting ↔ ∃ ann filler, (s.slot j).state = .waiting p ann filler) →
          ∀ older j newer ann filler, waiting = older ++ j :: newer → (s.slot j).state = .waiting p ann filler →
            AfterTaken s t j ann ∧ ((∀ q, ann.after = some q → q.val < s.limit) →
              HandedOver s t (s.recordsOf older) { slotRecord s j .annDone p cause.code with faulted := true }))

/-- STEP_FETCH_COMPLETE: an answer whose generation does not match, or that finds the walker not WALKING (log 26), is
discarded. Otherwise the fetched step is HELD, the walker advances, and a PRIMING player takes what has become FULL.
With a current step still to be placed and no half EMPTY the step stays HELD. With none it is promoted: a step that
passes the checks is taken and its successor fetched; one that fails halts the walker with the fault, and the walker's
next entry is dropped (the model's choice, log 26). -/
def Obligations.StepFetchTaken : Prop :=
  ∀ (s : State) (r : OwnRequest) (data : Word) (n : PlayerIx), s.Settled → s.LastWordOf r → r.kind = .stepFetch n →
    ∃ t ws, exec (.stepFetchComplete data) s = .next t ∧ ws = (r.advance data).answer ∧ Completed s t ∧
      (r.gen ≠ some (s.player n).gen ∨ (s.player n).walker.state ≠ .walking → Discarded s t) ∧
      (∀ offset w u, r.gen = some (s.player n).gen → w = (s.player n).walker → w.state = .walking →
        w.next = .fetching offset → u = ((s.withMra { s.mra with underWay := none }).withBus
          { s.bus with port := none }).setPlayer n
            { s.player n with walker := { w with next := .held offset (parseStep ws) } } →
        t = ((u.advanceWalker n).primed n).finish) ∧
      (∀ offset w st, r.gen = some (s.player n).gen → w = (s.player n).walker → st = parseStep ws →
        w.state = .walking → w.next = .fetching offset → (s.player n).half w.nextHalf ≠ .empty →
        (s.player n).state = .running →
        t.slots = s.slots ∧ t.gens = s.gens ∧ t.refetch = s.refetch ∧ t.queue = s.queue ∧ t.rrw = s.rrw ∧
        t.boot = s.boot ∧ (∀ m, m ≠ n → t.player m = s.player m) ∧
        t.player n = { s.player n with walker := (t.player n).walker } ∧
        (w.current ≠ none → (t.player n).walker = { w with next := .held offset st }) ∧
        (w.current = none → ∀ cause, promotionFault s.storeSize { w with next := .held offset st } st = some cause →
          (t.player n).walker = { w with state := .halting cause, current := none, next := .empty }) ∧
        (w.current = none → ∀ k succ w', promotionFault s.storeSize { w with next := .held offset st } st = none →
          stepKind st = some k → takeStep (s.player n).start { w with next := .held offset st } offset st k = (w', succ) →
          succ % 2 = 0 → succ + 8 ≤ s.storeSize → (t.player n).walker = { w' with next := .fetching succ } ∧
          ∃ q, t.Waiting q ∧ q.kind = .stepFetch n ∧ q.gen = some (s.player n).gen ∧ q.length = 4 ∧
            q.addr = s.storeBase + BitVec.ofNat 24 succ))

/-- A step's fields stand as in Table 13-5 (R174). The five checks of a promotion (Table 9-2) in order. PLAY, GAP, JOIN
and END become the current step and BANK sets the bank; their successor is the next step, END's the playlist start. A
CALL goes to its target, and the RETURN that matches it, with whatever stands between them leaving the stack as the call
left it, returns to the step after the CALL, with the stack of before and the bank of before a long CALL, or the bank as
it now stands after a short one. A RETURN with the stack empty goes to the playlist start as an END. -/
def Obligations.StepsTaken : Prop :=
  (∀ (ws : List Word) (st : PlaylistStep), st = parseStep ws →
     st.kind = byteAt ws 0 ∧ st.long = (byteAt ws 1).getLsbD 0 ∧ st.ref = wordAt ws 2 ∧ st.refHigh = byteAt ws 4 ∧
     st.count = wordAt ws 6) ∧
  (∀ st : PlaylistStep, (stepKind st = some .play ↔ st.kind.toNat = 1) ∧ (stepKind st = some .gap ↔ st.kind.toNat = 2) ∧
     (stepKind st = some .join ↔ st.kind.toNat = 3) ∧ (stepKind st = some .call ↔ st.kind.toNat = 4) ∧
     (stepKind st = some .ret ↔ st.kind.toNat = 5) ∧ (stepKind st = some .bank ↔ st.kind.toNat = 6) ∧
     (stepKind st = some .endPass ↔ st.kind.toNat = 7) ∧
     (stepKind st = none ↔ st.kind.toNat = 0 ∨ 7 < st.kind.toNat)) ∧
  (∀ (size : Nat) (w : Walker) (st : PlaylistStep),
     let kind := st.kind.toNat
     let bad := kind = 0 ∨ 7 < kind
     let zero := (kind = 1 ∨ kind = 2) ∧ st.count = 0
     let out := kind = 1 ∧
       size < (if st.long then st.refHigh.toNat else w.bank.toNat) * 65536 + st.ref.toNat + st.count.toNat
     let silent := 3 ≤ kind ∧ 15 ≤ w.zeroTime
     let full := kind = 4 ∧ 4 ≤ w.stack.length
     (promotionFault size w st = some .badStep ↔ bad) ∧
     (promotionFault size w st = some .zeroCount ↔ ¬ bad ∧ zero) ∧
     (promotionFault size w st = some .outOfStore ↔ ¬ bad ∧ ¬ zero ∧ out) ∧
     (promotionFault size w st = some .noAudio ↔ ¬ bad ∧ ¬ zero ∧ ¬ out ∧ silent) ∧
     (promotionFault size w st = some .stackFull ↔ ¬ bad ∧ ¬ zero ∧ ¬ out ∧ ¬ silent ∧ full) ∧
     (promotionFault size w st = none ↔ ¬ bad ∧ ¬ zero ∧ ¬ out ∧ ¬ silent ∧ ¬ full)) ∧
  (∀ (start offset : Nat) (w : Walker) (st : PlaylistStep),
     takeStep start w offset st .play = ({ w with current := some (.play offset
       ((if st.long then st.refHigh.toNat else w.bank.toNat) * 65536 + st.ref.toNat) st.count.toNat) }, offset + 8) ∧
     takeStep start w offset st .gap = ({ w with current := some (.gap offset st.count.toNat) }, offset + 8) ∧
     takeStep start w offset st .join =
       ({ w with current := some (.join offset), zeroTime := w.zeroTime + 1 }, offset + 8) ∧
     takeStep start w offset st .bank = ({ w with bank := lowByte st.ref, zeroTime := w.zeroTime + 1 }, offset + 8) ∧
     takeStep start w offset st .endPass =
       ({ w with current := some (.endPass offset), zeroTime := w.zeroTime + 1 }, start)) ∧
  (∀ (start offset back : Nat) (w u v : Walker) (call ret : PlaylistStep) (target after : Nat),
     takeStep start w offset call .call = (u, target) → v.stack = u.stack →
     (target = (if call.long then call.refHigh.toNat else w.bank.toNat) * 65536 + call.ref.toNat) ∧
     u.zeroTime = w.zeroTime + 1 ∧ u.current = w.current ∧
     u.bank = (if call.long then call.refHigh else w.bank) ∧
     (∀ x, takeStep start v back ret .ret = (x, after) → after = offset + 8 ∧ x.stack = w.stack ∧
       x.zeroTime = v.zeroTime + 1 ∧ x.bank = if call.long then w.bank else v.bank) ∧
     (∀ x y, y.stack = [] → takeStep start y back ret .ret = (x, after) → after = start ∧
       x.current = some (.endPass back) ∧ x.bank = y.bank ∧ x.stack = [] ∧ x.zeroTime = y.zeroTime + 1))

/-- The walker's advance is its moves, one after another, until none applies: it has not stopped short of its bound
(log 16). A move places, where the next half is EMPTY and something stands to be placed: of a PLAY the next chunk, at
most 64 codes, 63 from an odd reference, FILLING, with its fill of whole words queued; a GAP's silence, a JOIN mark, an
END mark with the pass restarted, or the pending FAULT mark, after which the walker is STOPPED. Else, WALKING with no
current step, it promotes: an UNREACHABLE or failing step halts it, and its next entry is dropped (a halted walker's next
entry is log 26's detail); a HELD one that passes is taken and its successor set, which is UNREACHABLE where it is odd (log 27) or beyond the store and else fetched. -/
def Obligations.WalkerSettles : Prop :=
  (∀ (s : State) (n : PlayerIx), (s.advanceWalker n).walkOnce n = none ∧
    (s.walkOnce n = none → s.advanceWalker n = s) ∧
    (∀ t, s.walkOnce n = some t → s.advanceWalker n = t.advanceWalker n)) ∧
  (∀ (s : State) (n : PlayerIx) (pl : Player) (w : Walker), pl = s.player n → w = pl.walker →
    (pl.half w.nextHalf = .empty →
      (∀ offset ref count len, w.state = .walking → w.current = some (.play offset ref count) →
        len = min count (64 - ref % 2) → ∃ q, s.walkOnce n = some ((s.setPlayer n
          { pl.setHalf w.nextHalf (.filling ref len) with walker := { w with
              current := if count = len then none else some (.play offset (ref + len) (count - len))
              zeroTime := 0
              nextHalf := w.nextHalf.other } }).enqueue q) ∧
          q.kind = .fill n w.nextHalf ∧ q.gen = some pl.gen ∧ q.data = [] ∧ q.answer = [] ∧ q.done = 0 ∧
          q.addr = s.storeBase + BitVec.ofNat 24 (ref - ref % 2) ∧ q.length = (ref % 2 + len + 1) / 2) ∧
      (∀ offset count, w.state = .walking → w.current = some (.gap offset count) →
        s.walkOnce n = some (s.setPlayer n { pl.setHalf w.nextHalf (.full (.silence count)) with
          walker := { w with current := none, zeroTime := 0, nextHalf := w.nextHalf.other } })) ∧
      (∀ offset, w.state = .walking → w.current = some (.join offset) →
        s.walkOnce n = some (s.setPlayer n { pl.setHalf w.nextHalf (.full (.mark .join)) with
          walker := { w with current := none, nextHalf := w.nextHalf.other } })) ∧
      (∀ offset, w.state = .walking → w.current = some (.endPass offset) →
        s.walkOnce n = some (s.setPlayer n { pl.setHalf w.nextHalf (.full (.mark .endPass)) with
          walker := { w with current := none, stack := [], bank := BitVec.ofNat 8 (pl.start / 65536),
                             nextHalf := w.nextHalf.other } })) ∧
      (∀ cause, w.state = .halting cause →
        s.walkOnce n = some (s.setPlayer n { pl.setHalf w.nextHalf (.full (.mark (.fault cause))) with
          walker := { w with state := .stopped, current := none, nextHalf := w.nextHalf.other } }))) ∧
    (w.state = .stopped → s.walkOnce n = none) ∧
    (pl.half w.nextHalf ≠ .empty → w.state ≠ .walking ∨ w.current ≠ none → s.walkOnce n = none) ∧
    (w.state = .walking → w.current = none →
      (w.next = .empty ∨ (∃ o, w.next = .fetching o) → s.walkOnce n = none) ∧
      (∀ o cause, w.next = .unreachable o cause → s.walkOnce n = some (s.setPlayer n { pl with
        walker := { w with state := .halting cause, current := none, next := .empty } })) ∧
      (∀ o st cause, w.next = .held o st → promotionFault s.storeSize w st = some cause →
        s.walkOnce n = some (s.setPlayer n { pl with
          walker := { w with state := .halting cause, current := none, next := .empty } })) ∧
      (∀ o st k v succ, w.next = .held o st → promotionFault s.storeSize w st = none → stepKind st = some k →
        takeStep pl.start w o st k = (v, succ) →
        (succ % 2 = 1 → s.walkOnce n = some (s.setPlayer n { pl with
          walker := { v with next := .unreachable succ .badStep } })) ∧
        (succ % 2 = 0 → s.storeSize < succ + 8 → s.walkOnce n = some (s.setPlayer n { pl with
          walker := { v with next := .unreachable succ .outOfStore } })) ∧
        (succ % 2 = 0 → succ + 8 ≤ s.storeSize → ∃ q, s.walkOnce n = some ((s.setPlayer n { pl with
            walker := { v with next := .fetching succ } }).enqueue q) ∧
          q.kind = .stepFetch n ∧ q.gen = some pl.gen ∧ q.data = [] ∧ q.answer = [] ∧ q.done = 0 ∧ q.length = 4 ∧
          q.addr = s.storeBase + BitVec.ofNat 24 succ))))

/-- FILL_COMPLETE: an answer whose generation does not match, or that finds the half not FILLING (the model's choice,
log 26), is discarded. In RUNNING the half is FULL with the chunk's codes, which are the bytes of the words read from
the chunk's first byte on, and nothing else changes. -/
def Obligations.FillTaken : Prop :=
  ∀ (s : State) (r : OwnRequest) (data : Word) (n : PlayerIx) (h : HalfName), s.Settled → s.LastWordOf r →
    r.kind = .fill n h →
    ∃ t ws, exec (.fillComplete data) s = .next t ∧ ws = (r.advance data).answer ∧ Completed s t ∧
      (r.gen ≠ some (s.player n).gen ∨ (∀ first length, (s.player n).half h ≠ .filling first length) →
        Discarded s t) ∧
      (∀ first length, r.gen = some (s.player n).gen → (s.player n).half h = .filling first length →
        (s.player n).state = .running → first % 2 + length ≤ 2 * ws.length →
        ∃ codes, t.player n = (s.player n).setHalf h (.full (.samples codes)) ∧ codes.length = length ∧
          (∀ i, i < length → codes[i]? = some (byteAt ws (first % 2 + i))) ∧
          (∀ m, m ≠ n → t.player m = s.player m) ∧ t.slots = s.slots ∧ t.gens = s.gens ∧ t.refetch = s.refetch ∧
          t.queue = s.queue ∧ t.rrw = s.rrw ∧ t.boot = s.boot)

/-- A player's first pass start, at the fill that makes its first audible chunk FULL in PRIMING: every slot waiting
for p leaves the queue and joins, PLAYING with its listen count and the player's underrun total, and the window
opens for window × 80 frames; where no slot waits, the player goes FREE and tells the allocator. In general a PRIMING
player takes what is FULL at the head of its output at once: a JOIN or END mark is passed over, its half becomes EMPTY
and the walker advances; sound, silence or a FAULT mark is the first pass start, RUNNING with cursor 0 and a join
point, after which a player without listeners goes FREE, and else a FAULT mark is taken (R113). A join point of a stale
player takes none and closes its window (R114). -/
def Obligations.FirstPassStarts : Prop :=
  (∀ (s : State) (r : OwnRequest) (data : Word) (n : PlayerIx) (h : HalfName) (p : Program) (c : PlayerCopy)
    (first length : Nat), s.Settled → s.LastWordOf r → r.kind = .fill n h → s.Membership →
    (s.player n).half h = .filling first length → r.gen = some (s.player n).gen → (s.player n).state = .priming →
    (s.player n).current = h → (s.player n).fresh = some true → (s.player n).program = some p →
    (s.player n).copy = some c →
    ∃ t, exec (.fillComplete data) s = .next t ∧ Completed s t ∧
      t.queue = s.queue.filter (fun e => e.program != p) ∧ (∀ m, m ≠ n → t.player m = s.player m) ∧
      (∀ j ann filler, (s.slot j).state = .waiting p ann filler →
        (t.slot j).state = .playing p ann n ann.listens (s.player n).underruns) ∧
      (∀ j, (∀ ann filler, (s.slot j).state ≠ .waiting p ann filler) → t.slot j = s.slot j) ∧
      (s.hasWaiter p = false → Freed s t n) ∧
      (s.hasWaiter p = true → (t.player n).state = .running ∧ (t.player n).cursor = 0 ∧
        (t.player n).framesLeft = c.window.toNat * 80 ∧ ((t.player n).windowOpen = true ↔ c.window ≠ 0) ∧
        (t.player n).code = (s.player n).code ∧
        ∀ j, j ∈ (t.player n).listeners ↔ ∃ ann filler, (s.slot j).state = .waiting p ann filler)) ∧
  (∀ (s : State) (n : PlayerIx) (pl : Player), pl = s.player n →
    (pl.state ≠ .priming ∨ (∀ c, pl.half pl.current ≠ .full c) → s.primed n = s) ∧
    (∀ m, pl.state = .priming → pl.half pl.current = .full (.mark m) → m = .join ∨ m = .endPass →
      s.primed n = ((s.setPlayer n { pl.setHalf pl.current .empty with
        current := pl.current.other
        cursor := 0 }).advanceWalker n).primed n) ∧
    (∀ c u, pl.state = .priming → pl.half pl.current = .full c → c ≠ .mark .join → c ≠ .mark .endPass →
      u = (s.setPlayer n { pl with state := .running, cursor := 0 }).joinPoint n →
      ((u.player n).listeners = [] → s.primed n = u.releasePlayer n) ∧
      ((u.player n).listeners ≠ [] → (∀ cause, c = .mark (.fault cause) → s.primed n = u.faultMark n cause) ∧
        ((∀ m, c ≠ .mark m) → s.primed n = u)))) ∧
  (∀ (s : State) (n : PlayerIx) (p : Program) (t : State), t = s.joinPoint n → s.Membership →
    (s.player n).program = some p →
    ((s.player n).fresh = some false →
      t = s.setPlayer n { s.player n with framesLeft := 0, windowOpen := false }) ∧
    (∀ c, (s.player n).fresh = some true → (s.player n).copy = some c →
      t.queue = s.queue.filter (fun e => e.program != p) ∧ t.rrw = s.rrw ∧
      (∀ m, m ≠ n → t.player m = s.player m) ∧
      t.player n = { s.player n with
        listeners := (t.player n).listeners
        framesLeft := c.window.toNat * 80
        windowOpen := decide (c.window ≠ 0) } ∧
      (∀ j, j ∈ (t.player n).listeners ↔ j ∈ (s.player n).listeners ∨
        ∃ ann filler, (s.slot j).state = .waiting p ann filler) ∧
      (∀ j ann filler, (s.slot j).state = .waiting p ann filler →
        (t.slot j).state = .playing p ann n ann.listens (s.player n).underruns) ∧
      (∀ j, (∀ ann filler, (s.slot j).state ≠ .waiting p ann filler) → t.slot j = s.slot j)))

/-- A frame mark at a RUNNING player: frames left count down. Marks at the head of its output are then taken, one after
another while it stays RUNNING: a JOIN mark is a join point, an END mark a pass end, a FAULT mark the fault; the half of
a mark taken becomes EMPTY and the walker advances. Then it outputs one code: a recorded code rescaled by its
attenuation, the idle code in a silence, or, where the half is not FULL, the idle code as an underrun frame, which is
counted. A half whose chunk is spent becomes EMPTY, the other becomes current with the cursor at 0, and the walker
advances. A player not RUNNING takes no step. -/
def Obligations.PlayerMarked : Prop :=
  ∀ (s : State) (n : PlayerIx) (pl : Player), pl = s.player n →
    (pl.state ≠ .running → s.markPlayer n = s) ∧
    (∀ m v, pl.state = .running → pl.half pl.current = .full (.mark m) →
      v = (s.setPlayer n { pl with framesLeft := pl.framesLeft - 1 }).takeMark n m →
      ((v.player n).state ≠ .running → s.markPlayer n = v) ∧
      (∀ u x, (v.player n).state = .running →
        u = (v.setPlayer n { (v.player n).setHalf (v.player n).current .empty with
          current := (v.player n).current.other
          cursor := 0 }).advanceWalker n →
        x = { u.player n with framesLeft := (u.player n).framesLeft + 1 } →
        s.markPlayer n = (u.setPlayer n x).markPlayer n)) ∧
    (s.takeMark n .join = s.joinPoint n ∧ s.takeMark n .endPass = s.passEnd n ∧
      ∀ cause, s.takeMark n (.fault cause) = s.faultMark n cause) ∧
    (∀ codes x c, pl.state = .running → pl.half pl.current = .full (.samples codes) → pl.copy = some c →
      codes[pl.cursor]? = some x →
      (pl.cursor + 1 < codes.length → s.markPlayer n = s.setPlayer n { pl with
        framesLeft := pl.framesLeft - 1
        code := encodeValue (scaleValue (decodeCode x) c.attenuation)
        cursor := pl.cursor + 1 }) ∧
      (pl.cursor + 1 = codes.length → s.markPlayer n = (s.setPlayer n { pl.setHalf pl.current .empty with
        framesLeft := pl.framesLeft - 1
        code := encodeValue (scaleValue (decodeCode x) c.attenuation)
        current := pl.current.other
        cursor := 0 }).advanceWalker n)) ∧
    (∀ frames, pl.state = .running → pl.half pl.current = .full (.silence frames) →
      (pl.cursor + 1 < frames → s.markPlayer n = s.setPlayer n { pl with
        framesLeft := pl.framesLeft - 1
        code := 128
        cursor := pl.cursor + 1 }) ∧
      (pl.cursor + 1 = frames → s.markPlayer n = (s.setPlayer n { pl.setHalf pl.current .empty with
        framesLeft := pl.framesLeft - 1
        code := 128
        current := pl.current.other
        cursor := 0 }).advanceWalker n)) ∧
    (pl.state = .running → (∀ c, pl.half pl.current ≠ .full c) → s.markPlayer n = s.setPlayer n { pl with
      framesLeft := pl.framesLeft - 1
      code := 128
      underruns := pl.underruns + 1 })

/-- A pass end: every listener's remaining listens fall by 1. One with listens left stays; those at 0 leave in
increasing order: each slot goes IDLE, or begins the attach of its after program, and ANN_DONE carries the underruns of
its stay, at most 65 535, IMPAIRED where there were any. Where listeners remain or, of a fresh player, slots wait for p,
it is a join point; with none it goes FREE and tells the allocator. A FAULT mark: every listener leaves so, with ANN_DONE
FAULTED and the fault's cause, and the player goes FREE. -/
def Obligations.PassEnds : Prop :=
  (∀ (s : State) (n : PlayerIx) (p : Program) (t : State), t = s.passEnd n → s.Membership →
    (s.player n).state = .running → (s.player n).program = some p →
    (∀ j ann r mark, (s.slot j).state = .playing p ann n r mark → 2 ≤ r →
      (t.slot j).state = .playing p ann n (r - 1) mark ∧ j ∈ (t.player n).listeners) ∧
    (∀ done : List Slot, done.Pairwise (fun i j => i < j) →
      (∀ j, j ∈ done ↔ ∃ q ann r mark, (s.slot j).state = .playing q ann n r mark ∧ r ≤ 1) →
      ∀ older j newer q ann r mark, done = older ++ j :: newer → (s.slot j).state = .playing q ann n r mark →
        j ∉ (t.player n).listeners ∧ AfterTaken s t j ann ∧ ((∀ q, ann.after = some q → q.val < s.limit) →
          HandedOver s t (s.recordsOf older) { slotRecord s j .annDone q 0 with
            impaired := (s.player n).underruns != mark
            underruns := BitVec.ofNat 16 (min ((s.player n).underruns - mark).toNat 65535) })) ∧
    ((∀ j q ann r mark, (s.slot j).state = .playing q ann n r mark → r ≤ 1) →
      (s.player n).fresh = some false ∨ s.hasWaiter p = false → Freed s t n) ∧
    (∀ c, (s.player n).fresh = some true → (s.player n).copy = some c → s.hasWaiter p = true ∨
        (∃ j q ann r mark, (s.slot j).state = .playing q ann n r mark ∧ 2 ≤ r) →
      (t.player n).state = .running ∧ (t.player n).framesLeft = c.window.toNat * 80 ∧
      ((t.player n).windowOpen = true ↔ c.window ≠ 0) ∧
      t.queue = s.queue.filter (fun e => e.program != p) ∧
      ∀ j ann filler, (s.slot j).state = .waiting p ann filler →
        (t.slot j).state = .playing p ann n ann.listens (s.player n).underruns) ∧
    ((s.player n).fresh = some false → t.queue = s.queue ∧
      ((∃ j q ann r mark, (s.slot j).state = .playing q ann n r mark ∧ 2 ≤ r) →
        (t.player n).state = .running ∧ (t.player n).framesLeft = 0 ∧ (t.player n).windowOpen = false)) ∧
    (∀ j, (∀ q ann r mark, (s.slot j).state ≠ .playing q ann n r mark) →
      (∀ ann filler, (s.slot j).state ≠ .waiting p ann filler) → t.slot j = s.slot j)) ∧
  (∀ (s : State) (n : PlayerIx) (cause : PlaylistFault) (t : State), t = s.faultMark n cause → s.Membership →
    Freed s t n ∧ (∀ m, m ≠ n → t.player m = s.player m) ∧ t.queue = s.queue ∧ t.gens = s.gens ∧
    (∀ j, j ∉ (s.player n).listeners → t.slot j = s.slot j) ∧
    ∀ older j newer q ann r mark, (s.player n).listeners = older ++ j :: newer →
      (s.slot j).state = .playing q ann n r mark →
      AfterTaken s t j ann ∧ ((∀ q, ann.after = some q → q.val < s.limit) →
        HandedOver s t (s.recordsOf older) { slotRecord s j .annDone q cause.code with
          impaired := (s.player n).underruns != mark
          faulted := true
          underruns := BitVec.ofNat 16 (min ((s.player n).underruns - mark).toNat 65535) }))

/-- The allocator binds a freed player to the program of an eligible entry: one of the highest priority among the
eligible, and of those the one nearest the head of the queue. With no eligible entry it does nothing. An entry is
eligible where no fresh player of its program exists; a PRIMING player is fresh until its flag says otherwise, a RUNNING
one while its flag stands. Binding makes the player PRIMING for the program with its other items at their initial values
and a new generation, withdraws its queued reads, and queues its binding fetch. A player that is freed keeps its
underrun total, and the allocator runs at that event. -/
def Obligations.AllocatorChooses : Prop :=
  (∀ (s : State) (n : PlayerIx),
    ((∀ e ∈ s.queue, ∃ m, (s.player m).isFreshFor e.program = true) → s.allocate n = s) ∧
    (∀ older newer e, s.queue = older ++ e :: newer → (∀ m, (s.player m).isFreshFor e.program = false) →
      (∀ x ∈ older, (∀ m, (s.player m).isFreshFor x.program = false) → x.priority < e.priority) →
      (∀ x ∈ newer, (∀ m, (s.player m).isFreshFor x.program = false) → x.priority ≤ e.priority) →
      s.allocate n = s.bindPlayer n e.program)) ∧
  (∀ (p : Program) (pl : Player), pl.isFreshFor p = true ↔ pl.program = some p ∧
    (pl.state = .priming ∧ pl.fresh ≠ some false ∨ pl.state = .running ∧ pl.fresh = some true)) ∧
  (∀ (s : State) (n : PlayerIx) (p : Program) (t : State) (gen : Generation), t = s.bindPlayer n p →
    gen = nextGeneration (s.player n).gen (s.underWayGen (readOfPlayer n)) →
    ServingOnly s t ∧ t.slots = s.slots ∧ t.gens = s.gens ∧ t.queue = s.queue ∧ t.rrw = s.rrw ∧
    t.mra.underWay = s.mra.underWay ∧ (∀ m, m ≠ n → t.player m = s.player m) ∧
    t.player n = { Player.reset with state := .priming, program := some p, gen := gen } ∧
    (∃ q, t.Waiting q ∧ q.kind = .bindingFetch n p ∧ q.gen = some gen ∧ q.length = 16 ∧ q.overtaken = false ∧
      q.addr = s.programBase + BitVec.ofNat 24 (32 * p.val)) ∧
    (∀ q, t.Waiting q → readOfPlayer n q.kind = true → q.kind = .bindingFetch n p ∧ q.gen = some gen) ∧
    (∀ q, s.Waiting q → readOfPlayer n q.kind = false → t.Waiting q)) ∧
  (∀ (s : State) (n : PlayerIx) (t : State), t = s.releasePlayer n →
    ServingOnly s t ∧ t.slots = s.slots ∧ t.gens = s.gens ∧ t.queue = s.queue ∧ t.rrw = s.rrw ∧
    (∀ m, m ≠ n → t.player m = s.player m) ∧ Freed s t n)

/-! ### Own requests and the report ring -/

/-- The MRA's choice among the queued requests, where none is chosen or under way. In RUN a step fetch or fill
goes before every other request, the one whose player has the fewest buffered frames first, then the lower player
number, and among one player's requests the one queued first; then descriptor fetches, the oldest first; then report
writes, the oldest first. In BOOT only the boot's requests and the drain's writes are chosen; in BYPASS none is. A
RUNNING player's buffered frames are those its FULL halves still hold of sound or silence, the current half's less the
cursor; any other player's are 0. The choice is made at each event at which one can be made: every step keeps it so that,
where no own request is chosen or under way, none is queued that may be chosen. Where a command leaves a request chosen
that was not, it is the one so preferred of those then queued, by the figures as they stand at the end of the event (log
24); a command that first takes the ends of timers, or before which time passes an expiry, is more events than one, and
each makes its own choice. -/
def Obligations.ChoiceOrder : Prop :=
  (∀ (s : State), s.mra.chosen = none → s.mra.underWay = none →
    (s.boot.device = .bypass → s.choose = s) ∧
    (∀ r, s.choose.mra.chosen = some r → r ∈ s.mra.queued ∧ s.choose.mra.queued = s.mra.queued.erase r ∧
      (s.boot.device = .boot → r.drain = true ∨ r.kind.isBoot = true)) ∧
    (s.boot.device = .boot → ∀ older r newer, s.mra.queued = older ++ r :: newer →
      r.drain = true ∨ r.kind.isBoot = true → (∀ q ∈ older, q.drain = false ∧ q.kind.isBoot = false) →
      s.choose.mra.chosen = some r) ∧
    (s.boot.device = .run →
      (∀ q n, q ∈ s.mra.queued → q.kind.sound? = some n → ∃ r m, s.choose.mra.chosen = some r ∧
        r.kind.sound? = some m ∧ ((s.player m).buffered < (s.player n).buffered ∨
          ((s.player m).buffered = (s.player n).buffered ∧ m ≤ n))) ∧
      (∀ older r newer q n, s.mra.queued = older ++ r :: newer → r.kind.sound? = some n →
        (∀ x ∈ older, x.kind.sound? ≠ some n) → s.choose.mra.chosen = some q → q.kind.sound? = some n → q = r) ∧
      ((∀ q ∈ s.mra.queued, q.kind.sound? = none) → ∀ older r newer, s.mra.queued = older ++ r :: newer →
        (r.kind.descriptor?.isSome = true → (∀ q ∈ older, q.kind.descriptor? = none) →
          s.choose.mra.chosen = some r) ∧
        (r.kind.isReport = true → (∀ q ∈ s.mra.queued, q.kind.descriptor? = none) →
          (∀ q ∈ older, q.kind.isReport = false) → s.choose.mra.chosen = some r)))) ∧
  (∀ pl : Player, (pl.state ≠ .running → pl.buffered = 0) ∧
    (pl.state = .running → pl.buffered =
      ((pl.half pl.current).frames - pl.cursor) + (pl.half pl.current.other).frames)) ∧
  (∀ h : Half, (∀ codes, h = .full (.samples codes) → h.frames = codes.length) ∧
    (∀ frames, h = .full (.silence frames) → h.frames = frames) ∧
    ((∀ c, h ≠ .full c) ∨ (∃ m, h = .full (.mark m)) → h.frames = 0)) ∧
  (∀ s t : State, s.ChoiceMade → step s = .next t → t.ChoiceMade) ∧
  (∀ (c : Instr) (s t : State) (r : OwnRequest), s.Settled →
    (∀ a b n order k, c = .connectionRead a b n order → s.fm.untilExpiry = some k → n ≤ k) →
    exec c s = .next t → t.mra.chosen = some r →
    (∀ q, s.mra.chosen = some q → q.kind ≠ r.kind ∨ q.gen ≠ r.gen) →
    ∃ u : State, u.mra.chosen = none ∧ u.mra.underWay = none ∧ t.boot = u.boot ∧ t.players = u.players ∧
      t.mra = u.choose.mra)

/-- REPORT_WRITE_COMPLETE: P advances by 1, modulo 512, the phase flips where P passes from 511 to 0, and the
source joins the ring order list; ATTN is high exactly while P differs from C. The last write of a drain leads to
the LOADING write. -/
def Obligations.ReportWriteTaken : Prop :=
  ∀ (s : State) (r : OwnRequest) (src : Source), s.Settled → s.LastWordOf r → r.kind = .reportWrite src →
    ∃ t, exec .reportWriteComplete s = .next t ∧ Completed s t ∧ t.slots = s.slots ∧ t.gens = s.gens ∧
      t.refetch = s.refetch ∧ t.players = s.players ∧ t.queue = s.queue ∧
      t.rrw = { s.rrw with
        producer := s.rrw.producer + 1
        phase := if s.rrw.producer = 511 then !s.rrw.phase else s.rrw.phase
        order := s.rrw.order ++ [src] } ∧
      (t.attn = true ↔ s.rrw.producer + 1 ≠ s.rrw.consumer) ∧
      (s.boot.stage ≠ some .drain ∨ (∃ q ∈ s.mra.chosen.toList ++ s.mra.queued, q.drain = true) →
        t.boot = s.boot ∧ t.requestsHeld.Perm (s.mra.chosen.toList ++ s.mra.queued)) ∧
      (s.boot.stage = some .drain → (∀ q ∈ s.mra.chosen.toList ++ s.mra.queued, q.drain = false) →
        t.boot = { s.boot with stage := some .loading } ∧
        ∃ q, t.requestsHeld.Perm (s.mra.chosen.toList ++ s.mra.queued ++ [q]) ∧ q.kind = .statusWrite .loading ∧
          q.data = [0x0001] ∧ q.addr = BitVec.ofNat 24 (s.boot.bootsel.toNat * 65536 + 62))

/-! ### What every step keeps -/

/-- The lock machine's counts, stall flag and timer stay as its lock state allows (R28, R30 to R34). The queue never
holds more than 32 entries, the return stacks more than 4, a zero-time count 16, or a half more than 64 codes
(R111, R134, R138, R142). A player's window latch stays set exactly while frames are left, but between a mark that leaves
none and the close that follows it (R115; log 4). -/
def Obligations.BoundsKept : Prop :=
  ∀ s t : State, step s = .next t → (s.fm.Lawful → t.fm.Lawful) ∧ (s.QueueBounded → t.QueueBounded) ∧
    (s.PlayersBounded → t.PlayersBounded) ∧ (s.WindowsLatched → t.WindowsLatched)

/-- A slot is in the waiting queue exactly while it is WAITING, and in a player's listener set exactly while it is
PLAYING with it; a player has listeners exactly while it is RUNNING (R71, R123). The increasing order in which a
listener set stands is the model's choice (log 19). -/
def Obligations.MembershipKept : Prop :=
  ∀ s t : State, s.Membership → step s = .next t → t.Membership

/-- No two players are ever fresh for one program (R145). -/
def Obligations.OneFreshPlayerKept : Prop :=
  ∀ s t : State, s.OneFreshPlayer → step s = .next t → t.OneFreshPlayer

/-- The boot sequence has one request at a time, in BOOT alone, and outside RUN the part serves nobody (R8, R16 to
R22, R91, R92, R106, R142, R158). -/
def Obligations.BootLawKept : Prop :=
  ∀ s t : State, s.BootLaw → s.QuietOutsideRun → step s = .next t → t.BootLaw ∧ t.QuietOutsideRun

/-- In RUN a record is accepted and TG15 is bound and fresh for its congestion program, and no two generators are
fresh for one program (R66, R100, R101). -/
def Obligations.CongestionServedKept : Prop :=
  ∀ s t : State, s.BootLaw → s.QuietOutsideRun → s.CongestionServed → s.OneFreshGenerator → step s = .next t →
    t.CongestionServed ∧ t.OneFreshGenerator

/-- Each generator's reference count is the number of contexts whose sound source it is, and one of TG0 to TG14 is
FREE exactly at count 0 (R95, R96). -/
def Obligations.ReferenceCountsKept : Prop :=
  ∀ s t : State, s.BootLaw → s.QuietOutsideRun → s.CountsExact → step s = .next t → t.CountsExact

/-- Each source has at most one unconsumed record, flagged pending, an outcome is held for such a source alone, the
order list has one entry for each record from C to P, and each report write stands at the address fixed for its
place in the ring (R163 to R165). -/
def Obligations.ReportRingKept : Prop :=
  ∀ s t : State, s.RingLaw → s.WritesInOrder → step s = .next t → t.RingLaw ∧ t.WritesInOrder
end

