-- ==== Sys2Proof/Laws/State.lean ====
section
/-! SUPPORT. Laws/State.lean: one lemma for each field and each update of State, true by rfl, and what a
read of a bank gives after a write to it. -/

namespace Sys2Proof.Machine

/-! ### withPending -/

@[simp] theorem State.withPending_pending (s : State) (x : List Instr) : (s.withPending x).pending = x := rfl
@[simp] theorem State.withPending_bus (s : State) (x : List Instr) : (s.withPending x).bus = s.bus := rfl
@[simp] theorem State.withPending_pairing (s : State) (x : List Instr) : (s.withPending x).pairing = s.pairing := rfl
@[simp] theorem State.withPending_boot (s : State) (x : List Instr) : (s.withPending x).boot = s.boot := rfl
@[simp] theorem State.withPending_fm (s : State) (x : List Instr) : (s.withPending x).fm = s.fm := rfl
@[simp] theorem State.withPending_slots (s : State) (x : List Instr) : (s.withPending x).slots = s.slots := rfl
@[simp] theorem State.withPending_gens (s : State) (x : List Instr) : (s.withPending x).gens = s.gens := rfl
@[simp] theorem State.withPending_refetch (s : State) (x : List Instr) : (s.withPending x).refetch = s.refetch := rfl
@[simp] theorem State.withPending_players (s : State) (x : List Instr) : (s.withPending x).players = s.players := rfl
@[simp] theorem State.withPending_queue (s : State) (x : List Instr) : (s.withPending x).queue = s.queue := rfl
@[simp] theorem State.withPending_mra (s : State) (x : List Instr) : (s.withPending x).mra = s.mra := rfl
@[simp] theorem State.withPending_rrw (s : State) (x : List Instr) : (s.withPending x).rrw = s.rrw := rfl
@[simp] theorem State.withPending_slot (s : State) (x : List Instr) (i : Slot) :
    (s.withPending x).slot i = s.slot i := rfl
@[simp] theorem State.withPending_generator (s : State) (x : List Instr) (i : GenIx) :
    (s.withPending x).generator i = s.generator i := rfl
@[simp] theorem State.withPending_player (s : State) (x : List Instr) (i : PlayerIx) :
    (s.withPending x).player i = s.player i := rfl

/-! ### withBus -/

@[simp] theorem State.withBus_pending (s : State) (x : Bus) : (s.withBus x).pending = s.pending := rfl
@[simp] theorem State.withBus_bus (s : State) (x : Bus) : (s.withBus x).bus = x := rfl
@[simp] theorem State.withBus_pairing (s : State) (x : Bus) : (s.withBus x).pairing = s.pairing := rfl
@[simp] theorem State.withBus_boot (s : State) (x : Bus) : (s.withBus x).boot = s.boot := rfl
@[simp] theorem State.withBus_fm (s : State) (x : Bus) : (s.withBus x).fm = s.fm := rfl
@[simp] theorem State.withBus_slots (s : State) (x : Bus) : (s.withBus x).slots = s.slots := rfl
@[simp] theorem State.withBus_gens (s : State) (x : Bus) : (s.withBus x).gens = s.gens := rfl
@[simp] theorem State.withBus_refetch (s : State) (x : Bus) : (s.withBus x).refetch = s.refetch := rfl
@[simp] theorem State.withBus_players (s : State) (x : Bus) : (s.withBus x).players = s.players := rfl
@[simp] theorem State.withBus_queue (s : State) (x : Bus) : (s.withBus x).queue = s.queue := rfl
@[simp] theorem State.withBus_mra (s : State) (x : Bus) : (s.withBus x).mra = s.mra := rfl
@[simp] theorem State.withBus_rrw (s : State) (x : Bus) : (s.withBus x).rrw = s.rrw := rfl
@[simp] theorem State.withBus_slot (s : State) (x : Bus) (i : Slot) :
    (s.withBus x).slot i = s.slot i := rfl
@[simp] theorem State.withBus_generator (s : State) (x : Bus) (i : GenIx) :
    (s.withBus x).generator i = s.generator i := rfl
@[simp] theorem State.withBus_player (s : State) (x : Bus) (i : PlayerIx) :
    (s.withBus x).player i = s.player i := rfl

/-! ### withPairing -/

@[simp] theorem State.withPairing_pending (s : State) (x : Option Slot) : (s.withPairing x).pending = s.pending := rfl
@[simp] theorem State.withPairing_bus (s : State) (x : Option Slot) : (s.withPairing x).bus = s.bus := rfl
@[simp] theorem State.withPairing_pairing (s : State) (x : Option Slot) : (s.withPairing x).pairing = x := rfl
@[simp] theorem State.withPairing_boot (s : State) (x : Option Slot) : (s.withPairing x).boot = s.boot := rfl
@[simp] theorem State.withPairing_fm (s : State) (x : Option Slot) : (s.withPairing x).fm = s.fm := rfl
@[simp] theorem State.withPairing_slots (s : State) (x : Option Slot) : (s.withPairing x).slots = s.slots := rfl
@[simp] theorem State.withPairing_gens (s : State) (x : Option Slot) : (s.withPairing x).gens = s.gens := rfl
@[simp] theorem State.withPairing_refetch (s : State) (x : Option Slot) : (s.withPairing x).refetch = s.refetch := rfl
@[simp] theorem State.withPairing_players (s : State) (x : Option Slot) : (s.withPairing x).players = s.players := rfl
@[simp] theorem State.withPairing_queue (s : State) (x : Option Slot) : (s.withPairing x).queue = s.queue := rfl
@[simp] theorem State.withPairing_mra (s : State) (x : Option Slot) : (s.withPairing x).mra = s.mra := rfl
@[simp] theorem State.withPairing_rrw (s : State) (x : Option Slot) : (s.withPairing x).rrw = s.rrw := rfl
@[simp] theorem State.withPairing_slot (s : State) (x : Option Slot) (i : Slot) :
    (s.withPairing x).slot i = s.slot i := rfl
@[simp] theorem State.withPairing_generator (s : State) (x : Option Slot) (i : GenIx) :
    (s.withPairing x).generator i = s.generator i := rfl
@[simp] theorem State.withPairing_player (s : State) (x : Option Slot) (i : PlayerIx) :
    (s.withPairing x).player i = s.player i := rfl

/-! ### withBoot -/

@[simp] theorem State.withBoot_pending (s : State) (x : BootLoader) : (s.withBoot x).pending = s.pending := rfl
@[simp] theorem State.withBoot_bus (s : State) (x : BootLoader) : (s.withBoot x).bus = s.bus := rfl
@[simp] theorem State.withBoot_pairing (s : State) (x : BootLoader) : (s.withBoot x).pairing = s.pairing := rfl
@[simp] theorem State.withBoot_boot (s : State) (x : BootLoader) : (s.withBoot x).boot = x := rfl
@[simp] theorem State.withBoot_fm (s : State) (x : BootLoader) : (s.withBoot x).fm = s.fm := rfl
@[simp] theorem State.withBoot_slots (s : State) (x : BootLoader) : (s.withBoot x).slots = s.slots := rfl
@[simp] theorem State.withBoot_gens (s : State) (x : BootLoader) : (s.withBoot x).gens = s.gens := rfl
@[simp] theorem State.withBoot_refetch (s : State) (x : BootLoader) : (s.withBoot x).refetch = s.refetch := rfl
@[simp] theorem State.withBoot_players (s : State) (x : BootLoader) : (s.withBoot x).players = s.players := rfl
@[simp] theorem State.withBoot_queue (s : State) (x : BootLoader) : (s.withBoot x).queue = s.queue := rfl
@[simp] theorem State.withBoot_mra (s : State) (x : BootLoader) : (s.withBoot x).mra = s.mra := rfl
@[simp] theorem State.withBoot_rrw (s : State) (x : BootLoader) : (s.withBoot x).rrw = s.rrw := rfl
@[simp] theorem State.withBoot_slot (s : State) (x : BootLoader) (i : Slot) :
    (s.withBoot x).slot i = s.slot i := rfl
@[simp] theorem State.withBoot_generator (s : State) (x : BootLoader) (i : GenIx) :
    (s.withBoot x).generator i = s.generator i := rfl
@[simp] theorem State.withBoot_player (s : State) (x : BootLoader) (i : PlayerIx) :
    (s.withBoot x).player i = s.player i := rfl

/-! ### withFm -/

@[simp] theorem State.withFm_pending (s : State) (x : FrameMonitor) : (s.withFm x).pending = s.pending := rfl
@[simp] theorem State.withFm_bus (s : State) (x : FrameMonitor) : (s.withFm x).bus = s.bus := rfl
@[simp] theorem State.withFm_pairing (s : State) (x : FrameMonitor) : (s.withFm x).pairing = s.pairing := rfl
@[simp] theorem State.withFm_boot (s : State) (x : FrameMonitor) : (s.withFm x).boot = s.boot := rfl
@[simp] theorem State.withFm_fm (s : State) (x : FrameMonitor) : (s.withFm x).fm = x := rfl
@[simp] theorem State.withFm_slots (s : State) (x : FrameMonitor) : (s.withFm x).slots = s.slots := rfl
@[simp] theorem State.withFm_gens (s : State) (x : FrameMonitor) : (s.withFm x).gens = s.gens := rfl
@[simp] theorem State.withFm_refetch (s : State) (x : FrameMonitor) : (s.withFm x).refetch = s.refetch := rfl
@[simp] theorem State.withFm_players (s : State) (x : FrameMonitor) : (s.withFm x).players = s.players := rfl
@[simp] theorem State.withFm_queue (s : State) (x : FrameMonitor) : (s.withFm x).queue = s.queue := rfl
@[simp] theorem State.withFm_mra (s : State) (x : FrameMonitor) : (s.withFm x).mra = s.mra := rfl
@[simp] theorem State.withFm_rrw (s : State) (x : FrameMonitor) : (s.withFm x).rrw = s.rrw := rfl
@[simp] theorem State.withFm_slot (s : State) (x : FrameMonitor) (i : Slot) :
    (s.withFm x).slot i = s.slot i := rfl
@[simp] theorem State.withFm_generator (s : State) (x : FrameMonitor) (i : GenIx) :
    (s.withFm x).generator i = s.generator i := rfl
@[simp] theorem State.withFm_player (s : State) (x : FrameMonitor) (i : PlayerIx) :
    (s.withFm x).player i = s.player i := rfl

/-! ### withSlots -/

@[simp] theorem State.withSlots_pending (s : State) (x : Vector SlotContext 256) : (s.withSlots x).pending = s.pending := rfl
@[simp] theorem State.withSlots_bus (s : State) (x : Vector SlotContext 256) : (s.withSlots x).bus = s.bus := rfl
@[simp] theorem State.withSlots_pairing (s : State) (x : Vector SlotContext 256) : (s.withSlots x).pairing = s.pairing := rfl
@[simp] theorem State.withSlots_boot (s : State) (x : Vector SlotContext 256) : (s.withSlots x).boot = s.boot := rfl
@[simp] theorem State.withSlots_fm (s : State) (x : Vector SlotContext 256) : (s.withSlots x).fm = s.fm := rfl
@[simp] theorem State.withSlots_slots (s : State) (x : Vector SlotContext 256) : (s.withSlots x).slots = x := rfl
@[simp] theorem State.withSlots_gens (s : State) (x : Vector SlotContext 256) : (s.withSlots x).gens = s.gens := rfl
@[simp] theorem State.withSlots_refetch (s : State) (x : Vector SlotContext 256) : (s.withSlots x).refetch = s.refetch := rfl
@[simp] theorem State.withSlots_players (s : State) (x : Vector SlotContext 256) : (s.withSlots x).players = s.players := rfl
@[simp] theorem State.withSlots_queue (s : State) (x : Vector SlotContext 256) : (s.withSlots x).queue = s.queue := rfl
@[simp] theorem State.withSlots_mra (s : State) (x : Vector SlotContext 256) : (s.withSlots x).mra = s.mra := rfl
@[simp] theorem State.withSlots_rrw (s : State) (x : Vector SlotContext 256) : (s.withSlots x).rrw = s.rrw := rfl
@[simp] theorem State.withSlots_generator (s : State) (x : Vector SlotContext 256) (i : GenIx) :
    (s.withSlots x).generator i = s.generator i := rfl
@[simp] theorem State.withSlots_player (s : State) (x : Vector SlotContext 256) (i : PlayerIx) :
    (s.withSlots x).player i = s.player i := rfl

/-! ### withGens -/

@[simp] theorem State.withGens_pending (s : State) (x : Vector Generator 16) : (s.withGens x).pending = s.pending := rfl
@[simp] theorem State.withGens_bus (s : State) (x : Vector Generator 16) : (s.withGens x).bus = s.bus := rfl
@[simp] theorem State.withGens_pairing (s : State) (x : Vector Generator 16) : (s.withGens x).pairing = s.pairing := rfl
@[simp] theorem State.withGens_boot (s : State) (x : Vector Generator 16) : (s.withGens x).boot = s.boot := rfl
@[simp] theorem State.withGens_fm (s : State) (x : Vector Generator 16) : (s.withGens x).fm = s.fm := rfl
@[simp] theorem State.withGens_slots (s : State) (x : Vector Generator 16) : (s.withGens x).slots = s.slots := rfl
@[simp] theorem State.withGens_gens (s : State) (x : Vector Generator 16) : (s.withGens x).gens = x := rfl
@[simp] theorem State.withGens_refetch (s : State) (x : Vector Generator 16) : (s.withGens x).refetch = s.refetch := rfl
@[simp] theorem State.withGens_players (s : State) (x : Vector Generator 16) : (s.withGens x).players = s.players := rfl
@[simp] theorem State.withGens_queue (s : State) (x : Vector Generator 16) : (s.withGens x).queue = s.queue := rfl
@[simp] theorem State.withGens_mra (s : State) (x : Vector Generator 16) : (s.withGens x).mra = s.mra := rfl
@[simp] theorem State.withGens_rrw (s : State) (x : Vector Generator 16) : (s.withGens x).rrw = s.rrw := rfl
@[simp] theorem State.withGens_slot (s : State) (x : Vector Generator 16) (i : Slot) :
    (s.withGens x).slot i = s.slot i := rfl
@[simp] theorem State.withGens_player (s : State) (x : Vector Generator 16) (i : PlayerIx) :
    (s.withGens x).player i = s.player i := rfl

/-! ### withRefetch -/

@[simp] theorem State.withRefetch_pending (s : State) (x : Refetch) : (s.withRefetch x).pending = s.pending := rfl
@[simp] theorem State.withRefetch_bus (s : State) (x : Refetch) : (s.withRefetch x).bus = s.bus := rfl
@[simp] theorem State.withRefetch_pairing (s : State) (x : Refetch) : (s.withRefetch x).pairing = s.pairing := rfl
@[simp] theorem State.withRefetch_boot (s : State) (x : Refetch) : (s.withRefetch x).boot = s.boot := rfl
@[simp] theorem State.withRefetch_fm (s : State) (x : Refetch) : (s.withRefetch x).fm = s.fm := rfl
@[simp] theorem State.withRefetch_slots (s : State) (x : Refetch) : (s.withRefetch x).slots = s.slots := rfl
@[simp] theorem State.withRefetch_gens (s : State) (x : Refetch) : (s.withRefetch x).gens = s.gens := rfl
@[simp] theorem State.withRefetch_refetch (s : State) (x : Refetch) : (s.withRefetch x).refetch = x := rfl
@[simp] theorem State.withRefetch_players (s : State) (x : Refetch) : (s.withRefetch x).players = s.players := rfl
@[simp] theorem State.withRefetch_queue (s : State) (x : Refetch) : (s.withRefetch x).queue = s.queue := rfl
@[simp] theorem State.withRefetch_mra (s : State) (x : Refetch) : (s.withRefetch x).mra = s.mra := rfl
@[simp] theorem State.withRefetch_rrw (s : State) (x : Refetch) : (s.withRefetch x).rrw = s.rrw := rfl
@[simp] theorem State.withRefetch_slot (s : State) (x : Refetch) (i : Slot) :
    (s.withRefetch x).slot i = s.slot i := rfl
@[simp] theorem State.withRefetch_generator (s : State) (x : Refetch) (i : GenIx) :
    (s.withRefetch x).generator i = s.generator i := rfl
@[simp] theorem State.withRefetch_player (s : State) (x : Refetch) (i : PlayerIx) :
    (s.withRefetch x).player i = s.player i := rfl

/-! ### withPlayers -/

@[simp] theorem State.withPlayers_pending (s : State) (x : Vector Player 8) : (s.withPlayers x).pending = s.pending := rfl
@[simp] theorem State.withPlayers_bus (s : State) (x : Vector Player 8) : (s.withPlayers x).bus = s.bus := rfl
@[simp] theorem State.withPlayers_pairing (s : State) (x : Vector Player 8) : (s.withPlayers x).pairing = s.pairing := rfl
@[simp] theorem State.withPlayers_boot (s : State) (x : Vector Player 8) : (s.withPlayers x).boot = s.boot := rfl
@[simp] theorem State.withPlayers_fm (s : State) (x : Vector Player 8) : (s.withPlayers x).fm = s.fm := rfl
@[simp] theorem State.withPlayers_slots (s : State) (x : Vector Player 8) : (s.withPlayers x).slots = s.slots := rfl
@[simp] theorem State.withPlayers_gens (s : State) (x : Vector Player 8) : (s.withPlayers x).gens = s.gens := rfl
@[simp] theorem State.withPlayers_refetch (s : State) (x : Vector Player 8) : (s.withPlayers x).refetch = s.refetch := rfl
@[simp] theorem State.withPlayers_players (s : State) (x : Vector Player 8) : (s.withPlayers x).players = x := rfl
@[simp] theorem State.withPlayers_queue (s : State) (x : Vector Player 8) : (s.withPlayers x).queue = s.queue := rfl
@[simp] theorem State.withPlayers_mra (s : State) (x : Vector Player 8) : (s.withPlayers x).mra = s.mra := rfl
@[simp] theorem State.withPlayers_rrw (s : State) (x : Vector Player 8) : (s.withPlayers x).rrw = s.rrw := rfl
@[simp] theorem State.withPlayers_slot (s : State) (x : Vector Player 8) (i : Slot) :
    (s.withPlayers x).slot i = s.slot i := rfl
@[simp] theorem State.withPlayers_generator (s : State) (x : Vector Player 8) (i : GenIx) :
    (s.withPlayers x).generator i = s.generator i := rfl

/-! ### withQueue -/

@[simp] theorem State.withQueue_pending (s : State) (x : List WaitEntry) : (s.withQueue x).pending = s.pending := rfl
@[simp] theorem State.withQueue_bus (s : State) (x : List WaitEntry) : (s.withQueue x).bus = s.bus := rfl
@[simp] theorem State.withQueue_pairing (s : State) (x : List WaitEntry) : (s.withQueue x).pairing = s.pairing := rfl
@[simp] theorem State.withQueue_boot (s : State) (x : List WaitEntry) : (s.withQueue x).boot = s.boot := rfl
@[simp] theorem State.withQueue_fm (s : State) (x : List WaitEntry) : (s.withQueue x).fm = s.fm := rfl
@[simp] theorem State.withQueue_slots (s : State) (x : List WaitEntry) : (s.withQueue x).slots = s.slots := rfl
@[simp] theorem State.withQueue_gens (s : State) (x : List WaitEntry) : (s.withQueue x).gens = s.gens := rfl
@[simp] theorem State.withQueue_refetch (s : State) (x : List WaitEntry) : (s.withQueue x).refetch = s.refetch := rfl
@[simp] theorem State.withQueue_players (s : State) (x : List WaitEntry) : (s.withQueue x).players = s.players := rfl
@[simp] theorem State.withQueue_queue (s : State) (x : List WaitEntry) : (s.withQueue x).queue = x := rfl
@[simp] theorem State.withQueue_mra (s : State) (x : List WaitEntry) : (s.withQueue x).mra = s.mra := rfl
@[simp] theorem State.withQueue_rrw (s : State) (x : List WaitEntry) : (s.withQueue x).rrw = s.rrw := rfl
@[simp] theorem State.withQueue_slot (s : State) (x : List WaitEntry) (i : Slot) :
    (s.withQueue x).slot i = s.slot i := rfl
@[simp] theorem State.withQueue_generator (s : State) (x : List WaitEntry) (i : GenIx) :
    (s.withQueue x).generator i = s.generator i := rfl
@[simp] theorem State.withQueue_player (s : State) (x : List WaitEntry) (i : PlayerIx) :
    (s.withQueue x).player i = s.player i := rfl

/-! ### withMra -/

@[simp] theorem State.withMra_pending (s : State) (x : Arbiter) : (s.withMra x).pending = s.pending := rfl
@[simp] theorem State.withMra_bus (s : State) (x : Arbiter) : (s.withMra x).bus = s.bus := rfl
@[simp] theorem State.withMra_pairing (s : State) (x : Arbiter) : (s.withMra x).pairing = s.pairing := rfl
@[simp] theorem State.withMra_boot (s : State) (x : Arbiter) : (s.withMra x).boot = s.boot := rfl
@[simp] theorem State.withMra_fm (s : State) (x : Arbiter) : (s.withMra x).fm = s.fm := rfl
@[simp] theorem State.withMra_slots (s : State) (x : Arbiter) : (s.withMra x).slots = s.slots := rfl
@[simp] theorem State.withMra_gens (s : State) (x : Arbiter) : (s.withMra x).gens = s.gens := rfl
@[simp] theorem State.withMra_refetch (s : State) (x : Arbiter) : (s.withMra x).refetch = s.refetch := rfl
@[simp] theorem State.withMra_players (s : State) (x : Arbiter) : (s.withMra x).players = s.players := rfl
@[simp] theorem State.withMra_queue (s : State) (x : Arbiter) : (s.withMra x).queue = s.queue := rfl
@[simp] theorem State.withMra_mra (s : State) (x : Arbiter) : (s.withMra x).mra = x := rfl
@[simp] theorem State.withMra_rrw (s : State) (x : Arbiter) : (s.withMra x).rrw = s.rrw := rfl
@[simp] theorem State.withMra_slot (s : State) (x : Arbiter) (i : Slot) :
    (s.withMra x).slot i = s.slot i := rfl
@[simp] theorem State.withMra_generator (s : State) (x : Arbiter) (i : GenIx) :
    (s.withMra x).generator i = s.generator i := rfl
@[simp] theorem State.withMra_player (s : State) (x : Arbiter) (i : PlayerIx) :
    (s.withMra x).player i = s.player i := rfl

/-! ### withRrw -/

@[simp] theorem State.withRrw_pending (s : State) (x : ReportRing) : (s.withRrw x).pending = s.pending := rfl
@[simp] theorem State.withRrw_bus (s : State) (x : ReportRing) : (s.withRrw x).bus = s.bus := rfl
@[simp] theorem State.withRrw_pairing (s : State) (x : ReportRing) : (s.withRrw x).pairing = s.pairing := rfl
@[simp] theorem State.withRrw_boot (s : State) (x : ReportRing) : (s.withRrw x).boot = s.boot := rfl
@[simp] theorem State.withRrw_fm (s : State) (x : ReportRing) : (s.withRrw x).fm = s.fm := rfl
@[simp] theorem State.withRrw_slots (s : State) (x : ReportRing) : (s.withRrw x).slots = s.slots := rfl
@[simp] theorem State.withRrw_gens (s : State) (x : ReportRing) : (s.withRrw x).gens = s.gens := rfl
@[simp] theorem State.withRrw_refetch (s : State) (x : ReportRing) : (s.withRrw x).refetch = s.refetch := rfl
@[simp] theorem State.withRrw_players (s : State) (x : ReportRing) : (s.withRrw x).players = s.players := rfl
@[simp] theorem State.withRrw_queue (s : State) (x : ReportRing) : (s.withRrw x).queue = s.queue := rfl
@[simp] theorem State.withRrw_mra (s : State) (x : ReportRing) : (s.withRrw x).mra = s.mra := rfl
@[simp] theorem State.withRrw_rrw (s : State) (x : ReportRing) : (s.withRrw x).rrw = x := rfl
@[simp] theorem State.withRrw_slot (s : State) (x : ReportRing) (i : Slot) :
    (s.withRrw x).slot i = s.slot i := rfl
@[simp] theorem State.withRrw_generator (s : State) (x : ReportRing) (i : GenIx) :
    (s.withRrw x).generator i = s.generator i := rfl
@[simp] theorem State.withRrw_player (s : State) (x : ReportRing) (i : PlayerIx) :
    (s.withRrw x).player i = s.player i := rfl

/-! ### setSlot -/

@[simp] theorem State.setSlot_pending (s : State) (i : Slot) (x : SlotContext) : (s.setSlot i x).pending = s.pending := rfl
@[simp] theorem State.setSlot_bus (s : State) (i : Slot) (x : SlotContext) : (s.setSlot i x).bus = s.bus := rfl
@[simp] theorem State.setSlot_pairing (s : State) (i : Slot) (x : SlotContext) : (s.setSlot i x).pairing = s.pairing := rfl
@[simp] theorem State.setSlot_boot (s : State) (i : Slot) (x : SlotContext) : (s.setSlot i x).boot = s.boot := rfl
@[simp] theorem State.setSlot_fm (s : State) (i : Slot) (x : SlotContext) : (s.setSlot i x).fm = s.fm := rfl
@[simp] theorem State.setSlot_gens (s : State) (i : Slot) (x : SlotContext) : (s.setSlot i x).gens = s.gens := rfl
@[simp] theorem State.setSlot_refetch (s : State) (i : Slot) (x : SlotContext) : (s.setSlot i x).refetch = s.refetch := rfl
@[simp] theorem State.setSlot_players (s : State) (i : Slot) (x : SlotContext) : (s.setSlot i x).players = s.players := rfl
@[simp] theorem State.setSlot_queue (s : State) (i : Slot) (x : SlotContext) : (s.setSlot i x).queue = s.queue := rfl
@[simp] theorem State.setSlot_mra (s : State) (i : Slot) (x : SlotContext) : (s.setSlot i x).mra = s.mra := rfl
@[simp] theorem State.setSlot_rrw (s : State) (i : Slot) (x : SlotContext) : (s.setSlot i x).rrw = s.rrw := rfl
@[simp] theorem State.setSlot_generator (s : State) (i : Slot) (x : SlotContext) (k : GenIx) :
    (s.setSlot i x).generator k = s.generator k := rfl
@[simp] theorem State.setSlot_player (s : State) (i : Slot) (x : SlotContext) (k : PlayerIx) :
    (s.setSlot i x).player k = s.player k := rfl

@[simp] theorem State.setSlot_slot_same (s : State) (i : Slot) (x : SlotContext) : (s.setSlot i x).slot i = x := by
  simp [State.setSlot, State.slot]

theorem State.setSlot_slot_ne (s : State) (i k : Slot) (x : SlotContext) (h : k ≠ i) :
    (s.setSlot i x).slot k = s.slot k := by
  have : i.val ≠ k.val := fun e => h (Fin.ext e.symm)
  simp [State.setSlot, State.slot, this]

theorem State.setSlot_slot (s : State) (i k : Slot) (x : SlotContext) :
    (s.setSlot i x).slot k = if k = i then x else s.slot k := by
  by_cases h : k = i
  · subst h; simp
  · simp [State.setSlot_slot_ne s i k x h, h]

/-! ### setGenerator -/

@[simp] theorem State.setGenerator_pending (s : State) (i : GenIx) (x : Generator) : (s.setGenerator i x).pending = s.pending := rfl
@[simp] theorem State.setGenerator_bus (s : State) (i : GenIx) (x : Generator) : (s.setGenerator i x).bus = s.bus := rfl
@[simp] theorem State.setGenerator_pairing (s : State) (i : GenIx) (x : Generator) : (s.setGenerator i x).pairing = s.pairing := rfl
@[simp] theorem State.setGenerator_boot (s : State) (i : GenIx) (x : Generator) : (s.setGenerator i x).boot = s.boot := rfl
@[simp] theorem State.setGenerator_fm (s : State) (i : GenIx) (x : Generator) : (s.setGenerator i x).fm = s.fm := rfl
@[simp] theorem State.setGenerator_slots (s : State) (i : GenIx) (x : Generator) : (s.setGenerator i x).slots = s.slots := rfl
@[simp] theorem State.setGenerator_refetch (s : State) (i : GenIx) (x : Generator) : (s.setGenerator i x).refetch = s.refetch := rfl
@[simp] theorem State.setGenerator_players (s : State) (i : GenIx) (x : Generator) : (s.setGenerator i x).players = s.players := rfl
@[simp] theorem State.setGenerator_queue (s : State) (i : GenIx) (x : Generator) : (s.setGenerator i x).queue = s.queue := rfl
@[simp] theorem State.setGenerator_mra (s : State) (i : GenIx) (x : Generator) : (s.setGenerator i x).mra = s.mra := rfl
@[simp] theorem State.setGenerator_rrw (s : State) (i : GenIx) (x : Generator) : (s.setGenerator i x).rrw = s.rrw := rfl
@[simp] theorem State.setGenerator_slot (s : State) (i : GenIx) (x : Generator) (k : Slot) :
    (s.setGenerator i x).slot k = s.slot k := rfl
@[simp] theorem State.setGenerator_player (s : State) (i : GenIx) (x : Generator) (k : PlayerIx) :
    (s.setGenerator i x).player k = s.player k := rfl

@[simp] theorem State.setGenerator_generator_same (s : State) (i : GenIx) (x : Generator) : (s.setGenerator i x).generator i = x := by
  simp [State.setGenerator, State.generator]

theorem State.setGenerator_generator_ne (s : State) (i k : GenIx) (x : Generator) (h : k ≠ i) :
    (s.setGenerator i x).generator k = s.generator k := by
  have : i.val ≠ k.val := fun e => h (Fin.ext e.symm)
  simp [State.setGenerator, State.generator, this]

theorem State.setGenerator_generator (s : State) (i k : GenIx) (x : Generator) :
    (s.setGenerator i x).generator k = if k = i then x else s.generator k := by
  by_cases h : k = i
  · subst h; simp
  · simp [State.setGenerator_generator_ne s i k x h, h]

/-! ### setPlayer -/

@[simp] theorem State.setPlayer_pending (s : State) (i : PlayerIx) (x : Player) : (s.setPlayer i x).pending = s.pending := rfl
@[simp] theorem State.setPlayer_bus (s : State) (i : PlayerIx) (x : Player) : (s.setPlayer i x).bus = s.bus := rfl
@[simp] theorem State.setPlayer_pairing (s : State) (i : PlayerIx) (x : Player) : (s.setPlayer i x).pairing = s.pairing := rfl
@[simp] theorem State.setPlayer_boot (s : State) (i : PlayerIx) (x : Player) : (s.setPlayer i x).boot = s.boot := rfl
@[simp] theorem State.setPlayer_fm (s : State) (i : PlayerIx) (x : Player) : (s.setPlayer i x).fm = s.fm := rfl
@[simp] theorem State.setPlayer_slots (s : State) (i : PlayerIx) (x : Player) : (s.setPlayer i x).slots = s.slots := rfl
@[simp] theorem State.setPlayer_gens (s : State) (i : PlayerIx) (x : Player) : (s.setPlayer i x).gens = s.gens := rfl
@[simp] theorem State.setPlayer_refetch (s : State) (i : PlayerIx) (x : Player) : (s.setPlayer i x).refetch = s.refetch := rfl
@[simp] theorem State.setPlayer_queue (s : State) (i : PlayerIx) (x : Player) : (s.setPlayer i x).queue = s.queue := rfl
@[simp] theorem State.setPlayer_mra (s : State) (i : PlayerIx) (x : Player) : (s.setPlayer i x).mra = s.mra := rfl
@[simp] theorem State.setPlayer_rrw (s : State) (i : PlayerIx) (x : Player) : (s.setPlayer i x).rrw = s.rrw := rfl
@[simp] theorem State.setPlayer_slot (s : State) (i : PlayerIx) (x : Player) (k : Slot) :
    (s.setPlayer i x).slot k = s.slot k := rfl
@[simp] theorem State.setPlayer_generator (s : State) (i : PlayerIx) (x : Player) (k : GenIx) :
    (s.setPlayer i x).generator k = s.generator k := rfl

@[simp] theorem State.setPlayer_player_same (s : State) (i : PlayerIx) (x : Player) : (s.setPlayer i x).player i = x := by
  simp [State.setPlayer, State.player]

theorem State.setPlayer_player_ne (s : State) (i k : PlayerIx) (x : Player) (h : k ≠ i) :
    (s.setPlayer i x).player k = s.player k := by
  have : i.val ≠ k.val := fun e => h (Fin.ext e.symm)
  simp [State.setPlayer, State.player, this]

theorem State.setPlayer_player (s : State) (i k : PlayerIx) (x : Player) :
    (s.setPlayer i x).player k = if k = i then x else s.player k := by
  by_cases h : k = i
  · subst h; simp
  · simp [State.setPlayer_player_ne s i k x h, h]

/-! ### modifyPlayer -/

@[simp] theorem State.modifyPlayer_pending (s : State) (i : PlayerIx) (f : Player → Player) :
    (s.modifyPlayer i f).pending = s.pending := rfl
@[simp] theorem State.modifyPlayer_bus (s : State) (i : PlayerIx) (f : Player → Player) :
    (s.modifyPlayer i f).bus = s.bus := rfl
@[simp] theorem State.modifyPlayer_pairing (s : State) (i : PlayerIx) (f : Player → Player) :
    (s.modifyPlayer i f).pairing = s.pairing := rfl
@[simp] theorem State.modifyPlayer_boot (s : State) (i : PlayerIx) (f : Player → Player) :
    (s.modifyPlayer i f).boot = s.boot := rfl
@[simp] theorem State.modifyPlayer_fm (s : State) (i : PlayerIx) (f : Player → Player) :
    (s.modifyPlayer i f).fm = s.fm := rfl
@[simp] theorem State.modifyPlayer_slots (s : State) (i : PlayerIx) (f : Player → Player) :
    (s.modifyPlayer i f).slots = s.slots := rfl
@[simp] theorem State.modifyPlayer_gens (s : State) (i : PlayerIx) (f : Player → Player) :
    (s.modifyPlayer i f).gens = s.gens := rfl
@[simp] theorem State.modifyPlayer_refetch (s : State) (i : PlayerIx) (f : Player → Player) :
    (s.modifyPlayer i f).refetch = s.refetch := rfl
@[simp] theorem State.modifyPlayer_queue (s : State) (i : PlayerIx) (f : Player → Player) :
    (s.modifyPlayer i f).queue = s.queue := rfl
@[simp] theorem State.modifyPlayer_mra (s : State) (i : PlayerIx) (f : Player → Player) :
    (s.modifyPlayer i f).mra = s.mra := rfl
@[simp] theorem State.modifyPlayer_rrw (s : State) (i : PlayerIx) (f : Player → Player) :
    (s.modifyPlayer i f).rrw = s.rrw := rfl
@[simp] theorem State.modifyPlayer_slot (s : State) (i : PlayerIx) (f : Player → Player) (k : Slot) :
    (s.modifyPlayer i f).slot k = s.slot k := rfl
@[simp] theorem State.modifyPlayer_generator (s : State) (i : PlayerIx) (f : Player → Player) (k : GenIx) :
    (s.modifyPlayer i f).generator k = s.generator k := rfl

@[simp] theorem State.modifyPlayer_player_same (s : State) (i : PlayerIx) (f : Player → Player) :
    (s.modifyPlayer i f).player i = f (s.player i) := by
  simp [State.modifyPlayer]

theorem State.modifyPlayer_player (s : State) (i k : PlayerIx) (f : Player → Player) :
    (s.modifyPlayer i f).player k = if k = i then f (s.player i) else s.player k := by
  simp [State.modifyPlayer, State.setPlayer_player]

theorem State.modifyPlayer_player_ne (s : State) (i k : PlayerIx) (f : Player → Player) (h : k ≠ i) :
    (s.modifyPlayer i f).player k = s.player k := by
  simp [State.modifyPlayer_player, h]

/-! ### Banks changed alike -/

theorem mapBank_get {α : Type} {n : Nat} (f : α → α) (v : Vector α n) (i : Nat) (h : i < n) :
    (mapBank f v)[i] = f v[i] := by
  simp [mapBank]

@[simp] theorem State.mapSlots_slot (s : State) (f : SlotContext → SlotContext) (j : Slot) :
    (s.withSlots (mapBank f s.slots)).slot j = f (s.slot j) := mapBank_get f s.slots j.val j.isLt

@[simp] theorem State.mapGens_generator (s : State) (f : Generator → Generator) (g : GenIx) :
    (s.withGens (mapBank f s.gens)).generator g = f (s.generator g) := mapBank_get f s.gens g.val g.isLt

@[simp] theorem State.mapPlayers_player (s : State) (f : Player → Player) (n : PlayerIx) :
    (s.withPlayers (mapBank f s.players)).player n = f (s.player n) := mapBank_get f s.players n.val n.isLt

/-! ### Two states with the same banks -/

theorem State.slots_ext (s t : State) (h : ∀ j, t.slot j = s.slot j) : t.slots = s.slots := by
  ext i hi : 1
  exact h ⟨i, hi⟩

theorem State.gens_ext (s t : State) (h : ∀ g, t.generator g = s.generator g) : t.gens = s.gens := by
  ext i hi : 1
  exact h ⟨i, hi⟩

theorem State.players_ext (s t : State) (h : ∀ n, t.player n = s.player n) : t.players = s.players := by
  ext i hi : 1
  exact h ⟨i, hi⟩

end Sys2Proof.Machine
end

