-- ==== Sys2Proof/Laws/Moves.lean ====
section
/-! SUPPORT. Laws/Moves.lean: what the serving blocks can do to the state, said once. Each of their operations
is a sequence of the primitive moves below; an invariant that the moves keep is kept by every operation. -/

namespace Sys2Proof.Machine

/-! ### Primitive moves -/

/-- A request that a serving block queues or withdraws: neither the boot's nor a report write. -/
def OwnKind.isServing (k : OwnKind) : Bool := !k.isBoot && !k.isReport

/-- The program and fresh flag of a generator's binding. -/
def Generator.tag (x : Generator) : Option (Program × Bool) := x.binding.map (fun b => (b.program, b.fresh))

/-- Record x may stand for generator g: it is not fresh for a program that another fresh generator has, and
TG15 keeps its program and fresh flag. -/
structure GenStep (s : State) (g : GenIx) (x : Generator) : Prop where
  fresh : ∀ p, x.isFreshFor p = true →
    (s.generator g).isFreshFor p = true ∨ ∀ h, (s.generator h).isFreshFor p = false
  congestion : g = congestionGen → x.tag = (s.generator g).tag

/-- What may become of a player's window latch and frames left: they are kept; or the latch says again whether frames
are left; or, while the ends of a mark's timers are open, frames are counted off and the latch waits (R115; log 4). -/
def WindowStep (ends : Bool) (old x : Player) : Prop :=
  (x.windowOpen = old.windowOpen ∧ x.framesLeft = old.framesLeft) ∨ (x.windowOpen = true ↔ 0 < x.framesLeft) ∨
    (ends = true ∧ x.windowOpen = old.windowOpen ∧ x.framesLeft ≤ old.framesLeft)

/-- Record x may stand for player n: it keeps the walker's bounds, it is not fresh for a program that another fresh
player has, and its window goes as it may. -/
structure PlayerStep (s : State) (n : PlayerIx) (x : Player) : Prop where
  bounded : (s.player n).Bounded → x.Bounded
  fresh : ∀ p, x.isFreshFor p = true →
    (s.player n).isFreshFor p = true ∨ ∀ m, (s.player m).isFreshFor p = false
  window : WindowStep s.fm.endsOpen (s.player n) x

/-- One primitive move of a serving block. -/
inductive Move : State → State → Prop where
  | enqueue (s : State) (r : OwnRequest) (h : r.kind.isServing = true) (d : r.drain = false) : Move s (s.enqueue r)
  | withdraw (s : State) (f : OwnKind → Bool) (h : ∀ k, f k = true → k.isServing = true) : Move s (s.withdraw f)
  | slot (s : State) (j : Slot) (c : SlotContext) : Move s (s.setSlot j c)
  | generator (s : State) (g : GenIx) (x : Generator) (h : GenStep s g x) : Move s (s.setGenerator g x)
  | tones (s : State) : Move s s.markTones
  | player (s : State) (n : PlayerIx) (x : Player) (h : PlayerStep s n x) : Move s (s.setPlayer n x)
  | leave (s : State) (j : Slot) : Move s (s.leaveQueue j)
  | append (s : State) (e : WaitEntry) (h : s.queue.length < queueLimit) : Move s (s.withQueue (s.queue ++ [e]))
  | outcome (s : State) (o : Outcome) (j : Slot) (h : o.source = slotSource j) : Move s (s.takeOutcome o)

/-- A sequence of moves. -/
inductive Moves : State → State → Prop where
  | refl (s : State) : Moves s s
  | step {s t u : State} (a : Moves s t) (b : Move t u) : Moves s u

theorem Moves.one {s t : State} (a : Move s t) : Moves s t := .step (.refl s) a

theorem Moves.trans {s t u : State} (a : Moves s t) (b : Moves t u) : Moves s u := by
  induction b with
  | refl => exact a
  | step _ m ih => exact .step ih m

theorem Moves.foldl {α : Type} (f : State → α → State) (h : ∀ s a, Moves s (f s a)) (l : List α) :
    ∀ s, Moves s (l.foldl f s) := by
  induction l with
  | nil => exact Moves.refl
  | cons a l ih => exact fun s => (h s a).trans (ih _)

/-- What every move keeps, every sequence of moves keeps. -/
theorem Moves.keeps {P : State → Prop} (h : ∀ s t, Move s t → P s → P t) {s t : State} (m : Moves s t) (hs : P s) :
    P t := by
  induction m with
  | refl => exact hs
  | step _ b ih => exact h _ _ b ih

/-! ### Generator and player records -/

theorem Generator.isFreshFor_tag (p : Program) (x : Generator) : x.isFreshFor p = (x.tag == some (p, true)) := by
  unfold Generator.isFreshFor Generator.tag
  cases x.binding with
  | none => rfl
  | some b =>
    simp only [Option.map_some]
    rw [Bool.eq_iff_iff]
    simp [Prod.ext_iff]

theorem GenStep.of_tag {s : State} {g : GenIx} {x : Generator} (h : x.tag = (s.generator g).tag) : GenStep s g x :=
  ⟨fun p f => .inl ((Generator.isFreshFor_tag p _).trans ((congrArg (· == some (p, true)) h.symm).trans
    ((Generator.isFreshFor_tag p x).symm.trans f))), fun _ => h⟩

theorem GenStep.of_not_fresh {s : State} {g : GenIx} {x : Generator} (n : g ≠ congestionGen)
    (h : ∀ p, x.isFreshFor p = false) : GenStep s g x :=
  ⟨fun p f => absurd f (by simp [h p]), fun e => absurd e n⟩

theorem Generator.stepEnd_tag (x : Generator) : x.stepEnd.tag = x.tag := by
  unfold Generator.stepEnd Generator.tag
  split
  · rfl
  · simp_all

theorem Generator.mark_tag (x : Generator) : x.mark.tag = x.tag := by
  unfold Generator.mark Generator.tag
  split
  · rfl
  · simp_all [ToneBinding.countFrame]

theorem Generator.adopt_tag (c : ToneCopy) (x : Generator) : (x.adopt c).tag = x.tag := by
  unfold Generator.adopt Generator.tag
  split
  · rfl
  · simp_all

theorem Generator.makeStale_fresh (p q : Program) (x : Generator) (h : (x.makeStale p).isFreshFor q = true) :
    x.isFreshFor q = true := by
  unfold Generator.makeStale at h
  split at h
  · exact h
  · split at h
    · simp [Generator.isFreshFor] at h
    · exact h

/-- A record that keeps what freshness and the bounds read. -/
theorem PlayerStep.of_same {s : State} {n : PlayerIx} {x : Player} (a : x.walker = (s.player n).walker)
    (b : x.halfA = (s.player n).halfA) (c : x.halfB = (s.player n).halfB) (d : x.program = (s.player n).program)
    (e : x.state = (s.player n).state) (f : x.fresh = (s.player n).fresh)
    (w : WindowStep s.fm.endsOpen (s.player n) x := by exact .inl ⟨rfl, rfl⟩) : PlayerStep s n x :=
  ⟨fun h => by unfold Player.Bounded at h ⊢; rwa [a, b, c],
    fun p h => .inl (by unfold Player.isFreshFor at h ⊢; rwa [d, e, f] at h), w⟩

/-- A record that keeps what freshness reads and stays within the bounds. -/
theorem PlayerStep.of_bounded {s : State} {n : PlayerIx} {x : Player} (a : (s.player n).Bounded → x.Bounded)
    (d : x.program = (s.player n).program) (e : x.state = (s.player n).state) (f : x.fresh = (s.player n).fresh)
    (w : WindowStep s.fm.endsOpen (s.player n) x := by exact .inl ⟨rfl, rfl⟩) : PlayerStep s n x :=
  ⟨a, fun p h => .inl (by unfold Player.isFreshFor at h ⊢; rwa [d, e, f] at h), w⟩

theorem Player.setHalf_bounded (pl : Player) (h : HalfName) (x : Half) (b : pl.Bounded) (c : x.Bounded) :
    (pl.setHalf h x).Bounded := by
  cases h
  · exact ⟨b.1, b.2.1, c, b.2.2.2⟩
  · exact ⟨b.1, b.2.1, b.2.2.1, c⟩

@[simp] theorem Player.setHalf_program (pl : Player) (h : HalfName) (x : Half) : (pl.setHalf h x).program = pl.program := by
  cases h <;> rfl

@[simp] theorem Player.setHalf_state (pl : Player) (h : HalfName) (x : Half) : (pl.setHalf h x).state = pl.state := by
  cases h <;> rfl

@[simp] theorem Player.setHalf_fresh (pl : Player) (h : HalfName) (x : Half) : (pl.setHalf h x).fresh = pl.fresh := by
  cases h <;> rfl

@[simp] theorem Player.setHalf_walker (pl : Player) (h : HalfName) (x : Half) : (pl.setHalf h x).walker = pl.walker := by
  cases h <;> rfl

@[simp] theorem Player.setHalf_listeners (pl : Player) (h : HalfName) (x : Half) :
    (pl.setHalf h x).listeners = pl.listeners := by
  cases h <;> rfl

@[simp] theorem Player.setHalf_framesLeft (pl : Player) (h : HalfName) (x : Half) :
    (pl.setHalf h x).framesLeft = pl.framesLeft := by
  cases h <;> rfl

@[simp] theorem Player.setHalf_windowOpen (pl : Player) (h : HalfName) (x : Half) :
    (pl.setHalf h x).windowOpen = pl.windowOpen := by
  cases h <;> rfl

@[simp] theorem Player.setHalf_half (pl : Player) (h : HalfName) (x : Half) : (pl.setHalf h x).half h = x := by
  cases h <;> rfl

theorem Player.half_bounded (pl : Player) (h : HalfName) (b : pl.Bounded) : (pl.half h).Bounded := by
  cases h
  · exact b.2.2.1
  · exact b.2.2.2

/-! ### Requests and reports -/

theorem moves_enqueue (s : State) (r : OwnRequest) (h : r.kind.isServing = true) (d : r.drain = false) : Moves s (s.enqueue r) := .one (.enqueue s r h d)

theorem moves_withdraw (s : State) (f : OwnKind → Bool) (h : ∀ k, f k = true → k.isServing = true) :
    Moves s (s.withdraw f) := .one (.withdraw s f h)

theorem readOfSlot_isServing (j : Slot) (k : OwnKind) (h : readOfSlot j k = true) : k.isServing = true := by
  cases k <;> first | rfl | simp [readOfSlot, OwnKind.slot?] at h

theorem readOfPlayer_isServing (n : PlayerIx) (k : OwnKind) (h : readOfPlayer n k = true) : k.isServing = true := by
  cases k <;> first | rfl | simp [readOfPlayer, OwnKind.player?] at h

theorem moves_takeOutcome (s : State) (o : Outcome) (j : Slot) (h : o.source = slotSource j) :
    Moves s (s.takeOutcome o) := .one (.outcome s o j h)

theorem moves_slotOutcome (s : State) (j : Slot) (k : ReportKind) (p : Program) (d : Word) :
    Moves s (s.slotOutcome j k p d) := moves_takeOutcome s _ j rfl

/-! ### Generators -/

theorem moves_setGenerator (s : State) (g : GenIx) (x : Generator) (h : GenStep s g x) : Moves s (s.setGenerator g x) :=
  .one (.generator s g x h)

theorem moves_joinGenerator (s : State) (g : GenIx) : Moves s (s.joinGenerator g) :=
  moves_setGenerator s g _ (.of_tag rfl)

theorem State.freshGenerator_none (s : State) (p : Program) (h : s.freshGenerator p = none) (g : GenIx) :
    (s.generator g).isFreshFor p = false := by
  have := List.find?_eq_none.mp h g (by revert g; decide)
  simpa using this

theorem State.freeGenerator_some (s : State) (g : GenIx) (h : s.freeGenerator = some g) :
    g ≠ congestionGen ∧ (s.generator g).binding = none := by
  have := List.find?_some h
  simpa [Generator.isFree] using this

theorem moves_bindGenerator (s : State) (g : GenIx) (p : Program) (c : ToneCopy) (b : Bool) (n : Nat)
    (hg : s.freeGenerator = some g) (hp : s.freshGenerator p = none) : Moves s (s.bindGenerator g p c b n) := by
  refine moves_setGenerator s g _ ⟨fun q f => .inr ?_, fun e => absurd e (s.freeGenerator_some g hg).1⟩
  have : p = q := by simp [boundGenerator, Generator.isFreshFor] at f; exact f.1
  exact this ▸ s.freshGenerator_none p hp

theorem moves_releaseGenerator (s : State) (g : GenIx) : Moves s (s.releaseGenerator g) := by
  unfold State.releaseGenerator
  dsimp only
  split
  · exact moves_setGenerator s g _ (.of_not_fresh (by rename_i h; exact h.2) (fun _ => rfl))
  · exact moves_setGenerator s g _ (.of_tag rfl)

theorem moves_releaseFiller (s : State) (f : Option GenIx) : Moves s (s.releaseFiller f) := by
  cases f with
  | none => exact .refl s
  | some g => exact moves_releaseGenerator s g

theorem moves_endCadenceStep (s : State) (g : GenIx) : Moves s (s.endCadenceStep g) :=
  moves_setGenerator s g _ (.of_tag (Generator.stepEnd_tag _))

theorem moves_markTones (s : State) : Moves s s.markTones := .one (.tones s)

theorem moves_staleGenerators (s : State) (p : Program) : Moves s (s.staleGenerators p) := by
  refine Moves.foldl _ (fun s g => ?_) _ s
  split
  · exact .refl s
  · exact moves_setGenerator s g _
      ⟨fun q f => .inl (Generator.makeStale_fresh p q _ f), fun e => absurd e (by assumption)⟩

/-! ### Players, queue, slots -/

theorem moves_setPlayer (s : State) (n : PlayerIx) (x : Player) (h : PlayerStep s n x) : Moves s (s.setPlayer n x) :=
  .one (.player s n x h)

theorem moves_modifyPlayer (s : State) (n : PlayerIx) (f : Player → Player) (h : PlayerStep s n (f (s.player n))) :
    Moves s (s.modifyPlayer n f) := moves_setPlayer s n _ h

theorem moves_setSlot (s : State) (j : Slot) (c : SlotContext) : Moves s (s.setSlot j c) := .one (.slot s j c)

theorem moves_leaveQueue (s : State) (j : Slot) : Moves s (s.leaveQueue j) := .one (.leave s j)

theorem Player.reset_bounded : Player.reset.Bounded := ⟨Nat.zero_le _, Nat.zero_le _, trivial, trivial⟩

theorem State.no_fresh_player (s : State) (p : Program) (h : s.hasFreshPlayer p = false) (m : PlayerIx) :
    (s.player m).isFreshFor p = false := by
  have := List.any_eq_false.mp h m (by revert m; decide)
  simpa using this

theorem moves_bindPlayer (s : State) (n : PlayerIx) (p : Program) (h : s.hasFreshPlayer p = false) :
    Moves s (s.bindPlayer n p) := by
  refine ((moves_withdraw s _ (readOfPlayer_isServing n)).trans (moves_setPlayer _ n _ ⟨fun _ => ?_, fun q f => .inr ?_,
    .inr (.inl (by simp [Player.reset]))⟩)).trans (moves_enqueue _ _ rfl rfl)
  · exact ⟨Nat.zero_le _, Nat.zero_le _, trivial, trivial⟩
  · have : p = q := by simp [Player.isFreshFor, Player.reset] at f; exact f
    exact this ▸ s.no_fresh_player p h

theorem moves_freePlayer (s : State) (n : PlayerIx) : Moves s (s.freePlayer n) :=
  (moves_withdraw s _ (readOfPlayer_isServing n)).trans
    (moves_setPlayer _ n _ ⟨fun _ => ⟨Nat.zero_le _, Nat.zero_le _, trivial, trivial⟩, (fun _ f => by cases f),
      .inr (.inl (by simp [Player.reset]))⟩)

theorem firstHighest_mem (l : List WaitEntry) (e : WaitEntry) (h : firstHighest l = some e) : e ∈ l := by
  induction l generalizing e with
  | nil => cases h
  | cons a l ih =>
    unfold firstHighest at h
    split at h
    · cases h
      exact List.mem_cons_self
    · split at h
      · cases h
        exact List.mem_cons_of_mem _ (ih _ (by assumption))
      · cases h
        exact List.mem_cons_self

theorem moves_allocate (s : State) (n : PlayerIx) : Moves s (s.allocate n) := by
  unfold State.allocate
  split
  · exact .refl s
  · rename_i e he
    refine moves_bindPlayer s n _ ?_
    have := (List.mem_filter.mp (firstHighest_mem _ _ he)).2
    simpa [State.eligible] using this

theorem moves_releasePlayer (s : State) (n : PlayerIx) : Moves s (s.releasePlayer n) :=
  (moves_freePlayer s n).trans (moves_allocate _ n)

theorem moves_enter (s : State) (j : Slot) (st : SlotState) : Moves s (s.enter j st) :=
  (moves_withdraw s _ (readOfSlot_isServing j)).trans (moves_setSlot _ j _)

theorem moves_leavePlayer (s : State) (n : PlayerIx) (j : Slot) : Moves s (s.leavePlayer n j) := by
  unfold State.leavePlayer
  dsimp only
  split
  · exact (moves_modifyPlayer s n _ (.of_same rfl rfl rfl rfl rfl rfl)).trans (moves_releasePlayer _ n)
  · exact moves_modifyPlayer s n _ (.of_same rfl rfl rfl rfl rfl rfl)

theorem moves_leaveWaiting (s : State) (j : Slot) (f : Option GenIx) : Moves s (s.leaveWaiting j f) :=
  (moves_leaveQueue s j).trans (moves_releaseFiller _ f)

theorem moves_detach (s : State) (j : Slot) : Moves s (s.detach j) := by
  unfold State.detach
  split
  · exact .refl s
  · exact .refl s
  · exact moves_releaseGenerator s _
  · exact moves_leaveWaiting s j _
  · exact moves_leavePlayer s _ j
  · exact moves_releaseGenerator s _
  · exact .refl s

theorem moves_faultSlot (s : State) (j : Slot) (p : Program) (c : Cause) : Moves s (s.faultSlot j p c) :=
  (moves_enter s j _).trans (moves_slotOutcome _ j _ p _)

theorem moves_attach (s : State) (j : Slot) (p : Program) : Moves s (s.attach j p) := by
  unfold State.attach
  split
  · exact moves_faultSlot s j p _
  · exact (moves_enter s j _).trans (moves_enqueue _ _ rfl rfl)

theorem moves_slotRequest (s : State) (j : Slot) : Moves s (s.slotRequest j) := by
  unfold State.slotRequest
  split
  · exact (moves_detach s j).trans (moves_attach _ j _)
  · split
    · exact .refl s
    · exact (moves_detach s j).trans (moves_enter _ j _)

theorem moves_setShadow (s : State) (j : Slot) (w : Word) : Moves s (s.setShadow j w) :=
  moves_setSlot s j _

theorem moves_connectionTaken (s : State) (j : Slot) (d : Word) (b : Strobes) :
    Moves s (s.connectionTaken j d b) := (moves_setShadow s j _).trans (moves_slotRequest _ j)

theorem moves_adoptionChecked (s : State) (j : Slot) (d : Word) : Moves s (s.adoptionChecked j d) := by
  unfold State.adoptionChecked
  split
  · exact .refl s
  · exact (moves_setShadow s j d).trans (moves_slotRequest _ j)

theorem moves_overflowSlot (s : State) (j : Slot) (p : Program) (k : ReportKind) (d : Word) :
    Moves s (s.overflowSlot j p k d) :=
  ((moves_joinGenerator s _).trans (moves_enter _ j _)).trans (moves_slotOutcome _ j k p d)

theorem moves_placeTone (s : State) (j : Slot) (p : Program) (b : Bool) (ws : List Word) :
    Moves s (s.placeTone j p b ws) := by
  unfold State.placeTone
  dsimp only
  split
  · exact (moves_joinGenerator s _).trans (moves_enter _ j _)
  · split
    · exact (moves_bindGenerator s _ p _ b 1 (by assumption) (by assumption)).trans (moves_enter _ j _)
    · exact moves_overflowSlot s j p _ _

theorem moves_giveFiller (s : State) (j : Slot) (g : GenIx) : Moves s (s.giveFiller j g) := by
  unfold State.giveFiller
  split
  · exact moves_setSlot s j _
  · exact .refl s

theorem moves_takeFiller (s : State) (j : Slot) (f : Program) : Moves s (s.takeFiller j f) := by
  unfold State.takeFiller
  split
  · exact (moves_joinGenerator s _).trans (moves_giveFiller _ j _)
  · split
    · exact .refl s
    · exact moves_enqueue s _ rfl rfl

theorem moves_fillerDone (s : State) (j : Slot) (f : Program) (g : Option Generation) (b : Bool) (ws : List Word) :
    Moves s (s.fillerDone j f g b ws) := by
  unfold State.fillerDone
  split
  · split
    · split
      · exact .refl s
      · split
        · exact (moves_joinGenerator s _).trans (moves_giveFiller _ j _)
        · split
          · exact (moves_bindGenerator s _ f _ b 1 (by assumption) (by assumption)).trans (moves_giveFiller _ j _)
          · exact .refl s
    · exact .refl s
  · exact .refl s

theorem moves_joinPlayer (s : State) (n : PlayerIx) (j : Slot) (p : Program) (a : AnnFields) :
    Moves s (s.joinPlayer n j p a) :=
  (moves_enter s j _).trans (moves_modifyPlayer _ n _ (.of_same rfl rfl rfl rfl rfl rfl))

theorem moves_joinWaiting (s : State) (n : PlayerIx) (j : Slot) : Moves s (s.joinWaiting n j) := by
  unfold State.joinWaiting
  split
  · exact (moves_leaveWaiting s j _).trans (moves_joinPlayer _ n j _ _)
  · exact moves_leaveQueue s j

theorem moves_bindForArrival (s : State) (p : Program) : Moves s (s.bindForArrival p) := by
  unfold State.bindForArrival
  split
  · exact .refl s
  · split
    · exact moves_bindPlayer s _ p (Bool.eq_false_iff.mpr (by assumption))
    · exact .refl s

theorem moves_enqueueSlot (s : State) (j : Slot) (p : Program) (a : AnnFields) (h : s.queue.length < queueLimit) :
    Moves s (s.enqueueSlot j p a) := by
  unfold State.enqueueSlot
  dsimp only
  split
  · exact ((Moves.one (.append s _ h)).trans (moves_enter _ j _)).trans (moves_takeFiller _ j _)
  · exact (Moves.one (.append s _ h)).trans (moves_enter _ j _)

theorem moves_arrive (s : State) (j : Slot) (p : Program) (a : AnnFields) : Moves s (s.arrive j p a) := by
  unfold State.arrive
  split
  · exact moves_joinPlayer s _ j p a
  · split
    · exact moves_overflowSlot s j p _ _
    · split
      · exact moves_overflowSlot s j p _ _
      · exact (moves_enqueueSlot s j p a (Nat.lt_of_not_le (by assumption))).trans (moves_bindForArrival _ p)

theorem moves_attachDone (s : State) (j : Slot) (p : Program) (g : Option Generation) (b : Bool) (ws : List Word) :
    Moves s (s.attachDone j p g b ws) := by
  unfold State.attachDone
  split
  · split
    · exact moves_faultSlot s j p _
    · split
      · exact moves_placeTone s j p b ws
      · exact moves_arrive s j p _
  · exact .refl s

theorem moves_attachOrIdle (s : State) (j : Slot) (o : Option Program) : Moves s (s.attachOrIdle j o) := by
  cases o with
  | none => exact moves_enter s j _
  | some p => exact moves_attach s j p

theorem moves_completeListener (s : State) (n : PlayerIx) (c : Option PlaylistFault) (j : Slot) :
    Moves s (s.completeListener n c j) := by
  unfold State.completeListener
  dsimp only
  split
  · exact ((moves_modifyPlayer s n _ (.of_same rfl rfl rfl rfl rfl rfl)).trans (moves_takeOutcome _ _ j rfl)).trans
      (moves_attachOrIdle _ j _)
  · exact moves_modifyPlayer s n _ (.of_same rfl rfl rfl rfl rfl rfl)

theorem moves_takeDwell (s : State) (j : Slot) : Moves s (s.takeDwell j) := by
  unfold State.takeDwell
  split
  · split
    · dsimp only
      split
      · exact ((moves_slotOutcome s j _ _ _).trans (moves_releaseGenerator _ _)).trans (moves_attach _ j _)
      · exact (moves_slotOutcome s j _ _ _).trans (moves_setSlot _ j _)
    · exact .refl s
  · exact .refl s

theorem moves_takeTimeout (s : State) : Moves s s.takeTimeout := by
  unfold State.takeTimeout
  split
  · exact .refl s
  · split
    · exact (moves_leaveWaiting s _ _).trans (moves_overflowSlot _ _ _ _ _)
    · exact moves_leaveQueue s _

/-! ### Walkers -/

theorem moves_modifyWalker (s : State) (n : PlayerIx) (f : Walker → Walker)
    (h : (s.player n).walker.stack.length ≤ 4 ∧ (s.player n).walker.zeroTime ≤ 15 →
      (f (s.player n).walker).stack.length ≤ 4 ∧ (f (s.player n).walker).zeroTime ≤ 15) :
    Moves s (s.modifyWalker n f) :=
  moves_modifyPlayer s n _ (.of_bounded (fun b => ⟨(h ⟨b.1, b.2.1⟩).1, (h ⟨b.1, b.2.1⟩).2, b.2.2⟩) rfl rfl rfl)

theorem moves_setNext (s : State) (n : PlayerIx) (o : Nat) : Moves s (s.setNext n o) := by
  unfold State.setNext
  split
  · exact moves_modifyWalker s n _ id
  · exact (moves_modifyWalker s n _ id).trans (moves_enqueue _ _ rfl rfl)

/-- A step that passes its checks leaves the stack and the zero-time count within their bounds (R134, R138). -/
theorem takeStep_bounded (size start offset : Nat) (w : Walker) (st : PlaylistStep) (k : StepKind)
    (hk : stepKind st = some k) (hf : promotionFault size w st = none)
    (h : w.stack.length ≤ 4 ∧ w.zeroTime ≤ 15) :
    (takeStep start w offset st k).1.stack.length ≤ 4 ∧ (takeStep start w offset st k).1.zeroTime ≤ 15 := by
  simp only [promotionFault, hk] at hf
  have hz : k.isSilent = true → w.zeroTime < 15 := by
    intro hs
    by_contra hc
    have : 15 ≤ w.zeroTime := Nat.le_of_not_lt hc
    simp only [hs, this, and_self, if_true] at hf
    split at hf
    · cases hf
    · split at hf <;> cases hf
  have hc : k = .call → w.stack.length < 4 := by
    intro hs
    by_contra hc
    have hw : 4 ≤ w.stack.length := Nat.le_of_not_lt hc
    subst hs
    simp only [hw, and_self, if_true, reduceCtorEq, false_and, if_false, or_self] at hf
    split at hf <;> cases hf
  obtain ⟨h1, h2⟩ := h
  cases k with
  | play => exact ⟨h1, h2⟩
  | gap => exact ⟨h1, h2⟩
  | join => exact ⟨h1, hz rfl⟩
  | bank => exact ⟨h1, hz rfl⟩
  | call => exact ⟨hc rfl, hz rfl⟩
  | endPass => exact ⟨h1, hz rfl⟩
  | ret =>
    have hz := hz rfl
    simp only [takeStep]
    split
    · rename_i e
      rw [e] at h1
      exact ⟨Nat.le_of_succ_le h1, hz⟩
    · exact ⟨h1, hz⟩

theorem moves_promote (s t : State) (n : PlayerIx) (h : s.promote n = some t) : Moves s t := by
  unfold State.promote at h
  dsimp only at h
  split at h
  · cases h
  · cases h
  · cases h
    exact moves_modifyWalker s n _ id
  · split at h
    · rename_i hf hk
      cases h
      exact (moves_modifyWalker s n _ (takeStep_bounded _ _ _ _ _ _ hk hf)).trans (moves_setNext _ n _)
    · cases h
      exact moves_modifyWalker s n _ id
    · cases h

theorem chunkLength_le (ref remaining : Nat) : chunkLength ref remaining ≤ 64 := by
  unfold chunkLength
  omega

theorem placeFull_step (s : State) (n : PlayerIx) (c : Chunk) (w : Walker) (hc : (Half.full c).Bounded)
    (h : (s.player n).walker.stack.length ≤ 4 ∧ (s.player n).walker.zeroTime ≤ 15 →
      w.stack.length ≤ 4 ∧ w.zeroTime ≤ 15) :
    PlayerStep s n ((s.player n).placeFull c w) := by
  refine .of_bounded (fun b => ?_) (Player.setHalf_program ..) (Player.setHalf_state ..) (Player.setHalf_fresh ..)
        (.inl ⟨Player.setHalf_windowOpen .., Player.setHalf_framesLeft ..⟩)
  have hb := (s.player n).setHalf_bounded (s.player n).walker.nextHalf (.full c) b hc
  have hw := h ⟨b.1, b.2.1⟩
  exact ⟨hw.1, hw.2, hb.2.2⟩

theorem moves_place (s t : State) (n : PlayerIx) (h : s.place n = some t) : Moves s t := by
  unfold State.place at h
  dsimp only at h
  split at h
  · cases h
    refine (moves_setPlayer s n _ ?_).trans (moves_enqueue _ _ rfl rfl)
    refine .of_bounded (fun b => ?_) (Player.setHalf_program ..) (Player.setHalf_state ..) (Player.setHalf_fresh ..)
        (.inl ⟨Player.setHalf_windowOpen .., Player.setHalf_framesLeft ..⟩)
    exact ⟨b.1, Nat.zero_le _, ((s.player n).setHalf_bounded _ (.filling _ _) b (chunkLength_le _ _)).2.2⟩
  · cases h
    exact moves_setPlayer s n _ (placeFull_step s n _ _ trivial (fun b => ⟨b.1, Nat.zero_le _⟩))
  · cases h
    exact moves_setPlayer s n _ (placeFull_step s n _ _ trivial id)
  · cases h
    exact moves_setPlayer s n _ (placeFull_step s n _ _ trivial (fun b => ⟨Nat.zero_le _, b.2⟩))
  · cases h
    exact moves_setPlayer s n _ (placeFull_step s n _ _ trivial id)
  · cases h

theorem moves_walkOnce (s t : State) (n : PlayerIx) (h : s.walkOnce n = some t) : Moves s t := by
  unfold State.walkOnce at h
  dsimp only at h
  split at h
  · exact moves_place s t n h
  · split at h
    · exact moves_promote s t n h
    · cases h

theorem moves_walk (n : PlayerIx) (k : Nat) : ∀ s, Moves s (State.walk n k s) := by
  induction k with
  | zero => exact Moves.refl
  | succ k ih =>
    intro s
    unfold State.walk
    split
    · exact .refl s
    · exact (moves_walkOnce s _ n (by assumption)).trans (ih _)

theorem moves_advanceWalker (s : State) (n : PlayerIx) : Moves s (s.advanceWalker n) := moves_walk n _ s

theorem moves_startWalker (s : State) (n : PlayerIx) : Moves s (s.startWalker n) :=
  ((moves_modifyWalker s n _ (fun _ => ⟨Nat.zero_le _, Nat.zero_le _⟩)).trans (moves_setNext _ n _)).trans
    (moves_advanceWalker _ n)

/-! ### Players at a mark -/

theorem moves_joinPoint (s : State) (n : PlayerIx) : Moves s (s.joinPoint n) := by
  unfold State.joinPoint
  split
  · exact (Moves.foldl (fun t j => t.joinWaiting n j) (fun t j => moves_joinWaiting t n j) _ s).trans
      (moves_modifyPlayer _ n _ (.of_same rfl rfl rfl rfl rfl rfl (.inr (.inl (by simp)))))
  · exact moves_modifyPlayer s n _ (.of_same rfl rfl rfl rfl rfl rfl (.inr (.inl (by simp))))

theorem moves_countListen (s : State) (j : Slot) : Moves s (s.countListen j) := by
  unfold State.countListen
  split
  · exact moves_setSlot s j _
  · exact .refl s

theorem moves_playOn (s : State) (n : PlayerIx) : Moves s (s.playOn n) := by
  unfold State.playOn
  dsimp only
  split <;> split
  · exact moves_releasePlayer s n
  · exact moves_joinPoint s n
  · exact moves_releasePlayer s n
  · exact moves_joinPoint s n

theorem moves_passEnd (s : State) (n : PlayerIx) : Moves s (s.passEnd n) :=
  ((Moves.foldl State.countListen moves_countListen _ s).trans
    (Moves.foldl (fun u j => u.completeListener n none j)
      (fun u j => moves_completeListener u n none j) _ _)).trans (moves_playOn _ n)

theorem moves_faultMark (s : State) (n : PlayerIx) (c : PlaylistFault) : Moves s (s.faultMark n c) :=
  (Moves.foldl (fun t j => t.completeListener n (some c) j)
    (fun t j => moves_completeListener t n (some c) j) _ s).trans (moves_releasePlayer _ n)

theorem moves_takeMark (s : State) (n : PlayerIx) (m : MarkKind) : Moves s (s.takeMark n m) := by
  cases m with
  | join => exact moves_joinPoint s n
  | endPass => exact moves_passEnd s n
  | fault c => exact moves_faultMark s n c

theorem moves_emptyCurrent (s : State) (n : PlayerIx) : Moves s (s.emptyCurrent n) :=
  (moves_modifyPlayer s n _ (.of_bounded (fun b => (s.player n).setHalf_bounded _ .empty b trivial)
    (Player.setHalf_program ..) (Player.setHalf_state ..) (Player.setHalf_fresh ..)
        (.inl ⟨Player.setHalf_windowOpen .., Player.setHalf_framesLeft ..⟩))).trans (moves_advanceWalker _ n)

theorem moves_takeMarks (n : PlayerIx) (k : Nat) : ∀ s, Moves s (State.takeMarks n k s) := by
  induction k with
  | zero => exact Moves.refl
  | succ k ih =>
    intro s
    unfold State.takeMarks
    split
    · dsimp only
      split
      · exact ((moves_takeMark s n _).trans (moves_emptyCurrent _ n)).trans (ih _)
      · exact moves_takeMark s n _
    · exact .refl s

theorem output_step (s : State) (n : PlayerIx) : PlayerStep s n (s.player n).output := by
  unfold Player.output
  split
  · exact .of_same rfl rfl rfl rfl rfl rfl
  · exact .of_same rfl rfl rfl rfl rfl rfl
  · exact .of_same rfl rfl rfl rfl rfl rfl

theorem moves_outputFrame (s : State) (n : PlayerIx) : Moves s (s.outputFrame n) := by
  unfold State.outputFrame
  dsimp only
  split
  · exact (moves_modifyPlayer s n _ (output_step s n)).trans (moves_emptyCurrent _ n)
  · exact moves_modifyPlayer s n _ (output_step s n)

/-- A mark reaches a player while the ends of its timers are open. -/
theorem moves_markPlayer (s : State) (n : PlayerIx) (h : s.fm.endsOpen = true) : Moves s (s.markPlayer n) := by
  unfold State.markPlayer
  dsimp only
  have count : PlayerStep s n (s.player n).countWindow :=
    .of_same rfl rfl rfl rfl rfl rfl (.inr (.inr ⟨h, rfl, Nat.sub_le _ _⟩))
  split
  · split
    · exact ((moves_modifyPlayer s n _ count).trans (moves_takeMarks n _ _)).trans (moves_outputFrame _ n)
    · exact (moves_modifyPlayer s n _ count).trans (moves_takeMarks n _ _)
  · exact .refl s

theorem moves_closeWindow (s : State) (n : PlayerIx) : Moves s (s.closeWindow n) := by
  unfold State.closeWindow
  split
  · rename_i h
    exact moves_modifyPlayer s n _ (.of_same rfl rfl rfl rfl rfl rfl (.inr (.inl (by simp [h]))))
  · exact .refl s

theorem moves_firstPassStart (s : State) (n : PlayerIx) (c : Option PlaylistFault)
    (hp : (s.player n).state = .priming) : Moves s (s.firstPassStart n c) := by
  have h := (moves_modifyPlayer s n (fun pl => { pl with state := .running, cursor := 0 })
    ⟨id, fun p f => .inl (by simp [Player.isFreshFor, hp] at f ⊢; exact ⟨f.1, by simp [f.2]⟩), .inl ⟨rfl, rfl⟩⟩).trans
    (moves_joinPoint _ n)
  unfold State.firstPassStart
  dsimp only
  split
  · exact h.trans (moves_releasePlayer _ n)
  · split
    · exact h.trans (moves_faultMark _ n _)
    · exact h

theorem moves_takePriming (n : PlayerIx) (k : Nat) : ∀ s, Moves s (State.takePriming n k s) := by
  induction k with
  | zero => exact Moves.refl
  | succ k ih =>
    intro s
    unfold State.takePriming
    split
    · exact moves_firstPassStart s n _ (by assumption)
    · exact (moves_emptyCurrent s n).trans (ih _)
    · exact moves_firstPassStart s n _ (by assumption)
    · exact .refl s

theorem moves_primed (s : State) (n : PlayerIx) : Moves s (s.primed n) := moves_takePriming n _ s

theorem moves_bindingFailed (s : State) (n : PlayerIx) (p : Program) : Moves s (s.bindingFailed n p) := by
  refine ((moves_freePlayer s n).trans (Moves.foldl _ (fun t j => ?_) _ _)).trans (moves_allocate _ n)
  split
  · exact (moves_leaveWaiting t j _).trans (moves_faultSlot _ j _ _)
  · exact moves_leaveQueue t j

theorem moves_bindingDone (s : State) (n : PlayerIx) (p : Program) (g : Option Generation) (b : Bool)
    (ws : List Word) : Moves s (s.bindingDone n p g b ws) := by
  unfold State.bindingDone
  split
  · rename_i hc
    split
    · exact moves_bindingFailed s n p
    · split
      · have hs : PlayerStep s n { s.player n with fresh := some true, copy := some (playerCopyOf ws) } :=
          ⟨id, fun p f => .inl (by simp [Player.isFreshFor, hc.2.1, hc.2.2] at f ⊢; exact f), .inl ⟨rfl, rfl⟩⟩
        exact ((moves_modifyPlayer s n _ hs).trans (moves_startWalker _ n)).trans (moves_primed _ n)
      · exact moves_releasePlayer s n
  · exact .refl s

theorem moves_stepDone (s : State) (n : PlayerIx) (g : Option Generation) (ws : List Word) :
    Moves s (s.stepDone n g ws) := by
  unfold State.stepDone
  split
  · split
    · exact ((moves_modifyWalker s n _ id).trans (moves_advanceWalker _ n)).trans (moves_primed _ n)
    · exact .refl s
  · exact .refl s

theorem codesOf_length (first length : Nat) (ws : List Word) : (codesOf first length ws).length ≤ length := by
  unfold codesOf
  simp

theorem moves_fillDone (s : State) (n : PlayerIx) (h : HalfName) (g : Option Generation) (ws : List Word) :
    Moves s (s.fillDone n h g ws) := by
  unfold State.fillDone
  split
  · rename_i first length hh
    split
    · refine (moves_modifyPlayer s n _ ?_).trans (moves_primed _ n)
      refine .of_bounded (fun b => (s.player n).setHalf_bounded h _ b ?_)
        (Player.setHalf_program ..) (Player.setHalf_state ..) (Player.setHalf_fresh ..)
        (.inl ⟨Player.setHalf_windowOpen .., Player.setHalf_framesLeft ..⟩)
      have := (s.player n).half_bounded h b
      rw [hh] at this
      exact (codesOf_length first length ws).trans this
    · exact .refl s
  · exact .refl s

theorem moves_stalePlayer (s : State) (p : Program) (n : PlayerIx) : Moves s (s.stalePlayer p n) := by
  unfold State.stalePlayer
  dsimp only
  split
  · split
    · exact moves_releasePlayer s n
    · rename_i hr
      exact moves_setPlayer s n _ ⟨id, fun p f => by simp [Player.isFreshFor, hr] at f, .inr (.inl (by simp))⟩
    · exact .refl s
  · exact .refl s

/-! ### Frame marks and the ends of timers -/

theorem moves_runTask (s : State) (m : MarkTask) (h : s.fm.endsOpen = true) : Moves s (s.runTask m) := by
  cases m with
  | tones => exact moves_markTones s
  | player n => exact moves_markPlayer s n h
  | dwell j => exact moves_takeDwell s j
  | wait => exact moves_takeTimeout s

/-! ### What the moves leave unchanged -/

theorem Move.servingOnly {s t : State} (m : Move s t) : ServingOnly s t := by
  cases m with
  | outcome o =>
    unfold State.takeOutcome
    split
    · exact ⟨rfl, rfl, rfl, rfl, rfl, rfl⟩
    · split <;> exact ⟨rfl, rfl, rfl, rfl, rfl, rfl⟩
  | enqueue | withdraw | slot | generator | tones | player | leave | append => exact ⟨rfl, rfl, rfl, rfl, rfl, rfl⟩

theorem Moves.servingOnly {s t : State} (m : Moves s t) : ServingOnly s t := by
  induction m with
  | refl => exact ⟨rfl, rfl, rfl, rfl, rfl, rfl⟩
  | step _ b ih =>
    have h := b.servingOnly
    exact ⟨h.pending.trans ih.pending, h.bus.trans ih.bus, h.pairing.trans ih.pairing, h.boot.trans ih.boot,
      h.fm.trans ih.fm, h.refetch.trans ih.refetch⟩

theorem moves_handMark (s : State) (order : List MarkTask) (h : s.fm.endsOpen = true) : Moves s (s.handMark order) := by
  have go : ∀ (l : List MarkTask) (s : State), s.fm.endsOpen = true → Moves s (l.foldl State.runTask s) := by
    intro l
    induction l with
    | nil => exact fun s _ => .refl s
    | cons a l ih =>
      intro s h
      have m := moves_runTask s a h
      exact m.trans (ih _ (by rw [m.servingOnly.fm]; exact h))
  exact go _ s h

end Sys2Proof.Machine
end

