-- ==== Sys2Proof/Laws/Bus.lean ====
section
/-! SUPPORT. Laws/Bus.lean: what the ends of timers, the MRA's choice, the port's granting and the delivery of
a completed request do to the state, each said once; and what taking an outcome does. -/

namespace Sys2Proof.Machine

/-! ### The ends of timers -/

/-- Where no end waits there is none to take. -/
theorem takeEnds_settled (s : State) (h : s.Settled) : s.takeEnds = s := by
  unfold State.takeEnds State.Settled at *
  simp [h]

/-- Where no time passes, nothing changes. -/
theorem tick_zero (s : State) : s.tick 0 = s := by
  have : s.count 0 = s := by unfold State.count State.modifyFm; simp only [Nat.add_zero, Option.map_id']; rfl
  unfold State.tick State.passTime
  cases s.fm.untilExpiry with
  | none => exact this
  | some r => simp only [Nat.zero_le, if_true]; exact this

/-- A word's place in a watch range (R4). -/
theorem inRange_iff (lo size base : Nat) :
    inRange lo size base = true ↔ lo ≤ base + 1 ∧ base < lo + size ∧ base < 16777216 := by
  unfold inRange
  rw [Bool.and_eq_true, decide_eq_true_iff, decide_eq_true_iff, Nat.lt_min]
  norm_num

/-- Whichever command brings it, memory's acceptance of the store on the port is the store's acceptance, its
blocks in some order (log 10). -/
theorem acceptance_eq (s : State) (q : Request) (data : Word) (c : Instr) (hc : IsAcceptance c) (hs : s.Settled)
    (hp : s.StoreOnPort q data) : ∃ l, exec c s = .next (s.storeAccepted q data l) ∧
      l.Perm [StoreTaker.connection, .program, .consumer] := by
  have e : s.takeEnds = s := takeEnds_settled s hs
  have a : ∀ l, s.acceptStore l = s.storeAccepted q data l := by
    intro l; unfold State.acceptStore; rw [hp.port]; simp only; rw [hp.dir]
  have b : ∀ d, s.completePassing d = s.storeAccepted q data [.connection, .program, .consumer] := by
    intro d; unfold State.completePassing; rw [hp.port]; simp only; rw [hp.dir]
  cases c with
  | passingCompletion d => exact ⟨_, by rw [exec, execPassingCompletion, e, b], .refl _⟩
  | connectionStore => exact ⟨_, by rw [exec, execConnectionStore, e, a], .refl _⟩
  | programStore => exact ⟨_, by rw [exec, execProgramStore, e, a], .swap _ _ _⟩
  | consumerStore => exact ⟨[.consumer, .connection, .program], by rw [exec, execConsumerStore, e, a], by decide⟩
  | commandStore => exact ⟨_, by rw [exec, execCommandStore, e, a], .refl _⟩
  | _ => exact hc.elim

/-! ### Requests -/

@[simp] theorem OwnRequest.advance_kind (r : OwnRequest) (d : Word) : (r.advance d).kind = r.kind := rfl
@[simp] theorem OwnRequest.advance_gen (r : OwnRequest) (d : Word) : (r.advance d).gen = r.gen := rfl
@[simp] theorem OwnRequest.advance_overtaken (r : OwnRequest) (d : Word) : (r.advance d).overtaken = r.overtaken := rfl
@[simp] theorem OwnRequest.advance_addr (r : OwnRequest) (d : Word) : (r.advance d).addr = r.addr := rfl
@[simp] theorem OwnRequest.advance_drain (r : OwnRequest) (d : Word) : (r.advance d).drain = r.drain := rfl

/-- A choice is made among the queued requests. -/
theorem firstLeast_mem (f : OwnRequest → Nat) (l : List OwnRequest) (r : OwnRequest) (h : firstLeast f l = some r) :
    r ∈ l := by
  induction l generalizing r with
  | nil => simp [firstLeast] at h
  | cons a l ih =>
    unfold firstLeast at h
    split at h
    · simp_all
    · rename_i b e
      split at h
      · exact List.mem_cons_of_mem _ (ih r (by rw [e]; exact h))
      · simp_all

theorem pick_mem (s : State) (r : OwnRequest) (h : s.pick = some r) : r ∈ s.mra.queued := by
  unfold State.pick at h
  split at h
  · unfold State.pickRun at h
    split at h
    · rename_i e
      cases h
      exact (List.mem_filter.mp (firstLeast_mem _ _ _ e)).1
    · split at h
      · rename_i e
        cases h
        exact List.mem_of_find?_eq_some e
      · exact List.mem_of_find?_eq_some h
  · exact List.mem_of_find?_eq_some h
  · cases h

/-- What the MRA's choice does: nothing, or one queued request becomes the chosen one. -/
theorem choose_cases (s : State) : s.choose = s ∨ ∃ r ∈ s.mra.queued, s.mra.chosen = none ∧ s.mra.underWay = none ∧
    s.pick = some r ∧ s.choose = s.withMra { s.mra with queued := s.mra.queued.erase r, chosen := some r } := by
  unfold State.choose
  split
  · exact .inl rfl
  · rename_i h
    simp only [Bool.or_eq_true, not_or, Bool.not_eq_true, Option.isSome_eq_false_iff, Option.isNone_iff_eq_none] at h
    split
    · exact .inl rfl
    · rename_i r e
      exact .inr ⟨r, pick_mem s r e, h.1, h.2, e, rfl⟩

@[simp] theorem choose_pending (s : State) : s.choose.pending = s.pending := by
  rcases choose_cases s with h | ⟨_, _, _, _, _, h⟩ <;> simp [h]
@[simp] theorem choose_bus (s : State) : s.choose.bus = s.bus := by
  rcases choose_cases s with h | ⟨_, _, _, _, _, h⟩ <;> simp [h]
@[simp] theorem choose_pairing (s : State) : s.choose.pairing = s.pairing := by
  rcases choose_cases s with h | ⟨_, _, _, _, _, h⟩ <;> simp [h]
@[simp] theorem choose_boot (s : State) : s.choose.boot = s.boot := by
  rcases choose_cases s with h | ⟨_, _, _, _, _, h⟩ <;> simp [h]
@[simp] theorem choose_fm (s : State) : s.choose.fm = s.fm := by
  rcases choose_cases s with h | ⟨_, _, _, _, _, h⟩ <;> simp [h]
@[simp] theorem choose_slots (s : State) : s.choose.slots = s.slots := by
  rcases choose_cases s with h | ⟨_, _, _, _, _, h⟩ <;> simp [h]
@[simp] theorem choose_gens (s : State) : s.choose.gens = s.gens := by
  rcases choose_cases s with h | ⟨_, _, _, _, _, h⟩ <;> simp [h]
@[simp] theorem choose_refetch (s : State) : s.choose.refetch = s.refetch := by
  rcases choose_cases s with h | ⟨_, _, _, _, _, h⟩ <;> simp [h]
@[simp] theorem choose_players (s : State) : s.choose.players = s.players := by
  rcases choose_cases s with h | ⟨_, _, _, _, _, h⟩ <;> simp [h]
@[simp] theorem choose_queue (s : State) : s.choose.queue = s.queue := by
  rcases choose_cases s with h | ⟨_, _, _, _, _, h⟩ <;> simp [h]
@[simp] theorem choose_rrw (s : State) : s.choose.rrw = s.rrw := by
  rcases choose_cases s with h | ⟨_, _, _, _, _, h⟩ <;> simp [h]
@[simp] theorem choose_underWay (s : State) : s.choose.mra.underWay = s.mra.underWay := by
  rcases choose_cases s with h | ⟨r, _, _, _, _, h⟩ <;> rw [h]
  rfl

/-- The choice makes no request and loses none. -/
theorem choose_requestsHeld (s : State) : s.choose.requestsHeld.Perm s.requestsHeld := by
  rcases choose_cases s with h | ⟨r, hr, hc, hu, _, h⟩ <;> rw [h]
  unfold State.requestsHeld
  simp only [State.withMra_mra, hc, hu, Option.toList_none, Option.toList_some, List.nil_append, List.singleton_append]
  exact (List.perm_cons_erase hr).symm

/-- A waiting request still waits after the choice, and none is added. -/
theorem choose_waiting (s : State) (q : OwnRequest) : s.choose.Waiting q ↔ s.Waiting q := by
  rcases choose_cases s with h | ⟨r, hr, hc, hu, _, h⟩ <;> rw [h]
  unfold State.Waiting
  simp only [State.withMra_mra, hc, Option.some.injEq, reduceCtorEq, or_false]
  constructor
  · rintro (h | h)
    · exact List.mem_of_mem_erase h
    · exact h ▸ hr
  · intro h
    by_cases e : r = q
    · exact .inr e
    · exact .inl ((List.mem_erase_of_ne (Ne.symm e)).mpr h)

/-! ### The port -/

/-- What the granting does: nothing, or the free port goes to the first waiting request or to the burst. -/
theorem grant_cases (s : State) : s.grant = s ∨ ∃ b, s.grant = s.withBus b ∧ s.bus.port = none ∧
    b = { s.bus with port := nextOnPort s.bus.waiting s.mra, waiting := s.bus.waiting.tail } := by
  unfold State.grant
  split
  · exact .inl rfl
  · rename_i hp
    split
    · rename_i r rest hw
      exact .inr ⟨_, rfl, hp, by simp [hw, nextOnPort]⟩
    · rename_i hw
      split
      · rename_i hu
        exact .inr ⟨_, rfl, hp, by simp [hw, nextOnPort, hu]⟩
      · exact .inl rfl

@[simp] theorem grant_pending (s : State) : s.grant.pending = s.pending := by
  rcases grant_cases s with h | ⟨_, h, _, _⟩ <;> simp [h]
@[simp] theorem grant_pairing (s : State) : s.grant.pairing = s.pairing := by
  rcases grant_cases s with h | ⟨_, h, _, _⟩ <;> simp [h]
@[simp] theorem grant_boot (s : State) : s.grant.boot = s.boot := by
  rcases grant_cases s with h | ⟨_, h, _, _⟩ <;> simp [h]
@[simp] theorem grant_fm (s : State) : s.grant.fm = s.fm := by
  rcases grant_cases s with h | ⟨_, h, _, _⟩ <;> simp [h]
@[simp] theorem grant_slots (s : State) : s.grant.slots = s.slots := by
  rcases grant_cases s with h | ⟨_, h, _, _⟩ <;> simp [h]
@[simp] theorem grant_gens (s : State) : s.grant.gens = s.gens := by
  rcases grant_cases s with h | ⟨_, h, _, _⟩ <;> simp [h]
@[simp] theorem grant_refetch (s : State) : s.grant.refetch = s.refetch := by
  rcases grant_cases s with h | ⟨_, h, _, _⟩ <;> simp [h]
@[simp] theorem grant_players (s : State) : s.grant.players = s.players := by
  rcases grant_cases s with h | ⟨_, h, _, _⟩ <;> simp [h]
@[simp] theorem grant_queue (s : State) : s.grant.queue = s.queue := by
  rcases grant_cases s with h | ⟨_, h, _, _⟩ <;> simp [h]
@[simp] theorem grant_mra (s : State) : s.grant.mra = s.mra := by
  rcases grant_cases s with h | ⟨_, h, _, _⟩ <;> simp [h]
@[simp] theorem grant_rrw (s : State) : s.grant.rrw = s.rrw := by
  rcases grant_cases s with h | ⟨_, h, _, _⟩ <;> simp [h]
@[simp] theorem grant_engineEnd (s : State) : s.grant.bus.engineEnd = s.bus.engineEnd := by
  rcases grant_cases s with h | ⟨r, h, _, e⟩ <;> rw [h]
  rw [e]; rfl
@[simp] theorem grant_cpuEnd (s : State) : s.grant.bus.cpuEnd = s.bus.cpuEnd := by
  rcases grant_cases s with h | ⟨r, h, _, e⟩ <;> rw [h]
  rw [e]; rfl

/-- A port in use is not given. -/
theorem grant_busy (s : State) (h : s.bus.port ≠ none) : s.grant = s := by
  rcases grant_cases s with e | ⟨_, _, p, _⟩
  · exact e
  · exact absurd p h

/-- A free port is given as `nextOnPort` says. -/
theorem grant_free (s : State) (h : s.bus.port = none) :
    s.grant.bus.port = nextOnPort s.bus.waiting s.mra ∧ s.grant.bus.waiting = s.bus.waiting.tail := by
  unfold State.grant
  simp only [h]
  split
  · rename_i hw; simp [hw, nextOnPort]
  · rename_i hw
    split
    · rename_i hu; simp [hw, nextOnPort, hu]
    · rename_i hu; simp [hw, nextOnPort, hu, h]

/-! ### The end of an event -/

@[simp] theorem finish_pending (s : State) : s.finish.pending = s.pending := by simp [State.finish]
@[simp] theorem finish_pairing (s : State) : s.finish.pairing = s.pairing := by simp [State.finish]
@[simp] theorem finish_boot (s : State) : s.finish.boot = s.boot := by simp [State.finish]
@[simp] theorem finish_fm (s : State) : s.finish.fm = s.fm := by simp [State.finish]
@[simp] theorem finish_slots (s : State) : s.finish.slots = s.slots := by simp [State.finish]
@[simp] theorem finish_gens (s : State) : s.finish.gens = s.gens := by simp [State.finish]
@[simp] theorem finish_refetch (s : State) : s.finish.refetch = s.refetch := by simp [State.finish]
@[simp] theorem finish_players (s : State) : s.finish.players = s.players := by simp [State.finish]
@[simp] theorem finish_queue (s : State) : s.finish.queue = s.queue := by simp [State.finish]
@[simp] theorem finish_rrw (s : State) : s.finish.rrw = s.rrw := by simp [State.finish]
@[simp] theorem finish_underWay (s : State) : s.finish.mra.underWay = s.mra.underWay := by simp [State.finish]
@[simp] theorem finish_engineEnd (s : State) : s.finish.bus.engineEnd = s.bus.engineEnd := by simp [State.finish]
@[simp] theorem finish_cpuEnd (s : State) : s.finish.bus.cpuEnd = s.bus.cpuEnd := by simp [State.finish]
@[simp] theorem finish_slot (s : State) (j : Slot) : s.finish.slot j = s.slot j := by simp [State.slot]
@[simp] theorem finish_generator (s : State) (g : GenIx) : s.finish.generator g = s.generator g := by
  simp [State.generator]
@[simp] theorem finish_player (s : State) (n : PlayerIx) : s.finish.player n = s.player n := by simp [State.player]
@[simp] theorem finish_isPending (s : State) (src : Source) : s.finish.isPending src = s.isPending src := by
  simp [State.isPending]
@[simp] theorem finish_heldOutcome (s : State) (src : Source) : s.finish.heldOutcome src = s.heldOutcome src := by
  simp [State.heldOutcome]

/-- The end of an event makes no request and loses none. -/
theorem finish_requestsHeld (s : State) : s.finish.requestsHeld.Perm s.requestsHeld := by
  have : s.finish.requestsHeld = s.choose.requestsHeld := by simp [State.finish, State.requestsHeld]
  exact this ▸ choose_requestsHeld s

@[simp] theorem finish_waiting (s : State) (q : OwnRequest) : s.finish.Waiting q ↔ s.Waiting q := by
  have : s.finish.Waiting q ↔ s.choose.Waiting q := by simp [State.finish, State.Waiting]
  exact this.trans (choose_waiting s q)

/-- A free port is given at the end of the event as `nextOnPort` says. -/
theorem finish_free (s : State) (h : s.bus.port = none) :
    s.finish.bus.port = nextOnPort s.bus.waiting s.finish.mra ∧ s.finish.bus.waiting = s.bus.waiting.tail := by
  have := grant_free s.choose (by simpa using h)
  simpa [State.finish] using this

/-- A port in use is kept at the end of the event. -/
theorem finish_busy (s : State) (h : s.bus.port ≠ none) : s.finish.bus = s.bus := by
  unfold State.finish
  rw [grant_busy _ (by simpa using h), choose_bus]

/-! ### Delivery of a completed request -/

/-- The part with its completed request gone and the port free. -/
def State.delivered (s : State) : State :=
  (s.withMra { s.mra with underWay := none }).withBus { s.bus with port := none }

theorem lastWord_eq (s : State) (r : OwnRequest) (data : Word) (h : s.LastWordOf r) :
    s.lastWord data = some (r.advance data, s.delivered) := by
  unfold State.lastWord
  simp [h.port, h.underWay, h.last, State.delivered]

/-- A completed request of the command's kind is delivered and the event ends. -/
theorem complete_eq (s t : State) (r : OwnRequest) (data : Word) (deliver : OwnRequest → State → Option State)
    (h : s.LastWordOf r) (d : deliver (r.advance data) s.delivered = some t) :
    s.complete data deliver = t.finish := by
  unfold State.complete
  simp [lastWord_eq s r data h, d]

/-- What a completion can do: nothing, or a delivery that ends the event. -/
theorem complete_cases (s : State) (data : Word) (deliver : OwnRequest → State → Option State) :
    s.complete data deliver = s ∨ ∃ r t, s.LastWordOf r ∧ deliver (r.advance data) s.delivered = some t ∧
      s.complete data deliver = t.finish := by
  unfold State.complete
  split
  · exact .inl rfl
  · rename_i r t e
    unfold State.lastWord at e
    split at e
    · rename_i q hp hu
      split at e
      · rename_i hl
        simp only [Option.some.injEq, Prod.mk.injEq] at e
        obtain ⟨rfl, rfl⟩ := e
        split
        · exact .inl rfl
        · rename_i t' d
          exact .inr ⟨q, t', ⟨hp, hu, hl⟩, d, rfl⟩
      · cases e
    · cases e

@[simp] theorem delivered_pending (s : State) : s.delivered.pending = s.pending := rfl
@[simp] theorem delivered_pairing (s : State) : s.delivered.pairing = s.pairing := rfl
@[simp] theorem delivered_boot (s : State) : s.delivered.boot = s.boot := rfl
@[simp] theorem delivered_fm (s : State) : s.delivered.fm = s.fm := rfl
@[simp] theorem delivered_slots (s : State) : s.delivered.slots = s.slots := rfl
@[simp] theorem delivered_gens (s : State) : s.delivered.gens = s.gens := rfl
@[simp] theorem delivered_refetch (s : State) : s.delivered.refetch = s.refetch := rfl
@[simp] theorem delivered_players (s : State) : s.delivered.players = s.players := rfl
@[simp] theorem delivered_queue (s : State) : s.delivered.queue = s.queue := rfl
@[simp] theorem delivered_rrw (s : State) : s.delivered.rrw = s.rrw := rfl
@[simp] theorem delivered_slot (s : State) (j : Slot) : s.delivered.slot j = s.slot j := rfl
@[simp] theorem delivered_generator (s : State) (g : GenIx) : s.delivered.generator g = s.generator g := rfl
@[simp] theorem delivered_player (s : State) (n : PlayerIx) : s.delivered.player n = s.player n := rfl
@[simp] theorem delivered_queued (s : State) : s.delivered.mra.queued = s.mra.queued := rfl
@[simp] theorem delivered_chosen (s : State) : s.delivered.mra.chosen = s.mra.chosen := rfl
@[simp] theorem delivered_underWay (s : State) : s.delivered.mra.underWay = none := rfl
@[simp] theorem delivered_waiting (s : State) : s.delivered.bus.waiting = s.bus.waiting := rfl
@[simp] theorem delivered_port (s : State) : s.delivered.bus.port = none := rfl
@[simp] theorem delivered_engineEnd (s : State) : s.delivered.bus.engineEnd = s.bus.engineEnd := rfl
@[simp] theorem delivered_cpuEnd (s : State) : s.delivered.bus.cpuEnd = s.bus.cpuEnd := rfl
@[simp] theorem delivered_underWayGen (s : State) (f : OwnKind → Bool) : s.delivered.underWayGen f = none := rfl

/-! ### Taking an outcome -/

@[simp] theorem takeOutcome_pending (s : State) (o : Outcome) : (s.takeOutcome o).pending = s.pending := by
  unfold State.takeOutcome State.holdOutcome State.queueReport
  repeat' split
  all_goals rfl
@[simp] theorem takeOutcome_bus (s : State) (o : Outcome) : (s.takeOutcome o).bus = s.bus := by
  unfold State.takeOutcome State.holdOutcome State.queueReport
  repeat' split
  all_goals rfl
@[simp] theorem takeOutcome_pairing (s : State) (o : Outcome) : (s.takeOutcome o).pairing = s.pairing := by
  unfold State.takeOutcome State.holdOutcome State.queueReport
  repeat' split
  all_goals rfl
@[simp] theorem takeOutcome_boot (s : State) (o : Outcome) : (s.takeOutcome o).boot = s.boot := by
  unfold State.takeOutcome State.holdOutcome State.queueReport
  repeat' split
  all_goals rfl
@[simp] theorem takeOutcome_fm (s : State) (o : Outcome) : (s.takeOutcome o).fm = s.fm := by
  unfold State.takeOutcome State.holdOutcome State.queueReport
  repeat' split
  all_goals rfl
@[simp] theorem takeOutcome_refetch (s : State) (o : Outcome) : (s.takeOutcome o).refetch = s.refetch := by
  unfold State.takeOutcome State.holdOutcome State.queueReport
  repeat' split
  all_goals rfl
@[simp] theorem takeOutcome_slots (s : State) (o : Outcome) : (s.takeOutcome o).slots = s.slots := by
  unfold State.takeOutcome State.holdOutcome State.queueReport
  repeat' split
  all_goals rfl
@[simp] theorem takeOutcome_gens (s : State) (o : Outcome) : (s.takeOutcome o).gens = s.gens := by
  unfold State.takeOutcome State.holdOutcome State.queueReport
  repeat' split
  all_goals rfl
@[simp] theorem takeOutcome_players (s : State) (o : Outcome) : (s.takeOutcome o).players = s.players := by
  unfold State.takeOutcome State.holdOutcome State.queueReport
  repeat' split
  all_goals rfl
@[simp] theorem takeOutcome_queue (s : State) (o : Outcome) : (s.takeOutcome o).queue = s.queue := by
  unfold State.takeOutcome State.holdOutcome State.queueReport
  repeat' split
  all_goals rfl
@[simp] theorem takeOutcome_slot (s : State) (o : Outcome) (j : Slot) : (s.takeOutcome o).slot j = s.slot j := by
  simp [State.slot]
@[simp] theorem takeOutcome_generator (s : State) (o : Outcome) (g : GenIx) :
    (s.takeOutcome o).generator g = s.generator g := by
  simp [State.generator]
@[simp] theorem takeOutcome_player (s : State) (o : Outcome) (n : PlayerIx) :
    (s.takeOutcome o).player n = s.player n := by
  simp [State.player]

/-- A flag read after a flag is set. -/
theorem ReportRing.setFlag_get (x : ReportRing) (a b : Source) (v : Bool) :
    (x.setFlag a v).pendingFlags[b.val] = if a = b then v else x.pendingFlags[b.val] := by
  simp only [ReportRing.setFlag, Vector.getElem_set, Fin.ext_iff]

/-- A held outcome read after one is replaced. -/
theorem ReportRing.setHeld_get (x : ReportRing) (a b : Source) (v : Option Outcome) :
    (x.setHeld a v).held[b.val] = if a = b then v else x.held[b.val] := by
  simp only [ReportRing.setHeld, Vector.getElem_set, Fin.ext_iff]

/-- What the Report Ring Writer's taking of an outcome does, once for every caller (R162, R163). -/
theorem takeOutcome_reported (s : State) (o : Outcome) : Reported s (s.takeOutcome o) o := by
  intro rec h
  unfold State.takeOutcome
  simp only [h]
  by_cases p : s.isPending o.source = true
  · simp only [p, if_true, State.holdOutcome, State.heldOutcome, State.withRrw_rrw, ReportRing.setHeld_get]
    by_cases b : (s.rrw.held[o.source.val]).isSome = true
    · simp [b]
    · simp [b]
  · simp only [p, if_false, Bool.false_eq_true]
    constructor
    · simp [State.queueReport, State.isPending, State.enqueue, ReportRing.setFlag_get]
    · refine ⟨_, .inl (List.mem_append.mpr (.inr (List.mem_singleton.mpr rfl))), rfl, ?_, rfl⟩
      rfl

/-- What taking an outcome does to another source: nothing; and the waiting requests still wait. -/
theorem takeOutcome_other (s : State) (o : Outcome) (src : Source) (h : o.source ≠ src) :
    (s.takeOutcome o).isPending src = s.isPending src ∧ (s.takeOutcome o).heldOutcome src = s.heldOutcome src := by
  unfold State.takeOutcome
  split
  · exact ⟨rfl, rfl⟩
  · split
    · exact ⟨rfl, by simp [State.holdOutcome, State.heldOutcome, ReportRing.setHeld_get, h]⟩
    · exact ⟨by simp [State.queueReport, State.isPending, State.enqueue, ReportRing.setFlag_get, h], rfl⟩

theorem enqueue_waiting (s : State) (r q : OwnRequest) (h : s.Waiting q) : (s.enqueue r).Waiting q :=
  h.imp (fun m => List.mem_append.mpr (.inl m)) id

theorem takeOutcome_waiting (s : State) (o : Outcome) (q : OwnRequest) (h : s.Waiting q) :
    (s.takeOutcome o).Waiting q := by
  unfold State.takeOutcome
  split
  · exact h
  · split
    · exact h
    · exact enqueue_waiting _ _ _ h

theorem withdraw_waiting (s : State) (f : OwnKind → Bool) (q : OwnRequest) (h : s.Waiting q) (n : f q.kind = false) :
    (s.withdraw f).Waiting q := by
  unfold State.Waiting State.withdraw at *
  rcases h with h | h
  · exact .inl (by simpa [n] using h)
  · exact .inr (by simp [h, n])

/-- What the serving blocks' moves do to the device's reports and to requests that are not theirs: nothing. -/
theorem Moves.device {s t : State} (m : Moves s t) :
    t.isPending deviceSource = s.isPending deviceSource ∧ t.heldOutcome deviceSource = s.heldOutcome deviceSource ∧
    ∀ q, q.kind.isServing = false → s.Waiting q → t.Waiting q := by
  induction m with
  | refl => exact ⟨rfl, rfl, fun _ _ h => h⟩
  | step _ b ih =>
    obtain ⟨i1, i2, i3⟩ := ih
    rw [← i1, ← i2]
    cases b with
    | outcome o j h =>
      have n : o.source ≠ deviceSource := by
        rw [h]; intro e; have := Fin.val_eq_of_eq e; simp [slotSource, deviceSource] at this; omega
      exact ⟨(takeOutcome_other _ _ _ n).1, (takeOutcome_other _ _ _ n).2,
        fun q k w => takeOutcome_waiting _ _ _ (i3 q k w)⟩
    | enqueue r _ _ => exact ⟨rfl, rfl, fun q k w => enqueue_waiting _ _ _ (i3 q k w)⟩
    | withdraw f h =>
      refine ⟨rfl, rfl, fun q k w => withdraw_waiting _ _ _ (i3 q k w) ?_⟩
      by_contra e
      have := h _ (by simpa using e)
      simp [k] at this
    | slot | generator | tones | player | leave | append => exact ⟨rfl, rfl, i3⟩

end Sys2Proof.Machine
end

