-- ==== Sys2Proof/Laws/Frames.lean ====
section
/-! SUPPORT. Laws/Frames.lean: what each shared operation of the serving blocks leaves unchanged, and what it
writes, one lemma for each. -/

namespace Sys2Proof.Machine

/-! ### Requests -/

@[simp] theorem withdraw_pending (s : State) (f : OwnKind → Bool) :
    (s.withdraw f).pending = s.pending := rfl

@[simp] theorem withdraw_bus (s : State) (f : OwnKind → Bool) :
    (s.withdraw f).bus = s.bus := rfl

@[simp] theorem withdraw_pairing (s : State) (f : OwnKind → Bool) :
    (s.withdraw f).pairing = s.pairing := rfl

@[simp] theorem withdraw_boot (s : State) (f : OwnKind → Bool) :
    (s.withdraw f).boot = s.boot := rfl

@[simp] theorem withdraw_fm (s : State) (f : OwnKind → Bool) :
    (s.withdraw f).fm = s.fm := rfl

@[simp] theorem withdraw_slots (s : State) (f : OwnKind → Bool) :
    (s.withdraw f).slots = s.slots := rfl

@[simp] theorem withdraw_gens (s : State) (f : OwnKind → Bool) :
    (s.withdraw f).gens = s.gens := rfl

@[simp] theorem withdraw_refetch (s : State) (f : OwnKind → Bool) :
    (s.withdraw f).refetch = s.refetch := rfl

@[simp] theorem withdraw_players (s : State) (f : OwnKind → Bool) :
    (s.withdraw f).players = s.players := rfl

@[simp] theorem withdraw_queue (s : State) (f : OwnKind → Bool) :
    (s.withdraw f).queue = s.queue := rfl

@[simp] theorem withdraw_rrw (s : State) (f : OwnKind → Bool) :
    (s.withdraw f).rrw = s.rrw := rfl

@[simp] theorem enqueue_pending (s : State) (r : OwnRequest) :
    (s.enqueue r).pending = s.pending := rfl

@[simp] theorem enqueue_bus (s : State) (r : OwnRequest) :
    (s.enqueue r).bus = s.bus := rfl

@[simp] theorem enqueue_pairing (s : State) (r : OwnRequest) :
    (s.enqueue r).pairing = s.pairing := rfl

@[simp] theorem enqueue_boot (s : State) (r : OwnRequest) :
    (s.enqueue r).boot = s.boot := rfl

@[simp] theorem enqueue_fm (s : State) (r : OwnRequest) :
    (s.enqueue r).fm = s.fm := rfl

@[simp] theorem enqueue_slots (s : State) (r : OwnRequest) :
    (s.enqueue r).slots = s.slots := rfl

@[simp] theorem enqueue_gens (s : State) (r : OwnRequest) :
    (s.enqueue r).gens = s.gens := rfl

@[simp] theorem enqueue_refetch (s : State) (r : OwnRequest) :
    (s.enqueue r).refetch = s.refetch := rfl

@[simp] theorem enqueue_players (s : State) (r : OwnRequest) :
    (s.enqueue r).players = s.players := rfl

@[simp] theorem enqueue_queue (s : State) (r : OwnRequest) :
    (s.enqueue r).queue = s.queue := rfl

@[simp] theorem enqueue_rrw (s : State) (r : OwnRequest) :
    (s.enqueue r).rrw = s.rrw := rfl

@[simp] theorem withdraw_slot (s : State) (f : OwnKind → Bool) (j : Slot) :
    (s.withdraw f).slot j = s.slot j := rfl

@[simp] theorem withdraw_generator (s : State) (f : OwnKind → Bool) (g : GenIx) :
    (s.withdraw f).generator g = s.generator g := rfl

@[simp] theorem withdraw_player (s : State) (f : OwnKind → Bool) (n : PlayerIx) :
    (s.withdraw f).player n = s.player n := rfl

@[simp] theorem enqueue_slot (s : State) (r : OwnRequest) (j : Slot) :
    (s.enqueue r).slot j = s.slot j := rfl

@[simp] theorem enqueue_generator (s : State) (r : OwnRequest) (g : GenIx) :
    (s.enqueue r).generator g = s.generator g := rfl

@[simp] theorem enqueue_player (s : State) (r : OwnRequest) (n : PlayerIx) :
    (s.enqueue r).player n = s.player n := rfl

/-! ### Generators -/

@[simp] theorem joinGenerator_pending (s : State) (g : GenIx) :
    (s.joinGenerator g).pending = s.pending := rfl

@[simp] theorem joinGenerator_bus (s : State) (g : GenIx) :
    (s.joinGenerator g).bus = s.bus := rfl

@[simp] theorem joinGenerator_pairing (s : State) (g : GenIx) :
    (s.joinGenerator g).pairing = s.pairing := rfl

@[simp] theorem joinGenerator_boot (s : State) (g : GenIx) :
    (s.joinGenerator g).boot = s.boot := rfl

@[simp] theorem joinGenerator_fm (s : State) (g : GenIx) :
    (s.joinGenerator g).fm = s.fm := rfl

@[simp] theorem joinGenerator_slots (s : State) (g : GenIx) :
    (s.joinGenerator g).slots = s.slots := rfl

@[simp] theorem joinGenerator_refetch (s : State) (g : GenIx) :
    (s.joinGenerator g).refetch = s.refetch := rfl

@[simp] theorem joinGenerator_players (s : State) (g : GenIx) :
    (s.joinGenerator g).players = s.players := rfl

@[simp] theorem joinGenerator_queue (s : State) (g : GenIx) :
    (s.joinGenerator g).queue = s.queue := rfl

@[simp] theorem joinGenerator_mra (s : State) (g : GenIx) :
    (s.joinGenerator g).mra = s.mra := rfl

@[simp] theorem joinGenerator_rrw (s : State) (g : GenIx) :
    (s.joinGenerator g).rrw = s.rrw := rfl

@[simp] theorem releaseGenerator_pending (s : State) (g : GenIx) :
    (s.releaseGenerator g).pending = s.pending := by
  unfold State.releaseGenerator; dsimp only; split <;> rfl

@[simp] theorem releaseGenerator_bus (s : State) (g : GenIx) :
    (s.releaseGenerator g).bus = s.bus := by
  unfold State.releaseGenerator; dsimp only; split <;> rfl

@[simp] theorem releaseGenerator_pairing (s : State) (g : GenIx) :
    (s.releaseGenerator g).pairing = s.pairing := by
  unfold State.releaseGenerator; dsimp only; split <;> rfl

@[simp] theorem releaseGenerator_boot (s : State) (g : GenIx) :
    (s.releaseGenerator g).boot = s.boot := by
  unfold State.releaseGenerator; dsimp only; split <;> rfl

@[simp] theorem releaseGenerator_fm (s : State) (g : GenIx) :
    (s.releaseGenerator g).fm = s.fm := by
  unfold State.releaseGenerator; dsimp only; split <;> rfl

@[simp] theorem releaseGenerator_slots (s : State) (g : GenIx) :
    (s.releaseGenerator g).slots = s.slots := by
  unfold State.releaseGenerator; dsimp only; split <;> rfl

@[simp] theorem releaseGenerator_refetch (s : State) (g : GenIx) :
    (s.releaseGenerator g).refetch = s.refetch := by
  unfold State.releaseGenerator; dsimp only; split <;> rfl

@[simp] theorem releaseGenerator_players (s : State) (g : GenIx) :
    (s.releaseGenerator g).players = s.players := by
  unfold State.releaseGenerator; dsimp only; split <;> rfl

@[simp] theorem releaseGenerator_queue (s : State) (g : GenIx) :
    (s.releaseGenerator g).queue = s.queue := by
  unfold State.releaseGenerator; dsimp only; split <;> rfl

@[simp] theorem releaseGenerator_mra (s : State) (g : GenIx) :
    (s.releaseGenerator g).mra = s.mra := by
  unfold State.releaseGenerator; dsimp only; split <;> rfl

@[simp] theorem releaseGenerator_rrw (s : State) (g : GenIx) :
    (s.releaseGenerator g).rrw = s.rrw := by
  unfold State.releaseGenerator; dsimp only; split <;> rfl

@[simp] theorem releaseFiller_pending (s : State) (f : Option GenIx) :
    (s.releaseFiller f).pending = s.pending := by
  cases f <;> simp [State.releaseFiller]

@[simp] theorem releaseFiller_bus (s : State) (f : Option GenIx) :
    (s.releaseFiller f).bus = s.bus := by
  cases f <;> simp [State.releaseFiller]

@[simp] theorem releaseFiller_pairing (s : State) (f : Option GenIx) :
    (s.releaseFiller f).pairing = s.pairing := by
  cases f <;> simp [State.releaseFiller]

@[simp] theorem releaseFiller_boot (s : State) (f : Option GenIx) :
    (s.releaseFiller f).boot = s.boot := by
  cases f <;> simp [State.releaseFiller]

@[simp] theorem releaseFiller_fm (s : State) (f : Option GenIx) :
    (s.releaseFiller f).fm = s.fm := by
  cases f <;> simp [State.releaseFiller]

@[simp] theorem releaseFiller_slots (s : State) (f : Option GenIx) :
    (s.releaseFiller f).slots = s.slots := by
  cases f <;> simp [State.releaseFiller]

@[simp] theorem releaseFiller_refetch (s : State) (f : Option GenIx) :
    (s.releaseFiller f).refetch = s.refetch := by
  cases f <;> simp [State.releaseFiller]

@[simp] theorem releaseFiller_players (s : State) (f : Option GenIx) :
    (s.releaseFiller f).players = s.players := by
  cases f <;> simp [State.releaseFiller]

@[simp] theorem releaseFiller_queue (s : State) (f : Option GenIx) :
    (s.releaseFiller f).queue = s.queue := by
  cases f <;> simp [State.releaseFiller]

@[simp] theorem releaseFiller_mra (s : State) (f : Option GenIx) :
    (s.releaseFiller f).mra = s.mra := by
  cases f <;> simp [State.releaseFiller]

@[simp] theorem releaseFiller_rrw (s : State) (f : Option GenIx) :
    (s.releaseFiller f).rrw = s.rrw := by
  cases f <;> simp [State.releaseFiller]

@[simp] theorem bindGenerator_pending (s : State) (g : GenIx) (p : Program) (c : ToneCopy) (b : Bool) (k : Nat) :
    (s.bindGenerator g p c b k).pending = s.pending := rfl

@[simp] theorem bindGenerator_bus (s : State) (g : GenIx) (p : Program) (c : ToneCopy) (b : Bool) (k : Nat) :
    (s.bindGenerator g p c b k).bus = s.bus := rfl

@[simp] theorem bindGenerator_pairing (s : State) (g : GenIx) (p : Program) (c : ToneCopy) (b : Bool) (k : Nat) :
    (s.bindGenerator g p c b k).pairing = s.pairing := rfl

@[simp] theorem bindGenerator_boot (s : State) (g : GenIx) (p : Program) (c : ToneCopy) (b : Bool) (k : Nat) :
    (s.bindGenerator g p c b k).boot = s.boot := rfl

@[simp] theorem bindGenerator_fm (s : State) (g : GenIx) (p : Program) (c : ToneCopy) (b : Bool) (k : Nat) :
    (s.bindGenerator g p c b k).fm = s.fm := rfl

@[simp] theorem bindGenerator_slots (s : State) (g : GenIx) (p : Program) (c : ToneCopy) (b : Bool) (k : Nat) :
    (s.bindGenerator g p c b k).slots = s.slots := rfl

@[simp] theorem bindGenerator_refetch (s : State) (g : GenIx) (p : Program) (c : ToneCopy) (b : Bool) (k : Nat) :
    (s.bindGenerator g p c b k).refetch = s.refetch := rfl

@[simp] theorem bindGenerator_players (s : State) (g : GenIx) (p : Program) (c : ToneCopy) (b : Bool) (k : Nat) :
    (s.bindGenerator g p c b k).players = s.players := rfl

@[simp] theorem bindGenerator_queue (s : State) (g : GenIx) (p : Program) (c : ToneCopy) (b : Bool) (k : Nat) :
    (s.bindGenerator g p c b k).queue = s.queue := rfl

@[simp] theorem bindGenerator_mra (s : State) (g : GenIx) (p : Program) (c : ToneCopy) (b : Bool) (k : Nat) :
    (s.bindGenerator g p c b k).mra = s.mra := rfl

@[simp] theorem bindGenerator_rrw (s : State) (g : GenIx) (p : Program) (c : ToneCopy) (b : Bool) (k : Nat) :
    (s.bindGenerator g p c b k).rrw = s.rrw := rfl

@[simp] theorem joinGenerator_slot (s : State) (g : GenIx) (j : Slot) :
    (s.joinGenerator g).slot j = s.slot j := by
  simp [State.slot]

@[simp] theorem joinGenerator_player (s : State) (g : GenIx) (n : PlayerIx) :
    (s.joinGenerator g).player n = s.player n := by
  simp [State.player]

@[simp] theorem releaseGenerator_slot (s : State) (g : GenIx) (j : Slot) :
    (s.releaseGenerator g).slot j = s.slot j := by
  simp [State.slot]

@[simp] theorem releaseGenerator_player (s : State) (g : GenIx) (n : PlayerIx) :
    (s.releaseGenerator g).player n = s.player n := by
  simp [State.player]

@[simp] theorem releaseFiller_slot (s : State) (f : Option GenIx) (j : Slot) :
    (s.releaseFiller f).slot j = s.slot j := by
  simp [State.slot]

@[simp] theorem releaseFiller_player (s : State) (f : Option GenIx) (n : PlayerIx) :
    (s.releaseFiller f).player n = s.player n := by
  simp [State.player]

@[simp] theorem bindGenerator_slot (s : State) (g : GenIx) (p : Program) (c : ToneCopy) (b : Bool) (k : Nat) (j : Slot) :
    (s.bindGenerator g p c b k).slot j = s.slot j := by
  simp [State.slot]

@[simp] theorem bindGenerator_player (s : State) (g : GenIx) (p : Program) (c : ToneCopy) (b : Bool) (k : Nat) (n : PlayerIx) :
    (s.bindGenerator g p c b k).player n = s.player n := by
  simp [State.player]

theorem joinGenerator_generator (s : State) (g h : GenIx) :
    (s.joinGenerator g).generator h = if h = g then { s.generator g with count := (s.generator g).count + 1 } else s.generator h := by
  unfold State.joinGenerator; rw [State.setGenerator_generator]

theorem releaseGenerator_generator (s : State) (g h : GenIx) :
    (s.releaseGenerator g).generator h = if h = g then releasedGenerator g (s.generator g) else s.generator h := by
  unfold State.releaseGenerator releasedGenerator; dsimp only; split <;> simp [State.setGenerator_generator]

theorem bindGenerator_generator (s : State) (g h : GenIx) (p : Program) (c : ToneCopy) (b : Bool) (k : Nat) :
    (s.bindGenerator g p c b k).generator h = if h = g then boundGenerator p c b k else s.generator h := by
  unfold State.bindGenerator; rw [State.setGenerator_generator]

/-! ### Players and the queue -/

@[simp] theorem bindPlayer_pending (s : State) (n : PlayerIx) (p : Program) :
    (s.bindPlayer n p).pending = s.pending := rfl

@[simp] theorem bindPlayer_bus (s : State) (n : PlayerIx) (p : Program) :
    (s.bindPlayer n p).bus = s.bus := rfl

@[simp] theorem bindPlayer_pairing (s : State) (n : PlayerIx) (p : Program) :
    (s.bindPlayer n p).pairing = s.pairing := rfl

@[simp] theorem bindPlayer_boot (s : State) (n : PlayerIx) (p : Program) :
    (s.bindPlayer n p).boot = s.boot := rfl

@[simp] theorem bindPlayer_fm (s : State) (n : PlayerIx) (p : Program) :
    (s.bindPlayer n p).fm = s.fm := rfl

@[simp] theorem bindPlayer_slots (s : State) (n : PlayerIx) (p : Program) :
    (s.bindPlayer n p).slots = s.slots := rfl

@[simp] theorem bindPlayer_gens (s : State) (n : PlayerIx) (p : Program) :
    (s.bindPlayer n p).gens = s.gens := rfl

@[simp] theorem bindPlayer_refetch (s : State) (n : PlayerIx) (p : Program) :
    (s.bindPlayer n p).refetch = s.refetch := rfl

@[simp] theorem bindPlayer_queue (s : State) (n : PlayerIx) (p : Program) :
    (s.bindPlayer n p).queue = s.queue := rfl

@[simp] theorem bindPlayer_rrw (s : State) (n : PlayerIx) (p : Program) :
    (s.bindPlayer n p).rrw = s.rrw := rfl

@[simp] theorem bindPlayer_slot (s : State) (n : PlayerIx) (p : Program) (j : Slot) :
    (s.bindPlayer n p).slot j = s.slot j := by
  simp [State.slot]

@[simp] theorem bindPlayer_generator (s : State) (n : PlayerIx) (p : Program) (g : GenIx) :
    (s.bindPlayer n p).generator g = s.generator g := by
  simp [State.generator]

theorem bindPlayer_other (s : State) (n : PlayerIx) (p : Program) (m : PlayerIx) (h : m ≠ n) :
    (s.bindPlayer n p).player m = s.player m := by
  simp [State.bindPlayer, State.setPlayer_player, h]

@[simp] theorem freePlayer_pending (s : State) (n : PlayerIx) :
    (s.freePlayer n).pending = s.pending := rfl

@[simp] theorem freePlayer_bus (s : State) (n : PlayerIx) :
    (s.freePlayer n).bus = s.bus := rfl

@[simp] theorem freePlayer_pairing (s : State) (n : PlayerIx) :
    (s.freePlayer n).pairing = s.pairing := rfl

@[simp] theorem freePlayer_boot (s : State) (n : PlayerIx) :
    (s.freePlayer n).boot = s.boot := rfl

@[simp] theorem freePlayer_fm (s : State) (n : PlayerIx) :
    (s.freePlayer n).fm = s.fm := rfl

@[simp] theorem freePlayer_slots (s : State) (n : PlayerIx) :
    (s.freePlayer n).slots = s.slots := rfl

@[simp] theorem freePlayer_gens (s : State) (n : PlayerIx) :
    (s.freePlayer n).gens = s.gens := rfl

@[simp] theorem freePlayer_refetch (s : State) (n : PlayerIx) :
    (s.freePlayer n).refetch = s.refetch := rfl

@[simp] theorem freePlayer_queue (s : State) (n : PlayerIx) :
    (s.freePlayer n).queue = s.queue := rfl

@[simp] theorem freePlayer_rrw (s : State) (n : PlayerIx) :
    (s.freePlayer n).rrw = s.rrw := rfl

@[simp] theorem freePlayer_slot (s : State) (n : PlayerIx) (j : Slot) :
    (s.freePlayer n).slot j = s.slot j := by
  simp [State.slot]

@[simp] theorem freePlayer_generator (s : State) (n : PlayerIx) (g : GenIx) :
    (s.freePlayer n).generator g = s.generator g := by
  simp [State.generator]

theorem freePlayer_other (s : State) (n : PlayerIx) (m : PlayerIx) (h : m ≠ n) :
    (s.freePlayer n).player m = s.player m := by
  simp [State.freePlayer, State.setPlayer_player, h]

@[simp] theorem allocate_pending (s : State) (n : PlayerIx) :
    (s.allocate n).pending = s.pending := by
  unfold State.allocate; split <;> simp

@[simp] theorem allocate_bus (s : State) (n : PlayerIx) :
    (s.allocate n).bus = s.bus := by
  unfold State.allocate; split <;> simp

@[simp] theorem allocate_pairing (s : State) (n : PlayerIx) :
    (s.allocate n).pairing = s.pairing := by
  unfold State.allocate; split <;> simp

@[simp] theorem allocate_boot (s : State) (n : PlayerIx) :
    (s.allocate n).boot = s.boot := by
  unfold State.allocate; split <;> simp

@[simp] theorem allocate_fm (s : State) (n : PlayerIx) :
    (s.allocate n).fm = s.fm := by
  unfold State.allocate; split <;> simp

@[simp] theorem allocate_slots (s : State) (n : PlayerIx) :
    (s.allocate n).slots = s.slots := by
  unfold State.allocate; split <;> simp

@[simp] theorem allocate_gens (s : State) (n : PlayerIx) :
    (s.allocate n).gens = s.gens := by
  unfold State.allocate; split <;> simp

@[simp] theorem allocate_refetch (s : State) (n : PlayerIx) :
    (s.allocate n).refetch = s.refetch := by
  unfold State.allocate; split <;> simp

@[simp] theorem allocate_queue (s : State) (n : PlayerIx) :
    (s.allocate n).queue = s.queue := by
  unfold State.allocate; split <;> simp

@[simp] theorem allocate_rrw (s : State) (n : PlayerIx) :
    (s.allocate n).rrw = s.rrw := by
  unfold State.allocate; split <;> simp

@[simp] theorem allocate_slot (s : State) (n : PlayerIx) (j : Slot) :
    (s.allocate n).slot j = s.slot j := by
  simp [State.slot]

@[simp] theorem allocate_generator (s : State) (n : PlayerIx) (g : GenIx) :
    (s.allocate n).generator g = s.generator g := by
  simp [State.generator]

theorem allocate_other (s : State) (n : PlayerIx) (m : PlayerIx) (h : m ≠ n) :
    (s.allocate n).player m = s.player m := by
  unfold State.allocate; split
  · rfl
  · exact bindPlayer_other _ _ _ _ h

@[simp] theorem releasePlayer_pending (s : State) (n : PlayerIx) :
    (s.releasePlayer n).pending = s.pending := by
  simp [State.releasePlayer]

@[simp] theorem releasePlayer_bus (s : State) (n : PlayerIx) :
    (s.releasePlayer n).bus = s.bus := by
  simp [State.releasePlayer]

@[simp] theorem releasePlayer_pairing (s : State) (n : PlayerIx) :
    (s.releasePlayer n).pairing = s.pairing := by
  simp [State.releasePlayer]

@[simp] theorem releasePlayer_boot (s : State) (n : PlayerIx) :
    (s.releasePlayer n).boot = s.boot := by
  simp [State.releasePlayer]

@[simp] theorem releasePlayer_fm (s : State) (n : PlayerIx) :
    (s.releasePlayer n).fm = s.fm := by
  simp [State.releasePlayer]

@[simp] theorem releasePlayer_slots (s : State) (n : PlayerIx) :
    (s.releasePlayer n).slots = s.slots := by
  simp [State.releasePlayer]

@[simp] theorem releasePlayer_gens (s : State) (n : PlayerIx) :
    (s.releasePlayer n).gens = s.gens := by
  simp [State.releasePlayer]

@[simp] theorem releasePlayer_refetch (s : State) (n : PlayerIx) :
    (s.releasePlayer n).refetch = s.refetch := by
  simp [State.releasePlayer]

@[simp] theorem releasePlayer_queue (s : State) (n : PlayerIx) :
    (s.releasePlayer n).queue = s.queue := by
  simp [State.releasePlayer]

@[simp] theorem releasePlayer_rrw (s : State) (n : PlayerIx) :
    (s.releasePlayer n).rrw = s.rrw := by
  simp [State.releasePlayer]

@[simp] theorem releasePlayer_slot (s : State) (n : PlayerIx) (j : Slot) :
    (s.releasePlayer n).slot j = s.slot j := by
  simp [State.slot]

@[simp] theorem releasePlayer_generator (s : State) (n : PlayerIx) (g : GenIx) :
    (s.releasePlayer n).generator g = s.generator g := by
  simp [State.generator]

theorem releasePlayer_other (s : State) (n : PlayerIx) (m : PlayerIx) (h : m ≠ n) :
    (s.releasePlayer n).player m = s.player m := by
  rw [State.releasePlayer, allocate_other _ _ _ h, freePlayer_other _ _ _ h]

@[simp] theorem modifyWalker_pending (s : State) (n : PlayerIx) (f : Walker → Walker) :
    (s.modifyWalker n f).pending = s.pending := rfl

@[simp] theorem modifyWalker_bus (s : State) (n : PlayerIx) (f : Walker → Walker) :
    (s.modifyWalker n f).bus = s.bus := rfl

@[simp] theorem modifyWalker_pairing (s : State) (n : PlayerIx) (f : Walker → Walker) :
    (s.modifyWalker n f).pairing = s.pairing := rfl

@[simp] theorem modifyWalker_boot (s : State) (n : PlayerIx) (f : Walker → Walker) :
    (s.modifyWalker n f).boot = s.boot := rfl

@[simp] theorem modifyWalker_fm (s : State) (n : PlayerIx) (f : Walker → Walker) :
    (s.modifyWalker n f).fm = s.fm := rfl

@[simp] theorem modifyWalker_slots (s : State) (n : PlayerIx) (f : Walker → Walker) :
    (s.modifyWalker n f).slots = s.slots := rfl

@[simp] theorem modifyWalker_gens (s : State) (n : PlayerIx) (f : Walker → Walker) :
    (s.modifyWalker n f).gens = s.gens := rfl

@[simp] theorem modifyWalker_refetch (s : State) (n : PlayerIx) (f : Walker → Walker) :
    (s.modifyWalker n f).refetch = s.refetch := rfl

@[simp] theorem modifyWalker_queue (s : State) (n : PlayerIx) (f : Walker → Walker) :
    (s.modifyWalker n f).queue = s.queue := rfl

@[simp] theorem modifyWalker_rrw (s : State) (n : PlayerIx) (f : Walker → Walker) :
    (s.modifyWalker n f).rrw = s.rrw := rfl

@[simp] theorem modifyWalker_slot (s : State) (n : PlayerIx) (f : Walker → Walker) (j : Slot) :
    (s.modifyWalker n f).slot j = s.slot j := by
  simp [State.slot]

@[simp] theorem modifyWalker_generator (s : State) (n : PlayerIx) (f : Walker → Walker) (g : GenIx) :
    (s.modifyWalker n f).generator g = s.generator g := by
  simp [State.generator]

theorem modifyWalker_other (s : State) (n : PlayerIx) (f : Walker → Walker) (m : PlayerIx) (h : m ≠ n) :
    (s.modifyWalker n f).player m = s.player m := by
  simp [State.modifyWalker, State.modifyPlayer, State.setPlayer_player, h]

@[simp] theorem setNext_pending (s : State) (n : PlayerIx) (o : Nat) :
    (s.setNext n o).pending = s.pending := by
  unfold State.setNext; split <;> rfl

@[simp] theorem setNext_bus (s : State) (n : PlayerIx) (o : Nat) :
    (s.setNext n o).bus = s.bus := by
  unfold State.setNext; split <;> rfl

@[simp] theorem setNext_pairing (s : State) (n : PlayerIx) (o : Nat) :
    (s.setNext n o).pairing = s.pairing := by
  unfold State.setNext; split <;> rfl

@[simp] theorem setNext_boot (s : State) (n : PlayerIx) (o : Nat) :
    (s.setNext n o).boot = s.boot := by
  unfold State.setNext; split <;> rfl

@[simp] theorem setNext_fm (s : State) (n : PlayerIx) (o : Nat) :
    (s.setNext n o).fm = s.fm := by
  unfold State.setNext; split <;> rfl

@[simp] theorem setNext_slots (s : State) (n : PlayerIx) (o : Nat) :
    (s.setNext n o).slots = s.slots := by
  unfold State.setNext; split <;> rfl

@[simp] theorem setNext_gens (s : State) (n : PlayerIx) (o : Nat) :
    (s.setNext n o).gens = s.gens := by
  unfold State.setNext; split <;> rfl

@[simp] theorem setNext_refetch (s : State) (n : PlayerIx) (o : Nat) :
    (s.setNext n o).refetch = s.refetch := by
  unfold State.setNext; split <;> rfl

@[simp] theorem setNext_queue (s : State) (n : PlayerIx) (o : Nat) :
    (s.setNext n o).queue = s.queue := by
  unfold State.setNext; split <;> rfl

@[simp] theorem setNext_rrw (s : State) (n : PlayerIx) (o : Nat) :
    (s.setNext n o).rrw = s.rrw := by
  unfold State.setNext; split <;> rfl

@[simp] theorem setNext_slot (s : State) (n : PlayerIx) (o : Nat) (j : Slot) :
    (s.setNext n o).slot j = s.slot j := by
  simp [State.slot]

@[simp] theorem setNext_generator (s : State) (n : PlayerIx) (o : Nat) (g : GenIx) :
    (s.setNext n o).generator g = s.generator g := by
  simp [State.generator]

theorem setNext_other (s : State) (n : PlayerIx) (o : Nat) (m : PlayerIx) (h : m ≠ n) :
    (s.setNext n o).player m = s.player m := by
  unfold State.setNext; split <;> simp [modifyWalker_other _ _ _ _ h]

@[simp] theorem leaveQueue_pending (s : State) (j : Slot) :
    (s.leaveQueue j).pending = s.pending := rfl

@[simp] theorem leaveQueue_bus (s : State) (j : Slot) :
    (s.leaveQueue j).bus = s.bus := rfl

@[simp] theorem leaveQueue_pairing (s : State) (j : Slot) :
    (s.leaveQueue j).pairing = s.pairing := rfl

@[simp] theorem leaveQueue_boot (s : State) (j : Slot) :
    (s.leaveQueue j).boot = s.boot := rfl

@[simp] theorem leaveQueue_fm (s : State) (j : Slot) :
    (s.leaveQueue j).fm = s.fm := rfl

@[simp] theorem leaveQueue_slots (s : State) (j : Slot) :
    (s.leaveQueue j).slots = s.slots := rfl

@[simp] theorem leaveQueue_gens (s : State) (j : Slot) :
    (s.leaveQueue j).gens = s.gens := rfl

@[simp] theorem leaveQueue_refetch (s : State) (j : Slot) :
    (s.leaveQueue j).refetch = s.refetch := rfl

@[simp] theorem leaveQueue_players (s : State) (j : Slot) :
    (s.leaveQueue j).players = s.players := rfl

@[simp] theorem leaveQueue_mra (s : State) (j : Slot) :
    (s.leaveQueue j).mra = s.mra := rfl

@[simp] theorem leaveQueue_rrw (s : State) (j : Slot) :
    (s.leaveQueue j).rrw = s.rrw := rfl

@[simp] theorem leaveQueue_slot (s : State) (j i : Slot) :
    (s.leaveQueue j).slot i = s.slot i := rfl

@[simp] theorem leaveQueue_generator (s : State) (j : Slot) (g : GenIx) :
    (s.leaveQueue j).generator g = s.generator g := rfl

@[simp] theorem leaveQueue_player (s : State) (j : Slot) (n : PlayerIx) :
    (s.leaveQueue j).player n = s.player n := rfl

/-! ### Slots -/

@[simp] theorem enter_pending (s : State) (j : Slot) (st : SlotState) :
    (s.enter j st).pending = s.pending := rfl

@[simp] theorem enter_bus (s : State) (j : Slot) (st : SlotState) :
    (s.enter j st).bus = s.bus := rfl

@[simp] theorem enter_pairing (s : State) (j : Slot) (st : SlotState) :
    (s.enter j st).pairing = s.pairing := rfl

@[simp] theorem enter_boot (s : State) (j : Slot) (st : SlotState) :
    (s.enter j st).boot = s.boot := rfl

@[simp] theorem enter_fm (s : State) (j : Slot) (st : SlotState) :
    (s.enter j st).fm = s.fm := rfl

@[simp] theorem enter_gens (s : State) (j : Slot) (st : SlotState) :
    (s.enter j st).gens = s.gens := rfl

@[simp] theorem enter_refetch (s : State) (j : Slot) (st : SlotState) :
    (s.enter j st).refetch = s.refetch := rfl

@[simp] theorem enter_players (s : State) (j : Slot) (st : SlotState) :
    (s.enter j st).players = s.players := rfl

@[simp] theorem enter_queue (s : State) (j : Slot) (st : SlotState) :
    (s.enter j st).queue = s.queue := rfl

@[simp] theorem enter_rrw (s : State) (j : Slot) (st : SlotState) :
    (s.enter j st).rrw = s.rrw := rfl

@[simp] theorem enter_generator (s : State) (j : Slot) (st : SlotState) (g : GenIx) :
    (s.enter j st).generator g = s.generator g := rfl

@[simp] theorem enter_player (s : State) (j : Slot) (st : SlotState) (n : PlayerIx) :
    (s.enter j st).player n = s.player n := rfl

theorem enter_slot (s : State) (j i : Slot) (st : SlotState) :
    (s.enter j st).slot i = if i = j then { s.slot j with state := st, gen := nextGeneration (s.slot j).gen (s.underWayGen (readOfSlot j)) } else s.slot i := by
  unfold State.enter; rw [State.setSlot_slot]; rfl

@[simp] theorem slotOutcome_pending (s : State) (j : Slot) (k : ReportKind) (p : Program) (d : Word) :
    (s.slotOutcome j k p d).pending = s.pending := by
  simp [State.slotOutcome]

@[simp] theorem slotOutcome_bus (s : State) (j : Slot) (k : ReportKind) (p : Program) (d : Word) :
    (s.slotOutcome j k p d).bus = s.bus := by
  simp [State.slotOutcome]

@[simp] theorem slotOutcome_pairing (s : State) (j : Slot) (k : ReportKind) (p : Program) (d : Word) :
    (s.slotOutcome j k p d).pairing = s.pairing := by
  simp [State.slotOutcome]

@[simp] theorem slotOutcome_boot (s : State) (j : Slot) (k : ReportKind) (p : Program) (d : Word) :
    (s.slotOutcome j k p d).boot = s.boot := by
  simp [State.slotOutcome]

@[simp] theorem slotOutcome_fm (s : State) (j : Slot) (k : ReportKind) (p : Program) (d : Word) :
    (s.slotOutcome j k p d).fm = s.fm := by
  simp [State.slotOutcome]

@[simp] theorem slotOutcome_slots (s : State) (j : Slot) (k : ReportKind) (p : Program) (d : Word) :
    (s.slotOutcome j k p d).slots = s.slots := by
  simp [State.slotOutcome]

@[simp] theorem slotOutcome_gens (s : State) (j : Slot) (k : ReportKind) (p : Program) (d : Word) :
    (s.slotOutcome j k p d).gens = s.gens := by
  simp [State.slotOutcome]

@[simp] theorem slotOutcome_refetch (s : State) (j : Slot) (k : ReportKind) (p : Program) (d : Word) :
    (s.slotOutcome j k p d).refetch = s.refetch := by
  simp [State.slotOutcome]

@[simp] theorem slotOutcome_players (s : State) (j : Slot) (k : ReportKind) (p : Program) (d : Word) :
    (s.slotOutcome j k p d).players = s.players := by
  simp [State.slotOutcome]

@[simp] theorem slotOutcome_queue (s : State) (j : Slot) (k : ReportKind) (p : Program) (d : Word) :
    (s.slotOutcome j k p d).queue = s.queue := by
  simp [State.slotOutcome]

@[simp] theorem faultSlot_pending (s : State) (j : Slot) (p : Program) (c : Cause) :
    (s.faultSlot j p c).pending = s.pending := by
  simp [State.faultSlot]

@[simp] theorem faultSlot_bus (s : State) (j : Slot) (p : Program) (c : Cause) :
    (s.faultSlot j p c).bus = s.bus := by
  simp [State.faultSlot]

@[simp] theorem faultSlot_pairing (s : State) (j : Slot) (p : Program) (c : Cause) :
    (s.faultSlot j p c).pairing = s.pairing := by
  simp [State.faultSlot]

@[simp] theorem faultSlot_boot (s : State) (j : Slot) (p : Program) (c : Cause) :
    (s.faultSlot j p c).boot = s.boot := by
  simp [State.faultSlot]

@[simp] theorem faultSlot_fm (s : State) (j : Slot) (p : Program) (c : Cause) :
    (s.faultSlot j p c).fm = s.fm := by
  simp [State.faultSlot]

@[simp] theorem faultSlot_gens (s : State) (j : Slot) (p : Program) (c : Cause) :
    (s.faultSlot j p c).gens = s.gens := by
  simp [State.faultSlot]

@[simp] theorem faultSlot_refetch (s : State) (j : Slot) (p : Program) (c : Cause) :
    (s.faultSlot j p c).refetch = s.refetch := by
  simp [State.faultSlot]

@[simp] theorem faultSlot_players (s : State) (j : Slot) (p : Program) (c : Cause) :
    (s.faultSlot j p c).players = s.players := by
  simp [State.faultSlot]

@[simp] theorem faultSlot_queue (s : State) (j : Slot) (p : Program) (c : Cause) :
    (s.faultSlot j p c).queue = s.queue := by
  simp [State.faultSlot]

@[simp] theorem attach_pending (s : State) (j : Slot) (p : Program) :
    (s.attach j p).pending = s.pending := by
  unfold State.attach; split <;> simp

@[simp] theorem attach_bus (s : State) (j : Slot) (p : Program) :
    (s.attach j p).bus = s.bus := by
  unfold State.attach; split <;> simp

@[simp] theorem attach_pairing (s : State) (j : Slot) (p : Program) :
    (s.attach j p).pairing = s.pairing := by
  unfold State.attach; split <;> simp

@[simp] theorem attach_boot (s : State) (j : Slot) (p : Program) :
    (s.attach j p).boot = s.boot := by
  unfold State.attach; split <;> simp

@[simp] theorem attach_fm (s : State) (j : Slot) (p : Program) :
    (s.attach j p).fm = s.fm := by
  unfold State.attach; split <;> simp

@[simp] theorem attach_gens (s : State) (j : Slot) (p : Program) :
    (s.attach j p).gens = s.gens := by
  unfold State.attach; split <;> simp

@[simp] theorem attach_refetch (s : State) (j : Slot) (p : Program) :
    (s.attach j p).refetch = s.refetch := by
  unfold State.attach; split <;> simp

@[simp] theorem attach_players (s : State) (j : Slot) (p : Program) :
    (s.attach j p).players = s.players := by
  unfold State.attach; split <;> simp

@[simp] theorem attach_queue (s : State) (j : Slot) (p : Program) :
    (s.attach j p).queue = s.queue := by
  unfold State.attach; split <;> simp

@[simp] theorem attachOrIdle_pending (s : State) (j : Slot) (p : Option Program) :
    (s.attachOrIdle j p).pending = s.pending := by
  cases p <;> simp [State.attachOrIdle]

@[simp] theorem attachOrIdle_bus (s : State) (j : Slot) (p : Option Program) :
    (s.attachOrIdle j p).bus = s.bus := by
  cases p <;> simp [State.attachOrIdle]

@[simp] theorem attachOrIdle_pairing (s : State) (j : Slot) (p : Option Program) :
    (s.attachOrIdle j p).pairing = s.pairing := by
  cases p <;> simp [State.attachOrIdle]

@[simp] theorem attachOrIdle_boot (s : State) (j : Slot) (p : Option Program) :
    (s.attachOrIdle j p).boot = s.boot := by
  cases p <;> simp [State.attachOrIdle]

@[simp] theorem attachOrIdle_fm (s : State) (j : Slot) (p : Option Program) :
    (s.attachOrIdle j p).fm = s.fm := by
  cases p <;> simp [State.attachOrIdle]

@[simp] theorem attachOrIdle_gens (s : State) (j : Slot) (p : Option Program) :
    (s.attachOrIdle j p).gens = s.gens := by
  cases p <;> simp [State.attachOrIdle]

@[simp] theorem attachOrIdle_refetch (s : State) (j : Slot) (p : Option Program) :
    (s.attachOrIdle j p).refetch = s.refetch := by
  cases p <;> simp [State.attachOrIdle]

@[simp] theorem attachOrIdle_players (s : State) (j : Slot) (p : Option Program) :
    (s.attachOrIdle j p).players = s.players := by
  cases p <;> simp [State.attachOrIdle]

@[simp] theorem attachOrIdle_queue (s : State) (j : Slot) (p : Option Program) :
    (s.attachOrIdle j p).queue = s.queue := by
  cases p <;> simp [State.attachOrIdle]

end Sys2Proof.Machine
end

