-- ==== Sys2Proof/Laws/Operations.lean ====
section
/-! SUPPORT. Laws/Operations.lean: what each shared operation does, said once: the choices of the Bank and of the
players, the entry into a slot state, attaches, joins, completions, releases, the walker's moves, and what they
leave of the reports of other sources. -/

namespace Sys2Proof.Machine

/-! ### Choices of the lowest number -/

theorem allGenerators_eq : allGenerators = List.finRange 16 := by decide
theorem allPlayers_eq : allPlayers = List.finRange 8 := by decide

/-- The first of all numbers that passes a test. -/
theorem find_finRange {n : Nat} (f : Fin n → Bool) :
    (∀ g, (List.finRange n).find? f = some g ↔ f g = true ∧ ∀ h, h < g → f h = false) ∧
    ((List.finRange n).find? f = none ↔ ∀ g, f g = false) := by
  constructor
  · intro g
    rw [List.find?_eq_some_iff_getElem]
    constructor
    · rintro ⟨a, i, hi, e, b⟩
      refine ⟨a, fun h hh => ?_⟩
      simp at hi e
      have := b h.val (by rw [← e] at hh; exact hh)
      simpa using this
    · rintro ⟨a, b⟩
      refine ⟨a, g.val, by simp, by simp, fun j hj => ?_⟩
      simpa using b ⟨j, by omega⟩ hj
  · rw [List.find?_eq_none]; simp [List.mem_finRange]

/-- The fresh generator of p, of which there is one at most (R66). -/
theorem freshGenerator_some (s : State) (p : Program) (g : GenIx) (o : s.OneFreshGenerator) :
    s.freshGenerator p = some g ↔ (s.generator g).isFreshFor p = true := by
  unfold State.freshGenerator
  rw [allGenerators_eq, (find_finRange _).1]
  refine ⟨fun h => h.1, fun h => ⟨h, fun k hk => ?_⟩⟩
  by_contra c
  have := o p k g (by simpa using c) h
  subst this; exact absurd hk (lt_irrefl _)

theorem freshGenerator_none (s : State) (p : Program) :
    s.freshGenerator p = none ↔ ∀ g, (s.generator g).isFreshFor p = false := by
  unfold State.freshGenerator; rw [allGenerators_eq, (find_finRange _).2]

/-- The lowest-numbered FREE one of TG0 to TG14 (R94). -/
theorem freeGenerator_some (s : State) (g : GenIx) : s.freeGenerator = some g ↔
    (g ≠ congestionGen ∧ (s.generator g).binding = none) ∧
    ∀ h, h < g → h ≠ congestionGen → (s.generator h).binding ≠ none := by
  unfold State.freeGenerator
  rw [allGenerators_eq, (find_finRange _).1]
  simp [Generator.isFree, Option.isSome_iff_ne_none]

theorem freeGenerator_none (s : State) :
    s.freeGenerator = none ↔ ∀ g, g ≠ congestionGen → (s.generator g).binding ≠ none := by
  unfold State.freeGenerator
  rw [allGenerators_eq, (find_finRange _).2]
  simp [Generator.isFree, Option.isSome_iff_ne_none]

/-- The open player of p, of which there is one at most (R144, R145). -/
theorem openPlayer_some (s : State) (p : Program) (n : PlayerIx) (o : s.OneFreshPlayer) :
    s.openPlayer p = some n ↔ (s.player n).program = some p ∧ (s.player n).isOpen = true := by
  have fresh : ∀ k, (s.player k).program = some p → (s.player k).isOpen = true → (s.player k).isFreshFor p = true := by
    intro k a b
    unfold Player.isOpen at b
    simp only [Bool.and_eq_true, beq_iff_eq] at b
    simp [Player.isFreshFor, a, b.1.1, b.1.2]
  unfold State.openPlayer
  rw [allPlayers_eq, (find_finRange _).1]
  refine ⟨fun h => by simpa using h.1, fun h => ⟨by simp [h.1, h.2], fun k hk => ?_⟩⟩
  by_contra c
  simp only [Bool.not_eq_false, Bool.and_eq_true, beq_iff_eq] at c
  have := o p k n (fresh k c.1 c.2) (fresh n h.1 h.2)
  subst this; exact absurd hk (lt_irrefl _)

/-! ### Requests that wait -/

theorem enqueue_waiting_iff (s : State) (r q : OwnRequest) : (s.enqueue r).Waiting q ↔ s.Waiting q ∨ q = r := by
  unfold State.enqueue State.Waiting
  simp; tauto

theorem withdraw_waiting_iff (s : State) (f : OwnKind → Bool) (q : OwnRequest) :
    (s.withdraw f).Waiting q ↔ s.Waiting q ∧ f q.kind = false := by
  refine ⟨fun h => ?_, fun h => withdraw_waiting s f q h.1 h.2⟩
  unfold State.withdraw State.Waiting at *
  simp only [State.withMra_mra] at h
  rcases h with h | h
  · exact ⟨.inl (List.mem_filter.mp h).1, by simpa using (List.mem_filter.mp h).2⟩
  · exact ⟨.inr (Option.filter_eq_some_iff.mp h).1, by simpa using (Option.filter_eq_some_iff.mp h).2⟩

theorem takeOutcome_underWay (s : State) (o : Outcome) : (s.takeOutcome o).mra.underWay = s.mra.underWay := by
  unfold State.takeOutcome; split
  · rfl
  · split <;> rfl

/-- No serving block's move touches the request under way. -/
theorem Moves.underWay {s t : State} (m : Moves s t) : t.mra.underWay = s.mra.underWay := by
  induction m with
  | refl => rfl
  | step _ b ih =>
    rw [← ih]
    cases b with
    | outcome o j h => exact takeOutcome_underWay _ _
    | enqueue | withdraw | slot | generator | tones | player | leave | append => rfl

/-- A completed request is delivered by moves of the serving blocks, and the event ends (R155, R156). -/
theorem completed_moves (s u : State) (m : Moves s.delivered u) : Completed s u.finish := by
  have b : u.bus = s.delivered.bus := m.servingOnly.bus
  have f := finish_free u (by rw [b]; rfl)
  refine ⟨by simp [m.servingOnly.pending], by simp [m.servingOnly.pairing], by simp [m.servingOnly.fm], by simp [b],
    by simp [b], by simp [m.underWay], ?_, ?_⟩
  · rw [f.1, b]; rfl
  · rw [f.2, b]; rfl

/-- A delivery that does nothing discards the answer (R73, R107, R159). -/
theorem discarded_delivered (s : State) : Discarded s s.delivered.finish := by
  refine ⟨completed_moves s _ (.refl _), by simp, by constructor <;> simp, ?_⟩
  exact (finish_requestsHeld _).trans (List.Perm.of_eq (by simp [State.requestsHeld]))

/-! ### The reports of one source -/

/-- `t` differs from `s` in nothing that the reports of `src` read or wait on. -/
structure Calm (src : Source) (s t : State) : Prop where
  boot : t.boot = s.boot
  pend : t.isPending src = s.isPending src
  held : t.heldOutcome src = s.heldOutcome src
  wait : ∀ q, q.kind.isReport = true → s.Waiting q → t.Waiting q

theorem Calm.refl (src : Source) (s : State) : Calm src s s := ⟨rfl, rfl, rfl, fun _ _ h => h⟩

theorem Calm.trans {src : Source} {s t u : State} (a : Calm src s t) (b : Calm src t u) : Calm src s u :=
  ⟨b.1.trans a.1, b.2.trans a.2, b.3.trans a.3, fun q k h => b.4 q k (a.4 q k h)⟩

theorem Calm.of {src : Source} {s t : State} (a : t.boot = s.boot) (b : t.rrw = s.rrw) (c : t.mra = s.mra) :
    Calm src s t :=
  ⟨a, by unfold State.isPending; rw [b], by unfold State.heldOutcome; rw [b],
    fun q _ h => by unfold State.Waiting at *; rw [c]; exact h⟩

theorem Calm.foldl {α : Type} (src : Source) (f : State → α → State) (l : List α)
    (h : ∀ a ∈ l, ∀ s, Calm src s (f s a)) : ∀ s, Calm src s (l.foldl f s) := by
  induction l with
  | nil => exact Calm.refl src
  | cons a l ih => exact fun s => (h a (by simp) s).trans (ih (fun b hb => h b (by simp [hb])) _)

theorem calm_withdraw (src : Source) (s : State) (f : OwnKind → Bool) (h : ∀ k, f k = true → k.isServing = true) :
    Calm src s (s.withdraw f) :=
  ⟨rfl, rfl, rfl, fun q k w => withdraw_waiting _ _ _ w (by
    by_contra c; have := h _ (by simpa using c); unfold OwnKind.isServing at this; simp [k] at this)⟩

theorem calm_enqueue (src : Source) (s : State) (r : OwnRequest) : Calm src s (s.enqueue r) :=
  ⟨rfl, rfl, rfl, fun _ _ w => enqueue_waiting _ _ _ w⟩

theorem calm_takeOutcome (src : Source) (s : State) (o : Outcome) (h : o.source ≠ src) : Calm src s (s.takeOutcome o) :=
  ⟨by simp, (takeOutcome_other s o src h).1, (takeOutcome_other s o src h).2, fun _ _ w => takeOutcome_waiting _ _ _ w⟩

theorem calm_enter (src : Source) (s : State) (j : Slot) (st : SlotState) : Calm src s (s.enter j st) :=
  (calm_withdraw src s _ (readOfSlot_isServing j)).trans (.of rfl rfl rfl)

theorem slotSource_ne (i j : Slot) (h : i ≠ j) : slotSource i ≠ slotSource j := by
  intro c; apply h; have := Fin.val_eq_of_eq c; simp [slotSource] at this; exact Fin.ext this

theorem calm_faultSlot (i j : Slot) (h : i ≠ j) (s : State) (p : Program) (c : Cause) :
    Calm (slotSource j) s (s.faultSlot i p c) :=
  (calm_enter _ s i _).trans (calm_takeOutcome _ _ _ (slotSource_ne i j h))

theorem calm_attach (i j : Slot) (h : i ≠ j) (s : State) (p : Program) : Calm (slotSource j) s (s.attach i p) := by
  unfold State.attach; split
  · exact calm_faultSlot i j h s p _
  · exact (calm_enter _ s i _).trans (calm_enqueue _ _ _)

theorem calm_attachOrIdle (i j : Slot) (h : i ≠ j) (s : State) (o : Option Program) :
    Calm (slotSource j) s (s.attachOrIdle i o) := by
  unfold State.attachOrIdle; split
  · exact calm_attach i j h _ _
  · exact calm_enter _ _ _ _

theorem calm_leaveWaiting (src : Source) (s : State) (j : Slot) (f : Option GenIx) : Calm src s (s.leaveWaiting j f) := by
  apply Calm.of <;> unfold State.leaveWaiting State.leaveQueue State.releaseFiller <;> cases f <;> simp

theorem calm_bindPlayer (src : Source) (s : State) (n : PlayerIx) (p : Program) : Calm src s (s.bindPlayer n p) :=
  ((calm_withdraw src s _ (readOfPlayer_isServing n)).trans
    (.of (t := (s.withdraw (readOfPlayer n)).setPlayer n _) rfl rfl rfl)).trans (calm_enqueue _ _ _)

theorem calm_freePlayer (src : Source) (s : State) (n : PlayerIx) : Calm src s (s.freePlayer n) :=
  (calm_withdraw src s _ (readOfPlayer_isServing n)).trans
    (.of (t := (s.withdraw (readOfPlayer n)).setPlayer n _) rfl rfl rfl)

theorem calm_allocate (src : Source) (s : State) (n : PlayerIx) : Calm src s (s.allocate n) := by
  unfold State.allocate; split
  · exact .refl _ _
  · exact calm_bindPlayer _ _ _ _

theorem calm_releasePlayer (src : Source) (s : State) (n : PlayerIx) : Calm src s (s.releasePlayer n) :=
  (calm_freePlayer _ _ _).trans (calm_allocate _ _ _)

theorem calm_joinPlayer (src : Source) (s : State) (n : PlayerIx) (j : Slot) (p : Program) (a : AnnFields) :
    Calm src s (s.joinPlayer n j p a) :=
  (calm_enter src s j (.playing p a n a.listens (s.player n).underruns)).trans (.of rfl rfl rfl)

theorem calm_joinWaiting (src : Source) (s : State) (n : PlayerIx) (j : Slot) : Calm src s (s.joinWaiting n j) := by
  unfold State.joinWaiting; split
  · exact (calm_leaveWaiting _ _ _ _).trans (calm_joinPlayer _ _ _ _ _ _)
  · exact .of rfl rfl rfl

theorem calm_joinPoint (src : Source) (s : State) (n : PlayerIx) : Calm src s (s.joinPoint n) := by
  unfold State.joinPoint; split
  · exact (Calm.foldl src _ _ (fun j _ t => calm_joinWaiting src t n j) s).trans (.of rfl rfl rfl)
  · exact .of rfl rfl rfl

theorem calm_playOn (src : Source) (s : State) (n : PlayerIx) : Calm src s (s.playOn n) := by
  unfold State.playOn; dsimp only; split <;> split
  all_goals first | exact calm_releasePlayer _ _ _ | exact calm_joinPoint _ _ _

theorem calm_countListen (src : Source) (s : State) (j : Slot) : Calm src s (s.countListen j) := by
  unfold State.countListen; split
  · exact .of rfl rfl rfl
  · exact .refl _ _

theorem calm_completeListener (i j : Slot) (h : i ≠ j) (s : State) (n : PlayerIx) (c : Option PlaylistFault) :
    Calm (slotSource j) s (s.completeListener n c i) := by
  unfold State.completeListener
  dsimp only
  split
  · have a : Calm (slotSource j) s
        (s.modifyPlayer n (fun pl => { pl with listeners := pl.listeners.filter (fun k => k != i) })) := .of rfl rfl rfl
    exact Calm.trans (Calm.trans a (calm_takeOutcome _ _ _ (by exact slotSource_ne i j h))) (calm_attachOrIdle i j h _ _)
  · exact .of rfl rfl rfl

/-- An outcome taken is handed over, whatever comes before and after it that is not of its source. -/
theorem takeOutcome_handedOver (s : State) (o : Outcome) : HandedOver s (s.takeOutcome o) 0 o :=
  fun rec hr => takeOutcome_reported s o rec hr

/-- Nothing that the reports of `src` read or wait on has changed, but that, where a record is accepted, `n` records
of other sources have been queued. -/
structure CalmBut (n : Nat) (src : Source) (s t : State) : Prop where
  calm : Calm src s t
  producer : t.rrw.producer = s.rrw.producer
  phase : t.rrw.phase = s.rrw.phase
  queued : s.boot.accepted.isSome = true → t.reportsHeld = s.reportsHeld + n

theorem HandedOver.before {s u t : State} {n k : Nat} {o : Outcome} (a : CalmBut n o.source s u)
    (h : HandedOver u t k o) : HandedOver s t (n + k) o := by
  intro rec hr
  have := h rec (by rw [a.calm.boot]; exact hr)
  rw [a.calm.pend, a.calm.held] at this
  unfold WaitsAt at this ⊢
  rw [a.producer, a.phase, a.queued (by rw [hr]; rfl)] at this
  simpa only [Nat.add_assoc] using this

theorem HandedOver.after {s t u : State} {k : Nat} {o : Outcome} (h : HandedOver s t k o) (a : Calm o.source t u) :
    HandedOver s u k o := by
  intro rec hr
  have := h rec hr
  split at this
  · rename_i c; rw [if_pos c, a.held]; exact this
  · rename_i c; rw [if_neg c]; obtain ⟨x, q, w, b, d⟩ := this
    exact ⟨a.pend.trans x, q, a.wait q (by rw [b]; rfl) w, b, d⟩

theorem HandedOver.finish {s t : State} {k : Nat} {o : Outcome} (h : HandedOver s t k o) :
    HandedOver s t.finish k o := by
  intro rec hr; have := h rec hr; unfold WaitsAt at *; simpa using this

/-- The same for the first outcome of an event. -/
theorem Reported.finish {s t : State} {o : Outcome} (h : Reported s t o) : Reported s t.finish o := HandedOver.finish h

theorem Reported.after {s t u : State} {o : Outcome} (h : Reported s t o) (a : Calm o.source t u) : Reported s u o :=
  HandedOver.after h a

theorem Reported.before {s u t : State} {o : Outcome} (h : Reported u t o) (a : u.boot = s.boot) (b : u.rrw = s.rrw)
    (c : u.reportsHeld = s.reportsHeld) : Reported s t o := by
  intro rec hr
  have := h rec (by rw [a]; exact hr)
  unfold WaitsAt State.isPending State.heldOutcome at *
  rw [b, c] at this
  exact this

/-- Withdrawing reads of the serving blocks leaves the report writes. -/
theorem withdraw_reportWrites (s : State) (f : OwnKind → Bool) (h : ∀ k, f k = true → k.isServing = true) :
    (s.withdraw f).reportWrites = s.reportWrites := by
  have hf : ∀ r : OwnRequest, r.kind.isReport = true → f r.kind = false := by
    intro r hr; by_contra e
    have := h _ (by simpa using e)
    unfold OwnKind.isServing at this
    simp [hr] at this
  unfold State.reportWrites State.requestsHeld State.withdraw
  simp only [State.withMra_mra, List.filter_append]
  congr 1
  · congr 1
    cases s.mra.chosen with
    | none => rfl
    | some r =>
      by_cases e : f r.kind = true
      · have : r.kind.isReport = false := by
          by_contra c; have := hf r (by simpa using c); simp [e] at this
        simp [Option.filter, e, this]
      · simp at e; simp [Option.filter, e]
  · rw [List.filter_filter]
    congr 1; funext r
    by_cases e : r.kind.isReport = true
    · simp [e, hf r e]
    · simp [e]

theorem enter_reportWrites (s : State) (j : Slot) (st : SlotState) : (s.enter j st).reportWrites = s.reportWrites :=
  withdraw_reportWrites s _ (readOfSlot_isServing j)

/-! ### Records queued at one event (R163) -/

theorem reportsHeld_of_reportWrites {s t : State} (h : t.reportWrites = s.reportWrites) : t.reportsHeld = s.reportsHeld :=
  congrArg List.length h

theorem enqueue_reportsHeld (s : State) (r : OwnRequest) :
    (s.enqueue r).reportsHeld = s.reportsHeld + if r.kind.isReport then 1 else 0 := by
  unfold State.reportsHeld State.requestsHeld State.enqueue
  simp only [State.withMra_mra, ← List.append_assoc, List.filter_append, List.length_append]
  split <;> simp_all

theorem CalmBut.trans {n m : Nat} {src : Source} {s t u : State} (a : CalmBut n src s t) (b : CalmBut m src t u) :
    CalmBut (n + m) src s u :=
  ⟨a.calm.trans b.calm, b.producer.trans a.producer, b.phase.trans a.phase, fun h => by
    rw [b.queued (by rw [a.calm.boot]; exact h), a.queued h, Nat.add_assoc]⟩

/-- A change that queues no record. -/
theorem CalmBut.quiet {src : Source} {s t : State} (a : Calm src s t) (b : t.rrw = s.rrw)
    (c : t.reportsHeld = s.reportsHeld) : CalmBut 0 src s t := ⟨a, by rw [b], by rw [b], fun _ => c⟩

theorem calmBut_enter (src : Source) (s : State) (j : Slot) (st : SlotState) : CalmBut 0 src s (s.enter j st) :=
  .quiet (calm_enter _ _ _ _) (enter_rrw _ _ _)
    (reportsHeld_of_reportWrites (withdraw_reportWrites s _ (readOfSlot_isServing j)))

theorem takeOutcome_reportsHeld (s : State) (o : Outcome) (h : s.boot.accepted.isSome = true) :
    (s.takeOutcome o).reportsHeld = s.reportsHeld + if s.isPending o.source then 0 else 1 := by
  obtain ⟨rec, hr⟩ := Option.isSome_iff_exists.1 h
  unfold State.takeOutcome
  rw [hr]
  simp only
  split
  · rfl
  · exact enqueue_reportsHeld _ _

theorem takeOutcome_isPending (s : State) (o : Outcome) (h : s.boot.accepted.isSome = true) :
    (s.takeOutcome o).isPending o.source = true := by
  obtain ⟨rec, hr⟩ := Option.isSome_iff_exists.1 h
  unfold State.takeOutcome
  rw [hr]
  simp only
  split
  · assumption
  · simp [State.queueReport, State.isPending, State.enqueue, ReportRing.setFlag_get]

theorem calmBut_takeOutcome (src : Source) (s : State) (o : Outcome) (h : o.source ≠ src) :
    CalmBut (if s.isPending o.source then 0 else 1) src s (s.takeOutcome o) := by
  refine ⟨calm_takeOutcome _ _ _ h, ?_, ?_, takeOutcome_reportsHeld s o⟩
  all_goals
    unfold State.takeOutcome; split
    · rfl
    · split <;> rfl

/-- An attach queues a record only where its program is out of range and its slot has no unconsumed record. -/
theorem calmBut_attach (i j : Slot) (h : i ≠ j) (s : State) (p : Program)
    (hp : s.boot.accepted.isSome = true → s.isPending (slotSource i) = true) :
    CalmBut 0 (slotSource j) s (s.attach i p) := by
  unfold State.attach; split
  · have e := calmBut_enter (slotSource j) s i (.fault p)
    have pend : (s.enter i (.fault p)).isPending (slotSource i) = s.isPending (slotSource i) := by
      unfold State.isPending; rw [enter_rrw]
    have o := calmBut_takeOutcome (slotSource j) (s.enter i (.fault p))
      { kind := .slotFault, source := slotSource i, program := p, detail := causeCode .range, impaired := false,
        faulted := false, superseded := false, stamp := (s.enter i (.fault p)).frame, underruns := 0 }
      (slotSource_ne i j h)
    have t := e.trans o
    refine ⟨t.calm, t.producer, t.phase, fun ha => ?_⟩
    have := t.queued ha
    rw [if_pos (pend.trans (hp ha))] at this
    exact this
  · refine (calmBut_enter _ s i _).trans (m := 0) (.quiet (calm_enqueue _ _ _) rfl ?_)
    rw [enqueue_reportsHeld]; rfl

theorem recordsOf_cons (s : State) (i : Slot) (l : List Slot) :
    s.recordsOf (i :: l) = s.recordsOf [i] + s.recordsOf l := by
  unfold State.recordsOf
  rw [← List.singleton_append, List.filter_append, List.length_append]

theorem recordsOf_congr {s t : State} (l : List Slot)
    (h : ∀ i ∈ l, t.isPending (slotSource i) = s.isPending (slotSource i)) : t.recordsOf l = s.recordsOf l := by
  unfold State.recordsOf
  rw [List.filter_congr (fun i hi => by rw [h i hi])]

/-! ### Entering a state, attaches and congestion (R73, R78, R86) -/

/-- A context entered while no read of its slot is under way. -/
theorem enter_slot_same (s : State) (j : Slot) (st : SlotState) (h : s.mra.underWay = none) :
    (s.enter j st).slot j = { s.slot j with state := st, gen := (s.slot j).gen + 1 } := by
  rw [enter_slot, if_pos rfl]; simp [State.underWayGen, h, nextGeneration]

theorem enter_state (s : State) (j : Slot) (st : SlotState) :
    ((s.enter j st).slot j).state = st ∧ ((s.enter j st).slot j).shadow = (s.slot j).shadow := by
  rw [enter_slot, if_pos rfl]; exact ⟨rfl, rfl⟩

@[simp] theorem slotOutcome_slot (s : State) (i j : Slot) (k : ReportKind) (p : Program) (d : Word) :
    (s.slotOutcome j k p d).slot i = s.slot i := takeOutcome_slot _ _ _

theorem attach_below (s : State) (j : Slot) (p : Program) (h : p.val < s.limit) :
    s.attach j p = (s.enter j (.attaching p)).enqueue
      (ownRead (.attachFetch j p) ((s.enter j (.attaching p)).slot j).gen (descriptorAddr s.programBase p.val) 16) := by
  unfold State.attach; rw [if_neg (by omega)]

theorem attach_beyond (s : State) (j : Slot) (p : Program) (h : s.limit ≤ p.val) :
    s.attach j p = s.faultSlot j p .range := by
  unfold State.attach; rw [if_pos h]

/-- What an attach does to every context. -/
theorem attach_slot (s : State) (i j : Slot) (p : Program) :
    (s.attach j p).slot i = (s.enter j (if s.limit ≤ p.val then .fault p else .attaching p)).slot i := by
  by_cases h : s.limit ≤ p.val
  · rw [attach_beyond s j p h, if_pos h]; exact slotOutcome_slot _ _ _ _ _ _
  · rw [attach_below s j p (by omega), if_neg h]; rfl

theorem overflowSlot_slot (s : State) (i j : Slot) (p : Program) (k : ReportKind) (d : Word) :
    (s.overflowSlot j p k d).slot i = ((s.joinGenerator congestionGen).enter j (.overflow p)).slot i :=
  slotOutcome_slot _ _ _ _ _ _

theorem overflowSlot_generator (s : State) (j : Slot) (p : Program) (k : ReportKind) (d : Word) (h : GenIx) :
    (s.overflowSlot j p k d).generator h = (s.joinGenerator congestionGen).generator h := by
  unfold State.overflowSlot State.generator; simp

/-! ### Fillers (R102 to R105) -/

theorem giveFiller_waiting (s : State) (j : Slot) (g : GenIx) (p : Program) (ann : AnnFields) (o : Option GenIx)
    (h : (s.slot j).state = .waiting p ann o) :
    s.giveFiller j g = s.setSlot j { s.slot j with state := .waiting p ann (some g) } := by
  unfold State.giveFiller; rw [h]

/-- Taking a filler: the fresh generator of it; or nothing, beyond L; or one fetch. -/
theorem takeFiller_cases (s : State) (j : Slot) (f p : Program) (ann : AnnFields)
    (h : (s.slot j).state = .waiting p ann none) :
    (∃ g, (s.generator g).isFreshFor f = true ∧
      s.takeFiller j f = (s.joinGenerator g).setSlot j { s.slot j with state := .waiting p ann (some g) }) ∨
    ((∀ g, (s.generator g).isFreshFor f = false) ∧ s.limit ≤ f.val ∧ s.takeFiller j f = s) ∨
    ((∀ g, (s.generator g).isFreshFor f = false) ∧ f.val < s.limit ∧ s.takeFiller j f =
      s.enqueue (ownRead (.fillerFetch j f) (s.slot j).gen (descriptorAddr s.programBase f.val) 16)) := by
  unfold State.takeFiller
  cases e : s.freshGenerator f with
  | some g =>
    refine .inl ⟨g, ?_, ?_⟩
    · unfold State.freshGenerator at e; rw [allGenerators_eq, (find_finRange _).1] at e; exact e.1
    · simp only
      rw [giveFiller_waiting _ j g p ann none (by rw [joinGenerator_slot]; exact h), joinGenerator_slot]
  | none =>
    have nf := (freshGenerator_none s f).1 e
    right
    simp only
    split
    · exact .inl ⟨nf, ‹_›, rfl⟩
    · exact .inr ⟨nf, by omega, rfl⟩

@[simp] theorem leaveWaiting_slot (s : State) (j : Slot) (f : Option GenIx) (i : Slot) :
    (s.leaveWaiting j f).slot i = s.slot i := by
  unfold State.leaveWaiting State.leaveQueue State.releaseFiller; cases f <;> simp

@[simp] theorem leaveWaiting_player (s : State) (j : Slot) (f : Option GenIx) (n : PlayerIx) :
    (s.leaveWaiting j f).player n = s.player n := by
  unfold State.leaveWaiting State.leaveQueue State.releaseFiller; cases f <;> simp

theorem leaveWaiting_queue (s : State) (j : Slot) (f : Option GenIx) :
    (s.leaveWaiting j f).queue = s.queue.filter (fun e => e.slot != j) := by
  unfold State.leaveWaiting State.leaveQueue State.releaseFiller; cases f <;> simp

/-! ### Binding and freeing a player (R107, R108, R122) -/

theorem bindPlayer_player_same (s : State) (n : PlayerIx) (p : Program) (h : s.mra.underWay = none) :
    (s.bindPlayer n p).player n =
      { Player.reset with state := .priming, program := some p, gen := (s.player n).gen + 1 } := by
  unfold State.bindPlayer State.nextPlayerGen State.underWayGen
  rw [h]; simp [State.enqueue, nextGeneration]

/-- A released player is FREE or bound again: it is not RUNNING, is not known to be fresh, and has no listener. -/
theorem releasePlayer_player_same (s : State) (n : PlayerIx) : ((s.releasePlayer n).player n).listeners = [] ∧
    ((s.releasePlayer n).player n).state ≠ .running ∧ ((s.releasePlayer n).player n).fresh = none := by
  unfold State.releasePlayer State.allocate
  split
  · simp [State.freePlayer, Player.reset]
  · simp [State.bindPlayer, Player.reset]

/-! ### The allocator's choice (R145, R146) -/

theorem firstHighest_none (es : List WaitEntry) : firstHighest es = none → es = [] := by
  cases es with
  | nil => simp
  | cons a es => unfold firstHighest; split <;> [simp; skip]; split <;> simp

theorem firstHighest_split (a : List WaitEntry) (e : WaitEntry) (b : List WaitEntry)
    (ha : ∀ x ∈ a, x.priority < e.priority) (hb : ∀ x ∈ b, x.priority ≤ e.priority) :
    firstHighest (a ++ e :: b) = some e := by
  induction a with
  | nil =>
    simp only [List.nil_append]
    unfold firstHighest
    split
    · rfl
    · rename_i x hx
      have := hb _ (firstHighest_mem _ _ hx)
      rw [if_neg]; simpa using this
  | cons y a ih =>
    simp only [List.cons_append]
    unfold firstHighest
    rw [ih (fun x hx => ha x (List.mem_cons_of_mem _ hx))]
    simp only
    rw [if_pos (ha y (by simp))]

theorem eligible_iff (s : State) (x : WaitEntry) :
    s.eligible x = true ↔ ∀ m, (s.player m).isFreshFor x.program = false := by
  unfold State.eligible State.hasFreshPlayer
  simp only [Bool.not_eq_true', List.any_eq_false, Bool.not_eq_true]
  exact ⟨fun h m => h m (List.mem_finRange m), fun h m _ => h m⟩

theorem allocate_none (s : State) (n : PlayerIx) (h : ∀ e ∈ s.queue, s.eligible e = false) : s.allocate n = s := by
  unfold State.allocate
  rw [List.filter_eq_nil_iff.2 (fun e he => by simp [h e he])]
  rfl

theorem allocate_some (s : State) (n : PlayerIx) (older newer : List WaitEntry) (e : WaitEntry)
    (hq : s.queue = older ++ e :: newer) (he : s.eligible e = true)
    (ho : ∀ x ∈ older, s.eligible x = true → x.priority < e.priority)
    (hn : ∀ x ∈ newer, s.eligible x = true → x.priority ≤ e.priority) : s.allocate n = s.bindPlayer n e.program := by
  unfold State.allocate
  rw [hq, List.filter_append, List.filter_cons_of_pos he, firstHighest_split]
  · intro x hx; rw [List.mem_filter] at hx; exact ho x hx.1 hx.2
  · intro x hx; rw [List.mem_filter] at hx; exact hn x hx.1 hx.2

/-- What an allocator's run can do: nothing, or bind the player to the program of an eligible entry. -/
theorem allocate_cases (s : State) (n : PlayerIx) :
    s.allocate n = s ∨ ∃ e ∈ s.queue, s.eligible e = true ∧ s.allocate n = s.bindPlayer n e.program := by
  unfold State.allocate
  split
  · exact .inl rfl
  · rename_i e he
    have := firstHighest_mem _ _ he
    rw [List.mem_filter] at this
    exact .inr ⟨e, this.1, this.2, rfl⟩

/-- The allocator's run at a player that has just gone FREE completes its freeing. -/
theorem allocate_freed (s u : State) (n : PlayerIx) (h : u.player n = { Player.reset with
    gen := nextGeneration (s.player n).gen (u.underWayGen (readOfPlayer n))
    underruns := (s.player n).underruns }) : Freed s (u.allocate n) n := by
  have free : ∀ p, (u.player n).isFreshFor p = false := by intro p; rw [h]; simp [Player.isFreshFor, Player.reset]
  have queue : (u.allocate n).queue = u.queue := by
    obtain e | ⟨_, _, _, e⟩ := allocate_cases u n <;> rw [e]; simp
  have beside : ∀ e, (u.allocate n).EligibleBeside n e ↔ u.eligible e = true := by
    intro e
    rw [eligible_iff]
    have other : ∀ m, m ≠ n → (u.allocate n).player m = u.player m := by
      intro m hm
      obtain e | ⟨_, _, _, e⟩ := allocate_cases u n <;> rw [e]
      exact bindPlayer_other _ _ _ _ hm
    refine ⟨fun c m => ?_, fun c m hm => by rw [other m hm]; exact c m⟩
    by_cases hm : m = n
    · rw [hm]; exact free _
    · rw [← other m hm]; exact c m hm
  have way : (u.allocate n).underWayGen (readOfPlayer n) = u.underWayGen (readOfPlayer n) := by
    obtain e | ⟨_, _, _, e⟩ := allocate_cases u n <;> rw [e]; rfl
  refine ⟨fun c => ?_, fun older e newer gen hq he ho hn hg => ?_⟩
  · rw [way, ← h, allocate_none u n]
    intro e he
    have := c e (by rw [queue]; exact he)
    rw [beside] at this; simpa using this
  · rw [queue] at hq
    rw [way] at hg
    have key := allocate_some u n older newer e hq ((beside e).1 he)
      (fun x hx hx' => ho x hx ((beside x).2 hx')) (fun x hx hx' => hn x hx ((beside x).2 hx'))
    have hgen : gen = u.nextPlayerGen n := by rw [hg]; unfold State.nextPlayerGen; rw [h]
    rw [key, hgen]
    refine ⟨by simp [State.bindPlayer], _, (enqueue_waiting_iff _ _ _).2 (.inr rfl), rfl, rfl, rfl, ?_⟩
    simp [ownRead, descriptorAddr, State.programBase]

theorem releasePlayer_freed (s : State) (n : PlayerIx) : Freed s (s.releasePlayer n) n :=
  allocate_freed s _ n (by simp [State.freePlayer]; rfl)

/-- A freeing that begins from a state with the same generation and underrun total of the player. -/
theorem Freed.before {s u t : State} {n : PlayerIx} (h : Freed u t n) (a : (u.player n).gen = (s.player n).gen)
    (b : (u.player n).underruns = (s.player n).underruns) : Freed s t n := by
  obtain ⟨x, y⟩ := h
  rw [a, b] at x
  rw [a] at y
  exact ⟨x, y⟩

/-- What follows a freeing at the same event and leaves the players, the queue and the reads under way. -/
theorem Freed.after {s t u : State} {n : PlayerIx} (h : Freed s t n) (a : u.players = t.players)
    (b : u.queue = t.queue) (c : u.mra.underWay = t.mra.underWay) (d : u.boot = t.boot)
    (e : ∀ q, readOfPlayer n q.kind = true → t.Waiting q → u.Waiting q) : Freed s u n := by
  have pl : ∀ m, u.player m = t.player m := fun m => by unfold State.player; rw [a]
  have way : u.underWayGen (readOfPlayer n) = t.underWayGen (readOfPlayer n) := by unfold State.underWayGen; rw [c]
  have el : ∀ x, u.EligibleBeside n x ↔ t.EligibleBeside n x := fun x => by simp [State.EligibleBeside, pl]
  have pb : u.programBase = t.programBase := by unfold State.programBase; rw [d]
  refine ⟨fun f => ?_, fun older x newer gen f1 f2 f3 f4 f5 => ?_⟩
  · rw [pl, way]; exact h.free (fun y hy => by rw [← el]; exact f y (by rw [b]; exact hy))
  · obtain ⟨k1, q, k2, k3, k4, k5, k6⟩ := h.bound older x newer gen (by rw [← b]; exact f1) ((el x).1 f2)
      (fun y hy hy' => f3 y hy ((el y).2 hy')) (fun y hy hy' => f4 y hy ((el y).2 hy')) (by rw [← way]; exact f5)
    exact ⟨by rw [pl]; exact k1, q, e q (by rw [k3]; simp [readOfPlayer, OwnKind.player?]) k2,
      k3, k4, k5, by rw [pb]; exact k6⟩

theorem Freed.finish {s t : State} {n : PlayerIx} (h : Freed s t n) : Freed s t.finish n :=
  h.after (by simp) (by simp) (by simp) (by simp) (fun q _ hq => (finish_waiting t q).2 hq)

/-! ### The waiting entries of a program (R71, R142) -/

theorem mem_waitersFor (s : State) (m : s.Membership) (p : Program) (j : Slot) :
    j ∈ s.waitersFor p ↔ ∃ ann f, (s.slot j).state = .waiting p ann f := by
  rw [← m.waiting j p]
  unfold State.waitersFor
  simp [List.mem_map, List.mem_filter]
  constructor
  · rintro ⟨e, ⟨a, b⟩, c⟩; exact ⟨e, a, c, b⟩
  · rintro ⟨e, a, b, c⟩; exact ⟨e, ⟨a, c⟩, b⟩

theorem waitersFor_nodup (s : State) (m : s.Membership) (p : Program) : (s.waitersFor p).Nodup :=
  List.Nodup.sublist (List.Sublist.map _ List.filter_sublist) m.entriesOnce

/-- Taking those slots' entries away takes the program's entries away. -/
theorem waitersFor_filter (s : State) (m : s.Membership) (p : Program) :
    s.queue.filter (fun e => !(s.waitersFor p).contains e.slot) = s.queue.filter (fun e => e.program != p) := by
  apply List.filter_congr
  intro e he
  obtain ⟨ann, f, hw⟩ := (m.waiting e.slot e.program).1 ⟨e, he, rfl, rfl⟩
  by_cases c : e.program = p
  · have : e.slot ∈ s.waitersFor p := by rw [mem_waitersFor s m]; rw [← c]; exact ⟨ann, f, hw⟩
    simp [c, this]
  · have : e.slot ∉ s.waitersFor p := by
      rw [mem_waitersFor s m]; rintro ⟨a, b, h⟩; rw [hw] at h; injection h with h1; exact c h1
    simp [c, this]

theorem hasWaiter_iff (s : State) (p : Program) : s.hasWaiter p = true ↔ s.waitersFor p ≠ [] := by
  unfold State.hasWaiter State.waitersFor
  simp [List.any_eq_true, List.filter_eq_nil_iff]

/-! ### Joins (R84, R114) -/

theorem mem_addListener (j i : Slot) (l : List Slot) : i ∈ addListener j l ↔ i = j ∨ i ∈ l := by
  induction l with
  | nil => simp [addListener]
  | cons a l ih =>
    unfold addListener
    split
    · simp
    · split
      · rename_i h; simp [h]
      · simp [ih]; tauto

/-- A listener is added in its place. -/
theorem addListener_ordered (j : Slot) (l : List Slot) (h : l.Pairwise (fun a b => a < b)) :
    (addListener j l).Pairwise (fun a b => a < b) := by
  induction l with
  | nil => simp [addListener]
  | cons a l ih =>
    rw [List.pairwise_cons] at h
    unfold addListener
    split
    · rename_i c
      refine List.pairwise_cons.2 ⟨fun b hb => ?_, List.pairwise_cons.2 h⟩
      rcases List.mem_cons.1 hb with rfl | hb
      · exact c
      · exact lt_trans c (h.1 b hb)
    · split
      · exact List.pairwise_cons.2 h
      · refine List.pairwise_cons.2 ⟨fun b hb => ?_, ih h.2⟩
        rcases (mem_addListener j b l).1 hb with rfl | hb
        · rename_i x y; exact lt_of_le_of_ne (not_lt.1 x) (fun c => y c)
        · exact h.1 b hb

/-- The slots of `l`, which all wait, have joined player n. -/
structure JoinedBy (n : PlayerIx) (l : List Slot) (s t : State) : Prop where
  joined : ∀ j ∈ l, ∀ p ann f, (s.slot j).state = .waiting p ann f →
    (t.slot j).state = .playing p ann n ann.listens (s.player n).underruns
  others : ∀ j, j ∉ l → t.slot j = s.slot j
  queue : t.queue = s.queue.filter (fun e => !l.contains e.slot)
  player : t.player n = { s.player n with listeners := (t.player n).listeners }
  listeners : ∀ i, i ∈ (t.player n).listeners ↔ i ∈ l ∨ i ∈ (s.player n).listeners
  ordered : (s.player n).listeners.Pairwise (fun a b => a < b) → (t.player n).listeners.Pairwise (fun a b => a < b)
  players : ∀ m, m ≠ n → t.player m = s.player m
  rrw : t.rrw = s.rrw
  boot : t.boot = s.boot

theorem joinWaiting_joined (s : State) (n : PlayerIx) (j : Slot) (p : Program) (ann : AnnFields) (f : Option GenIx)
    (h : (s.slot j).state = .waiting p ann f) : JoinedBy n [j] s (s.joinWaiting n j) := by
  have e : s.joinWaiting n j = (s.leaveWaiting j f).joinPlayer n j p ann := by unfold State.joinWaiting; rw [h]
  rw [e]; unfold State.joinPlayer
  refine ⟨?_, ?_, ?_, ?_, ?_, ?_, ?_, ?_, ?_⟩
  · intro i hi q a g w
    rw [List.mem_singleton] at hi; subst hi
    rw [h] at w; cases w
    rw [State.modifyPlayer_slot, (enter_state _ _ _).1, leaveWaiting_player]
  · intro i hi; rw [List.mem_singleton] at hi
    rw [State.modifyPlayer_slot, enter_slot, if_neg hi, leaveWaiting_slot]
  · rw [State.modifyPlayer_queue, enter_queue, leaveWaiting_queue]
    apply List.filter_congr; intro x _; rw [Bool.eq_iff_iff]
    simp only [bne_iff_ne, List.contains_cons, List.contains_nil, Bool.or_false, Bool.not_eq_true', beq_eq_false_iff_ne]
  · rw [State.modifyPlayer_player_same, enter_player, leaveWaiting_player]
  · intro i; rw [State.modifyPlayer_player_same, enter_player, leaveWaiting_player]; simp [mem_addListener]
  · rw [State.modifyPlayer_player_same, enter_player, leaveWaiting_player]; exact addListener_ordered _ _
  · intro m hm; rw [State.modifyPlayer_player_ne _ _ _ _ hm, enter_player, leaveWaiting_player]
  · simp [State.leaveWaiting, State.leaveQueue, State.releaseFiller]; cases f <;> simp
  · simp [State.leaveWaiting, State.leaveQueue, State.releaseFiller]; cases f <;> simp

/-- A run of joins, one for each waiting slot. -/
theorem joinWaitings_joined (n : PlayerIx) (l : List Slot) : ∀ s : State, l.Nodup →
    (∀ j ∈ l, ∃ p ann f, (s.slot j).state = .waiting p ann f) →
    JoinedBy n l s (l.foldl (fun t j => t.joinWaiting n j) s) := by
  induction l with
  | nil => exact fun s _ _ => ⟨fun _ h => (by cases h), fun _ _ => rfl, by simp, rfl, by simp, id, fun _ _ => rfl, rfl, rfl⟩
  | cons a l ih =>
    intro s nd hw
    obtain ⟨p, ann, f, ha⟩ := hw a (by simp)
    have B := joinWaiting_joined s n a p ann f ha
    rw [List.nodup_cons] at nd
    have ne : ∀ j ∈ l, j ∉ [a] := by rintro j hj h; rw [List.mem_singleton] at h; subst h; exact nd.1 hj
    have I := ih (s.joinWaiting n a) nd.2 (fun j hj => by rw [B.others j (ne j hj)]; exact hw j (by simp [hj]))
    rw [List.foldl_cons]
    refine ⟨?_, ?_, ?_, ?_, ?_, I.ordered ∘ B.ordered, ?_, I.rrw.trans B.rrw, I.boot.trans B.boot⟩
    · intro j hj q b g h
      rcases List.mem_cons.1 hj with rfl | hj'
      · rw [I.others _ nd.1]; exact B.joined j (by simp) q b g h
      · rw [I.joined j hj' q b g (by rw [B.others j (ne j hj')]; exact h), B.player]
    · intro j hj; simp only [List.mem_cons, not_or] at hj
      rw [I.others j hj.2, B.others j (by simpa using hj.1)]
    · rw [I.queue, B.queue, List.filter_filter]
      congr 1; funext e; simp
      exact Bool.and_comm _ _
    · have := I.player; rw [B.player] at this; exact this
    · intro i; rw [I.listeners, B.listeners]; simp only [List.mem_cons]; tauto
    · intro m hm; rw [I.players m hm, B.players m hm]

/-- A join point of a fresh player bound to p, from a state whose waiting entries of p are those of its slots. -/
structure JoinPointTaken (n : PlayerIx) (p : Program) (s t : State) : Prop where
  joined : ∀ j ann f, (s.slot j).state = .waiting p ann f →
    (t.slot j).state = .playing p ann n ann.listens (s.player n).underruns
  others : ∀ j, (∀ ann f, (s.slot j).state ≠ .waiting p ann f) → t.slot j = s.slot j
  queue : t.queue = s.queue.filter (fun e => e.program != p)
  player : t.player n = { s.player n with
    listeners := (t.player n).listeners
    framesLeft := (t.player n).framesLeft
    windowOpen := (t.player n).windowOpen }
  frames : ∀ c, (s.player n).copy = some c → (t.player n).framesLeft = c.window.toNat * 80
  window : ∀ c, (s.player n).copy = some c → ((t.player n).windowOpen = true ↔ c.window ≠ 0)
  listeners : ∀ i, i ∈ (t.player n).listeners ↔ i ∈ s.waitersFor p ∨ i ∈ (s.player n).listeners
  ordered : (s.player n).listeners.Pairwise (fun a b => a < b) → (t.player n).listeners.Pairwise (fun a b => a < b)
  players : ∀ m, m ≠ n → t.player m = s.player m
  rrw : t.rrw = s.rrw
  boot : t.boot = s.boot

theorem joinPoint_taken (s : State) (n : PlayerIx) (p : Program)
    (w : ∀ j, j ∈ s.waitersFor p ↔ ∃ ann f, (s.slot j).state = .waiting p ann f) (nd : (s.waitersFor p).Nodup)
    (fq : s.queue.filter (fun e => !(s.waitersFor p).contains e.slot) = s.queue.filter (fun e => e.program != p))
    (hf : (s.player n).fresh = some true) (hp : (s.player n).program = some p) :
    JoinPointTaken n p s (s.joinPoint n) := by
  have e : s.joinPoint n = ((s.waitersFor p).foldl (fun t j => t.joinWaiting n j) s).modifyPlayer n (fun pl =>
      let frames := match pl.copy with
        | some c => c.window.toNat * 80
        | none => 0
      { pl with framesLeft := frames, windowOpen := frames != 0 }) := by
    unfold State.joinPoint; rw [hf, hp] <;> rfl
  have J := joinWaitings_joined n (s.waitersFor p) s nd (fun j hj => by
    obtain ⟨a, b, c⟩ := (w j).1 hj; exact ⟨p, a, b, c⟩)
  rw [e]
  refine ⟨?_, ?_, ?_, ?_, ?_, ?_, ?_, ?_, ?_, ?_, ?_⟩
  · intro j ann f h; rw [State.modifyPlayer_slot]; exact J.joined j ((w j).2 ⟨ann, f, h⟩) p ann f h
  · intro j h; rw [State.modifyPlayer_slot]; apply J.others; rw [w]; rintro ⟨a, b, c⟩; exact h a b c
  · rw [State.modifyPlayer_queue, J.queue, fq]
  · rw [State.modifyPlayer_player_same]; simp only
    have := J.player
    generalize ((s.waitersFor p).foldl (fun t j => t.joinWaiting n j) s).player n = x at this ⊢
    rw [this]
  · intro c hc; rw [State.modifyPlayer_player_same]; simp only
    rw [J.player]; simp only [hc]
  · intro c hc; rw [State.modifyPlayer_player_same]; simp only
    rw [J.player]; simp only [hc]
    have : c.window ≠ 0 ↔ c.window.toNat ≠ 0 := by rw [Ne, Ne, ← BitVec.toNat_inj]; rfl
    simp only [bne_iff_ne, this]; omega
  · intro i; rw [State.modifyPlayer_player_same]; exact J.listeners i
  · rw [State.modifyPlayer_player_same]; exact J.ordered
  · intro m h; rw [State.modifyPlayer_player_ne _ _ _ _ h, J.players m h]
  · simp [J.rrw]
  · simp [J.boot]

/-! ### The reads of one slot (R73) -/

/-- The requests of slot j that wait in `s` wait in `t` too. -/
def KeepsReads (j : Slot) (s t : State) : Prop := ∀ q, q.kind.slot? = some j → s.Waiting q → t.Waiting q

theorem KeepsReads.trans {j : Slot} {s t u : State} (a : KeepsReads j s t) (b : KeepsReads j t u) : KeepsReads j s u :=
  fun q k h => b q k (a q k h)

theorem KeepsReads.of {j : Slot} {s t : State} (h : t.mra = s.mra) : KeepsReads j s t :=
  fun q _ w => by unfold State.Waiting at *; rw [h]; exact w

theorem KeepsReads.foldl {α : Type} (j : Slot) (f : State → α → State) (l : List α)
    (h : ∀ a ∈ l, ∀ s, KeepsReads j s (f s a)) : ∀ s, KeepsReads j s (l.foldl f s) := by
  induction l with
  | nil => exact fun s => .of rfl
  | cons a l ih => exact fun s => (h a (by simp) s).trans (ih (fun b hb => h b (by simp [hb])) _)

theorem keepsReads_enqueue (j : Slot) (s : State) (r : OwnRequest) : KeepsReads j s (s.enqueue r) :=
  fun _ _ w => enqueue_waiting _ _ _ w

theorem keepsReads_takeOutcome (j : Slot) (s : State) (o : Outcome) : KeepsReads j s (s.takeOutcome o) :=
  fun _ _ w => takeOutcome_waiting _ _ _ w

theorem keepsReads_enter (i j : Slot) (h : i ≠ j) (s : State) (st : SlotState) : KeepsReads j s (s.enter i st) :=
  fun q k w => withdraw_waiting _ _ _ w (by unfold readOfSlot; rw [k]; simpa using fun c => h c.symm)

theorem keepsReads_attachOrIdle (i j : Slot) (h : i ≠ j) (s : State) (o : Option Program) :
    KeepsReads j s (s.attachOrIdle i o) := by
  unfold State.attachOrIdle; split
  · unfold State.attach; split
    · exact (keepsReads_enter i j h s _).trans (keepsReads_takeOutcome _ _ _)
    · exact (keepsReads_enter i j h s _).trans (keepsReads_enqueue _ _ _)
  · exact keepsReads_enter i j h s _

theorem keepsReads_completeListener (i j : Slot) (h : i ≠ j) (s : State) (n : PlayerIx) (c : Option PlaylistFault) :
    KeepsReads j s (s.completeListener n c i) := by
  unfold State.completeListener
  dsimp only
  split
  · refine KeepsReads.trans ?_ (keepsReads_attachOrIdle i j h _ _)
    have a : KeepsReads j s
        (s.modifyPlayer n (fun pl => { pl with listeners := pl.listeners.filter (fun k => k != i) })) := .of rfl
    exact a.trans (keepsReads_takeOutcome _ _ _)
  · exact .of rfl

theorem keepsReads_joinWaiting (i j : Slot) (h : i ≠ j) (s : State) (n : PlayerIx) :
    KeepsReads j s (s.joinWaiting n i) := by
  unfold State.joinWaiting
  split
  · rename_i p ann filler _
    refine KeepsReads.trans (t := s.leaveWaiting i filler) ?_
      ((keepsReads_enter i j h _ (.playing p ann n ann.listens ((s.leaveWaiting i filler).player n).underruns)).trans
        (.of rfl))
    unfold State.leaveWaiting State.leaveQueue State.releaseFiller
    cases filler with
    | none => exact .of rfl
    | some g => exact .of (by simp)
  · exact .of rfl

theorem keepsReads_player (j : Slot) (s : State) (n : PlayerIx) : KeepsReads j s (s.withdraw (readOfPlayer n)) := by
  intro q k w
  refine withdraw_waiting _ _ _ w ?_
  unfold readOfPlayer
  cases hk : q.kind <;> simp_all [OwnKind.player?, OwnKind.slot?]

theorem keepsReads_releasePlayer (j : Slot) (s : State) (n : PlayerIx) : KeepsReads j s (s.releasePlayer n) := by
  unfold State.releasePlayer State.allocate State.bindPlayer State.freePlayer
  split
  · exact (keepsReads_player j s n).trans (.of rfl)
  · exact (((keepsReads_player j s n).trans (.of rfl)).trans
      ((keepsReads_player j _ n).trans (.of rfl))).trans (keepsReads_enqueue _ _ _)

/-- An attach, whatever follows it that leaves the slot and its reads alone. -/
theorem attach_begun (s : State) (j : Slot) (p : Program) (h : p.val < s.limit) : AttachBegun s (s.attach j p) j p := by
  rw [attach_below s j p h]
  exact ⟨(enter_state _ _ _).1, _, .inl (by simp [State.enqueue]; exact .inr rfl), rfl, rfl, rfl, rfl⟩

theorem AttachBegun.after {s t u : State} {j : Slot} {q : Program} (h : AttachBegun s t j q) (e : u.slot j = t.slot j)
    (k : KeepsReads j t u) : AttachBegun s u j q := by
  obtain ⟨a, r, w, b, c, d⟩ := h
  exact ⟨by rw [e]; exact a, r, k r (by rw [b]; rfl) w, b, by rw [e]; exact c, d⟩

theorem AfterTaken.after {s t u : State} {j : Slot} {ann : AnnFields} (h : AfterTaken s t j ann) (e : u.slot j = t.slot j)
    (k : KeepsReads j t u) : AfterTaken s u j ann :=
  ⟨fun a => by rw [e]; exact h.idle a, fun q a b => (h.attaching q a b).after e k,
    fun q a b => by rw [e]; exact h.fault q a b⟩

/-! ### Completions of listeners (R87, R118, R119) -/

/-- ANN_DONE of slot j for a stay of u underruns, with the fault that ended it or none. -/
def annRecord (s : State) (j : Slot) (p : Program) (cause : Option PlaylistFault) (u : Frame) : Outcome :=
  { slotRecord s j .annDone p (match cause with
      | some f => f.code
      | none => 0) with
    impaired := u != 0, faulted := cause.isSome, underruns := BitVec.ofNat 16 (min u.toNat 65535) }

theorem clampCount_eq (c : Frame) : clampCount c = BitVec.ofNat 16 (min c.toNat 65535) := by
  unfold clampCount
  apply BitVec.eq_of_toNat_eq
  split
  · simp; omega
  · simp [BitVec.toNat_setWidth]; omega

/-- The slots of `l`, which are all PLAYING, have completed at player n, in their order. -/
structure CompletedBy (n : PlayerIx) (cause : Option PlaylistFault) (l : List Slot) (s t : State) : Prop where
  after : ∀ j ∈ l, ∀ p ann m r mark, (s.slot j).state = .playing p ann m r mark → AfterTaken s t j ann
  record : ∀ older j newer, l = older ++ j :: newer → ∀ p ann m r mark,
    (s.slot j).state = .playing p ann m r mark → (∀ q, ann.after = some q → q.val < s.limit) →
    HandedOver s t (s.recordsOf older) (annRecord s j p cause ((s.player n).underruns - mark))
  others : ∀ j, j ∉ l → t.slot j = s.slot j
  queue : t.queue = s.queue
  fm : t.fm = s.fm
  boot : t.boot = s.boot
  player : t.player n = { s.player n with listeners := (s.player n).listeners.filter (fun i => !l.contains i) }
  players : ∀ i, i ≠ n → t.player i = s.player i
  calm : ∀ i, i ∉ l → CalmBut (s.recordsOf l) (slotSource i) s t
  reads : ∀ i, i ∉ l → KeepsReads i s t

theorem completeListener_completed (s : State) (n : PlayerIx) (cause : Option PlaylistFault) (j : Slot) (p : Program)
    (ann : AnnFields) (m : PlayerIx) (r : Nat) (mark : Frame) (h : (s.slot j).state = .playing p ann m r mark) :
    CompletedBy n cause [j] s (s.completeListener n cause j) := by
  obtain ⟨a, ha⟩ : ∃ a, a = s.modifyPlayer n (fun pl =>
    { pl with listeners := pl.listeners.filter (fun i => i != j) }) := ⟨_, rfl⟩
  obtain ⟨o, ho⟩ : ∃ o, o = annRecord s j p cause ((s.player n).underruns - mark) := ⟨_, rfl⟩
  obtain ⟨b, hb⟩ : ∃ b, b = a.takeOutcome o := ⟨_, rfl⟩
  have e : s.completeListener n cause j = b.attachOrIdle j ann.after := by
    unfold State.completeListener; dsimp only; rw [h]; simp only
    rw [hb, ha, ho]; unfold annRecord slotRecord; simp only [clampCount_eq]; rfl
  have os : o.source = slotSource j := by rw [ho]; rfl
  have bs : ∀ i, b.slot i = s.slot i := by intro i; rw [hb, takeOutcome_slot, ha]; rfl
  have bb : b.boot = s.boot := by rw [hb, takeOutcome_boot, ha]; rfl
  have bl : b.limit = s.limit := by unfold State.limit; rw [bb]
  have pend : a.isPending o.source = s.isPending (slotSource j) := by rw [ha, os]; rfl
  have quiet : ∀ src, CalmBut 0 src s a := by
    intro src; rw [ha]; exact .quiet (.of rfl rfl rfl) rfl rfl
  have bp : ∀ i, (s.completeListener n cause j).player i = a.player i := by
    intro i; rw [e, ← show b.player i = a.player i by rw [hb, takeOutcome_player]]; unfold State.player; simp
  refine ⟨?_, ?_, ?_, by rw [e]; simp [hb, ha], by rw [e]; simp [hb, ha], by rw [e]; simp [bb], ?_, ?_, ?_,
    fun i hi => keepsReads_completeListener j i (fun c => hi (by simp [c])) _ _ _⟩
  · intro i hi p' ann' m' r' mark' h'
    rw [List.mem_singleton] at hi; subst hi
    rw [h] at h'; cases h'
    refine ⟨fun hn => ?_, fun q hq hl => ?_, fun q hq hl => ?_⟩
    · rw [e, hn]; exact (enter_state _ _ _).1
    · rw [e, hq]
      have := attach_begun b i q (by omega)
      unfold AttachBegun State.programBase at this ⊢
      rw [bb] at this
      exact this
    · rw [e, hq, State.attachOrIdle, attach_slot, if_pos (by omega)]; exact (enter_state _ _ _).1
  · intro older i newer hi p' ann' m' r' mark' h' hl
    cases older with
    | cons x xs => simp at hi
    | nil =>
      obtain ⟨rfl, -⟩ := List.cons.inj hi
      rw [h] at h'; cases h'
      have bh : HandedOver s b 0 o := by
        have := HandedOver.before (quiet _) (takeOutcome_handedOver a o)
        rw [Nat.zero_add, ← hb] at this
        exact this
      rw [← ho]
      apply HandedOver.after bh
      rw [e]; unfold State.attachOrIdle
      split
      · rename_i q hq
        rw [attach_below _ _ _ (by rw [bl]; exact hl q hq)]
        exact (calm_enter _ _ _ _).trans (calm_enqueue _ _ _)
      · exact calm_enter _ _ _ _
  · intro i hi
    rw [List.mem_singleton] at hi
    rw [e]; unfold State.attachOrIdle; split
    · rw [attach_slot, enter_slot, if_neg hi, bs]
    · rw [enter_slot, if_neg hi, bs]
  · rw [bp, ha, State.modifyPlayer_player_same]; congr 1
    apply List.filter_congr; intro x _; rw [Bool.eq_iff_iff]; simp only [bne_iff_ne, List.contains_cons, List.contains_nil, Bool.or_false, Bool.not_eq_true', beq_eq_false_iff_ne]
  · intro i hi; rw [bp, ha, State.modifyPlayer_player_ne _ _ _ _ hi]
  · intro i hi
    have ne : j ≠ i := fun c => hi (by simp [c])
    have c2 := calmBut_takeOutcome (slotSource i) a o (by rw [os]; exact slotSource_ne j i ne)
    rw [← hb, pend] at c2
    have c3 : CalmBut 0 (slotSource i) b (b.attachOrIdle j ann.after) := by
      unfold State.attachOrIdle; split
      · refine calmBut_attach j i ne b _ fun hacc => ?_
        rw [hb, ← os]
        exact takeOutcome_isPending a o (by rw [ha]; rw [bb] at hacc; exact hacc)
      · exact calmBut_enter _ _ _ _
    have t := ((quiet _).trans c2).trans c3
    rw [e]
    have count : 0 + (if s.isPending (slotSource j) = true then 0 else 1) + 0 = s.recordsOf [j] := by
      unfold State.recordsOf; cases h : s.isPending (slotSource j) <;> simp [h]
    rw [count] at t
    exact t

/-- A run of completions, one for each playing slot. -/
theorem completeListeners_completed (n : PlayerIx) (cause : Option PlaylistFault) (l : List Slot) : ∀ s : State, l.Nodup →
    (∀ j ∈ l, ∃ p ann m r mark, (s.slot j).state = .playing p ann m r mark) →
    CompletedBy n cause l s (l.foldl (fun u j => u.completeListener n cause j) s) := by
  induction l with
  | nil => exact fun s _ _ => ⟨fun _ h => (by cases h), fun o j w h => (by simp at h), fun _ _ => rfl, rfl, rfl, rfl, by simp,
      fun _ _ => rfl, fun _ _ => .quiet (.refl _ _) rfl rfl, fun _ _ => .of rfl⟩
  | cons a l ih =>
    intro s nd hw
    obtain ⟨p, ann, m, r, mark, ha⟩ := hw a (by simp)
    have B := completeListener_completed s n cause a p ann m r mark ha
    rw [List.nodup_cons] at nd
    have ne : ∀ j ∈ l, j ∉ [a] := by rintro j hj h; rw [List.mem_singleton] at h; subst h; exact nd.1 hj
    have I := ih (s.completeListener n cause a) nd.2 (fun j hj => by
      rw [B.others j (ne j hj)]; exact hw j (by simp [hj]))
    have lim : (s.completeListener n cause a).limit = s.limit := by unfold State.limit; rw [B.boot]
    rw [List.foldl_cons]
    have base : (s.completeListener n cause a).programBase = s.programBase := by unfold State.programBase; rw [B.boot]
    refine ⟨?_, ?_, ?_, I.queue.trans B.queue, I.fm.trans B.fm, I.boot.trans B.boot, ?_, ?_, ?_, ?_⟩
    · intro j hj p' ann' m' r' mark' h
      rcases List.mem_cons.1 hj with rfl | hj'
      · exact (B.after j (by simp) p' ann' m' r' mark' h).after (I.others _ nd.1) (I.reads j nd.1)
      · have := I.after j hj' p' ann' m' r' mark' (by rw [B.others j (ne j hj')]; exact h)
        exact ⟨this.idle, fun q a b => by
          have := this.attaching q a (by omega)
          unfold AttachBegun at *; rw [← base]; exact this, fun q a b => this.fault q a (by omega)⟩
    · intro older j newer hl p' ann' m' r' mark' h hafter
      cases older with
      | nil =>
        obtain ⟨rfl, rfl⟩ := List.cons.inj hl
        exact HandedOver.after (B.record [] a [] rfl p' ann' m' r' mark' h hafter) (I.calm a nd.1).calm
      | cons x older' =>
        obtain ⟨rfl, hl'⟩ := List.cons.inj hl
        have hj' : j ∈ l := by rw [hl']; simp
        have ho : ∀ i ∈ older', i ∈ l := fun i hi => by rw [hl']; simp [hi]
        have := I.record older' j newer hl' p' ann' m' r' mark' (by rw [B.others j (ne j hj')]; exact h)
          (by rw [lim]; exact hafter)
        have e : annRecord (s.completeListener n cause a) j p' cause
              (((s.completeListener n cause a).player n).underruns - mark')
            = annRecord s j p' cause ((s.player n).underruns - mark') := by
          unfold annRecord slotRecord; rw [B.fm, B.player]
        rw [e, recordsOf_congr older' fun i hi => (B.calm i (ne i (ho i hi))).calm.pend] at this
        rw [recordsOf_cons]
        exact HandedOver.before (B.calm j (ne j hj')) this
    · intro j hj; simp only [List.mem_cons, not_or] at hj
      rw [I.others j hj.2, B.others j (by simpa using hj.1)]
    · rw [I.player, B.player]; simp only [List.filter_filter]
      congr 1
      apply List.filter_congr
      intro x _; simp [Bool.and_comm]
    · intro i hi; rw [I.players i hi, B.players i hi]
    · intro i hi; simp only [List.mem_cons, not_or] at hi
      have := (B.calm i (by simpa using hi.1)).trans (I.calm i hi.2)
      rw [recordsOf_congr l fun k hk => (B.calm k (ne k hk)).calm.pend, ← recordsOf_cons] at this
      exact this
    · intro i hi; simp only [List.mem_cons, not_or] at hi
      exact (B.reads i (by simpa using hi.1)).trans (I.reads i hi.2)

/-! ### The walker (R129, R130, R140) -/

theorem modifyWalker_player (s : State) (n : PlayerIx) (f : Walker → Walker) :
    (s.modifyWalker n f).player n = { s.player n with walker := f (s.player n).walker } := by
  unfold State.modifyWalker; rw [State.modifyPlayer_player_same]

theorem setNext_reached (s : State) (n : PlayerIx) (o : Nat) (h : o % 2 = 0) (b : o + 8 ≤ s.storeSize) :
    s.setNext n o = (s.modifyWalker n (fun w => { w with next := .fetching o })).enqueue
      (ownRead (.stepFetch n) (s.player n).gen (s.storeBase + BitVec.ofNat 24 o) 4) := by
  unfold State.setNext stepFault
  rw [if_neg (by omega), if_neg (by omega)]

theorem walk_still (s : State) (n : PlayerIx) (k : Nat) (h : s.walkOnce n = none) : State.walk n k s = s := by
  cases k with
  | zero => rfl
  | succ k => unfold State.walk; rw [h]

theorem primed_running (s : State) (n : PlayerIx) (h : (s.player n).state = .running) : s.primed n = s := by
  unfold State.primed walkBound State.takePriming
  rw [h]

/-- `t` differs from `s` at most in player n and in the request queue. -/
structure OnlyPlayer (n : PlayerIx) (s t : State) : Prop where
  slots : t.slots = s.slots
  gens : t.gens = s.gens
  refetch : t.refetch = s.refetch
  queue : t.queue = s.queue
  rrw : t.rrw = s.rrw
  boot : t.boot = s.boot
  players : ∀ m, m ≠ n → t.player m = s.player m

theorem OnlyPlayer.refl (n : PlayerIx) (s : State) : OnlyPlayer n s s := ⟨rfl, rfl, rfl, rfl, rfl, rfl, fun _ _ => rfl⟩

theorem OnlyPlayer.trans {n : PlayerIx} {s t u : State} (a : OnlyPlayer n s t) (b : OnlyPlayer n t u) : OnlyPlayer n s u :=
  ⟨b.1.trans a.1, b.2.trans a.2, b.3.trans a.3, b.4.trans a.4, b.5.trans a.5, b.6.trans a.6,
    fun m h => (b.7 m h).trans (a.7 m h)⟩

theorem onlyPlayer_setPlayer (s : State) (n : PlayerIx) (x : Player) : OnlyPlayer n s (s.setPlayer n x) :=
  ⟨rfl, rfl, rfl, rfl, rfl, rfl, fun _ h => State.setPlayer_player_ne _ _ _ _ h⟩

theorem onlyPlayer_enqueue {n : PlayerIx} {s t : State} (a : OnlyPlayer n s t) (q : OwnRequest) :
    OnlyPlayer n s (t.enqueue q) :=
  ⟨a.1, a.2, a.3, a.4, a.5, a.6, a.7⟩

theorem onlyPlayer_setNext (s : State) (n : PlayerIx) (o : Nat) : OnlyPlayer n s (s.setNext n o) := by
  unfold State.setNext; split
  · exact onlyPlayer_setPlayer _ _ _
  · exact onlyPlayer_enqueue (onlyPlayer_setPlayer _ _ _) _

/-- The walker's moves reach their own player and the request queue alone. -/
theorem onlyPlayer_walk (n : PlayerIx) (k : Nat) : ∀ s : State, OnlyPlayer n s (State.walk n k s) := by
  have promote : ∀ s t : State, s.promote n = some t → OnlyPlayer n s t := by
    intro s t h
    unfold State.promote at h; dsimp only at h
    split at h
    · cases h
    · cases h
    · cases h; exact onlyPlayer_setPlayer _ _ _
    · split at h
      · cases h; exact (onlyPlayer_setPlayer _ _ _).trans (onlyPlayer_setNext _ _ _)
      · cases h; exact onlyPlayer_setPlayer _ _ _
      · cases h
  have place : ∀ s t : State, s.place n = some t → OnlyPlayer n s t := by
    intro s t h
    unfold State.place at h; dsimp only at h
    split at h <;> cases h
    · exact onlyPlayer_enqueue (onlyPlayer_setPlayer _ _ _) _
    all_goals exact onlyPlayer_setPlayer _ _ _
  induction k with
  | zero => exact fun s => .refl _ _
  | succ k ih =>
    intro s; unfold State.walk
    split
    · exact .refl _ _
    · rename_i t h
      refine OnlyPlayer.trans ?_ (ih t)
      unfold State.walkOnce at h; dsimp only at h
      split at h
      · exact place _ _ h
      · split at h
        · exact promote _ _ h
        · cases h

end Sys2Proof.Machine
end

