-- ==== Sys2Proof/Laws/Time.lean ====
section
/-! SUPPORT. Laws/Time.lean: what the ends of timers and the passing of time leave unchanged, what an expiry does
to the Frame Monitor, and that no time holds more than three expiries (R28, R32 to R34). -/

namespace Sys2Proof.Machine

/-! ### What is kept -/

/-- The command queue, the pairing register, the Boot Loader, the Frame Monitor and TG15's refetch are as they were. -/
structure ControlKept (s t : State) : Prop where
  pending : t.pending = s.pending
  pairing : t.pairing = s.pairing
  boot : t.boot = s.boot
  fm : t.fm = s.fm
  refetch : t.refetch = s.refetch

theorem ControlKept.refl (s : State) : ControlKept s s := ⟨rfl, rfl, rfl, rfl, rfl⟩

theorem ControlKept.trans {s t u : State} (a : ControlKept s t) (b : ControlKept t u) : ControlKept s u :=
  ⟨b.1.trans a.1, b.2.trans a.2, b.3.trans a.3, b.4.trans a.4, b.5.trans a.5⟩

theorem Moves.controlKept {s t : State} (m : Moves s t) : ControlKept s t :=
  ⟨m.servingOnly.1, m.servingOnly.3, m.servingOnly.4, m.servingOnly.5, m.servingOnly.6⟩

theorem controlKept_finish (s : State) : ControlKept s s.finish := ⟨by simp, by simp, by simp, by simp, by simp⟩

theorem ControlKept.foldl {α : Type} (f : State → α → State) (h : ∀ s a, ControlKept s (f s a)) (l : List α) :
    ∀ s, ControlKept s (l.foldl f s) := by
  induction l with
  | nil => exact ControlKept.refl
  | cons a l ih => exact fun s => (h s a).trans (ih _)

theorem controlKept_takeTimeouts (k : Nat) : ∀ s : State, ControlKept s (State.takeTimeouts k s) := by
  induction k with
  | zero => exact ControlKept.refl
  | succ k ih =>
    intro s; unfold State.takeTimeouts; split
    · exact ((moves_takeTimeout s).controlKept.trans (controlKept_finish _)).trans (ih _)
    · exact .refl s

/-- Taking the ends changes of all these the flag alone that says they wait (log 4). -/
theorem takeEnds_kept (s : State) : ControlKept (s.withFm { s.fm with endsOpen := false }) s.takeEnds := by
  unfold State.takeEnds
  split
  · dsimp only
    refine ControlKept.trans ?_ (controlKept_takeTimeouts _ _)
    refine ControlKept.trans ?_
      (ControlKept.foldl _ (fun s j => (moves_takeDwell s j).controlKept.trans (controlKept_finish _)) _ _)
    refine ControlKept.trans ?_ (ControlKept.foldl _ (fun s n => (moves_closeWindow s n).controlKept) _ _)
    exact ControlKept.foldl _ (fun s n => (moves_endCadenceStep s n).controlKept) _ _
  · rename_i h
    have : s.withFm { s.fm with endsOpen := false } = s := by
      simp at h
      unfold State.withFm; rw [← h]
    rw [this]; exact .refl s

theorem settled_takeEnds (s : State) : s.takeEnds.Settled := by
  unfold State.Settled; rw [(takeEnds_kept s).fm]; rfl

theorem takeEnds_takeEnds (s : State) : s.takeEnds.takeEnds = s.takeEnds := takeEnds_settled _ (settled_takeEnds s)

/-! ### Expiries -/

/-- The expiries that the timer can still meet before it counts on without one: three from LOCKED, two or one in
HOLDOVER, one in LOCKING (R32 to R34). -/
def FrameMonitor.expiriesLeft (m : FrameMonitor) : Nat :=
  match m.lock with
  | .unlocked => 0
  | .locking => 1
  | .locked => 3
  | .holdover => if m.misses ≤ 1 then 2 else 1
  | .stalled => 0

theorem FrameMonitor.expiriesLeft_le (m : FrameMonitor) : m.expiriesLeft ≤ 3 := by
  unfold FrameMonitor.expiriesLeft; split <;> (try split) <;> omega

theorem FrameMonitor.untilExpiry_none (m : FrameMonitor) (h : m.expiriesLeft = 0) : m.untilExpiry = none := by
  unfold FrameMonitor.expiriesLeft at h
  unfold FrameMonitor.untilExpiry
  cases hl : m.lock <;> simp only [hl] at h <;> (try split at h) <;>
    (try omega) <;> cases m.timer <;> rfl

/-- What an expiry makes of the Frame Monitor, by the lock state (Table 3-3). -/
def FrameMonitor.afterExpiry (m : FrameMonitor) : FrameMonitor :=
  match m.lock with
  | .unlocked => m
  | .locking => { m with lock := .unlocked, onTime := 0, misses := 0 }
  | .locked => { m with lock := .holdover, misses := 1, frame := m.frame + 1, timer := some 0 }
  | .holdover =>
    if m.misses ≤ 1 then { m with misses := 2, frame := m.frame + 1, timer := some 0 }
    else { m with lock := .stalled, misses := 3, stallReported := true }
  | .stalled => m

theorem handMark_kept (s : State) (order : List MarkTask) (h : s.fm.endsOpen = true) : ControlKept s (s.handMark order) :=
  (moves_handMark s order h).controlKept

theorem expire_fm (s : State) (h : s.fm.atExpiry = true) :
    s.expire.fm = { s.fm.afterExpiry with endsOpen := false } := by
  unfold State.expire
  rw [(takeEnds_kept _).fm, State.withFm_fm, finish_fm]
  unfold FrameMonitor.afterExpiry State.windowExpired State.flywheelExpired
  cases hl : s.fm.lock <;> simp only [h, if_true]
  · rfl
  · unfold State.flywheelMark; rw [(handMark_kept _ _ rfl).fm]; rfl
  · split
    · unfold State.flywheelMark; rw [(handMark_kept _ _ rfl).fm]
      show ({ s.fm.mark with lock := .holdover, misses := 2, endsOpen := false } : FrameMonitor) = _
      rw [← hl]; rfl
    · unfold State.stall State.deviceOutcome; rw [takeOutcome_fm]; rfl

/-- An expiry leaves the Boot Loader, the pairing register, TG15's refetch and the commands alone. -/
theorem expire_kept (s : State) : ControlKept (s.withFm s.expire.fm) s.expire := by
  have mark : ∀ k l, ControlKept (s.withFm (s.flywheelMark k l).fm) (s.flywheelMark k l) := by
    intro k l
    have := handMark_kept (s.modifyFm fun m => { m.mark with lock := .holdover, misses := k }) l rfl
    exact ⟨this.pending, this.pairing, this.boot, rfl, this.refetch⟩
  have window : ControlKept (s.withFm (s.windowExpired []).fm) (s.windowExpired []) := by
    unfold State.windowExpired
    split
    · split
      · exact ⟨rfl, rfl, rfl, rfl, rfl⟩
      · exact mark 1 []
      all_goals exact .refl _
    · exact .refl _
  have flywheel : ControlKept (s.withFm (s.flywheelExpired []).fm) (s.flywheelExpired []) := by
    unfold State.flywheelExpired
    split
    · split
      · split
        · exact mark 2 []
        · unfold State.stall State.deviceOutcome
          exact ⟨takeOutcome_pending _ _, takeOutcome_pairing _ _, takeOutcome_boot _ _, rfl, takeOutcome_refetch _ _⟩
      all_goals exact .refl _
    · exact .refl _
  have ends : ∀ t : State, ControlKept (s.withFm t.fm) t →
      ControlKept (s.withFm t.finish.takeEnds.fm) t.finish.takeEnds := by
    intro t h
    have a := controlKept_finish t
    have b := takeEnds_kept t.finish
    exact ⟨b.pending.trans (a.pending.trans h.pending), b.pairing.trans (a.pairing.trans h.pairing),
      b.boot.trans (a.boot.trans h.boot), rfl, b.refetch.trans (a.refetch.trans h.refetch)⟩
  unfold State.expire
  split
  · exact ends _ flywheel
  · exact ends _ window
  · exact ends _ window
  all_goals exact ends s (.refl _)

theorem FrameMonitor.afterExpiry_left (m : FrameMonitor) (h : 0 < m.expiriesLeft) :
    m.afterExpiry.expiriesLeft < m.expiriesLeft := by
  unfold FrameMonitor.expiriesLeft at h
  cases hl : m.lock <;> simp only [hl] at h
  · omega
  · simp [FrameMonitor.afterExpiry, FrameMonitor.expiriesLeft, hl]
  · simp [FrameMonitor.afterExpiry, FrameMonitor.expiriesLeft, hl]
  · by_cases c : m.misses ≤ 1 <;> simp [FrameMonitor.afterExpiry, FrameMonitor.expiriesLeft, hl, c]
  · omega

/-! ### Counting -/

theorem count_atExpiry (s : State) (r : Nat) (h : s.fm.untilExpiry = some r) : (s.count r).fm.atExpiry = true := by
  unfold FrameMonitor.untilExpiry at h
  show (FrameMonitor.untilExpiry { s.fm with timer := s.fm.timer.map (· + r) } == some 0) = true
  unfold FrameMonitor.untilExpiry
  cases ht : s.fm.timer with
  | none => rw [ht] at h; cases h
  | some t =>
    cases he : expiryCount s.fm.lock with
    | none => rw [ht, he] at h; cases h
    | some e =>
      rw [ht, he] at h; cases h
      simp only [Option.map_some, beq_iff_eq, Option.some.injEq]; omega

theorem count_left (s : State) (n : Nat) : (s.count n).fm.expiriesLeft = s.fm.expiriesLeft := rfl

/-- An expiry leaves fewer to come. -/
theorem expire_left (s : State) (r : Nat) (h : s.fm.untilExpiry = some r) :
    (s.count r).expire.fm.expiriesLeft < s.fm.expiriesLeft := by
  rw [expire_fm _ (count_atExpiry s r h)]
  refine FrameMonitor.afterExpiry_left (s.count r).fm ?_
  rw [count_left]
  by_contra c
  rw [s.fm.untilExpiry_none (by omega)] at h; cases h

/-! ### Time -/

/-- A law that counting short of an expiry keeps, and an expiry keeps, is kept by the passing of time. -/
theorem passTime_keeps {P : State → State → Prop} (refl : ∀ s n, (∀ r, s.fm.untilExpiry = some r → n ≤ r) → P s (s.count n))
    (trans : ∀ s t u, P s t → P t u → P s u) (expire : ∀ s, s.fm.atExpiry = true → P s s.expire) (k : Nat) :
    ∀ (n : Nat) (s : State), s.fm.expiriesLeft ≤ k → P s (State.passTime k n s) := by
  induction k with
  | zero =>
    intro n s h; unfold State.passTime
    refine refl s n fun r e => ?_
    rw [s.fm.untilExpiry_none (by omega)] at e; cases e
  | succ k ih =>
    intro n s h; unfold State.passTime
    split
    · exact refl s n fun r e => by simp_all
    · rename_i r e
      split
      · exact refl s n fun q f => by simp_all
      · refine trans _ _ _ (trans _ _ _ (refl s r fun q f => by simp_all) (expire _ (count_atExpiry s r e))) (ih _ _ ?_)
        have := expire_left s r e
        omega

theorem tick_keeps {P : State → State → Prop} (refl : ∀ s n, (∀ r, s.fm.untilExpiry = some r → n ≤ r) → P s (s.count n))
    (trans : ∀ s t u, P s t → P t u → P s u) (expire : ∀ s, s.fm.atExpiry = true → P s s.expire) (s : State) (n : Nat) :
    P s (s.tick n) := passTime_keeps refl trans expire 3 n s s.fm.expiriesLeft_le

/-- The passing of time leaves the Boot Loader, the pairing register, TG15's refetch and the commands alone. -/
theorem tick_control (s : State) (n : Nat) : (s.tick n).boot = s.boot ∧ (s.tick n).pending = s.pending ∧
    (s.tick n).pairing = s.pairing ∧ (s.tick n).refetch = s.refetch :=
  tick_keeps (P := fun s t => t.boot = s.boot ∧ t.pending = s.pending ∧ t.pairing = s.pairing ∧ t.refetch = s.refetch)
    (fun _ _ _ => ⟨rfl, rfl, rfl, rfl⟩)
    (fun _ _ _ a b => ⟨b.1.trans a.1, b.2.1.trans a.2.1, b.2.2.1.trans a.2.2.1, b.2.2.2.trans a.2.2.2⟩)
    (fun s _ => ⟨(expire_kept s).boot, (expire_kept s).pending, (expire_kept s).pairing, (expire_kept s).refetch⟩) s n

/-- Time that ends at or before the timer's expiry count is counted and does nothing else. -/
theorem tick_short (s : State) (n : Nat) (h : ∀ r, s.fm.untilExpiry = some r → n ≤ r) : s.tick n = s.count n := by
  unfold State.tick State.passTime
  split
  · rfl
  · rename_i r e; rw [if_pos (h r e)]

/-- Time passes a settled state into a settled one. -/
theorem tick_settled (s : State) (n : Nat) (h : s.Settled) : (s.tick n).Settled :=
  tick_keeps (P := fun s t => s.Settled → t.Settled) (fun _ _ _ => id) (fun _ _ _ a b => b ∘ a)
    (fun s _ _ => by unfold State.expire; exact settled_takeEnds _) s n h

end Sys2Proof.Machine
end

