-- ==== Sys2Proof/Laws/Steps.lean ====
section
/-! SUPPORT. Laws/Steps.lean: what a step can do, said once. Every step of the part is a sequence of the changes
below; a law that each change keeps is kept by every step. -/

namespace Sys2Proof.Machine

/-! ### Changes -/

/-- An event of the serving blocks: a watched store or an answer in RUN, a completed fetch, a mark at one block, or
the end of a timer. -/
inductive Serving : State → State → Prop where
  | connection (s : State) (j : Slot) (d : Word) (b : Strobes) (h : s.boot.device = .run) :
    Serving s (s.connectionTaken j d b)
  | adoption (s : State) (j : Slot) (d : Word) (h : s.boot.device = .run) : Serving s (s.adoptionChecked j d)
  | staleGenerators (s : State) (p : Program) (h : s.boot.device = .run) : Serving s (s.staleGenerators p)
  | stalePlayer (s : State) (p : Program) (n : PlayerIx) (h : s.boot.device = .run) : Serving s (s.stalePlayer p n)
  | attach (s : State) (j : Slot) (p : Program) (g : Option Generation) (b : Bool) (ws : List Word) :
    Serving s (s.attachDone j p g b ws)
  | filler (s : State) (j : Slot) (f : Program) (g : Option Generation) (b : Bool) (ws : List Word) :
    Serving s (s.fillerDone j f g b ws)
  | binding (s : State) (n : PlayerIx) (p : Program) (g : Option Generation) (b : Bool) (ws : List Word) :
    Serving s (s.bindingDone n p g b ws)
  | step (s : State) (n : PlayerIx) (g : Option Generation) (ws : List Word) : Serving s (s.stepDone n g ws)
  | fill (s : State) (n : PlayerIx) (h : HalfName) (g : Option Generation) (ws : List Word) :
    Serving s (s.fillDone n h g ws)
  | tones (s : State) : Serving s s.markTones
  | player (s : State) (n : PlayerIx) (h : s.fm.endsOpen = true) : Serving s (s.markPlayer n)
  | dwell (s : State) (j : Slot) : Serving s (s.takeDwell j)
  | timeout (s : State) : Serving s s.takeTimeout
  | window (s : State) (n : PlayerIx) : Serving s (s.closeWindow n)
  | cadence (s : State) (g : GenIx) : Serving s (s.endCadenceStep g)

theorem Serving.moves {s t : State} (h : Serving s t) : Moves s t := by
  cases h with
  | connection j d b _ => exact moves_connectionTaken _ _ _ _
  | adoption j d _ => exact moves_adoptionChecked _ _ _
  | staleGenerators p _ => exact moves_staleGenerators _ _
  | stalePlayer p n _ => exact moves_stalePlayer _ _ _
  | attach j p g b ws => exact moves_attachDone _ _ _ _ _ _
  | filler j f g b ws => exact moves_fillerDone _ _ _ _ _ _
  | binding n p g b ws => exact moves_bindingDone _ _ _ _ _ _
  | step n g ws => exact moves_stepDone _ _ _ _
  | fill n h g ws => exact moves_fillDone _ _ _ _ _
  | tones => exact moves_markTones _
  | player n h => exact moves_markPlayer _ _ h
  | dwell j => exact moves_takeDwell _ _
  | timeout => exact moves_takeTimeout _
  | window n => exact moves_closeWindow _ _
  | cadence g => exact moves_endCadenceStep _ _

/-- One change of the part. -/
inductive Change : State → State → Prop where
  | serving {s t : State} (h : Serving s t) : Change s t
  | pending (s : State) (x : List Instr) : Change s (s.withPending x)
  | bus (s : State) (x : Bus) : Change s (s.withBus x)
  | pairing (s : State) (x : Option Slot) (h : x = none ∨ s.boot.device = .run) : Change s (s.withPairing x)
  | fm (s : State) (x : FrameMonitor) (h : s.fm.Lawful → x.Lawful)
      (w : s.WindowsLatched → (s.withFm x).WindowsLatched) : Change s (s.withFm x)
  | device (s : State) (o : Outcome) (h : o.source = deviceSource) : Change s (s.takeOutcome o)
  | startRefetch (s : State) (a : Addr) (c : Program) : Change s (s.startRefetch a c)
  | refetch (s : State) (c : Program) (g : Option Generation) (ws : List Word) : Change s (s.refetchDone c g ws)
  | choose (s : State) : Change s s.choose
  | start (s : State) (r : OwnRequest) (h : s.mra.chosen = some r) (u : s.mra.underWay = none) :
    Change s (s.withMra { s.mra with chosen := none, underWay := some r })
  | underWay (s : State) (r x : OwnRequest) (h : s.mra.underWay = some r) (k : x.kind = r.kind) (a : x.addr = r.addr)
      (d : x.drain = r.drain) : Change s (s.withMra { s.mra with underWay := some x })
  | delivered (s : State) (r : OwnRequest) (h : s.LastWordOf r) (k : r.kind.isServing = true) : Change s s.delivered
  | report (s : State) (r : OwnRequest) (src : Source) (h : s.LastWordOf r) (k : r.kind = .reportWrite src) :
    Change s (s.delivered.reportDone src)
  | loading (s : State) (r : OwnRequest) (h : s.LastWordOf r) (k : r.kind = .statusWrite .loading) :
    Change s s.delivered.loadingWritten
  | record (s : State) (r : OwnRequest) (ws : List Word) (h : s.LastWordOf r) (k : r.kind = .bootRead) :
    Change s (s.delivered.recordRead r.gen ws)
  | congestion (s : State) (r : OwnRequest) (ws : List Word) (h : s.LastWordOf r) (k : r.kind = .congestionFetch) :
    Change s (s.delivered.congestionFetched r.gen ws)
  | cleared (s : State) (r : OwnRequest) (n : Nat) (h : s.LastWordOf r) (k : r.kind = .ringClear n) :
    Change s (s.delivered.recordCleared n)
  | run (s : State) (r : OwnRequest) (h : s.LastWordOf r) (k : r.kind = .statusWrite .running) :
    Change s s.delivered.enterRun
  | bypass (s : State) (r : OwnRequest) (c : StatusCode) (h : s.LastWordOf r) (k : r.kind = .statusWrite c)
      (f : c.isFailure = true) : Change s s.delivered.enterBypass
  | consumer (s : State) (d : Word) (b : Strobes) (r : BootRecord) (h : s.boot.accepted = some r) :
    Change s (s.consumerTaken d b)
  | reload (s : State) : Change s s.reload
  | reset (s : State) (b : Byte) : Change s (State.released b s.pending)

/-- A sequence of changes. -/
inductive Changes : State → State → Prop where
  | refl (s : State) : Changes s s
  | step {s t u : State} (a : Changes s t) (b : Change t u) : Changes s u

theorem Changes.one {s t : State} (a : Change s t) : Changes s t := .step (.refl s) a

theorem Changes.trans {s t u : State} (a : Changes s t) (b : Changes t u) : Changes s u := by
  induction b with
  | refl => exact a
  | step _ m ih => exact .step ih m

theorem Changes.foldl {α : Type} (f : State → α → State) (h : ∀ s a, Changes s (f s a)) (l : List α) :
    ∀ s, Changes s (l.foldl f s) := by
  induction l with
  | nil => exact Changes.refl
  | cons a l ih => exact fun s => (h s a).trans (ih _)

/-- What every change keeps, every sequence of changes keeps. -/
theorem Changes.keeps {P : State → Prop} (h : ∀ s t, Change s t → P s → P t) {s t : State} (m : Changes s t)
    (hs : P s) : P t := by
  induction m with
  | refl => exact hs
  | step _ b ih => exact h _ _ b ih

/-! ### The ends of an event -/

theorem changes_serving {s t : State} (h : Serving s t) : Changes s t := .one (.serving h)

theorem changes_finish (s : State) : Changes s s.finish := by
  refine Changes.trans (.one (.choose s)) ?_
  unfold State.finish
  rcases grant_cases s.choose with e | ⟨b, e, _⟩
  · rw [e]; exact .refl _
  · rw [e]; exact .one (.bus _ _)

theorem changes_timeouts (k : Nat) : ∀ s : State, Changes s (State.takeTimeouts k s) := by
  induction k with
  | zero => exact fun s => .refl s
  | succ k ih =>
    intro s; unfold State.takeTimeouts; split
    · exact ((changes_serving (.timeout s)).trans (changes_finish _)).trans (ih _)
    · exact .refl s

theorem foldl_withFm {α : Type} (x : FrameMonitor) (f : State → α → State)
    (h : ∀ s a, f (s.withFm x) a = (f s a).withFm x) (l : List α) :
    ∀ s : State, l.foldl f (s.withFm x) = (l.foldl f s).withFm x := by
  induction l with
  | nil => exact fun s => rfl
  | cons a l ih => intro s; rw [List.foldl_cons, h]; exact ih _

theorem closeWindow_withFm (x : FrameMonitor) (s : State) (n : PlayerIx) :
    (s.withFm x).closeWindow n = (s.closeWindow n).withFm x := by
  unfold State.closeWindow
  show (if (s.player n).framesLeft = 0 then _ else _) = _
  split <;> rfl

theorem closeWindow_other (s : State) (n m : PlayerIx) (h : m ≠ n) : (s.closeWindow n).player m = s.player m := by
  unfold State.closeWindow; split
  · exact State.modifyPlayer_player_ne _ _ _ _ h
  · rfl

/-- Closing windows closes those with no frames left. -/
theorem closeWindows_closed (l : List PlayerIx) : ∀ (s : State), ∀ n, n ∈ l ∨ (s.player n).framesLeft ≠ 0 ∨
    (s.player n).windowOpen = false → ((l.foldl State.closeWindow s).player n).windowOpen = true →
    ((l.foldl State.closeWindow s).player n).framesLeft ≠ 0 := by
  induction l with
  | nil => exact fun s n h o z => by rcases h with h | h | h <;> simp_all
  | cons a l ih =>
    intro s n h
    refine ih (s.closeWindow a) n ?_
    by_cases c : n = a
    · subst c
      right
      unfold State.closeWindow; split
      · rw [State.modifyPlayer_player_same]; exact .inr rfl
      · exact .inl ‹_›
    · rw [closeWindow_other s a n c]
      rcases h with h | h
      · exact .inl ((List.mem_cons.1 h).resolve_left c)
      · exact .inr h

theorem changes_takeEnds (s : State) : Changes s s.takeEnds := by
  unfold State.takeEnds
  split
  · refine Changes.trans ?_ (changes_timeouts _ _)
    refine Changes.trans ?_
      (Changes.foldl _ (fun t j => (changes_serving (.dwell t j)).trans (changes_finish _)) _ _)
    have e : allPlayers.foldl State.closeWindow (allGenerators.foldl State.endCadenceStep
          (s.modifyFm (fun m => { m with endsOpen := false })))
        = (allPlayers.foldl State.closeWindow (allGenerators.foldl State.endCadenceStep s)).withFm
          { s.fm with endsOpen := false } := by
      unfold State.modifyFm
      rw [foldl_withFm _ _ (fun s g => rfl), foldl_withFm _ _ (fun s n => closeWindow_withFm _ s n)]
    have k : (allPlayers.foldl State.closeWindow (allGenerators.foldl State.endCadenceStep s)).fm = s.fm :=
      (ControlKept.foldl _ (fun s n => (moves_closeWindow s n).controlKept) _ _).fm.trans
        (ControlKept.foldl _ (fun s n => (moves_endCadenceStep s n).controlKept) _ _).fm
    rw [e]
    refine Changes.trans (Changes.foldl _ (fun t g => changes_serving (.cadence t g)) allGenerators _) ?_
    refine Changes.trans (Changes.foldl _ (fun t n => changes_serving (.window t n)) allPlayers _) ?_
    have closed := fun n => closeWindows_closed allPlayers (allGenerators.foldl State.endCadenceStep s) n
      (.inl (by rw [allPlayers_eq]; exact List.mem_finRange n))
    generalize allPlayers.foldl State.closeWindow (allGenerators.foldl State.endCadenceStep s) = u at k closed ⊢
    exact .one (.fm u _ (fun h => by rw [k] at h; exact h) (fun h n => ⟨(h n).1, fun o z => absurd z (closed n o)⟩))
  · exact .refl s

/-! ### The Frame Monitor's laws (R28, R30 to R34) -/

theorem FrameMonitor.Lawful.counted {m : FrameMonitor} (h : m.Lawful) (n : Nat)
    (hn : ∀ r, m.untilExpiry = some r → n ≤ r) : { m with timer := m.timer.map (· + n) }.Lawful := by
  obtain ⟨a, b, c⟩ := h
  refine ⟨a, fun l => ?_, fun t e ht he => ?_⟩
  · have := b l
    cases ht : m.timer with
    | none => rw [ht] at this; cases this
    | some t => rfl
  · simp only at ht he
    cases hm : m.timer with
    | none => rw [hm] at ht; cases ht
    | some x =>
      have := c x e hm he
      have := hn (e - x) (by unfold FrameMonitor.untilExpiry; rw [hm, he])
      rw [hm] at ht; cases ht; dsimp only; omega

theorem FrameMonitor.Lawful.engineMarked {m : FrameMonitor} (h : m.Lawful) : m.engineMark.Lawful := by
  obtain ⟨a, -, -⟩ := h
  refine ⟨?_, fun _ => rfl, fun t e ht _ => ?_⟩
  · unfold FrameMonitor.engineMark lockAfter
    by_cases z : m.onTime = 0 <;> cases hl : m.lock <;> cases m.interval <;> simp_all
  · have : some 0 = some t := ht
    cases this; omega

theorem FrameMonitor.Lawful.flywheel {m : FrameMonitor} (h : m.Lawful) (k : Nat) (hk : k = 1 ∨ k = 2)
    (hl : m.lock = .locked ∨ m.lock = .holdover) : { m.mark with lock := .holdover, misses := k }.Lawful := by
  obtain ⟨a, -, -⟩ := h
  refine ⟨?_, fun _ => rfl, fun t e ht _ => ?_⟩
  · rcases hl with hl | hl <;> simp only [hl] at a
    · exact ⟨a.1, hk, a.2.2⟩
    · exact ⟨a.1, hk, a.2.2⟩
  · have : some 0 = some t := ht
    cases this; omega

/-! ### Marks and expiries -/

theorem changes_handMark (s : State) (order : List MarkTask) (h : s.fm.endsOpen = true) :
    Changes s (s.handMark order) := by
  have go : ∀ (l : List MarkTask) (s : State), s.fm.endsOpen = true → Changes s (l.foldl State.runTask s) := by
    intro l
    induction l with
    | nil => exact fun s _ => .refl s
    | cons a l ih =>
      intro s h
      have c : Changes s (s.runTask a) := by
        cases a with
        | tones => exact changes_serving (.tones s)
        | player n => exact changes_serving (.player s n h)
        | dwell j => exact changes_serving (.dwell s j)
        | wait => exact changes_serving (.timeout s)
      exact c.trans (ih _ (by rw [(moves_runTask s a h).servingOnly.fm]; exact h))
  exact go _ s h

theorem changes_engineMark (s : State) (order : List MarkTask) : Changes s (s.engineMark order) := by
  unfold State.engineMark; dsimp only
  refine Changes.trans (.one (.fm s s.fm.engineMark FrameMonitor.Lawful.engineMarked (fun h n => ⟨(h n).1, fun _ _ => rfl⟩))) ?_
  split
  · exact (Changes.one (.device _ _ rfl)).trans (changes_handMark _ _ (by rw [takeOutcome_fm]; rfl))
  · exact changes_handMark _ _ rfl

theorem changes_flywheelMark (s : State) (k : Nat) (order : List MarkTask) (hk : k = 1 ∨ k = 2)
    (hl : s.fm.lock = .locked ∨ s.fm.lock = .holdover) : Changes s (s.flywheelMark k order) :=
  (Changes.one (.fm s _ (fun h => h.flywheel k hk hl) (fun h n => ⟨(h n).1, fun _ _ => rfl⟩))).trans (changes_handMark _ _ rfl)

theorem changes_windowExpired (s : State) (order : List MarkTask) : Changes s (s.windowExpired order) := by
  unfold State.windowExpired
  split
  · split
    · exact .one (.fm s _ (fun _ => ⟨⟨rfl, rfl⟩, fun l => absurd rfl l, fun _ _ _ he => by cases he⟩) id)
    · exact changes_flywheelMark s 1 order (.inl rfl) (.inl ‹_›)
    all_goals exact .refl s
  · exact .refl s

theorem changes_flywheelExpired (s : State) (order : List MarkTask) : Changes s (s.flywheelExpired order) := by
  unfold State.flywheelExpired
  split
  · split
    · rename_i hl
      split
      · exact changes_flywheelMark s 2 order (.inr rfl) (.inr hl)
      · refine (Changes.one (.fm s { s.fm with lock := .stalled, misses := 3, stallReported := true } (fun h => ?_)
          id)).trans (.one (.device _ _ rfl))
        obtain ⟨a, b, -⟩ := h
        simp only [hl] at a
        exact ⟨⟨a.1, rfl, rfl⟩, fun _ => b (by rw [hl]; decide), fun _ _ _ he => by cases he⟩
    all_goals exact .refl s
  · exact .refl s

theorem changes_expire (s : State) : Changes s s.expire := by
  unfold State.expire
  refine (Changes.trans ?_ (changes_finish _)).trans (changes_takeEnds _)
  split
  · exact changes_flywheelExpired s []
  · exact changes_windowExpired s []
  · exact changes_windowExpired s []
  all_goals exact .refl s

theorem changes_count (s : State) (n : Nat) (h : ∀ r, s.fm.untilExpiry = some r → n ≤ r) : Changes s (s.count n) :=
  .one (.fm s _ (fun l => l.counted n h) id)

theorem changes_tick (s : State) (n : Nat) : Changes s (s.tick n) :=
  tick_keeps changes_count (fun _ _ _ => Changes.trans) (fun s _ => changes_expire s) s n

/-! ### The store bus -/

theorem changes_arriveRequest (s : State) (r : Request) (n : Nat) (order : List MarkTask) :
    Changes s (s.arriveRequest r n order) := by
  unfold State.arriveRequest; dsimp only
  refine (changes_tick s n).trans ?_
  generalize s.tick n = t
  split
  · exact .refl t
  · split
    · rename_i j hj
      have run : t.boot.device = .run := by
        by_contra c
        have : ∀ a, t.connectionEntry a = none := by intro a; simp [State.connectionEntry, State.ranges, c]
        have v : t.isVirtualWord r.addr = false := by simp [State.isVirtualWord, State.ranges, c]
        unfold State.arrivalClass at hj
        split at hj
        · rw [this] at hj; simp [v] at hj
        · cases hj
      refine Changes.trans (.one (.pairing t (some j) (.inr run))) ?_
      unfold State.connectionArrives; dsimp only
      refine Changes.trans ?_ (changes_finish _)
      refine Changes.trans ?_ (.one (.bus _ _))
      split
      · exact changes_engineMark _ _
      · exact .refl _
    · exact (Changes.one (.bus t _)).trans (.one (.pairing _ none (.inl rfl)))
    · exact (Changes.one (.bus t _)).trans (changes_finish _)

theorem changes_endTo (s : State) (m : Master) (e : Ending) : Changes s (s.freePort.endTo m e) := by
  cases m <;> exact (Changes.one (.bus s _)).trans (.one (.bus _ _))

theorem changes_programTaken (s : State) (p : Program) (h : s.boot.device = .run) : Changes s (s.programTaken p) := by
  unfold State.programTaken; dsimp only
  have a : Changes s (s.withMra { s.mra with underWay := s.mra.underWay.map (OwnRequest.overtake p) }) := by
    cases e : s.mra.underWay with
    | none =>
      have : s.withMra { s.mra with underWay := none } = s := by rw [← e]; rfl
      rw [Option.map_none, this]; exact .refl s
    | some r =>
      refine .one (.underWay s r _ e ?_ ?_ ?_) <;> unfold OwnRequest.overtake <;> split <;> rfl
  have b : ∀ t : State, t.boot.device = .run → Changes t (t.staleGenerators p) ∧ (t.staleGenerators p).boot = t.boot :=
    fun t ht => ⟨changes_serving (.staleGenerators t p ht), (moves_staleGenerators t p).servingOnly.boot⟩
  have c : ∀ (l : List PlayerIx) (t : State), t.boot.device = .run →
      Changes t (l.foldl (fun t n => t.stalePlayer p n) t) := by
    intro l
    induction l with
    | nil => exact fun t _ => .refl t
    | cons n l ih =>
      intro t ht
      exact (changes_serving (.stalePlayer t p n ht)).trans
        (ih _ (by rw [(moves_stalePlayer t p n).servingOnly.boot]; exact ht))
  revert a
  generalize hu : s.withMra { s.mra with underWay := s.mra.underWay.map (OwnRequest.overtake p) } = u
  intro a
  have hr : u.boot.device = .run := by rw [← hu]; exact h
  have d := a.trans ((b u hr).1.trans (c allPlayers _ (by rw [(b u hr).2]; exact hr)))
  split
  · exact d.trans (.one (.startRefetch _ _ _))
  · exact d

theorem changes_takeStore (r : Request) (d : Word) (s : State) (x : StoreTaker) :
    Changes s (State.takeStore r d s x) := by
  cases x with
  | connection =>
    show Changes s (match s.connectionEntry r.addr with | some j => s.connectionTaken j d r.strobes | none => s)
    cases e : s.connectionEntry r.addr with
    | none => exact .refl s
    | some j =>
      refine changes_serving (.connection s j d _ ?_)
      by_contra c; simp [State.connectionEntry, State.ranges, c] at e
  | program =>
    show Changes s (match s.programAt r.addr with | some p => s.programTaken p | none => s)
    cases e : s.programAt r.addr with
    | none => exact .refl s
    | some p =>
      refine changes_programTaken s p ?_
      by_contra c; simp [State.programAt, State.ranges, c] at e
  | consumer =>
    show Changes s (if s.isConsumerWord r.addr then s.consumerTaken d r.strobes else s)
    cases h : s.isConsumerWord r.addr with
    | false => exact .refl s
    | true =>
      cases e : s.boot.accepted with
      | none => simp [State.isConsumerWord, e] at h
      | some rec => exact .one (.consumer s d _ rec e)

theorem changes_storeAccepted (s : State) (r : Request) (d : Word) (l : List StoreTaker) :
    Changes s (s.storeAccepted r d l) := by
  unfold State.storeAccepted; dsimp only
  refine ((changes_endTo s r.master .stored).trans ?_).trans (changes_finish _)
  split
  · exact .one (.reload _)
  · exact Changes.foldl _ (changes_takeStore r d) l _

theorem changes_readAnswered (s : State) (r : Request) (d : Word) : Changes s (s.readAnswered r d) := by
  unfold State.readAnswered; dsimp only
  refine ((changes_endTo s r.master (.answer d)).trans ?_).trans (changes_finish _)
  generalize s.freePort.endTo r.master (.answer d) = t
  split
  · rename_i j _ hj
    refine changes_serving (.adoption t j d ?_)
    by_contra c; simp [State.connectionEntry, State.ranges, c] at hj
  · exact .refl t

/-! ### Steps -/

/-- A completion whose delivery is a sequence of changes. -/
theorem changes_complete (s : State) (d : Word) (f : OwnRequest → State → Option State)
    (h : ∀ r u, s.LastWordOf r → f (r.advance d) s.delivered = some u → Changes s u) : Changes s (s.complete d f) := by
  rcases complete_cases s d f with e | ⟨r, t, hl, hf, e⟩
  · rw [e]; exact .refl s
  · rw [e]; exact (h r t hl hf).trans (changes_finish t)

theorem changes_exec (c : Instr) (s t : State) (h : exec c s = .next t) : Changes s t := by
  have ends := changes_takeEnds s
  have say : ∀ {u : State}, Changes s u → exec c s = .next u → Changes s t := by
    intro u hu e; rw [e] at h; cases h; exact hu
  have after : ∀ {u : State}, Changes s.takeEnds u → exec c s = .next u → Changes s t :=
    fun hu e => say (ends.trans hu) e
  have store : ∀ l, Changes s.takeEnds (s.takeEnds.acceptStore l) := by
    intro l; unfold State.acceptStore
    split
    · split
      · exact changes_storeAccepted _ _ _ _
      · exact .refl _
    · exact .refl _
    · exact .refl _
  have take : ∀ d f, (∀ r u, s.takeEnds.LastWordOf r → f (r.advance d) s.takeEnds.delivered = some u →
      Changes s.takeEnds u) → Changes s.takeEnds (s.takeEnds.complete d f) := changes_complete _
  cases c with
  | reset b => exact say (.one (.reset s b)) rfl
  | connectionRead a b n order => exact after (changes_arriveRequest _ _ _ _) rfl
  | virtualRead a b => exact after (changes_arriveRequest _ _ _ _) rfl
  | passingRequest r => exact after (changes_arriveRequest _ _ _ _) rfl
  | passingCompletion d =>
    refine after ?_ rfl
    unfold State.completePassing
    split
    · split
      · exact changes_readAnswered _ _ _
      · exact changes_storeAccepted _ _ _ _
    · exact .refl _
    · exact .refl _
  | adoptionCheck d =>
    refine after ?_ rfl
    unfold State.answerRead
    split
    · split
      · exact changes_readAnswered _ _ _
      · exact .refl _
    · exact .refl _
    · exact .refl _
  | connectionStore => exact after (store _) rfl
  | programStore => exact after (store _) rfl
  | consumerStore => exact after (store _) rfl
  | commandStore => exact after (store _) rfl
  | windowExpiry order => exact after ((changes_windowExpired _ _).trans (changes_finish _)) rfl
  | flywheelExpiry order => exact after ((changes_flywheelExpired _ _).trans (changes_finish _)) rfl
  | cadenceStepEnd g => exact say (changes_serving (.cadence s g)) rfl
  | joinWindowClose n => exact say (changes_serving (.window s n)) rfl
  | dwellExpiry j => exact say ((changes_serving (.dwell s j)).trans (changes_finish _)) rfl
  | waitTimeout => exact say ((changes_serving (.timeout s)).trans (changes_finish _)) rfl
  | loadingWriteComplete =>
    refine after (take _ _ fun r u hl hu => ?_) rfl
    split at hu <;> cases hu
    exact .one (.loading _ r hl ‹_›)
  | recordReadComplete d =>
    refine after (take _ _ fun r u hl hu => ?_) rfl
    split at hu <;> cases hu
    exact .one (.record _ r _ hl ‹_›)
  | congestionFetchComplete d =>
    refine after (take _ _ fun r u hl hu => ?_) rfl
    split at hu <;> cases hu
    exact .one (.congestion _ r _ hl ‹_›)
  | ringClearWriteComplete =>
    refine after (take _ _ fun r u hl hu => ?_) rfl
    split at hu <;> cases hu
    exact .one (.cleared _ r _ hl ‹_›)
  | runningWriteComplete =>
    refine after (take _ _ fun r u hl hu => ?_) rfl
    split at hu <;> cases hu
    exact .one (.run _ r hl ‹_›)
  | failureWriteComplete =>
    refine after (take _ _ fun r u hl hu => ?_) rfl
    split at hu
    · split at hu <;> cases hu
      exact .one (.bypass _ r _ hl ‹_› ‹_›)
    · cases hu
  | attachFetchComplete d =>
    refine after (take _ _ fun r u hl hu => ?_) rfl
    split at hu <;> cases hu
    rename_i hk
    exact (Changes.one (.delivered _ r hl (by rw [show r.kind = _ from hk]; rfl))).trans (changes_serving (.attach _ _ _ _ _ _))
  | fillerFetchComplete d =>
    refine after (take _ _ fun r u hl hu => ?_) rfl
    split at hu <;> cases hu
    rename_i hk
    exact (Changes.one (.delivered _ r hl (by rw [show r.kind = _ from hk]; rfl))).trans (changes_serving (.filler _ _ _ _ _ _))
  | refetchComplete d =>
    refine after (take _ _ fun r u hl hu => ?_) rfl
    split at hu <;> cases hu
    rename_i hk
    exact (Changes.one (.delivered _ r hl (by rw [show r.kind = _ from hk]; rfl))).trans (.one (.refetch _ _ _ _))
  | bindingFetchComplete d =>
    refine after (take _ _ fun r u hl hu => ?_) rfl
    split at hu <;> cases hu
    rename_i hk
    exact (Changes.one (.delivered _ r hl (by rw [show r.kind = _ from hk]; rfl))).trans (changes_serving (.binding _ _ _ _ _ _))
  | stepFetchComplete d =>
    refine after (take _ _ fun r u hl hu => ?_) rfl
    split at hu <;> cases hu
    rename_i hk
    exact (Changes.one (.delivered _ r hl (by rw [show r.kind = _ from hk]; rfl))).trans (changes_serving (.step _ _ _ _))
  | fillComplete d =>
    refine after (take _ _ fun r u hl hu => ?_) rfl
    split at hu <;> cases hu
    rename_i hk
    exact (Changes.one (.delivered _ r hl (by rw [show r.kind = _ from hk]; rfl))).trans (changes_serving (.fill _ _ _ _ _))
  | reportWriteComplete =>
    refine after (take _ _ fun r u hl hu => ?_) rfl
    split at hu <;> cases hu
    exact .one (.report _ r _ hl ‹_›)
  | burstWordComplete d =>
    refine after ?_ rfl
    unfold State.wordDone
    split
    · rename_i r hp hu
      split
      · have a : ∀ x : State, Changes x x.grant := by
          intro x
          rcases grant_cases x with e | ⟨b, e, _⟩
          · rw [e]; exact .refl _
          · rw [e]; exact .one (.bus _ _)
        exact ((Changes.one (.underWay _ r (r.advance d) hu rfl rfl rfl)).trans (.one (.bus _ _))).trans (a _)
      · exact .refl _
    · exact .refl _
  | ownBurstStart =>
    refine after ?_ rfl
    unfold State.startBurst
    split
    · exact (Changes.one (.start _ _ ‹_› ‹_›)).trans (.one (.bus _ _))
    · exact .refl _

/-- Every step of the part is a sequence of changes. -/
theorem changes_step (s t : State) (h : step s = .next t) : Changes s t := by
  unfold step at h
  split at h
  · cases h; exact (changes_takeEnds s).trans (changes_tick _ 1)
  · exact (Changes.one (.pending s _)).trans (changes_exec _ _ _ h)

/-- A law that every change keeps is kept by every step. -/
theorem step_keeps {P : State → Prop} (h : ∀ s t, Change s t → P s → P t) (s t : State) (e : step s = .next t)
    (hs : P s) : P t := (changes_step s t e).keeps h hs

end Sys2Proof.Machine
end

