-- ==== Sys2Proof/Laws/Choice.lean ====
section
/-! SUPPORT. Laws/Choice.lean: when the Memory Request Arbiter chooses, said once (R156; log 24). No operation of a
block chooses a request; the choice is made where an event ends, and leaves none to be made. -/

namespace Sys2Proof.Machine

/-! ### Operations choose nothing -/

/-- The request that `t` leaves chosen, if any, was chosen in `s` already: nothing has been chosen in between. -/
def KeepsChoice (s t : State) : Prop :=
  ∀ x, t.mra.chosen = some x → ∃ q, s.mra.chosen = some q ∧ q.kind = x.kind ∧ q.gen = x.gen

theorem KeepsChoice.of_eq {s t : State} (h : t.mra.chosen = s.mra.chosen) : KeepsChoice s t :=
  fun x hx => ⟨x, h ▸ hx, rfl, rfl⟩

theorem KeepsChoice.trans {s t u : State} (a : KeepsChoice s t) (b : KeepsChoice t u) : KeepsChoice s u := by
  intro x hx
  obtain ⟨q, h1, h2, h3⟩ := b x hx
  obtain ⟨r, h4, h5, h6⟩ := a q h1
  exact ⟨r, h4, h5.trans h2, h6.trans h3⟩

theorem keepsChoice_withdraw (s : State) (f : OwnKind → Bool) : KeepsChoice s (s.withdraw f) := by
  intro x hx
  simp only [State.withdraw, State.withMra_mra] at hx
  refine ⟨x, ?_, rfl, rfl⟩
  cases h : s.mra.chosen with
  | none => rw [h] at hx; cases hx
  | some q => rw [h] at hx; simp [Option.filter] at hx; rw [hx.2]

theorem takeOutcome_chosen (s : State) (o : Outcome) : (s.takeOutcome o).mra.chosen = s.mra.chosen := by
  unfold State.takeOutcome; split
  · rfl
  · split <;> rfl

theorem foldl_chosen {α : Type} (f : State → α → State) (h : ∀ s a, (f s a).mra.chosen = s.mra.chosen)
    (l : List α) : ∀ s, (l.foldl f s).mra.chosen = s.mra.chosen := by
  induction l with
  | nil => exact fun _ => rfl
  | cons a l ih => intro s; rw [List.foldl_cons, ih, h]

theorem Move.keepsChoice {s t : State} (m : Move s t) : KeepsChoice s t := by
  cases m with
  | withdraw f h => exact keepsChoice_withdraw s f
  | outcome o j h => exact .of_eq (takeOutcome_chosen s o)
  | _ => exact .of_eq rfl

theorem Moves.keepsChoice {s t : State} (m : Moves s t) : KeepsChoice s t := by
  induction m with
  | refl => exact .of_eq rfl
  | step _ b ih => exact ih.trans (Move.keepsChoice b)

/-! ### Events -/

/-- How an event leaves the arbiter: as it was; with a request under way and nothing newly chosen; or with the choice that
ends the event, made where nothing was newly chosen before it (R156; log 24). -/
def EventEnd (s t : State) : Prop :=
  (t.mra = s.mra ∧ t.boot = s.boot) ∨ (t.mra.underWay.isSome = true ∧ KeepsChoice s t) ∨
    ∃ u, t = u.finish ∧ KeepsChoice s u

theorem releaseSource_chosen (s : State) (x : Source) : (s.releaseSource x).mra.chosen = s.mra.chosen := by
  unfold State.releaseSource; dsimp only; split
  · rfl
  · rw [takeOutcome_chosen]; rfl

theorem consumerTaken_chosen (s : State) (d : Word) (b : Strobes) : (s.consumerTaken d b).mra.chosen = s.mra.chosen := by
  unfold State.consumerTaken; dsimp only
  rw [foldl_chosen _ releaseSource_chosen]; rfl

theorem keepsChoice_reload (s : State) : KeepsChoice s s.reload := by
  have e : s.reload.mra.chosen = s.mra.chosen.bind keepForDrain := by
    unfold State.reload; dsimp only
    unfold State.beginBoot
    split <;> split <;> rfl
  intro x hx
  rw [e] at hx
  cases h : s.mra.chosen with
  | none => rw [h] at hx; cases hx
  | some q =>
    rw [h] at hx; simp only [Option.bind_some, keepForDrain] at hx
    split at hx <;> cases hx
    exact ⟨q, rfl, rfl, rfl⟩

theorem endTo_mra (s : State) (m : Master) (e : Ending) : (s.freePort.endTo m e).mra = s.mra := by cases m <;> rfl

theorem keepsChoice_programTaken (s : State) (p : Program) : KeepsChoice s (s.programTaken p) := by
  unfold State.programTaken; dsimp only
  generalize ha : s.withMra { s.mra with underWay := s.mra.underWay.map (OwnRequest.overtake p) } = a
  have k1 : KeepsChoice s a := by rw [← ha]; exact .of_eq rfl
  have k2 := Moves.keepsChoice (moves_staleGenerators a p)
  have k3 := Moves.keepsChoice (Moves.foldl _ (fun t n => moves_stalePlayer t p n) allPlayers (a.staleGenerators p))
  generalize allPlayers.foldl (fun t n => t.stalePlayer p n) (a.staleGenerators p) = b at k3
  have k : KeepsChoice s b := (k1.trans k2).trans k3
  split
  · refine k.trans ?_
    exact (keepsChoice_withdraw _ _).trans (.of_eq rfl)
  · exact k

theorem keepsChoice_takeStore (r : Request) (d : Word) (s : State) (x : StoreTaker) :
    KeepsChoice s (State.takeStore r d s x) := by
  cases x
  · show KeepsChoice s (match s.connectionEntry r.addr with | some j => s.connectionTaken j d r.strobes | none => s)
    split
    · exact Moves.keepsChoice (moves_connectionTaken _ _ _ _)
    · exact .of_eq rfl
  · show KeepsChoice s (match s.programAt r.addr with | some p => s.programTaken p | none => s)
    split
    · exact keepsChoice_programTaken _ _
    · exact .of_eq rfl
  · show KeepsChoice s (if s.isConsumerWord r.addr then s.consumerTaken d r.strobes else s)
    split
    · exact .of_eq (consumerTaken_chosen _ _ _)
    · exact .of_eq rfl

theorem eventEnd_storeAccepted (s : State) (r : Request) (d : Word) (l : List StoreTaker) :
    EventEnd s (s.storeAccepted r d l) := by
  refine .inr (.inr ⟨_, rfl, ?_⟩)
  refine (KeepsChoice.of_eq (by rw [endTo_mra s r.master .stored])).trans ?_
  split
  · exact keepsChoice_reload _
  · generalize s.freePort.endTo r.master .stored = t
    induction l generalizing t with
    | nil => exact .of_eq rfl
    | cons a l ih => exact (keepsChoice_takeStore r d t a).trans (ih _)

theorem eventEnd_readAnswered (s : State) (r : Request) (d : Word) : EventEnd s (s.readAnswered r d) := by
  refine .inr (.inr ⟨_, rfl, ?_⟩)
  refine (KeepsChoice.of_eq (by rw [endTo_mra s r.master (.answer d)])).trans ?_
  generalize s.freePort.endTo r.master (.answer d) = t
  split
  · exact Moves.keepsChoice (moves_adoptionChecked _ _ _)
  · exact .of_eq rfl

theorem EventEnd.refl (s : State) : EventEnd s s := .inl ⟨rfl, rfl⟩

theorem eventEnd_complete (s : State) (d : Word) (f : OwnRequest → State → Option State)
    (h : ∀ (r : OwnRequest) u, f (r.advance d) s.delivered = some u → KeepsChoice s u) :
    EventEnd s (s.complete d f) := by
  rcases complete_cases s d f with e | ⟨r, t, hl, hf, e⟩
  · rw [e]; exact EventEnd.refl s
  · rw [e]; exact .inr (.inr ⟨t, rfl, h r t hf⟩)

theorem keepsChoice_engineMark (s : State) (order : List MarkTask) : KeepsChoice s (s.engineMark order) := by
  unfold State.engineMark; dsimp only
  have h1 : KeepsChoice s (s.modifyFm FrameMonitor.engineMark) := .of_eq rfl
  split
  · exact (h1.trans (.of_eq (takeOutcome_chosen _ _))).trans
      (Moves.keepsChoice (moves_handMark _ order (by rw [takeOutcome_fm]; rfl)))
  · exact h1.trans (Moves.keepsChoice (moves_handMark _ order rfl))

theorem keepsChoice_flywheelMark (s : State) (k : Nat) (order : List MarkTask) : KeepsChoice s (s.flywheelMark k order) :=
  KeepsChoice.trans (t := s.modifyFm (fun m => { m.mark with lock := .holdover, misses := k })) (.of_eq rfl)
    (moves_handMark _ order rfl).keepsChoice

theorem keepsChoice_windowExpired (s : State) (order : List MarkTask) : KeepsChoice s (s.windowExpired order) := by
  unfold State.windowExpired
  split
  · split
    · exact .of_eq rfl
    · exact keepsChoice_flywheelMark _ _ _
    all_goals exact .of_eq rfl
  · exact .of_eq rfl

theorem keepsChoice_flywheelExpired (s : State) (order : List MarkTask) : KeepsChoice s (s.flywheelExpired order) := by
  unfold State.flywheelExpired
  split
  · split
    · split
      · exact keepsChoice_flywheelMark _ _ _
      · exact .of_eq (takeOutcome_chosen _ _)
    all_goals exact .of_eq rfl
  · exact .of_eq rfl

theorem recordRead_chosen (s : State) (g : Option Generation) (ws : List Word) :
    (s.recordRead g ws).mra.chosen = s.mra.chosen := by
  unfold State.recordRead; split
  · dsimp only; split <;> rfl
  · rfl

theorem congestionFetched_chosen (s : State) (g : Option Generation) (ws : List Word) :
    (s.congestionFetched g ws).mra.chosen = s.mra.chosen := by
  unfold State.congestionFetched; split
  · rfl
  · split
    · split
      · rfl
      · dsimp only; split <;> rfl
    · rfl

theorem recordCleared_chosen (s : State) (k : Nat) : (s.recordCleared k).mra.chosen = s.mra.chosen := by
  unfold State.recordCleared; split
  · rfl
  · split <;> rfl

theorem keepsChoice_enterRun (s : State) : KeepsChoice s s.enterRun := by
  unfold State.enterRun; split
  · exact .of_eq rfl
  · dsimp only
    have : ∀ (t : State) (c : Program) (x : Option ToneCopy), (t.bindCongestion c x).mra = t.mra := by
      intro t c x; cases x <;> rfl
    refine KeepsChoice.trans ?_ (.of_eq (takeOutcome_chosen _ _))
    have fin : ∀ t : State, KeepsChoice s t → ∀ (f : BootLoader → BootLoader) c x,
        KeepsChoice s (((t.modifyBoot f).withPairing none).bindCongestion c x) := by
      intro t k f c x; exact k.trans (.of_eq (by rw [this]; rfl))
    apply fin
    split
    · exact keepsChoice_withdraw (s.withRrw ReportRing.reset) _
    · exact .of_eq rfl

theorem keepsChoice_refetchDone (s : State) (c : Program) (g : Option Generation) (ws : List Word) :
    KeepsChoice s (s.refetchDone c g ws) := by
  unfold State.refetchDone; split
  · dsimp only; split
    · exact .of_eq rfl
    · exact (KeepsChoice.of_eq rfl).trans (.of_eq (takeOutcome_chosen (s.withRefetch { s.refetch with busy := false }) _))
  · exact .of_eq rfl

theorem reportDone_chosen (s : State) (x : Source) : (s.reportDone x).mra.chosen = s.mra.chosen := by
  unfold State.reportDone; dsimp only; split <;> rfl

/-- What each command leaves of the arbiter's choice, where it finds no end of a timer to take: CONNECTION_READ after the
time that passed before it, every other command from where it stands. -/
theorem exec_eventEnd (c : Instr) (s t : State) (hs : s.Settled) (hr : ∀ b, c ≠ .reset b) (h : exec c s = .next t) :
    ∃ u, (u = s ∨ ∃ a b n order, c = .connectionRead a b n order ∧ u = s.tick n) ∧ EventEnd u t := by
  have e0 := takeEnds_settled s hs
  have say : ∀ {v : State}, EventEnd s v → exec c s = .next v →
      ∃ u, (u = s ∨ ∃ a b n order, c = .connectionRead a b n order ∧ u = s.tick n) ∧ EventEnd u t := by
    intro v hv e; rw [e] at h; cases h; exact ⟨s, .inl rfl, hv⟩
  have arr : ∀ r n order, EventEnd (s.tick n) (s.arriveRequest r n order) := by
    intro r n order
    unfold State.arriveRequest; dsimp only
    generalize s.tick n = t
    split
    · exact EventEnd.refl t
    · split
      · unfold State.connectionArrives; dsimp only
        refine .inr (.inr ⟨_, rfl, ?_⟩)
        refine KeepsChoice.trans ?_ (.of_eq rfl)
        split
        · exact (KeepsChoice.of_eq (s := t) rfl).trans (keepsChoice_engineMark _ _)
        · exact .of_eq rfl
      · exact .inl ⟨rfl, rfl⟩
      · exact .inr (.inr ⟨_, rfl, .of_eq rfl⟩)
  have t0 : s.tick 0 = s := by
    rw [tick_short s 0 (fun _ _ => Nat.zero_le _)]
    unfold State.count State.modifyFm State.withFm
    simp
  have store : ∀ l, EventEnd s (s.acceptStore l) := by
    intro l; unfold State.acceptStore
    split
    · split
      · exact eventEnd_storeAccepted _ _ _ _
      · exact EventEnd.refl _
    · exact EventEnd.refl _
    · exact EventEnd.refl _
  have mv : ∀ {u v : State}, u.mra.chosen = s.mra.chosen → Moves u v → KeepsChoice s v :=
    fun hu m => (KeepsChoice.of_eq hu).trans (Moves.keepsChoice m)
  have co : ∀ d f, (∀ (r : OwnRequest) u, f (r.advance d) s.delivered = some u → KeepsChoice s u) →
      EventEnd s (s.complete d f) := eventEnd_complete s
  cases c with
  | reset b => exact absurd rfl (hr b)
  | connectionRead a b n order =>
    have : exec (.connectionRead a b n order) s = .next (s.takeEnds.arriveRequest
        { master := .engine, dir := .read, addr := a, strobes := b } n order) := rfl
    rw [this, e0] at h; cases h
    exact ⟨s.tick n, .inr ⟨_, _, _, _, rfl, rfl⟩, arr _ _ _⟩
  | virtualRead a b =>
    refine say ?_ (by show Host.Outcome.next _ = _; rw [e0])
    have := arr { master := .engine, dir := .read, addr := a, strobes := b } 0 []
    rwa [t0] at this
  | passingRequest r =>
    refine say ?_ (by show Host.Outcome.next _ = _; rw [e0])
    have := arr r 0 []
    rwa [t0] at this
  | passingCompletion d =>
    refine say ?_ (by show Host.Outcome.next _ = _; rw [e0])
    unfold State.completePassing
    split
    · split
      · exact eventEnd_readAnswered _ _ _
      · exact eventEnd_storeAccepted _ _ _ _
    · exact EventEnd.refl _
    · exact EventEnd.refl _
  | adoptionCheck d =>
    refine say ?_ (by show Host.Outcome.next _ = _; rw [e0])
    unfold State.answerRead
    split
    · split
      · exact eventEnd_readAnswered _ _ _
      · exact EventEnd.refl _
    · exact EventEnd.refl _
    · exact EventEnd.refl _
  | connectionStore => exact say (store _) (by show Host.Outcome.next _ = _; rw [e0])
  | programStore => exact say (store _) (by show Host.Outcome.next _ = _; rw [e0])
  | consumerStore => exact say (store _) (by show Host.Outcome.next _ = _; rw [e0])
  | commandStore => exact say (store _) (by show Host.Outcome.next _ = _; rw [e0])
  | windowExpiry order =>
    refine say ?_ (by show Host.Outcome.next _ = _; rw [e0])
    exact .inr (.inr ⟨_, rfl, keepsChoice_windowExpired s order⟩)
  | flywheelExpiry order =>
    refine say ?_ (by show Host.Outcome.next _ = _; rw [e0])
    exact .inr (.inr ⟨_, rfl, keepsChoice_flywheelExpired s order⟩)
  | cadenceStepEnd g => exact say (v := s.endCadenceStep g) (.inl ⟨rfl, rfl⟩) rfl
  | joinWindowClose n =>
    refine say (v := s.closeWindow n) (.inl ?_) rfl
    unfold State.closeWindow; split <;> exact ⟨rfl, rfl⟩
  | dwellExpiry j => exact say (.inr (.inr ⟨_, rfl, Moves.keepsChoice (moves_takeDwell s j)⟩)) rfl
  | waitTimeout => exact say (.inr (.inr ⟨_, rfl, Moves.keepsChoice (moves_takeTimeout s)⟩)) rfl
  | burstWordComplete d =>
    refine say ?_ (by show Host.Outcome.next _ = _; rw [e0])
    unfold State.wordDone
    split
    · rename_i r hp hu
      split
      · refine .inr (.inl ?_)
        generalize hv : (s.withMra { s.mra with underWay := some (r.advance d) }).withBus { s.bus with port := none } = v
        have k : v.mra.underWay.isSome = true ∧ KeepsChoice s v := by rw [← hv]; exact ⟨rfl, .of_eq rfl⟩
        rcases grant_cases v with e | ⟨b, e, _⟩
        · rw [e]; exact k
        · rw [e]; exact ⟨k.1, k.2.trans (.of_eq rfl)⟩
      · exact EventEnd.refl _
    · exact EventEnd.refl _
  | ownBurstStart =>
    refine say ?_ (by show Host.Outcome.next _ = _; rw [e0])
    unfold State.startBurst
    split
    · exact .inr (.inl ⟨rfl, fun x hx => by cases hx⟩)
    · exact EventEnd.refl _
  | _ =>
    refine say ?_ (by show Host.Outcome.next _ = _; rw [e0])
    apply co
    intro r u hu
    dsimp only at hu
    split at hu
    · first
      | (cases hu
         first
         | exact .of_eq (recordRead_chosen _ _ _)
         | exact .of_eq (congestionFetched_chosen _ _ _)
         | exact .of_eq (recordCleared_chosen _ _)
         | exact (KeepsChoice.of_eq (delivered_chosen s)).trans (keepsChoice_enterRun _)
         | exact (KeepsChoice.of_eq (delivered_chosen s)).trans (keepsChoice_refetchDone _ _ _ _)
         | exact .of_eq (reportDone_chosen _ _)
         | exact mv (delivered_chosen s) (moves_attachDone _ _ _ _ _ _)
         | exact mv (delivered_chosen s) (moves_fillerDone _ _ _ _ _ _)
         | exact mv (delivered_chosen s) (moves_bindingDone _ _ _ _ _ _)
         | exact mv (delivered_chosen s) (moves_stepDone _ _ _ _)
         | exact mv (delivered_chosen s) (moves_fillDone _ _ _ _ _)
         | exact .of_eq rfl)
      | (split at hu <;> cases hu
         exact .of_eq rfl)
    · cases hu

theorem firstLeast_eq_none {rank : OwnRequest → Nat} {l : List OwnRequest} (h : firstLeast rank l = none) : l = [] := by
  cases l with
  | nil => rfl
  | cons a l => unfold firstLeast at h; split at h <;> (try split at h) <;> cases h

/-- Where nothing is picked, nothing queued may be chosen (R156 to R158). -/
theorem mayChoose_of_pick_none (s : State) (h : s.pick = none) : ∀ r ∈ s.mra.queued, s.mayChoose r = false := by
  intro r hr
  unfold State.pick at h; unfold State.mayChoose
  cases hd : s.boot.device <;> simp only [hd] at h ⊢
  · have := List.find?_eq_none.mp h r hr; simpa using this
  · unfold State.pickRun at h
    split at h
    · cases h
    · rename_i hf
      have a := List.filter_eq_nil_iff.mp (firstLeast_eq_none hf) r hr
      split at h
      · cases h
      · rename_i hg
        have b := List.find?_eq_none.mp hg r hr
        have c := List.find?_eq_none.mp h r hr
        simp only [Bool.not_eq_true] at a b c
        rw [a, b, c]; rfl

/-- The end of an event: nothing was to be chosen, or the choice is made (R156). -/
theorem finish_cases (u : State) :
    (u.finish.mra = u.mra ∧ (u.mra.chosen = none → u.mra.underWay = none → u.pick = none)) ∨
    (u.mra.chosen = none ∧ u.mra.underWay = none ∧ u.finish.mra = u.choose.mra ∧ u.finish.mra.chosen.isSome = true) := by
  have e : u.finish.mra = u.choose.mra := by
    unfold State.finish; rcases grant_cases u.choose with e | ⟨b, e, _⟩ <;> rw [e]; rfl
  by_cases h : (u.mra.chosen.isSome || u.mra.underWay.isSome) = true
  · left
    refine ⟨by rw [e]; unfold State.choose; rw [if_pos h], fun a b => by rw [a, b] at h; cases h⟩
  · cases hp : u.pick with
    | none => left; exact ⟨by rw [e]; unfold State.choose; rw [if_neg h, hp], fun _ _ => rfl⟩
    | some r =>
      right
      simp only [Bool.or_eq_true, not_or, Bool.not_eq_true, Option.isSome_eq_false_iff, Option.isNone_iff_eq_none] at h
      refine ⟨h.1, h.2, e, ?_⟩
      rw [e]; unfold State.choose; rw [h.1, h.2, hp]; rfl

/-- An event that ends leaves no choice to be made (R156). -/
theorem finish_choiceMade (u : State) : u.finish.ChoiceMade := by
  intro hc hu r hr
  have hb : u.finish.boot = u.boot := finish_boot u
  rcases finish_cases u with ⟨e, k⟩ | ⟨_, _, e, k⟩
  · rw [e] at hc hu hr
    have := mayChoose_of_pick_none u (k hc hu) r hr
    unfold State.mayChoose at this ⊢; rwa [hb]
  · rw [hc] at k; cases k

end Sys2Proof.Machine
end

