-- ==== Sys2Proof/Tests/Slice0.lean ====
section
/-! SUPPORT. Tests/Slice0.lean: ill-formed commands refused, the spec's worked examples, one small step of
each command, and for each statement with hypotheses a state and operands that meet them. -/

namespace Sys2Proof.Tests

open Sys2Proof Sys2Proof.Machine

-- One theorem at a time: each is evaluated by the kernel, and side by side they ask for a thread each.
set_option Elab.async false

/-! ### Ill-formed commands -/

def bothBytes : Strobes := { low := true, high := true }
def noByte : Strobes := { low := false, high := false }

theorem test_wf_no_strobe_connection : (Instr.connectionRead 0 noByte 0 []).wellFormed = false := by decide
theorem test_wf_no_strobe_virtual : (Instr.virtualRead 0 noByte).wellFormed = false := by decide
theorem test_wf_no_strobe_passing :
    (Instr.passingRequest { master := .engine, dir := .read, addr := 0, strobes := noByte }).wellFormed = false := by
  decide
theorem test_wf_player_twice_connection :
    (Instr.connectionRead 0 bothBytes 0 [.player 3, .wait, .player 3]).wellFormed = false := by decide
theorem test_wf_tones_twice_window : (Instr.windowExpiry [.tones, .tones]).wellFormed = false := by decide
theorem test_wf_tones_twice_flywheel : (Instr.flywheelExpiry [.tones, .dwell 1, .tones]).wellFormed = false := by
  decide
theorem test_wf_accepts :
    (Instr.connectionRead 0 bothBytes 512 [.player 7, .tones, .dwell 2, .dwell 2, .wait]).wellFormed = true := by decide

/-! ### The spec's worked examples -/

/-- Table 4-9: the codes of eight values. -/
theorem test_encode_table : [0, -1, 255, 256, -300, 12464, 40000, -32768].map encodeValue =
    [128, 0, 143, 144, 18, 232, 255, 127] := by decide

/-- Table 4-9, last column. -/
theorem test_decode_table : [128, 0, 143, 144, 18, 232, 255, 127].map decodeCode =
    [8, -8, 248, 264, -296, 12544, 32256, -32256] := by decide

/-- Table 4-8: recorded codes rescaled. -/
theorem test_rescale_table : [rescaleCode 232 12, rescaleCode 18 6, rescaleCode 255 0, rescaleCode 128 45,
    rescaleCode 0 127] = [216, 13, 255, 128, 128] := by decide +kernel

/-- Table 4-2: every thirty-second entry of the sine table. -/
theorem test_sine_entries : [0, 32, 64, 96, 128, 160, 192, 224, 256].map sineEntry =
    [0, 6393, 12539, 18204, 23170, 27245, 30273, 32137, 32767] := by decide

theorem test_sine_length : sineTable.length = 257 := by decide +kernel

/-- R44: the entries rise. -/
theorem test_sine_rises : sineTable.Pairwise (fun a b => a ≤ b) := by decide +kernel

def busyTone : ToneCopy := { step1 := 3277, step2 := 3686, att1 := 26, att2 := 26, cadence := [] }

/-- Section 4.8.1: the two-component tone. -/
theorem test_tone_example : toneCode .both busyTone 8192 16384 = 232 := by decide

/-- Section 4.8.4: the sum clamped at both ends. -/
theorem test_tone_clamped :
    let copy : ToneCopy := { busyTone with att1 := 0, att2 := 0 }
    toneCode .both copy 16384 16447 = 255 ∧ toneCode .both copy 49152 49215 = 127 := by decide

/-- Table 3-1: the edges of the interval classes. -/
theorem test_interval_edges : [491, 492, 532, 533].map intervalOf = [.early, .onTime, .onTime, .late] := by decide

/-- Table 3-7: a dwell of 1 set at F = FFFFFF00h, tested at marks 255, 256, 799 and 800. -/
theorem test_deadline_table :
    deadlineAfter 0xFFFFFF00 800 = 544 ∧
    [0xFFFFFFFF, 0, 543, 544].map (fun f => deadlinePassed f 544) = [false, false, false, true] := by decide

/-- Table 9-6: a CALL long from bank 2 to 0A0100h saves the bank, and its RETURN restores it. -/
theorem test_call_return :
    let w : Walker := { Walker.reset with state := .walking, bank := 2 }
    let call : PlaylistStep := { kind := 4, long := true, ref := 0x0100, refHigh := 0x0A, count := 0 }
    let ret : PlaylistStep := { kind := 5, long := false, ref := 0, refHigh := 0, count := 0 }
    let u := takeStep 0x020000 w 0x020008 call .call
    let v := takeStep 0x020000 u.1 0x0A0110 ret .ret
    u.2 = 0x0A0100 ∧ u.1.bank = 10 ∧ v.2 = 0x020010 ∧ v.1.bank = 2 ∧ v.1.stack = [] ∧ v.1.zeroTime = 2 := by decide

/-- R137: the sixteenth step in a row without sound is replaced by NO_AUDIO. -/
theorem test_no_audio :
    let step : PlaylistStep := { kind := 7, long := false, ref := 0, refHigh := 0, count := 0 }
    promotionFault 1000 { Walker.reset with zeroTime := 14 } step = none ∧
      promotionFault 1000 { Walker.reset with zeroTime := 15 } step = some .noAudio := by decide

/-- Table 13-6: the words of a NO_GENERATOR record of slot 37, program 12, phase 1. -/
theorem test_record_words : recordWords
    { kind := .noGenerator, source := slotSource 37, program := 12, detail := 0, impaired := false, faulted := false,
      superseded := true, stamp := 0x00012345, underruns := 0 } true =
    [0x0405, 37, 12, 0, 0x2345, 0x0001, 0, 1] := by decide

/-! ### Small states -/

def testRecord : BootRecord :=
  { signature := 0x4D2A
    version := 1
    cb := 0x010000
    sb := 0x012000
    pb := 0x020000
    limit := 200
    congestion := 5
    ab := 0x100000
    size := 0x010000
    rb := 0x030000
    cw := 0x034000
    commandWord := 0
    statusWord := 2 }

theorem test_record_passes : recordCheck 0 testRecord = none := by decide

/-- The part in RUN with nothing attached, TG15 on program 5, and no own request. -/
def inRun : State :=
  ((State.reset.withMra { queued := [], chosen := none, underWay := none }).withBoot
    { State.reset.boot with device := .run, accepted := some testRecord, stage := none }).setGenerator 15
    (boundGenerator 5 busyTone true 0)

/-- The part in BOOT at a stage with these copies in hand and no own request. -/
def inBoot (stage : BootStage) (working : Option BootRecord) (copy : Option ToneCopy) : State :=
  (State.reset.withMra { queued := [], chosen := none, underWay := none }).withBoot
    { State.reset.boot with working := working, congestionCopy := copy, stage := some stage }

/-- A passing request on the port. -/
def withPassing (s : State) (r : Request) : State := s.withBus { s.bus with port := some (.passing r) }

/-- The own request under way, its word on the port. -/
def withUnderWay (s : State) (r : OwnRequest) : State :=
  (s.withMra { s.mra with underWay := some r }).withBus { s.bus with port := some .ownWord }

/-- A fetch all of whose words but the last have been read. -/
def lastOf (kind : OwnKind) (gen : Generation) (words : List Word) : OwnRequest :=
  { ownRead kind gen 0 words.length with done := words.length - 1, answer := words.dropLast }

/-- A write all of whose words but the last have been written. -/
def lastWrite (kind : OwnKind) (length : Nat) : OwnRequest :=
  { ownWrite kind 0 (List.replicate length 0) with done := length - 1 }

def read (m : Master) (a : Addr) : Request := { master := m, dir := .read, addr := a, strobes := bothBytes }

def store (a : Addr) (w : Word) : Request :=
  { master := .callProcessor, dir := .store w, addr := a, strobes := bothBytes }

/-- A slot's context in a state, with shadow and generation of its own. -/
def withSlotState (s : State) (j : Slot) (st : SlotState) : State := s.setSlot j { state := st, shadow := 0, gen := 7 }

/-- A TONE descriptor for every highway: 400 and 450 Hz, dwell 3, cadence 10 on and 20 off, next program 9. -/
def toneWords : List Word :=
  [0xFF01, 0, 3277, 3686, 0x1A1A, 3, 0x030A, 0x0014, 0, 0x0301, 0x0109, 0, 0, 0, 0, 0]

/-- An ANNOUNCEMENT descriptor: playlist at 000100h, listen count 0, priority 2, attenuation 6, window 2, filler 3,
no after program, max wait 4. -/
def annWords : List Word :=
  [0xFF02, 0, 0x0100, 0, 0x0200, 0x0206, 0, 0, 0, 0, 0x0103, 0, 4, 0, 0, 0]

def testAnn : AnnFields := { listens := 2, maxWait := 4, priority := 1, filler := none, after := none }

def testPlayer : Player :=
  { Player.reset with
    state := .running
    program := some 30
    fresh := some true
    gen := 4
    listeners := [6]
    framesLeft := 5
    windowOpen := true
    copy := some { start := 0x000100, window := 2, attenuation := 0 } }

/-- The state after a command. -/
def after (c : Instr) (s : State) : State :=
  match exec c s with
  | .next t => t
  | _ => s

/-! ### One step of each command -/

theorem test_reset : (after (.reset 0x21) inRun).mra.chosen.map (fun r => r.addr) = some 0x21003E := by decide +kernel

theorem test_connectionRead_pairs :
    let t := after (.connectionRead 0x01000B bothBytes 9 []) inRun
    t.pairing = some 5 ∧ t.bus.port = some (.passing (read .engine 0x01000B)) := by decide +kernel

/-- Entry 0 is a frame mark: F advances and the lock is sought. -/
theorem test_connectionRead_marks :
    let t := after (.connectionRead 0x010000 bothBytes 0 []) inRun
    (t.fm.frame, t.fm.lock, t.fm.timer) = (1, .locking, some 0) := by decide +kernel

theorem test_virtualRead_tone :
    let s := (withSlotState inRun 5 (.overflow 9)).withPairing (some 5)
    let t := after (.virtualRead 0x012200 bothBytes) (s.setGenerator 15 { inRun.generator 15 with code := 232 })
    t.bus.engineEnd = some (.answer 232) ∧ t.pairing = none := by decide +kernel

/-- Speech word 255 is not a virtual word: the read goes to memory. -/
theorem test_virtualRead_below :
    (after (.virtualRead 0x0121FE bothBytes) inRun).bus.port = some (.passing (read .engine 0x0121FE)) := by
  decide +kernel

theorem test_passingRequest :
    let r := read .callProcessor 0x010000
    let t := after (.passingRequest r) inRun
    t.bus.port = some (.passing r) ∧ t.fm.frame = 0 ∧ t.pairing = none := by decide +kernel

theorem test_passingCompletion :
    let t := after (.passingCompletion 0x1234) (withPassing inRun (read .callProcessor 0x400000))
    t.bus.cpuEnd = some (.answer 0x1234) ∧ t.bus.port = none := by decide +kernel

/-- An answer with ACTIVE and SOURCE 300 at entry 2 of an idle slot attaches program 44. -/
theorem test_adoptionCheck :
    let t := after (.adoptionCheck 0x812C) (withPassing inRun (read .engine 0x010004))
    (t.slot 2).state = .attaching 44 ∧ (t.slot 2).shadow = 0x812C ∧ t.bus.engineEnd = some (.answer 0x812C) := by
  decide +kernel

/-- A store of the high byte alone keeps the shadow's low byte: 002Ch becomes 812Ch, program 44. -/
theorem test_connectionStore_byte :
    let s := inRun.setSlot 2 { SlotContext.reset with shadow := 0x002C }
    let r : Request := { store 0x010004 0x8100 with strobes := { low := false, high := true } }
    let t := after .connectionStore (withPassing s r)
    (t.slot 2).state = .attaching 44 ∧ (t.slot 2).shadow = 0x812C := by decide +kernel

/-- A program at or above L faults with RANGE. -/
theorem test_connectionStore_range :
    let t := after .connectionStore (withPassing inRun (store 0x010004 0x81C8))
    (t.slot 2).state = .fault 200 ∧ (t.mra.chosen.map (fun r => r.data.take 4)) = some [6, 2, 200, 1] := by
  decide +kernel

/-- A store into program 5 leaves TG15 fresh and starts its refetch. -/
theorem test_programStore_congestion :
    let t := after .programStore (withPassing inRun (store 0x0200A0 1))
    (t.generator 15).isFreshFor 5 = true ∧ t.refetch = { busy := true, gen := 1 } ∧
      t.mra.chosen.map (fun r => r.addr) = some 0x0200A0 := by decide +kernel

/-- One written record released: its flag falls and C reaches P, so ATTN falls. -/
theorem test_consumerStore :
    let s := inRun.withRrw { ReportRing.reset.setFlag 3 true with producer := 1, order := [3] }
    let t := after .consumerStore (withPassing s (store 0x034000 1))
    s.attn = true ∧ t.attn = false ∧ t.isPending 3 = false ∧ t.rrw.order = [] := by decide +kernel

theorem test_commandStore_reloads :
    let t := after .commandStore (withPassing (withSlotState inRun 9 (.fault 3)) (store 0x00003C 0))
    t.boot.device = .boot ∧ t.boot.bootGen = 1 ∧ (t.slot 9).state = .idle ∧ (t.slot 9).gen = 8 ∧
      t.boot.stage = some .loading := by decide +kernel

theorem test_windowExpiry_locking :
    let s := inRun.withFm { FrameMonitor.reset with lock := .locking, onTime := 1, timer := some 533 }
    (after (.windowExpiry []) s).fm = { FrameMonitor.reset with timer := some 533 } := by decide +kernel

theorem test_flywheelExpiry_stalls :
    let s := inRun.withFm
      { FrameMonitor.reset with lock := .holdover, onTime := 2, misses := 2, frame := 40, timer := some 512 }
    let t := after (.flywheelExpiry []) s
    t.fm.lock = .stalled ∧ t.fm.frame = 40 ∧
      t.mra.chosen.map (fun r => r.data) = some [17, 256, 0, 0, 40, 0, 0, 1] := by decide +kernel

/-- An engine mark taken first has restarted the timer: the expiry of the same instant does nothing (R35). -/
theorem test_windowExpiry_short :
    let s := inRun.withFm { FrameMonitor.reset with lock := .locked, onTime := 2, frame := 7, timer := some 0 }
    (after (.windowExpiry []) s).fm = s.fm := by decide +kernel

/-- 600 periods in LOCKED: the flywheel mark at 533 (R33), and 67 periods of HOLDOVER after it. -/
theorem test_connectionRead_expires :
    let s := inRun.withFm { FrameMonitor.reset with lock := .locked, onTime := 2, frame := 7, timer := some 0 }
    let t := after (.connectionRead 0x01000B bothBytes 600 []) s
    (t.fm.lock, t.fm.misses, t.fm.frame, t.fm.timer) = (.holdover, 1, 8, some 67) := by decide +kernel

theorem test_cadenceStepEnd_cycles :
    let copy := toneCopyOf toneWords
    let x := boundGenerator 9 copy true 1
    let b : ToneBinding := { program := 9, fresh := true, copy := copy, cadence := some (1, 0) }
    let t := after (.cadenceStepEnd 4) (inRun.setGenerator 4 { x with binding := some b })
    (t.generator 4).binding.bind (fun y => y.cadence) = some (0, 400) := by decide +kernel

theorem test_joinWindowClose :
    let t := after (.joinWindowClose 2) (inRun.setPlayer 2 { testPlayer with framesLeft := 0 })
    (t.player 2).isOpen = false ∧ (t.player 2).state = .running := by decide +kernel

theorem test_dwellExpiry_next :
    let s := (withSlotState inRun 6 (.tone 9 4 (some { deadline := 0, next := some 11 }))).setGenerator 4
      (boundGenerator 9 busyTone true 1)
    let t := after (.dwellExpiry 6) s
    (t.slot 6).state = .attaching 11 ∧ t.generator 4 = Generator.reset ∧
      t.mra.chosen.map (fun r => r.kind) = some (.attachFetch 6 11) := by decide +kernel

theorem test_waitTimeout :
    let s := (withSlotState inRun 6 (.waiting 30 testAnn none)).withQueue
      [{ slot := 6, program := 30, priority := 1, deadline := 0 }]
    let t := after .waitTimeout s
    (t.slot 6).state = .overflow 30 ∧ t.queue = [] ∧ (t.generator 15).count = 1 ∧
      t.mra.chosen.map (fun r => r.data.take 4) = some [3, 6, 30, 4] := by decide +kernel

theorem test_loadingWriteComplete :
    let t := after .loadingWriteComplete
      (withUnderWay (inBoot .loading none none) (lastWrite (.statusWrite .loading) 1))
    t.boot.stage = some .record ∧ t.mra.chosen.map (fun r => (r.kind, r.addr, r.length)) =
      some (.bootRead, 0x000000, 32) := by decide +kernel

theorem test_recordReadComplete_signature :
    let t := after (.recordReadComplete 0)
      (withUnderWay (inBoot .record none none) (lastOf .bootRead 0 (List.replicate 32 0)))
    t.boot.stage = some .failing ∧ t.mra.chosen.map (fun r => (r.addr, r.data)) = some (0x00003E, [0x0011]) := by
  decide +kernel

/-- An announcement is no congestion program. -/
theorem test_congestionFetchComplete_type :
    let t := after (.congestionFetchComplete 0)
      (withUnderWay (inBoot .congestion (some testRecord) none) (lastOf .congestionFetch 0 annWords))
    t.boot.stage = some .failing ∧ t.mra.chosen.map (fun r => r.data) = some [0x0015] := by decide +kernel

theorem test_ringClear_last :
    let t := after .ringClearWriteComplete
      (withUnderWay (inBoot .clearing (some testRecord) (some busyTone)) (lastWrite (.ringClear 511) 8))
    t.boot.stage = some .running ∧ t.mra.chosen.map (fun r => r.data) = some [0x0002] := by decide +kernel

theorem test_runningWriteComplete :
    let t := after .runningWriteComplete
      (withUnderWay (inBoot .running (some testRecord) (some busyTone)) (lastWrite (.statusWrite .running) 1))
    t.boot.device = .run ∧ (t.generator 15).isFreshFor 5 = true ∧
      t.mra.chosen.map (fun r => (r.addr, r.data)) = some (0x030000, [16, 256, 0, 0, 0, 0, 0, 1]) := by decide +kernel

theorem test_failureWriteComplete :
    (after .failureWriteComplete
      (withUnderWay (inBoot .failing (some testRecord) none) (lastWrite (.statusWrite .badLimit) 1))).boot.device =
        .bypass := by decide +kernel

/-- A TONE copy binds TG0, the lowest FREE generator, with a dwell of 3 × 800 frames. -/
theorem test_attachFetchComplete_tone :
    let t := after (.attachFetchComplete 0)
      (withUnderWay (withSlotState inRun 6 (.attaching 12)) (lastOf (.attachFetch 6 12) 7 toneWords))
    (t.slot 6).state = .tone 12 0 (some { deadline := 2400, next := some 9 }) ∧
      (t.generator 0).binding.bind (fun b => b.cadence) = some (0, 400) := by decide +kernel

/-- An ANNOUNCEMENT copy with no open player waits, and binds AP0. -/
theorem test_attachFetchComplete_waits :
    let t := after (.attachFetchComplete 0)
      (withUnderWay (withSlotState inRun 6 (.attaching 12)) (lastOf (.attachFetch 6 12) 7 annWords))
    t.queue = [{ slot := 6, program := 12, priority := 2, deadline := 3200 }] ∧ (t.player 0).state = .priming := by
  decide +kernel

theorem test_fillerFetchComplete :
    let t := after (.fillerFetchComplete 0)
      (withUnderWay (withSlotState inRun 6 (.waiting 30 testAnn none)) (lastOf (.fillerFetch 6 3) 7 toneWords))
    (t.slot 6).state = .waiting 30 testAnn (some 0) ∧ (t.generator 0).count = 1 := by decide +kernel

/-- TG15 adopts the copy and keeps its phase and count. -/
theorem test_refetchComplete :
    let s := (inRun.setGenerator 15 { inRun.generator 15 with phase1 := 77, count := 3 }).withRefetch
      { busy := true, gen := 2 }
    let t := after (.refetchComplete 0) (withUnderWay s (lastOf (.refetch 5) 2 toneWords))
    (t.generator 15).phase1 = 77 ∧ (t.generator 15).count = 3 ∧ t.refetch.busy = false ∧
      (t.generator 15).binding.bind (fun b => b.cadence) = some (0, 400) := by decide +kernel

theorem test_bindingFetchComplete :
    let s := inRun.setPlayer 3 { Player.reset with state := .priming, program := some 12, gen := 4 }
    let t := after (.bindingFetchComplete 0) (withUnderWay s (lastOf (.bindingFetch 3 12) 4 annWords))
    (t.player 3).walker.next = .fetching 0x000100 ∧ t.mra.chosen.map (fun r => (r.addr, r.length)) =
      some (0x100100, 4) := by decide +kernel

/-- Table 9-5: a PLAY of 9600 codes puts 64 in each half. -/
theorem test_stepFetchComplete_play :
    let w : Walker := { Walker.reset with state := .walking, bank := 0, next := .fetching 0x000100 }
    let s := inRun.setPlayer 3 { testPlayer with walker := w }
    let t := after (.stepFetchComplete 9600)
      (withUnderWay s (lastOf (.stepFetch 3) 4 [0x0001, 0x4000, 0x0000, 9600]))
    (t.player 3).halfA = .filling 0x4000 64 ∧ (t.player 3).halfB = .filling 0x4040 64 ∧
      (t.player 3).walker.current = some (.play 0x000100 0x4080 9472) := by decide +kernel

/-- A chunk at an odd offset: the low byte of the first word is not used. -/
theorem test_fillComplete_odd :
    let s := inRun.setPlayer 3 { testPlayer with halfA := .filling 0x4001 3 }
    let t := after (.fillComplete 0xDDCC) (withUnderWay s (lastOf (.fill 3 .a) 4 [0xBBAA, 0xDDCC]))
    (t.player 3).halfA = .full (.samples [0xBB, 0xCC, 0xDD]) := by decide +kernel

theorem test_reportWriteComplete_wraps :
    let s := inRun.withRrw { ReportRing.reset.setFlag 3 true with producer := 511, consumer := 511 }
    let t := after .reportWriteComplete (withUnderWay s (lastWrite (.reportWrite 3) 8))
    t.rrw.producer = 0 ∧ t.rrw.phase = false ∧ t.rrw.order = [3] ∧ t.attn = true := by decide +kernel

/-- A passing request that waits takes the port between two words of a burst. -/
theorem test_burstWordComplete :
    let s := withUnderWay inRun (ownRead (.stepFetch 3) 4 0 4)
    let t := after (.burstWordComplete 0x0001) (s.withBus { s.bus with waiting := [read .engine 0x400000] })
    t.bus.port = some (.passing (read .engine 0x400000)) ∧ t.mra.underWay.map (fun r => r.answer) = some [0x0001] := by
  decide +kernel

theorem test_ownBurstStart :
    let t := after .ownBurstStart State.reset
    t.bus.port = some .ownWord ∧ t.mra.chosen = none ∧
      t.mra.underWay.map (fun r => r.kind) = some (.statusWrite .loading) := by decide +kernel

/-- An empty queue of commands counts one REFCLK period (log 2). -/
theorem test_idle_counts :
    let s := State.reset.withFm { FrameMonitor.reset with lock := .locking, timer := some 9 }
    (match step s with
      | .next t => t.fm.timer
      | _ => none) = some 10 := by decide +kernel

/-! ### The laws in small states

A witness of a statement's hypotheses is named after the statement. -/

theorem inRun_slot (j : Slot) : inRun.slot j = SlotContext.reset := by
  simp [inRun, State.reset, State.released, State.slot]

theorem inRun_generator (g : GenIx) :
    inRun.generator g = if g = 15 then boundGenerator 5 busyTone true 0 else Generator.reset := by
  simp only [inRun, State.setGenerator_generator]
  simp [State.reset, State.released, State.generator]

theorem inRun_player (n : PlayerIx) : inRun.player n = Player.reset := by
  simp [inRun, State.reset, State.released, State.player]

/-- One slot waits, and no player has listeners. -/
theorem membership_waiting (s : State) (c : SlotContext) (e : WaitEntry) (ann : AnnFields) (filler : Option GenIx)
    (hq : s.queue = [e]) (hc : c.state = .waiting e.program ann filler)
    (hs : ∀ j, s.slot j = if j = e.slot then c else SlotContext.reset)
    (hp : ∀ n, (s.player n).listeners = [] ∧ (s.player n).state ≠ .running) : s.Membership where
  entriesOnce := by simp [hq]
  waiting j p := by
    rw [hs, hq]
    by_cases h : j = e.slot
    · subst h; simp [hc]
    · simp [h, SlotContext.reset, eq_comm]
  playing j n := by
    rw [hs, (hp n).1]
    by_cases h : j = e.slot <;> simp [h, hc, SlotContext.reset]
  ordered n := by simp [(hp n).1]
  listening n := by simp [(hp n).1, (hp n).2]

/-- One slot plays, with one player. -/
theorem membership_playing (s : State) (c : SlotContext) (pl : Player) (j : Slot) (n : PlayerIx) (p : Program)
    (ann : AnnFields) (r : Nat) (mark : Frame) (hq : s.queue = []) (hc : c.state = .playing p ann n r mark)
    (hs : ∀ i, s.slot i = if i = j then c else SlotContext.reset)
    (hp : ∀ m, s.player m = if m = n then pl else Player.reset) (hl : pl.listeners = [j]) (hr : pl.state = .running) :
    s.Membership where
  entriesOnce := by simp [hq]
  waiting i q := by
    rw [hs, hq]
    by_cases h : i = j <;> simp [h, hc, SlotContext.reset]
  playing i m := by
    rw [hs, hp]
    by_cases h : i = j <;> by_cases k : m = n
    · subst h k; simp [hc, hl]
    · subst h; simp [hc, k, Player.reset]; exact fun e => k e.symm
    · simp [h, k, hl, SlotContext.reset]
    · simp [h, k, Player.reset, SlotContext.reset]
  ordered m := by rw [hp]; by_cases k : m = n <;> simp [k, hl, Player.reset]
  listening m := by rw [hp]; by_cases k : m = n <;> simp [k, hl, hr, Player.reset]

/-- At most generator g is fresh. -/
theorem oneFreshGenerator_of (s : State) (g : GenIx) (h : ∀ i, i ≠ g → ∀ p, (s.generator i).isFreshFor p = false) :
    s.OneFreshGenerator := by
  intro p a b ha hb
  have key : ∀ i, (s.generator i).isFreshFor p = true → i = g := by
    intro i hi
    by_contra hn
    rw [h i hn p] at hi
    cases hi
  rw [key a ha, key b hb]

theorem inRun_oneFreshGenerator : inRun.OneFreshGenerator :=
  oneFreshGenerator_of _ 15 (fun i hi p => by rw [inRun_generator]; simp [hi, Generator.reset, Generator.isFreshFor])

/-- At most player n is fresh. -/
theorem oneFreshPlayer_of (s : State) (n : PlayerIx) (h : ∀ m, m ≠ n → (s.player m).state = .free) :
    s.OneFreshPlayer := by
  intro p a b ha hb
  have key : ∀ m, (s.player m).isFreshFor p = true → m = n := by
    intro m hm
    by_contra hn
    simp [Player.isFreshFor, h m hn] at hm
  rw [key a ha, key b hb]

theorem inRun_membership : inRun.Membership where
  entriesOnce := by decide +kernel
  waiting j p := by rw [inRun_slot]; simp [inRun, State.reset, State.released, SlotContext.reset]
  playing j n := by rw [inRun_slot, inRun_player]; simp [SlotContext.reset, Player.reset]
  ordered n := by rw [inRun_player]; simp [Player.reset]
  listening n := by rw [inRun_player]; simp [Player.reset]

theorem witness_MembershipKept : inRun.Membership ∧ step inRun = .next (idle inRun) := ⟨inRun_membership, rfl⟩

theorem witness_BoundsKept : inRun.fm.Lawful ∧ inRun.QueueBounded ∧ inRun.PlayersBounded ∧ inRun.WindowsLatched ∧
    step inRun = .next (idle inRun) := by
  refine ⟨?_, ?_, fun n => ?_, fun n => ?_, rfl⟩
  · exact ⟨⟨rfl, rfl⟩, fun h => absurd rfl h, fun t e h => by cases h⟩
  · exact Nat.zero_le 32
  · rw [inRun_player]
    simp [Player.Bounded, Player.reset, Walker.reset, Half.Bounded]
  · rw [inRun_player]
    simp [Player.reset]

theorem witness_OneFreshPlayerKept : inRun.OneFreshPlayer ∧ step inRun = .next (idle inRun) :=
  ⟨oneFreshPlayer_of _ 0 (fun m _ => by rw [inRun_player]; rfl), rfl⟩

theorem inRun_bootLaw : inRun.BootLaw where
  onlyInBoot := by decide +kernel
  drainFirst := by decide +kernel
  oneAtATime := by decide +kernel
  copiesInHand := by decide +kernel

theorem inRun_quiet : inRun.QuietOutsideRun where
  pairing h := absurd (by decide +kernel) h
  slots h := absurd (by decide +kernel) h
  gens h := absurd (by decide +kernel) h
  players h := absurd (by decide +kernel) h
  queue h := absurd (by decide +kernel) h

/-- In BOOT, where the laws of a boot and of the quiet part say something. -/
theorem inBoot_laws : State.reset.boot.device = .boot ∧ State.reset.BootLaw ∧ State.reset.pairing = none ∧
    State.reset.queue = [] := by
  refine ⟨rfl, ⟨?_, ?_, ?_, ?_⟩, rfl, rfl⟩ <;> decide +kernel

theorem witness_BootLawKept : inRun.BootLaw ∧ inRun.QuietOutsideRun ∧ step inRun = .next (idle inRun) :=
  ⟨inRun_bootLaw, inRun_quiet, rfl⟩

theorem witness_CongestionServedKept : inRun.boot.device = .run ∧ inRun.BootLaw ∧ inRun.QuietOutsideRun ∧
    inRun.CongestionServed ∧ inRun.OneFreshGenerator ∧ step inRun = .next (idle inRun) := by
  refine ⟨by decide +kernel, inRun_bootLaw, inRun_quiet, fun _ => ?_, inRun_oneFreshGenerator, rfl⟩
  exact ⟨testRecord, { program := 5, fresh := true, copy := busyTone, cadence := none }, rfl, by decide +kernel,
    by decide, rfl⟩

theorem inRun_counts : inRun.CountsExact where
  count g := by
    have h : (fun j => (inRun.slot j).state.source == SoundSource.generator g) = fun _ => false := by
      funext j
      rw [inRun_slot]
      rfl
    rw [inRun_generator, State.sourceCount, h]
    by_cases k : g = 15 <;> simp [k, boundGenerator, Generator.reset]
  free g k := by
    have h : g ≠ 15 := k
    rw [inRun_generator]
    simp [h, Generator.reset]

theorem witness_ReferenceCountsKept : inRun.BootLaw ∧ inRun.QuietOutsideRun ∧ inRun.CountsExact ∧
    step inRun = .next (idle inRun) := ⟨inRun_bootLaw, inRun_quiet, inRun_counts, rfl⟩

/-- One record of slot 3 written and not consumed. -/
def oneRecord : State := inRun.withRrw { ReportRing.reset.setFlag 3 true with producer := 1, order := [3] }

theorem oneRecord_ring : oneRecord.RingLaw where
  once := by decide +kernel
  flags src := by
    have h : oneRecord.unconsumed = [3] := by decide +kernel
    rw [h]
    have : ∀ x : Source, oneRecord.isPending x = decide (x = 3) := by
      intro x
      simp only [oneRecord, State.isPending, State.withRrw_rrw, ReportRing.setFlag, ReportRing.reset,
        Vector.getElem_set, Vector.getElem_replicate]
      by_cases k : x = 3
      · simp [k]
      · have h3 : ¬ (3 : Nat) = x.val := fun e => k (Fin.ext e.symm)
        simp [k, h3]
    simp [this]
  held src o h := by simp [oneRecord, State.heldOutcome, ReportRing.setFlag, ReportRing.reset] at h
  indices := by decide +kernel

theorem witness_ReportRingKept : oneRecord.RingLaw ∧ oneRecord.WritesInOrder ∧
    step oneRecord = .next (idle oneRecord) := by
  have h : oneRecord.reportWrites = [] := by decide +kernel
  refine ⟨oneRecord_ring, ⟨fun rec _ k r hr => ?_, ?_⟩, rfl⟩
  · simp [h] at hr
  · rw [h]; exact List.Pairwise.nil

/-! ### States that meet the hypotheses of the statements -/

theorem witness_FrontCommandStep : (inRun.withPending [.waitTimeout, .ownBurstStart]).pending =
    .waitTimeout :: [.ownBurstStart] := rfl

/-- A mark's ends wait with a dwell passed among them, or none wait, and the queue of commands is empty. -/
theorem witness_EndsTakenFirst :
    let s := (withSlotState inRun 6 (.tone 9 4 (some { deadline := 0, next := none }))).withFm
      { FrameMonitor.reset with endsOpen := true };
    s.pending = [] ∧ ¬ s.Settled ∧ (s.slot 6).state = .tone 9 4 (some { deadline := 0, next := none }) ∧
      deadlinePassed s.fm.frame 0 = true ∧ inRun.Settled :=
  ⟨rfl, (by intro h; cases h), by decide +kernel, by decide +kernel, rfl⟩

/-- No record accepted; one accepted, and the edges of its ranges. -/
theorem witness_WatchRanges : State.reset.boot.accepted = none ∧ inRun.boot.accepted = some testRecord ∧ testRecord.limit.toNat ≤ 256 ∧
    testRecord.cb.toNat % 2 = 0 ∧ testRecord.sb.toNat % 2 = 0 ∧ testRecord.pb.toNat % 2 = 0 ∧
    testRecord.cw.toNat % 2 = 0 ∧
    [0x00FFFF, 0x010000, 0x0101FF, 0x010200].map inRun.connectionEntry = [none, some 0, some 255, none] ∧
    [0x0121FF, 0x012200, 0x0123FF, 0x012400].map inRun.isVirtualWord = [false, true, true, false] ∧
    [0x01FFFF, 0x020000, 0x0218FF, 0x021900].map inRun.programAt = [none, some 0, some 199, none] ∧
    [0x033FFF, 0x034000, 0x034001, 0x034002].map inRun.isConsumerWord = [false, true, true, false] ∧
    [0x00003B, 0x00003C, 0x00003D, 0x00003E].map inRun.isCommandWord = [false, true, true, false] := by
  decide +kernel

/-- The last entry, 255. -/
theorem witness_ConnectionReadPairs : inRun.Settled ∧ inRun.boot.device = .run ∧
    inRun.connectionEntry 0x0101FE = some 255 ∧ (255 : Slot) ≠ 0 ∧ inRun.outstanding .engine = false ∧
    ∃ u, u = inRun.tick 9 := ⟨rfl, by decide +kernel, by decide +kernel, by decide, by decide +kernel, _, rfl⟩

/-- A state in RUN with the Frame Monitor in a lock state. -/
def withLock (lock : LockState) (onTime misses timer : Nat) (stall : Bool) : State :=
  inRun.withFm { FrameMonitor.reset with
    lock := lock
    onTime := onTime
    misses := misses
    stallReported := stall
    timer := some timer }

/-- Each lock state, with intervals 491, 492, 532 and 533 after the periods of the operand; the last locks after a
reported stall. -/
theorem witness_EngineFrameMark :
    [(withLock .unlocked 0 0 600 false, 0), (withLock .holdover 2 1 490 false, 1), (withLock .stalled 2 3 899 true, 1),
      (withLock .locking 1 0 490 false, 1), (withLock .locked 2 0 533 false, 0), (withLock .locking 0 0 0 true, 492),
      (withLock .locked 2 0 0 false, 532), (withLock .locking 1 0 531 true, 1)].map (fun x =>
      (!x.1.fm.endsOpen && x.1.boot.device == .run && x.1.connectionEntry 0x010000 == some 0 &&
        !x.1.outstanding .engine && (x.1.fm.lock != .locked || x.1.fm.misses == 0),
        (x.1.tick x.2).fm.lock, (x.1.tick x.2).fm.timer)) =
      [(true, .unlocked, some 600), (true, .holdover, some 491), (true, .stalled, some 900), (true, .locking, some 491),
        (true, .locked, some 533), (true, .locking, some 492), (true, .locked, some 532), (true, .locking, some 532)] := by
  decide +kernel

theorem witness_VirtualReadAnswered : let s := (withSlotState inRun 9 (.fault 3)).withPairing (some 9)
    s.Settled ∧ s.boot.device = .run ∧ s.isVirtualWord 0x0123FE = true ∧ s.connectionEntry 0x0123FE = none ∧
      s.outstanding .engine = false ∧ s.pairing = some 9 ∧ inRun.pairing = none := ⟨rfl, by decide +kernel⟩

/-- The code heard in each state: a slot in each. -/
theorem witness_VirtualReadAnswered_codes : let s := withSlotState inRun 9
    ((inRun.slot 9).state = .idle ∧ ((s (.attaching 3)).slot 9).state = .attaching 3 ∧
      ((s (.tone 3 4 none)).slot 9).state = .tone 3 4 none ∧
      ((s (.waiting 3 testAnn (some 4))).slot 9).state = .waiting 3 testAnn (some 4) ∧
      ((s (.waiting 3 testAnn none)).slot 9).state = .waiting 3 testAnn none ∧
      ((s (.playing 3 testAnn 2 1 0)).slot 9).state = .playing 3 testAnn 2 1 0 ∧
      ((s (.overflow 3)).slot 9).state = .overflow 3 ∧ ((s (.fault 3)).slot 9).state = .fault 3) := by decide +kernel

/-- In BOOT; of the call processor; a store; an engine read outside the ranges. -/
theorem witness_OtherRequestsPass :
    State.reset.Settled ∧ State.reset.outstanding .engine = false ∧ State.reset.boot.device ≠ .run ∧
    inRun.Settled ∧ inRun.outstanding .callProcessor = false ∧
    (read .callProcessor 0x010000).master = .callProcessor ∧ (store 0x010000 1).dir ≠ .read ∧
    inRun.outstanding .engine = false ∧ inRun.connectionEntry 0x010200 = none ∧ inRun.isVirtualWord 0x010200 = false :=
  ⟨rfl, by decide +kernel, by decide +kernel, rfl, by decide +kernel⟩

/-- A call processor's read of entry 2; an engine's read of it that agrees with its shadow; a store past the ring. -/
theorem witness_PassingRequestEnds :
    (let s := withPassing inRun (read .callProcessor 0x010004)
     s.Settled ∧ s.PassingOnPort (read .callProcessor 0x010004) ∧ s.connectionEntry 0x010004 = some 2) ∧
    (let s := withPassing inRun (read .engine 0x010004)
     s.PassingOnPort (read .engine 0x010004) ∧ isActive 0x0000 = isActive (s.slot 2).shadow ∧
       sourceOf 0x0000 = sourceOf (s.slot 2).shadow) ∧
    (let s := withPassing inRun (store 0x032000 7)
     IsAcceptance (.passingCompletion 0) ∧ s.Settled ∧ s.StoreOnPort (store 0x032000 7) 7 ∧
       s.connectionEntry 0x032000 = none ∧ s.programAt 0x032000 = none ∧ s.isConsumerWord 0x032000 = false ∧
       s.isCommandWord 0x032000 = false) :=
  ⟨⟨rfl, rfl, by decide +kernel⟩, ⟨rfl, by decide +kernel⟩, trivial, rfl, ⟨rfl, rfl⟩, by decide +kernel⟩

/-- A slot in each state, with another listener beside it and without. -/
theorem witness_DetachReleases : let s := withSlotState inRun 6
    ((s (.tone 9 4 none)).slot 6).state = .tone 9 4 none ∧ ((s (.overflow 9)).slot 6).state = .overflow 9 ∧
      ((s (.waiting 9 testAnn (some 4))).slot 6).state = .waiting 9 testAnn (some 4) ∧
      (let t := (s (.playing 30 testAnn 3 1 0)).setPlayer 3 { testPlayer with listeners := [6, 8] }
       (t.slot 6).state = .playing 30 testAnn 3 1 0 ∧ (t.player 3).listeners.filter (fun i => i != 6) ≠ []) ∧
      (let t := (s (.playing 30 testAnn 3 1 0)).setPlayer 3 testPlayer
       (t.slot 6).state = .playing 30 testAnn 3 1 0 ∧ (t.player 3).listeners.filter (fun i => i != 6) = []) := by
  decide +kernel

/-- A store into entry 255, and words that ask for program 199, for program 200 and for none. -/
theorem witness_ConnectionStoreTaken : let s := withPassing inRun (store 0x0101FE 0x81C7)
    IsAcceptance .connectionStore ∧ s.Settled ∧ s.StoreOnPort (store 0x0101FE 0x81C7) 0x81C7 ∧
      s.connectionEntry 0x0101FE = some 255 ∧ s.programAt 0x0101FE = none ∧ s.isConsumerWord 0x0101FE = false ∧
      s.isCommandWord 0x0101FE = false ∧ requestedProgram 0x81C7 = some 199 ∧ requestedProgram 0x81C8 = some 200 ∧
      requestedProgram 0x80C7 = none ∧ s.limit = 200 := ⟨trivial, rfl, ⟨rfl, rfl⟩, by decide +kernel⟩

/-- A read of slot 6 under way that carries the generation after 7, and none. -/
theorem witness_ConnectionStoreTaken_generation :
    (∃ r, (withUnderWay inRun (lastOf (.attachFetch 6 12) 8 toneWords)).mra.underWay = some r ∧
      readOfSlot 6 r.kind = true ∧ r.gen = some (7 + 1)) ∧ inRun.mra.underWay = none :=
  ⟨⟨_, rfl, by decide, rfl⟩, rfl⟩

theorem witness_AdoptionTaken : let s := withPassing inRun (read .engine 0x010000)
    s.Settled ∧ s.PassingOnPort (read .engine 0x010000) ∧ s.connectionEntry 0x010000 = some 0 ∧
      (isActive 0x812C ≠ isActive (s.slot 0).shadow ∨ sourceOf 0x812C ≠ sourceOf (s.slot 0).shadow) :=
  ⟨rfl, rfl, by decide +kernel⟩

/-- A store into program 199: a fresh generator, a RUNNING player and a PRIMING one of it; program 5 is TG15's. -/
theorem witness_ProgramStoreTaken :
    let primingPlayer : Player := { testPlayer with state := .priming, program := some 199, listeners := [] }
    let s := withPassing (((inRun.setGenerator 4 (boundGenerator 199 busyTone true 1)).setPlayer 2 primingPlayer).setPlayer 3
      { testPlayer with program := some 199 }) (store 0x0218FE 1)
    IsAcceptance .programStore ∧ s.Settled ∧ s.StoreOnPort (store 0x0218FE 1) 1 ∧ s.boot.accepted = some testRecord ∧
      s.programAt 0x0218FE = some 199 ∧ s.connectionEntry 0x0218FE = none ∧ s.isConsumerWord 0x0218FE = false ∧
      s.isCommandWord 0x0218FE = false ∧ (s.generator 4).isFreshFor 199 = true ∧
      ((s.player 2).state, (s.player 2).fresh) = (.priming, some true) ∧
      ((s.player 3).state, (s.player 3).fresh) = (.running, some true) ∧ s.programAt 0x0200A0 = some 5 ∧
      testRecord.congestionProgram = 5 := ⟨trivial, rfl, ⟨rfl, rfl⟩, rfl, by decide +kernel⟩

/-- A store into program 199 with a PRIMING player of it alone. -/
theorem witness_ProgramStoreTaken_freed :
    let s := withPassing (inRun.setPlayer 2 { testPlayer with state := .priming, program := some 199, listeners := [] })
      (store 0x0218FE 1)
    (s.player 2).program = some 199 ∧ (s.player 2).fresh = some true ∧ (s.player 2).state = .priming ∧ s.OneFreshPlayer :=
  ⟨by decide +kernel, by decide +kernel, by decide +kernel, oneFreshPlayer_of _ 2 fun m hm => by
    change (State.player (inRun.setPlayer 2 _) m).state = .free
    rw [State.setPlayer_player_ne _ _ _ _ hm, inRun_player]; rfl⟩

theorem oneRecord_passing (r : Request) : (withPassing oneRecord r).RingLaw :=
  ⟨oneRecord_ring.once, oneRecord_ring.flags, oneRecord_ring.held, oneRecord_ring.indices⟩

/-- An outcome of slot 3 held behind its record. -/
def heldOutcome : Outcome := slotRecord inRun 3 .slotFault 9 2

def heldRecord : State := oneRecord.withRrw (oneRecord.rrw.setHeld 3 (some heldOutcome))

theorem heldRecord_passing (r : Request) : (withPassing heldRecord r).RingLaw :=
  ⟨oneRecord_ring.once, oneRecord_ring.flags, fun src o h => by
    have : src = 3 ∧ o = heldOutcome := by
      simp only [withPassing, heldRecord, State.heldOutcome, State.withBus_rrw, State.withRrw_rrw, ReportRing.setHeld,
        Vector.getElem_set] at h
      split at h
      · rename_i e; exact ⟨Fin.ext e.symm, (Option.some.inj h).symm⟩
      · simp [oneRecord, ReportRing.setFlag, ReportRing.reset] at h
    obtain ⟨rfl, rfl⟩ := this
    exact ⟨(oneRecord_ring.flags 3).2 (by decide +kernel), rfl⟩, oneRecord_ring.indices⟩

/-- A requested index of 511, beyond P, releases the one record, without an outcome held behind it and with one. -/
theorem witness_ConsumerStoreTaken : let s := withPassing oneRecord (store 0x034000 511)
    let u := withPassing heldRecord (store 0x034000 511)
    IsAcceptance .consumerStore ∧ s.Settled ∧ s.StoreOnPort (store 0x034000 511) 511 ∧ s.RingLaw ∧ u.RingLaw ∧
      s.boot.accepted = some testRecord ∧ s.isConsumerWord 0x034000 = true ∧ s.connectionEntry 0x034000 = none ∧
      s.programAt 0x034000 = none ∧ s.isCommandWord 0x034000 = false ∧
      lowByte (511 : Word) = (if bothBytes.low then lowByte (511 : Word) else lowByte s.rrw.consumerCopy) ∧
      highByte (511 : Word) = (if bothBytes.high then highByte (511 : Word) else highByte s.rrw.consumerCopy) ∧
      1 = min ((511 : Word).extractLsb' 0 9 - s.rrw.consumer).toNat (s.rrw.producer - s.rrw.consumer).toNat ∧
      s.rrw.order.take 1 = [3] ∧ s.heldOutcome 3 = none ∧
      ((u.rrw.order.take 1).filter (fun x => (u.heldOutcome x).isSome))[0]? = some 3 ∧
      u.heldOutcome 3 = some heldOutcome :=
  ⟨trivial, rfl, ⟨rfl, rfl⟩, oneRecord_passing _, heldRecord_passing _, rfl, by decide +kernel⟩

/-- The part in BYPASS, its last record still accepted, with a report write queued since the boot failed. -/
def inBypass : State :=
  (inRun.withBoot { inRun.boot with device := .bypass }).withMra
    { queued := [ownWrite (.reportWrite 3) 0x030000 (List.replicate 8 0)], chosen := none, underWay := none }

/-- In RUN with no report write held, in BYPASS with one, and in BOOT. -/
theorem witness_CommandStoreReloads :
    (let s := withPassing inRun (store 0x00003C 0)
     IsAcceptance .commandStore ∧ s.Settled ∧ s.StoreOnPort (store 0x00003C 0) 0 ∧ s.isCommandWord 0x00003C = true ∧
       s.boot.device ≠ .boot ∧ s.reportWrites = []) ∧
    (let s := withPassing inBypass (store 0x00003C 0)
     s.Settled ∧ s.StoreOnPort (store 0x00003C 0) 0 ∧ s.isCommandWord 0x00003C = true ∧ s.boot.device = .bypass ∧
       s.reportWrites ≠ []) ∧
    (let s := withPassing State.reset (store 0x00003C 0)
     s.Settled ∧ s.StoreOnPort (store 0x00003C 0) 0 ∧ s.isCommandWord 0x00003C = true ∧ s.boot.device = .boot ∧
       s.reportWrites = []) :=
  ⟨⟨trivial, rfl, ⟨rfl, rfl⟩, by decide +kernel⟩, ⟨rfl, ⟨rfl, rfl⟩, by decide +kernel⟩, rfl, ⟨rfl, rfl⟩,
    by decide +kernel⟩

/-- In BYPASS the reload makes the report write held since the failed boot its drain (R16). -/
theorem test_commandStore_drains :
    let t := after .commandStore (withPassing inBypass (store 0x00003C 0))
    t.boot.stage = some .drain ∧ t.requestsHeld.map (fun r => (r.kind, r.drain)) = [(.reportWrite 3, true)] := by
  decide +kernel

/-- The burst starts on a free port, waits for a busy one, and goes on past its first word. -/
theorem witness_OwnBurstWords :
    (State.reset.Settled ∧ State.reset.mra.chosen = some (OwnRequest.firstLoading 0) ∧ State.reset.mra.underWay = none ∧
      State.reset.bus.port = none ∧ State.reset.bus.waiting = []) ∧
    (withPassing State.reset (read .engine 0)).bus.port ≠ none ∧
    (let r := ownRead .bootRead 0 0 32
     let s := withUnderWay (inBoot .record none none) r
     s.Settled ∧ s.bus.port = some .ownWord ∧ s.mra.underWay = some r ∧ r.done + 1 < r.length ∧ r.data = []) ∧
    (let r := lastWrite (.statusWrite .running) 1
     let s := withUnderWay (inBoot .running none none) r
     s.bus.port = some .ownWord ∧ s.mra.underWay = some r ∧ r.data[r.done]? = some 0) :=
  ⟨⟨rfl, rfl, rfl, rfl, rfl⟩, by decide +kernel, ⟨rfl, rfl, rfl, by decide, rfl⟩, rfl, rfl, rfl⟩

/-- A boot record that passes every check, in words. -/
def recordWordsRead : List Word :=
  [0x4D2A, 1, 0x0000, 0x0001, 0x2000, 0x0001, 0x0000, 0x0002, 200, 5, 0x0000, 0x0010, 0x0000, 0x0001, 0x0000, 0x0003,
   0x4000, 0x0003, 0, 0, 0, 0, 0, 0, 0, 0, 0, 0, 0, 0, 0, 2]

theorem test_record_parsed : parseBootRecord recordWordsRead = testRecord := by decide

/-- The first and the last word of a record. -/
theorem witness_RecordChecksInOrder : recordWordsRead[0]? = some 0x4D2A ∧ recordWordsRead[31]? = some 2 := ⟨rfl, rfl⟩

/-- A record that passes and one that fails. -/
theorem witness_RecordReadChecked : let r := lastOf .bootRead 0 recordWordsRead
    let s := withUnderWay (inBoot .record none none) r
    s.Settled ∧ s.LastWordOf r ∧ r.kind = .bootRead ∧ r.gen = some s.boot.bootGen ∧
      recordCheck s.boot.bootsel (parseBootRecord (r.advance 2).answer) = none ∧
      recordCheck s.boot.bootsel (parseBootRecord []) = some .badSignature :=
  ⟨rfl, ⟨rfl, rfl, rfl⟩, rfl, rfl, by decide +kernel, by decide +kernel⟩

/-- A copy that passes and one that fails; a ring that stands and one that moves. -/
theorem witness_CongestionCopyChecked : let r := lastOf .congestionFetch 0 toneWords
    let s := withUnderWay (inBoot .congestion (some testRecord) none) r
    s.Settled ∧ s.LastWordOf r ∧ r.kind = .congestionFetch ∧ r.gen = some s.boot.bootGen ∧
      s.boot.working = some testRecord ∧ checkCopy none (r.advance 0).answer = none ∧
      isTone (r.advance 0).answer = true ∧ checkCopy none annWords = none ∧ isTone annWords = false ∧
      (∀ a, s.boot.accepted = some a → a.rb ≠ testRecord.rb) ∧
      (∃ a, inRun.boot.accepted = some a ∧ a.rb = testRecord.rb) := by
  refine ⟨rfl, ⟨rfl, rfl, rfl⟩, rfl, rfl, rfl, by decide +kernel, by decide +kernel, by decide +kernel, by decide +kernel,
    ?_, testRecord, rfl, rfl⟩
  intro a h
  cases h

/-- The first clearing, the last but one and the last. -/
theorem witness_BootWritesLeadOn :
    (let r := lastWrite (.statusWrite .loading) 1
     let s := withUnderWay (inBoot .loading none none) r
     s.Settled ∧ s.LastWordOf r ∧ r.kind = .statusWrite .loading) ∧
    ∀ k, k = 0 ∨ k = 510 ∨ k = 511 →
      let r := lastWrite (.ringClear k) 8
      let s := withUnderWay (inBoot .clearing (some testRecord) (some busyTone)) r
      s.Settled ∧ s.LastWordOf r ∧ r.kind = .ringClear k ∧ s.boot.working = some testRecord :=
  ⟨⟨rfl, ⟨rfl, rfl, rfl⟩, rfl⟩, fun _ _ => ⟨rfl, ⟨rfl, rfl, rfl⟩, rfl, rfl⟩⟩

/-- A first boot, whose ring moves; and a reload onto the same ring, with no record of the device and with one. -/
theorem witness_RunEntered : let r := lastWrite (.statusWrite .running) 1
    let s := withUnderWay (inBoot .running (some testRecord) (some busyTone)) r
    let u := s.withBoot { s.boot with accepted := some testRecord }
    let v := u.withRrw (u.rrw.setFlag deviceSource true)
    s.Settled ∧ s.LastWordOf r ∧ r.kind = .statusWrite .running ∧ s.boot.working = some testRecord ∧
      s.boot.congestionCopy = some busyTone ∧ (∀ a, s.boot.accepted = some a → a.rb ≠ testRecord.rb) ∧
      u.LastWordOf r ∧ v.LastWordOf r ∧ u.isPending deviceSource = false ∧ v.isPending deviceSource = true ∧
      ∃ a, v.boot.accepted = some a ∧ a.rb = testRecord.rb := by
  refine ⟨rfl, ⟨rfl, rfl, rfl⟩, rfl, rfl, rfl, ?_, ⟨rfl, rfl, rfl⟩, ⟨rfl, rfl, rfl⟩, by decide +kernel, by decide +kernel,
    testRecord, rfl, rfl⟩
  intro a h
  cases h

theorem witness_BypassEntered : let r := lastWrite (.statusWrite .badSignature) 1
    let s := withUnderWay (inBoot .failing (some testRecord) none) r
    s.Settled ∧ s.LastWordOf r ∧ r.kind = .statusWrite .badSignature ∧ StatusCode.badSignature ≠ .loading ∧
      StatusCode.badSignature ≠ .running := ⟨rfl, ⟨rfl, rfl, rfl⟩, rfl, by decide, by decide⟩

/-- The timer at 533 and short of it by one; an engine mark can follow the giving up. -/
theorem witness_WindowExpiryTaken :
    (let s := withLock .locking 1 0 533 false
     s.Settled ∧ s.fm.lock = .locking ∧ s.fm.timer = some 533 ∧
       (let t := after (.windowExpiry []) s
        t.boot.device = .run ∧ t.connectionEntry 0x010000 = some 0 ∧ t.outstanding .engine = false)) ∧
    (withLock .locked 2 0 533 false).Settled ∧ (withLock .locked 2 0 533 false).fm.lock = .locked ∧
    ∀ p, (withLock .locked 2 0 532 false).fm.timer = some p → p < 533 :=
  ⟨⟨rfl, rfl, rfl, by decide +kernel⟩, rfl, rfl, fun p h => by cases h; decide⟩

/-- The timer at 512 and short of it by one; a lock state without this expiry. -/
theorem witness_FlywheelExpiryInHoldover :
    (withLock .holdover 2 1 512 false).Settled ∧ (withLock .holdover 2 1 512 false).fm.misses = 1 ∧
      (withLock .holdover 2 1 512 false).fm.timer = some 512 ∧
      (withLock .holdover 2 2 512 false).Settled ∧ (withLock .holdover 2 2 512 false).fm.misses = 2 ∧
      (withLock .stalled 2 3 700 true).Settled ∧ (withLock .stalled 2 3 700 true).fm.lock ≠ .holdover ∧
      (withLock .stalled 2 3 700 true).fm.lock ≠ .locking ∧ (withLock .stalled 2 3 700 true).fm.lock ≠ .locked ∧
      ∀ p, (withLock .holdover 2 1 511 false).fm.timer = some p → p < 512 :=
  ⟨rfl, rfl, rfl, rfl, rfl, rfl, by decide, by decide, by decide, fun p h => by cases h; decide⟩

/-- An expiry's mark; a read of entry 0 after 9 periods; a timer short of its expiry count by one, and one at it. -/
theorem witness_FrameCountAtMarksOnly :
    (∃ t, exec (.flywheelExpiry []) (withLock .holdover 2 1 512 false) = .next t ∧ t.fm.frame = 1) ∧
    (∃ t, exec (.connectionRead 0x010000 bothBytes 9 []) inRun = .next t) ∧
    (let s := withLock .locked 2 0 532 false
     ∀ p, s.fm.timer = some p → (s.fm.lock = .locking ∨ s.fm.lock = .locked → p < 533) ∧
       (s.fm.lock = .holdover → p < 512)) ∧
    (let s := withLock .locked 2 0 533 false
     s.Settled ∧ s.fm.timer = some 533 ∧ s.fm.lock = .locked ∧ ∃ v, exec (.windowExpiry []) s = .next v) :=
  ⟨⟨_, rfl, by decide +kernel⟩, ⟨_, rfl⟩, (fun p h => by cases h; decide), rfl, rfl, rfl, _, rfl⟩

/-- At the mark before, at the mark itself, and at the last mark the statement covers. -/
theorem witness_DeadlineAtNthMark : (800 < 2 ^ 31 ∧ 799 < 800 + 2 ^ 31 ∧ 800 < 800 + 2 ^ 31 ∧
    2147484447 < 800 + 2 ^ 31) ∧ deadlinePassed (0xFFFFFF00 + BitVec.ofNat 32 2147484447) (deadlineAfter 0xFFFFFF00 800) = true :=
  ⟨by decide, by decide⟩

/-- The edges of segments 1 and 7, and of the scaled values. -/
theorem witness_SampleCodes : (256 * 2 ^ (1 - 1) ≤ 256 ∧ 256 < 256 * 2 ^ 1) ∧
    (256 * 2 ^ (7 - 1) ≤ 32767 ∧ 32767 < 256 * 2 ^ 7) ∧ min (Int.natAbs (-32768)) 32767 = 32767 ∧
    Int.natAbs (-32767) ≤ 32767 := by decide

/-- A descriptor with a cadence of two steps, and one with four. -/
theorem witness_DescriptorCopyRead :
    (∀ i, i < 2 → lowByte (wordAt toneWords (12 + 2 * i)) ≠ 0) ∧ lowByte (wordAt toneWords (12 + 2 * 2)) = 0 ∧
    (∀ i, i < 4 → lowByte (wordAt (List.replicate 16 0x0101) (12 + 2 * i)) ≠ 0) ∧
    checkCopy (some 7) toneWords = none ∧ checkCopy (some 0) annWords = none ∧
    checkCopy (some 0) [0] = some .absent ∧ checkCopy (some 0) [3] = some .type ∧
    checkCopy (some 0) [1, 1] = some .reserved ∧ checkCopy (some 0) [1] = some .highway := by decide +kernel

/-- Slot 6 ATTACHING to program 12 with its fetch about to complete with these words. -/
def attaching6 (s : State) (words : List Word) : State :=
  withUnderWay (withSlotState s 6 (.attaching 12)) (lastOf (.attachFetch 6 12) 7 words)

theorem attaching6_generators (s : State) (words : List Word) (h : s.OneFreshGenerator) :
    (attaching6 s words).OneFreshGenerator := h

theorem attaching6_players (s : State) (words : List Word) (h : s.OneFreshPlayer) :
    (attaching6 s words).OneFreshPlayer := h

/-- An answer of another generation, and one whose type is no kind. -/
theorem witness_AttachFetchChecked : let r := lastOf (.attachFetch 6 12) 7 [9, 0]
    let s := attaching6 inRun [9, 0]
    s.Settled ∧ s.LastWordOf r ∧ r.kind = .attachFetch 6 12 ∧ r.gen = some (s.slot 6).gen ∧
      (s.slot 6).state = .attaching 12 ∧ checkCopy (some ((6 : Slot).val / 32)) (r.advance 0).answer = some .type ∧
      (lastOf (.attachFetch 6 12) 8 [9, 0]).gen ≠ some (s.slot 6).gen :=
  ⟨rfl, ⟨rfl, rfl, rfl⟩, rfl, by decide +kernel⟩

/-- TG4 fresh for program 12, and no other generator. -/
def tone12 : State := inRun.setGenerator 4 (boundGenerator 12 busyTone true 1)

theorem tone12_oneFreshGenerator : tone12.OneFreshGenerator := by
  intro p a b ha hb
  have key : ∀ i, (tone12.generator i).isFreshFor p = true → (i = 4 ∧ p = 12) ∨ (i = 15 ∧ p = 5) := by
    intro i hi
    rw [tone12, State.setGenerator_generator, inRun_generator] at hi
    by_cases h : i = 4
    · subst h
      simp [boundGenerator, Generator.isFreshFor] at hi
      exact .inl ⟨rfl, hi.symm⟩
    · by_cases k : i = 15
      · subst k
        simp [boundGenerator, Generator.isFreshFor] at hi
        exact .inr ⟨rfl, hi.symm⟩
      · simp [h, k, Generator.reset, Generator.isFreshFor] at hi
  rcases key a ha with ⟨rfl, rfl⟩ | ⟨rfl, rfl⟩ <;> rcases key b hb with ⟨rfl, h⟩ | ⟨rfl, h⟩ <;> first | rfl | cases h

/-- The three placements: TG4 fresh for 12; TG0 FREE; and, with every generator bound, none. -/
theorem witness_TonePlaced : let r := lastOf (.attachFetch 6 12) 7 toneWords
    let s := attaching6 tone12 toneWords
    let u := attaching6 inRun toneWords
    (s.Settled ∧ s.LastWordOf r ∧ r.kind = .attachFetch 6 12 ∧ r.gen = some (s.slot 6).gen ∧
      (s.slot 6).state = .attaching 12 ∧ checkCopy (some ((6 : Slot).val / 32)) (r.advance 0).answer = none ∧
      isTone (r.advance 0).answer = true ∧ (s.generator 4).isFreshFor 12 = true) ∧ s.OneFreshGenerator ∧
    (u.Settled ∧ u.LastWordOf r ∧ (∀ h : GenIx, (u.generator h).isFreshFor 12 = false) ∧
      (u.generator 0).binding = none) ∧ u.OneFreshGenerator :=
  ⟨⟨rfl, ⟨rfl, rfl, rfl⟩, rfl, by decide +kernel⟩, attaching6_generators _ _ tone12_oneFreshGenerator,
    ⟨rfl, ⟨rfl, rfl, rfl⟩, by decide +kernel⟩, attaching6_generators _ _ inRun_oneFreshGenerator⟩

/-- Every generator bound, and none of TG0 to TG14 fresh. -/
def allBound : State := inRun.withGens (Vector.replicate 16 (boundGenerator 9 busyTone false 1))

theorem witness_TonePlaced_overflow : let r := lastOf (.attachFetch 6 12) 7 toneWords
    let s := attaching6 allBound toneWords
    s.Settled ∧ s.LastWordOf r ∧ s.OneFreshGenerator ∧ (∀ h : GenIx, (s.generator h).isFreshFor 12 = false) ∧
      ∀ g : GenIx, (s.generator g).binding ≠ none := by
  refine ⟨rfl, ⟨rfl, rfl, rfl⟩, attaching6_generators _ _ (oneFreshGenerator_of _ 0 fun i _ p => ?_), by decide +kernel,
    by decide +kernel⟩
  simp [allBound, State.generator, State.withGens, boundGenerator, Generator.isFreshFor]

/-- Player 3 alone is bound: open to direct arrivals for program 12. -/
def open12 : State := inRun.setPlayer 3 { testPlayer with program := some 12 }

theorem open12_oneFreshPlayer : open12.OneFreshPlayer :=
  oneFreshPlayer_of _ 3 (fun m hm => by rw [open12, State.setPlayer_player_ne _ _ _ _ hm, inRun_player]; rfl)

theorem inRun_oneFreshPlayer : inRun.OneFreshPlayer := oneFreshPlayer_of _ 0 (fun m _ => by rw [inRun_player]; rfl)

/-- An announcement without a max wait. -/
def impatientWords : List Word := [0xFF02, 0, 0x0100, 0, 0x0200, 0x0206, 0, 0, 0, 0, 0, 0, 0, 0, 0, 0]

/-- Thirty-two entries of other programs. -/
def fullQueue : List WaitEntry :=
  (List.finRange 32).map (fun i => { slot := Fin.ofNat 256 (100 + i.val), program := 40, priority := 0, deadline := 900 })

/-- An open player; no open player and no max wait; no open player and a full queue. -/
theorem witness_ArrivalServedOrRefused :
    (let r := lastOf (.attachFetch 6 12) 7 annWords
     let s := attaching6 open12 annWords
     s.Settled ∧ s.LastWordOf r ∧ r.gen = some (s.slot 6).gen ∧ (s.slot 6).state = .attaching 12 ∧
       checkCopy (some ((6 : Slot).val / 32)) (r.advance 0).answer = none ∧ isTone (r.advance 0).answer = false ∧
       (s.player 3).program = some 12 ∧ (s.player 3).isOpen = true) ∧ open12.OneFreshPlayer ∧
    (let r := lastOf (.attachFetch 6 12) 7 impatientWords
     let s := attaching6 inRun impatientWords
     s.Settled ∧ s.LastWordOf r ∧ (annFieldsOf (r.advance 0).answer).maxWait = 0 ∧
       ∀ n : PlayerIx, (s.player n).program = some 12 → (s.player n).isOpen = false) ∧ inRun.OneFreshPlayer ∧
    (let r := lastOf (.attachFetch 6 12) 7 annWords
     let s := attaching6 (inRun.withQueue fullQueue) annWords
     s.Settled ∧ s.LastWordOf r ∧ (annFieldsOf (r.advance 0).answer).maxWait ≠ 0 ∧ s.queue.length = 32 ∧
       ∀ n : PlayerIx, (s.player n).program = some 12 → (s.player n).isOpen = false) :=
  ⟨⟨rfl, ⟨rfl, rfl, rfl⟩, by decide +kernel⟩, open12_oneFreshPlayer, ⟨rfl, ⟨rfl, rfl, rfl⟩, by decide +kernel⟩,
    inRun_oneFreshPlayer, rfl, ⟨rfl, rfl, rfl⟩, by decide +kernel⟩

/-- No open player, 31 entries queued, a filler 3 that no generator serves; AP0 the lowest FREE player. -/
theorem witness_ArrivalQueued : let r := lastOf (.attachFetch 6 12) 7 annWords
    let s := attaching6 (inRun.withQueue (fullQueue.take 31)) annWords
    (s.Settled ∧ s.LastWordOf r ∧ r.kind = .attachFetch 6 12 ∧ r.gen = some (s.slot 6).gen ∧
      (s.slot 6).state = .attaching 12 ∧ checkCopy (some ((6 : Slot).val / 32)) (r.advance 0).answer = none ∧
      isTone (r.advance 0).answer = false ∧
      (∀ n : PlayerIx, (s.player n).program = some 12 → (s.player n).isOpen = false) ∧
      (annFieldsOf (r.advance 0).answer).maxWait ≠ 0 ∧ s.queue.length = 31 ∧
      (annFieldsOf (r.advance 0).answer).filler = some 3 ∧ (3 : Program).val < s.limit ∧
      (∀ g : GenIx, (s.generator g).isFreshFor 3 = false) ∧ (∀ m : PlayerIx, (s.player m).isFreshFor 12 = false) ∧
      (s.player 0).state = .free) ∧ s.OneFreshGenerator ∧ (tone12.generator 4).isFreshFor 12 = true :=
  ⟨⟨rfl, ⟨rfl, rfl, rfl⟩, rfl, by decide +kernel⟩, attaching6_generators _ _ inRun_oneFreshGenerator, by decide +kernel⟩

/-- A filler fetch of program 12 for waiting slot 6, with TG4 fresh for it and with TG0 FREE. -/
theorem witness_FillerFetchTaken : let r := lastOf (.fillerFetch 6 12) 7 toneWords
    let s := withUnderWay (withSlotState tone12 6 (.waiting 30 testAnn none)) r
    let u := withUnderWay (withSlotState inRun 6 (.waiting 30 testAnn none)) r
    (s.Settled ∧ s.LastWordOf r ∧ r.kind = .fillerFetch 6 12 ∧ r.gen = some (s.slot 6).gen ∧
      (s.slot 6).state = .waiting 30 testAnn none ∧ checkCopy (some ((6 : Slot).val / 32)) (r.advance 0).answer = none ∧
      isTone (r.advance 0).answer = true ∧ (s.generator 4).isFreshFor 12 = true) ∧ s.OneFreshGenerator ∧
    (u.Settled ∧ u.LastWordOf r ∧ (∀ h : GenIx, (u.generator h).isFreshFor 12 = false) ∧
      (u.generator 0).binding = none) ∧ u.OneFreshGenerator :=
  ⟨⟨rfl, ⟨rfl, rfl, rfl⟩, rfl, by decide +kernel⟩, tone12_oneFreshGenerator,
    ⟨rfl, ⟨rfl, rfl, rfl⟩, by decide +kernel⟩, inRun_oneFreshGenerator⟩

/-- A dwell passed at its mark and one not yet passed; a next program below L, one at L, and none. -/
theorem witness_DwellExpiryTaken : let s := (withSlotState inRun 6
        (.tone 9 4 (some { deadline := 0, next := some 199 }))).setGenerator 4 (boundGenerator 9 busyTone true 1)
    (s.slot 6).state = .tone 9 4 (some { deadline := 0, next := some 199 }) ∧ deadlinePassed s.fm.frame 0 = true ∧
      (199 : Program).val < s.limit ∧ s.limit ≤ (200 : Program).val ∧ s.boot.accepted.isSome = true ∧
      s.isPending (slotSource 6) = false ∧
      deadlinePassed s.fm.frame 1 = false ∧ (inRun.slot 6).state = .idle := by decide +kernel

/-- Slot 6 waits for program 30 with a filler on TG4, its deadline passed. -/
def waiting6 : State :=
  ((withSlotState inRun 6 (.waiting 30 testAnn (some 4))).setGenerator 4 (boundGenerator 9 busyTone true 1)).withQueue
    [{ slot := 6, program := 30, priority := 1, deadline := 0 }]

theorem waiting6_slot (j : Slot) : waiting6.slot j =
    if j = 6 then { state := .waiting 30 testAnn (some 4), shadow := 0, gen := 7 } else SlotContext.reset := by
  simp only [waiting6, withSlotState, State.withQueue_slot, State.setGenerator_slot, State.setSlot_slot, inRun_slot]

theorem waiting6_player (n : PlayerIx) : waiting6.player n = Player.reset := inRun_player n

theorem waiting6_membership : waiting6.Membership :=
  membership_waiting waiting6 _ _ testAnn (some 4) rfl rfl waiting6_slot
    (fun n => by rw [waiting6_player]; exact ⟨rfl, by decide⟩)

theorem witness_WaitTimeoutTaken : waiting6.Membership ∧
    waiting6.queue = [] ++ { slot := 6, program := 30, priority := 1, deadline := 0 } :: [] ∧
    deadlinePassed waiting6.fm.frame 0 = true ∧ (waiting6.slot 6).state = .waiting 30 testAnn (some 4) :=
  ⟨waiting6_membership, rfl, by decide +kernel⟩

/-- Frames left 0 and above 0; a cadence at the end of its last step. -/
theorem witness_WindowAndCadenceEnds :
    (inRun.player 2).framesLeft = 0 ∧ ((inRun.setPlayer 2 testPlayer).player 2).framesLeft ≠ 0 ∧
    (let b : ToneBinding := { program := 9, fresh := true, copy := toneCopyOf toneWords, cadence := some (1, 0) }
     let s := inRun.setGenerator 4 { boundGenerator 9 (toneCopyOf toneWords) true 1 with binding := some b }
     (s.generator 4).binding = some b ∧ b.cadence = some (1, 0) ∧
       b.copy.cadence[(1 + 1) % b.copy.cadence.length]? = some { duration := 10, mask := .both }) := by decide +kernel

/-- A generator without a cadence, one FREE, and one in the last frame of a step without components; an order that names
a block. -/
theorem witness_GeneratorMarked :
    (tone12.generator 4).binding = some { program := 12, fresh := true, copy := busyTone, cadence := none } ∧
    (inRun.generator 4).binding = none ∧ orderWellFormed [.player 3, .tones] = true ∧
    (let b : ToneBinding := { program := 9, fresh := true, copy := toneCopyOf toneWords, cadence := some (1, 1) }
     (((inRun.setGenerator 4 { boundGenerator 9 b.copy true 1 with binding := some b }).generator 4).binding = some b ∧
       b.cadence = some (1, 1) ∧ b.copy.cadence[1]? = some { duration := 20, mask := .none } ∧ 1 ≤ 1 ∧
       b.copy.cadence[(1 + 1) % b.copy.cadence.length]? = some { duration := 10, mask := .both })) := by decide +kernel

/-- A copy that passes, one that fails, one of another type, and another generation. -/
theorem witness_RefetchTaken : let r := lastOf (.refetch 5) 2 toneWords
    let s := withUnderWay (inRun.withRefetch { busy := true, gen := 2 }) r
    s.Settled ∧ s.LastWordOf r ∧ r.kind = .refetch 5 ∧ r.gen = some s.refetch.gen ∧ s.refetch.busy = true ∧
      checkCopy none (r.advance 0).answer = none ∧ isTone (r.advance 0).answer = true ∧
      checkCopy none [0] = some .absent ∧ checkCopy none annWords = none ∧ isTone annWords = false ∧
      (s.generator 15).binding ≠ none ∧ (lastOf (.refetch 5) 3 toneWords).gen ≠ some s.refetch.gen :=
  ⟨rfl, ⟨rfl, rfl, rfl⟩, rfl, rfl, rfl, by decide +kernel⟩

/-- Player 3 PRIMING for program 30 with its binding fetch about to complete, and slot 6 waiting for it. -/
def priming30 (words : List Word) (overtaken : Bool) : State :=
  withUnderWay (waiting6.setPlayer 3 { Player.reset with state := .priming, program := some 30, gen := 4 })
    { lastOf (.bindingFetch 3 30) 4 words with overtaken := overtaken }

theorem priming30_membership (words : List Word) (overtaken : Bool) : (priming30 words overtaken).Membership :=
  membership_waiting _ _ _ testAnn (some 4) rfl rfl waiting6_slot (fun n => by
    change (State.player (waiting6.setPlayer 3 _) n).listeners = [] ∧ (State.player (waiting6.setPlayer 3 _) n).state ≠ _
    rw [State.setPlayer_player, waiting6_player]
    by_cases h : n = 3 <;> simp [h, Player.reset])

/-- A copy of another type, and a valid copy that a store overtook. -/
theorem witness_BindingFetchFails :
    (let r := lastOf (.bindingFetch 3 30) 4 toneWords
     let s := priming30 toneWords false
     s.Settled ∧ s.LastWordOf r ∧ r.kind = .bindingFetch 3 30 ∧ s.Membership ∧ r.gen = some (s.player 3).gen ∧
       (s.player 3).state = .priming ∧ (s.player 3).fresh = none ∧ isTone (r.advance 0).answer = true ∧
       (s.slot 6).state = .waiting 30 testAnn (some 4)) ∧
    (let r := { lastOf (.bindingFetch 3 30) 4 annWords with overtaken := true }
     let s := priming30 annWords true
     s.Settled ∧ s.LastWordOf r ∧ s.Membership ∧ checkCopy none (r.advance 0).answer = none ∧
       isTone (r.advance 0).answer = false ∧ r.overtaken = true) :=
  ⟨⟨rfl, ⟨rfl, rfl, rfl⟩, rfl, priming30_membership _ _, by decide +kernel⟩, rfl, ⟨rfl, rfl, rfl⟩,
    priming30_membership _ _, by decide +kernel⟩

/-- The playlist start 000100h; the last start that can be read; one beyond it; and an odd one, with slot 6 the one that
waits. -/
theorem witness_BindingFetchTaken : let r := lastOf (.bindingFetch 3 30) 4 annWords
    let s := priming30 annWords false
    s.Settled ∧ s.LastWordOf r ∧ r.kind = .bindingFetch 3 30 ∧ r.overtaken = false ∧ s.Membership ∧
      (∀ j, j ∈ [6] ↔ ∃ ann filler, (s.slot j).state = .waiting 30 ann filler) ∧
      s.player 3 = { Player.reset with state := .priming, program := some 30, gen := (s.player 3).gen } ∧
      r.gen = some (s.player 3).gen ∧ checkCopy none (r.advance 0).answer = none ∧
      isTone (r.advance 0).answer = false ∧ (playerCopyOf (r.advance 0).answer).start.toNat = 0x100 ∧
      s.storeSize = 0x10000 ∧ 0xFFF8 + 8 ≤ s.storeSize ∧ s.storeSize < 0xFFFA + 8 ∧ 0x101 % 2 = 1 ∧
      (∀ q, testAnn.after = some q → q.val < s.limit) := by
  refine ⟨rfl, ⟨rfl, rfl, rfl⟩, rfl, rfl, priming30_membership _ _, fun j => ?_, by decide +kernel⟩
  rw [show (priming30 annWords false).slot j = _ from waiting6_slot j]
  by_cases h : j = 6 <;> simp [h, SlotContext.reset]

/-- A walker FETCHING with both halves taken. -/
def fetching3 (current : Option CurrentStep) (words : List Word) : State :=
  withUnderWay (inRun.setPlayer 3 { testPlayer with
    walker := { Walker.reset with state := .walking, current := current, next := .fetching 0x100 }
    halfA := .full (.silence 5)
    halfB := .full (.silence 5) }) (lastOf (.stepFetch 3) 4 words)

/-- A step HELD behind another; a GAP promoted with its successor readable; and a GAP of 0 that fails. -/
theorem witness_StepFetchTaken :
    (let r := lastOf (.stepFetch 3) 4 [2, 0, 0, 40]
     let s := fetching3 (some (.gap 0xF8 9)) [2, 0, 0, 40]
     s.Settled ∧ s.LastWordOf r ∧ r.kind = .stepFetch 3 ∧ r.gen = some (s.player 3).gen ∧
       (s.player 3).walker.state = .walking ∧ (s.player 3).walker.next = .fetching 0x100 ∧
       (s.player 3).half (s.player 3).walker.nextHalf ≠ .empty ∧ (s.player 3).state = .running ∧
       (s.player 3).walker.current ≠ none) ∧
    (let s := fetching3 none [2, 0, 0, 40]
     let w := (s.player 3).walker
     let st := parseStep [2, 0, 0, 40]
     w.current = none ∧ promotionFault s.storeSize { w with next := .held 0x100 st } st = none ∧
       stepKind st = some .gap ∧ (takeStep 0x100 { w with next := .held 0x100 st } 0x100 st .gap).2 = 0x108 ∧
       0x108 % 2 = 0 ∧ 0x108 + 8 ≤ s.storeSize) ∧
    promotionFault 0x10000 Walker.reset (parseStep [2, 0, 0, 0]) = some .zeroCount :=
  ⟨⟨rfl, ⟨rfl, rfl, rfl⟩, rfl, by decide +kernel⟩, by decide +kernel, by decide +kernel⟩

/-- A long call from bank 2 and its return, with nothing between. -/
theorem witness_StepsTaken : ∃ u v : Walker, ∃ call : PlaylistStep,
    takeStep 0 { Walker.reset with bank := 2 } 8 call .call = (u, 0x0A0100) ∧ v.stack = u.stack ∧
    (∃ x, takeStep 0 v 0x0A0110 call .ret = (x, 16)) ∧ Walker.reset.stack = [] :=
  ⟨_, _, { kind := 4, long := true, ref := 0x0100, refHigh := 0x0A, count := 0 }, rfl, rfl, ⟨_, rfl⟩, rfl⟩

/-- Each thing that stands to be placed in an EMPTY half; a half not EMPTY; and each next entry that can be promoted, with
a successor that is odd, one beyond the store, and one that is not. -/
theorem witness_WalkerSettles :
    let pl : Player := { testPlayer with walker := { Walker.reset with state := .walking } }
    pl.half pl.walker.nextHalf = .empty ∧
    ({ pl.walker with current := some (.play 0x100 0x4001 70) }.current = some (.play 0x100 0x4001 70) ∧
      63 = min 70 (64 - 0x4001 % 2)) ∧
    [CurrentStep.gap 0x100 9, .join 0x100, .endPass 0x100].map (fun c => ({ pl.walker with current := some c }.state,
      { pl.walker with current := some c }.current)) = [(.walking, some (.gap 0x100 9)), (.walking, some (.join 0x100)),
        (.walking, some (.endPass 0x100))] ∧
    { pl.walker with state := .halting .badStep }.state = .halting .badStep ∧ Walker.reset.state = .stopped ∧
    { pl with halfA := .full (.silence 2), walker := { pl.walker with current := some (.gap 0 9) } }.half .a ≠ .empty ∧
    pl.walker.current = none ∧ pl.walker.next = .empty ∧
    promotionFault 0x10000 pl.walker (parseStep [2, 0, 0, 0]) = some .zeroCount ∧
    promotionFault 0x10000 pl.walker (parseStep [2, 0, 0, 40]) = none ∧
    stepKind (parseStep [2, 0, 0, 40]) = some .gap ∧
    [0x0101, 0xFFF8, 0xFFF0].map (fun o => (takeStep 0x100 pl.walker o (parseStep [2, 0, 0, 40]) .gap).2) =
      [0x0109, 0x10000, 0xFFF8] := by decide +kernel

/-- A chunk of three codes at an odd offset, and another generation. -/
theorem witness_FillTaken : let r := lastOf (.fill 3 .a) 4 [0xBBAA, 0xDDCC]
    let s := withUnderWay (inRun.setPlayer 3 { testPlayer with halfA := .filling 0x4001 3 }) r
    s.Settled ∧ s.LastWordOf r ∧ r.kind = .fill 3 .a ∧ r.gen = some (s.player 3).gen ∧
      (s.player 3).half .a = .filling 0x4001 3 ∧ (s.player 3).state = .running ∧
      0x4001 % 2 + 3 ≤ 2 * (r.advance 0xDDCC).answer.length ∧
      (lastOf (.fill 3 .a) 5 [0xBBAA, 0xDDCC]).gen ≠ some (s.player 3).gen :=
  ⟨rfl, ⟨rfl, rfl, rfl⟩, rfl, by decide +kernel⟩

/-- Player 3 PRIMING with the fill of its current half about to complete, and slot 6 waiting for it. -/
def firstFill (p : Program) : State :=
  withUnderWay (waiting6.setPlayer 3 { testPlayer with
    state := .priming
    program := some p
    listeners := []
    halfA := .filling 0x4000 2 }) (lastOf (.fill 3 .a) 4 [0xBBAA])

theorem firstFill_membership (p : Program) : (firstFill p).Membership :=
  membership_waiting _ _ _ testAnn (some 4) rfl rfl waiting6_slot (fun n => by
    change (State.player (waiting6.setPlayer 3 _) n).listeners = [] ∧ (State.player (waiting6.setPlayer 3 _) n).state ≠ _
    rw [State.setPlayer_player, waiting6_player]
    by_cases h : n = 3 <;> simp [h, Player.reset])

/-- With a slot waiting for its program, and with none; a JOIN mark passed over, sound and a FAULT mark at the head in
PRIMING; a join point of a stale player. -/
theorem witness_FirstPassStarts : let r := lastOf (.fill 3 .a) 4 [0xBBAA]
    (let s := firstFill 30
     s.Settled ∧ s.LastWordOf r ∧ r.kind = .fill 3 .a ∧ s.Membership ∧ (s.player 3).half .a = .filling 0x4000 2 ∧
       r.gen = some (s.player 3).gen ∧ (s.player 3).state = .priming ∧ (s.player 3).current = .a ∧
       (s.player 3).fresh = some true ∧ (s.player 3).program = some 30 ∧ (s.player 3).copy ≠ none ∧
       s.hasWaiter 30 = true) ∧
    ((firstFill 31).Membership ∧ (firstFill 31).hasWaiter 31 = false) ∧
    [Chunk.mark .join, .samples [1], .mark (.fault .noAudio)].map (fun c =>
      let pl := { testPlayer with state := .priming, listeners := [], halfA := .full c }
      (pl.state, pl.half pl.current)) = [(.priming, .full (.mark .join)), (.priming, .full (.samples [1])),
        (.priming, .full (.mark (.fault .noAudio)))] ∧
    { testPlayer with fresh := some false }.fresh = some false :=
  ⟨⟨rfl, ⟨rfl, rfl, rfl⟩, rfl, firstFill_membership 30, by decide +kernel⟩, ⟨firstFill_membership 31, by decide +kernel⟩,
    by decide, rfl⟩

/-- The first and the last code of a chunk, the last frame of a silence, a half not FULL, and a JOIN mark, after which the
player stays RUNNING, and a FAULT mark, after which it does not. -/
theorem witness_PlayerMarked : let pl := { testPlayer with halfA := .full (.samples [0xAA, 0xBB]) }
    pl.state = .running ∧ pl.half pl.current = .full (.samples [0xAA, 0xBB]) ∧ pl.copy ≠ none ∧
      ([0xAA, 0xBB] : List Byte)[pl.cursor]? = some 0xAA ∧ pl.cursor + 1 < 2 ∧
      ([0xAA, 0xBB] : List Byte)[{ pl with cursor := 1 }.cursor]? = some 0xBB ∧
      ({ pl with halfA := .full (.silence 1) }.half .a = .full (.silence 1) ∧ pl.cursor + 1 = 1) ∧
      Player.reset.state ≠ .running ∧ testPlayer.half testPlayer.current = .empty ∧
      { testPlayer with halfA := .full (.mark .join) }.half .a = .full (.mark .join) ∧
      (((inRun.setPlayer 3 testPlayer).takeMark 3 .join).player 3).state = .running ∧
      (((inRun.setPlayer 3 testPlayer).takeMark 3 (.fault .noAudio)).player 3).state ≠ .running := by decide +kernel

/-- Slot 6 on player 3 with r listens left. -/
def playing6 (r : Nat) (ann : AnnFields) : State :=
  (withSlotState inRun 6 (.playing 30 ann 3 r 0)).setPlayer 3 testPlayer

theorem playing6_membership (r : Nat) (ann : AnnFields) : (playing6 r ann).Membership := by
  refine membership_playing (playing6 r ann) { state := .playing 30 ann 3 r 0, shadow := 0, gen := 7 } testPlayer 6 3 30 ann
    r 0 rfl rfl (fun i => ?_) (fun m => ?_) rfl rfl
  · simp only [playing6, withSlotState, State.setPlayer_slot, State.setSlot_slot, inRun_slot]
  · simp only [playing6, withSlotState, State.setPlayer_player, State.setSlot_player, inRun_player]

/-- Two listens left, one left, and one left with an after program below and at L; a window; the one listener of a fault. -/
theorem witness_PassEnds : (playing6 2 testAnn).Membership ∧ (playing6 1 testAnn).Membership ∧
    ((playing6 2 testAnn).player 3).state = .running ∧ ((playing6 2 testAnn).player 3).program = some 30 ∧
    ((playing6 2 testAnn).slot 6).state = .playing 30 testAnn 3 2 0 ∧
    ((playing6 1 { testAnn with after := some 199 }).slot 6).state = .playing 30 { testAnn with after := some 199 } 3 1 0 ∧
    (playing6 1 testAnn).limit = 200 ∧ (playing6 1 testAnn).hasWaiter 30 = false ∧
    ((playing6 1 testAnn).player 3).fresh = some true ∧ ((playing6 2 testAnn).player 3).copy ≠ none ∧
    ((playing6 1 testAnn).player 3).listeners = [] ++ 6 :: [] ∧
    (∀ j, j ∈ [6] ↔ ∃ q ann r mark, ((playing6 1 testAnn).slot j).state = .playing q ann 3 r mark ∧ r ≤ 1) := by
  refine ⟨playing6_membership _ _, playing6_membership _ _, by decide +kernel, by decide +kernel, by decide +kernel,
    by decide +kernel, by decide +kernel, by decide +kernel, by decide +kernel, by decide +kernel, by decide +kernel,
    fun j => ?_⟩
  simp only [playing6, withSlotState, State.setPlayer_slot, State.setSlot_slot, inRun_slot]
  by_cases h : j = 6 <;> simp [h, SlotContext.reset]

/-- An eligible entry between a lower and an equal one; and a queue whose programs all have fresh players. -/
theorem witness_AllocatorChooses :
    let e (j : Slot) (p : Program) (pr : BitVec 2) : WaitEntry := { slot := j, program := p, priority := pr, deadline := 9 }
    let s := inRun.withQueue [e 1 20 1, e 2 21 2, e 3 22 2]
    s.queue = [e 1 20 1] ++ e 2 21 2 :: [e 3 22 2] ∧ (∀ m : PlayerIx, (s.player m).isFreshFor 21 = false) ∧
      (e 1 20 1).priority < (e 2 21 2).priority ∧ (e 3 22 2).priority ≤ (e 2 21 2).priority ∧
      ∃ m, ((inRun.setPlayer 3 testPlayer).player m).isFreshFor 30 = true :=
  ⟨rfl, by decide +kernel, by decide, by decide, 3, by decide +kernel⟩

/-- In RUN a fill of AP3, a descriptor fetch and a report write; in BOOT a drain's write behind another's. -/
theorem witness_ChoiceOrder :
    let fill := ownRead (.fill 3 .a) 4 0 32
    let fetch := ownRead (.attachFetch 6 12) 7 0 16
    let report := ownWrite (.reportWrite 3) 0 (List.replicate 8 0)
    let s := inRun.withMra { queued := [report, fetch, fill], chosen := none, underWay := none }
    let u := inRun.withMra { queued := [report, fetch], chosen := none, underWay := none }
    let b := (inBoot .drain none none).withMra
      { queued := [fetch, { report with drain := true }], chosen := none, underWay := none }
    s.mra.chosen = none ∧ s.mra.underWay = none ∧ s.boot.device = .run ∧ fill ∈ s.mra.queued ∧
      s.mra.queued = [report, fetch] ++ fill :: [] ∧ (∀ x ∈ [report, fetch], x.kind.sound? ≠ some 3) ∧
      s.choose.mra.chosen = some fill ∧
      fill.kind.sound? = some 3 ∧ (∀ q ∈ u.mra.queued, q.kind.sound? = none) ∧
      u.mra.queued = [report] ++ fetch :: [] ∧ fetch.kind.descriptor?.isSome = true ∧ report.kind.isReport = true ∧
      b.boot.device = .boot ∧ b.mra.queued = [fetch] ++ { report with drain := true } :: [] ∧ fetch.drain = false ∧
      fetch.kind.isBoot = false := by
  decide +kernel

/-- A store into entry 2 in RUN, from a state whose choice is made: the fetch it queues is chosen, where none was. -/
theorem witness_ChoiceOrder_steps : let v := withPassing inRun (store 0x010004 0x812C)
    v.Settled ∧ v.ChoiceMade ∧ v.mra.chosen = none ∧
      step (v.withPending [.connectionStore]) = .next (after .connectionStore v) ∧
      exec .connectionStore v = .next (after .connectionStore v) ∧
      (after .connectionStore v).mra.chosen.map (fun r => r.kind) = some (.attachFetch 2 44) :=
  ⟨rfl, fun _ _ _ h => (nomatch (show _ ∈ ([] : List OwnRequest) from h)), rfl, rfl, rfl, by decide +kernel⟩

/-- A report write in RUN, and the last of a drain; P at 511. -/
theorem witness_ReportWriteTaken : let r := lastWrite (.reportWrite 3) 8
    let s := withUnderWay (inRun.withRrw { ReportRing.reset with producer := 511, consumer := 511 }) r
    let u := withUnderWay (inBoot .drain none none) { r with drain := true }
    s.Settled ∧ s.LastWordOf r ∧ r.kind = .reportWrite 3 ∧ s.boot.stage ≠ some .drain ∧ s.rrw.producer = 511 ∧
      u.Settled ∧ u.LastWordOf { r with drain := true } ∧ u.boot.stage = some .drain ∧
      ∀ q ∈ u.mra.chosen.toList ++ u.mra.queued, q.drain = false :=
  ⟨rfl, ⟨rfl, rfl, rfl⟩, rfl, by decide +kernel, rfl, rfl, ⟨rfl, rfl, rfl⟩, rfl, by decide +kernel⟩

end Sys2Proof.Tests
end

namespace Sys2Proof.Machine

/-! ### The requests of the boot sequence (R16 to R22) -/

/-- The kinds of the boot's requests not yet completed: all that the boot law reads of the request queue. -/
def State.bootKinds (s : State) : List OwnKind := (s.requestsHeld.map (fun r => r.kind)).filter OwnKind.isBoot

theorem bootKinds_eq_map_bootHeld (s : State) : s.bootKinds = s.bootHeld.map (fun r => r.kind) := List.filter_map ..

theorem OwnKind.isBoot_of_isLate (k : OwnKind) (h : k.isLate = true) : k.isBoot = true := by
  unfold OwnKind.isLate at h
  split at h
  · rfl
  · rfl
  · cases h

/-- The boot law reads the Boot Loader and the kinds of its requests alone. -/
theorem bootLaw_iff_bootKinds (s : State) : s.BootLaw ↔
    (s.boot.device ≠ .boot → s.boot.stage = none ∧ s.bootKinds = []) ∧
    (s.boot.stage = some .drain → s.bootKinds = []) ∧ s.bootKinds.length ≤ 1 ∧
    ∀ k ∈ s.bootKinds, k.isLate = true → s.boot.working.isSome = true ∧ s.boot.congestionCopy.isSome = true := by
  have late : (∀ k ∈ s.bootKinds, k.isLate = true →
        s.boot.working.isSome = true ∧ s.boot.congestionCopy.isSome = true) ↔
      ∀ r ∈ s.requestsHeld, r.kind.isLate = true →
        s.boot.working.isSome = true ∧ s.boot.congestionCopy.isSome = true := by
    constructor
    · intro h r hr hl
      exact h r.kind (List.mem_filter.mpr ⟨List.mem_map_of_mem hr, r.kind.isBoot_of_isLate hl⟩) hl
    · intro h k hk hl
      obtain ⟨r, hr, rfl⟩ := List.mem_map.mp (List.mem_filter.mp hk).1
      exact h r hr hl
  rw [late, bootKinds_eq_map_bootHeld, List.map_eq_nil_iff, List.length_map]
  exact ⟨fun h => ⟨h.onlyInBoot, h.drainFirst, h.oneAtATime, h.copiesInHand⟩, fun ⟨a, b, c, d⟩ => ⟨a, b, c, d⟩⟩

/-- The Boot Loader stands and no request of the boot is new. -/
structure BootStands (s t : State) : Prop where
  boot : t.boot = s.boot
  kinds : t.bootKinds.Subperm s.bootKinds

theorem BootStands.trans {s t u : State} (a : BootStands s t) (b : BootStands t u) : BootStands s u :=
  ⟨b.boot.trans a.boot, b.kinds.trans a.kinds⟩

theorem bootKinds_of_mra {s t : State} (m : t.mra = s.mra) : t.bootKinds = s.bootKinds := by
  unfold State.bootKinds State.requestsHeld; rw [m]

theorem BootStands.of_eq {s t : State} (b : t.boot = s.boot) (m : t.mra = s.mra) : BootStands s t :=
  ⟨b, by rw [bootKinds_of_mra m]⟩

/-- What is done before that to neither the Boot Loader nor the own requests makes no difference. -/
theorem BootStands.after {s t u : State} (h : BootStands t u) (b : t.boot = s.boot) (m : t.mra = s.mra) :
    BootStands s u := (BootStands.of_eq b m).trans h

theorem BootStands.foldl {α : Type} (f : State → α → State) (h : ∀ s a, BootStands s (f s a)) (l : List α) :
    ∀ s, BootStands s (l.foldl f s) := by
  induction l with
  | nil => exact fun s => .of_eq rfl rfl
  | cons a l ih => exact fun s => (h s a).trans (ih _)

theorem BootStands.bootLaw {s t : State} (h : BootStands s t) (l : s.BootLaw) : t.BootLaw := by
  rw [bootLaw_iff_bootKinds] at l ⊢
  obtain ⟨only, drain, one, copies⟩ := l
  have gone : s.bootKinds = [] → t.bootKinds = [] := fun e => List.subperm_nil.mp (e ▸ h.kinds)
  rw [h.boot]
  exact ⟨fun d => ⟨(only d).1, gone (only d).2⟩, fun d => gone (drain d), h.kinds.length_le.trans one,
    fun k hk => copies k (h.kinds.subset hk)⟩

theorem bootKinds_enqueue (s : State) (r : OwnRequest) :
    (s.enqueue r).bootKinds = s.bootKinds ++ [r.kind].filter OwnKind.isBoot := by
  simp [State.bootKinds, State.requestsHeld, State.enqueue]

theorem bootStands_enqueue (s : State) (r : OwnRequest) (h : r.kind.isBoot = false) : BootStands s (s.enqueue r) :=
  ⟨rfl, by rw [bootKinds_enqueue]; simp [h, List.Subperm.refl]⟩

theorem bootStands_withdraw (s : State) (f : OwnKind → Bool) : BootStands s (s.withdraw f) := by
  refine ⟨rfl, List.Sublist.subperm (.filter _ (.map _ ?_))⟩
  refine .append (.append (.refl _) ?_) List.filter_sublist
  show (s.mra.chosen.filter _).toList.Sublist _
  cases s.mra.chosen with
  | none => exact .refl _
  | some r => rw [Option.toList_filter]; exact List.filter_sublist

theorem bootStands_takeOutcome (s : State) (o : Outcome) : BootStands s (s.takeOutcome o) := by
  unfold State.takeOutcome
  split
  · exact .of_eq rfl rfl
  · split
    · exact .of_eq rfl rfl
    · exact (bootStands_enqueue (s.withRrw (s.rrw.setFlag o.source true)) (ownWrite _ _ _) rfl).after rfl rfl

theorem bootStands_releaseSource (s : State) (src : Source) : BootStands s (s.releaseSource src) := by
  unfold State.releaseSource; dsimp only
  split
  · exact .of_eq rfl rfl
  · exact BootStands.after (bootStands_takeOutcome _ _) rfl rfl

theorem OwnKind.isBoot_of_isServing (k : OwnKind) (h : k.isServing = true) : k.isBoot = false := by
  unfold OwnKind.isServing at h; simp at h; exact h.1

theorem Move.bootStands {s t : State} (m : Move s t) : BootStands s t := by
  cases m with
  | enqueue r h _ => exact bootStands_enqueue s r (r.kind.isBoot_of_isServing h)
  | withdraw f _ => exact bootStands_withdraw s f
  | outcome o j _ => exact bootStands_takeOutcome s o
  | slot | generator | tones | player | leave | append => exact .of_eq rfl rfl

theorem Moves.bootStands {s t : State} (m : Moves s t) : BootStands s t := by
  induction m with
  | refl => exact .of_eq rfl rfl
  | step _ b ih => exact ih.trans b.bootStands

theorem bootStands_of_perm (s t : State) (b : t.boot = s.boot) (h : t.requestsHeld.Perm s.requestsHeld) :
    BootStands s t := ⟨b, ((h.map _).filter _).subperm⟩

theorem bootKinds_of_lastWord (s : State) (r : OwnRequest) (h : s.LastWordOf r) :
    s.bootKinds = [r.kind].filter OwnKind.isBoot ++ s.delivered.bootKinds := by
  unfold State.bootKinds State.requestsHeld
  rw [h.underWay, delivered_underWay, delivered_chosen, delivered_queued]
  simp [List.filter_cons]; split <;> rfl

theorem bootStands_delivered (s : State) (r : OwnRequest) (h : s.LastWordOf r) : BootStands s s.delivered :=
  ⟨rfl, by rw [bootKinds_of_lastWord s r h]; exact (List.sublist_append_right _ _).subperm⟩

/-! ### The boot's own events -/

/-- What holds where a request of the boot completes: it was the only one, in BOOT, and the drain is over. -/
structure BootTurn (s : State) (k : OwnKind) : Prop where
  device : s.boot.device = .boot
  stage : s.boot.stage ≠ some .drain
  alone : s.bootKinds = []
  copies : k.isLate = true → s.boot.working.isSome = true ∧ s.boot.congestionCopy.isSome = true

theorem State.BootLaw.turn {s : State} {r : OwnRequest} (l : s.BootLaw) (h : s.LastWordOf r) (b : r.kind.isBoot = true) :
    BootTurn s.delivered r.kind := by
  rw [bootLaw_iff_bootKinds, bootKinds_of_lastWord s r h] at l
  obtain ⟨only, drain, one, copies⟩ := l
  simp only [List.filter_cons, b, if_true, List.filter_nil, List.cons_append, List.nil_append, List.length_cons,
    reduceCtorEq, and_false, imp_false, not_not] at only drain one copies
  exact ⟨only, drain, List.length_eq_zero_iff.mp (by omega), copies r.kind List.mem_cons_self⟩

theorem bootLaw_of_none {s : State} (h : s.bootKinds = []) (d : s.boot.device ≠ .boot → s.boot.stage = none) :
    s.BootLaw := by
  rw [bootLaw_iff_bootKinds, h]
  exact ⟨fun e => ⟨d e, rfl⟩, fun _ => rfl, Nat.zero_le _, fun _ m => nomatch m⟩

/-- The boot's next request, queued after its last one completed, keeps the boot law. -/
theorem bootLaw_next {s : State} (r : OwnRequest) (h : s.bootKinds = []) (d : s.boot.device = .boot)
    (g : s.boot.stage ≠ some .drain)
    (c : r.kind.isLate = true → s.boot.working.isSome = true ∧ s.boot.congestionCopy.isSome = true) :
    (s.enqueue r).BootLaw := by
  rw [bootLaw_iff_bootKinds, bootKinds_enqueue, h, List.nil_append]
  refine ⟨fun e => absurd d e, fun e => absurd e g, List.length_filter_le _ _, fun k hk hl => ?_⟩
  have e : k = r.kind := List.mem_singleton.mp (List.mem_filter.mp hk).1
  exact c (e ▸ hl)

theorem BootTurn.bootLaw {s : State} {k : OwnKind} (h : BootTurn s k) : s.BootLaw :=
  bootLaw_of_none h.alone fun e => absurd h.device e

/-- The boot's next request is queued on entry to a stage other than the drain. -/
theorem BootTurn.next {s : State} {k : OwnKind} (h : BootTurn s k) (b : BootLoader) (r : OwnRequest)
    (d : b.device = s.boot.device) (g : b.stage ≠ some .drain)
    (c : r.kind.isLate = true → b.working.isSome = true ∧ b.congestionCopy.isSome = true) :
    ((s.withBoot b).enqueue r).BootLaw := bootLaw_next r h.alone (d.trans h.device) g c

theorem recordCheck_ne_running (b : Byte) (r : BootRecord) : recordCheck b r ≠ some .running := by
  unfold recordCheck
  repeat' split
  all_goals simp

theorem StatusCode.isLate_iff (c : StatusCode) : (OwnKind.statusWrite c).isLate = true ↔ c = .running := by
  cases c <;> simp [OwnKind.isLate]

theorem BootTurn.recordRead {s : State} {k : OwnKind} (h : BootTurn s k) (g : Option Generation) (ws : List Word) :
    (s.recordRead g ws).BootLaw := by
  unfold State.recordRead
  split
  · dsimp only
    split
    · rename_i code hc
      refine h.next _ _ rfl (by simp) fun l => absurd hc ?_
      rw [(StatusCode.isLate_iff code).mp l]
      exact recordCheck_ne_running _ _
    · exact h.next _ _ rfl (by simp) (by simp [ownRead, OwnKind.isLate])
  · exact h.bootLaw

theorem BootTurn.congestionFetched {s : State} {k : OwnKind} (h : BootTurn s k) (g : Option Generation)
    (ws : List Word) : (s.congestionFetched g ws).BootLaw := by
  unfold State.congestionFetched
  split
  · exact h.bootLaw
  · rename_i w hw
    split
    · split
      · exact h.next _ _ rfl (by simp) (by simp [ownWrite, OwnKind.isLate])
      · dsimp only
        split <;> exact h.next _ _ rfl (by simp) (by simp [State.modifyBoot, hw])
    · exact h.bootLaw

theorem BootTurn.recordCleared {s : State} {n : Nat} (h : BootTurn s (.ringClear n)) : (s.recordCleared n).BootLaw := by
  unfold State.recordCleared
  split
  · exact h.bootLaw
  · split
    · exact h.next s.boot _ rfl h.stage fun _ => h.copies rfl
    · exact h.next _ _ rfl (by simp) fun _ => h.copies rfl

theorem bindCongestion_eq (s : State) (c : Program) (x : Option ToneCopy) :
    (s.bindCongestion c x).boot = s.boot ∧ (s.bindCongestion c x).mra = s.mra := by
  cases x <;> exact ⟨rfl, rfl⟩

theorem BootTurn.enterRun {s : State} {k : OwnKind} (h : BootTurn s k) : s.enterRun.BootLaw := by
  unfold State.enterRun
  split
  · exact h.bootLaw
  · rename_i w _
    dsimp only
    refine (bootStands_takeOutcome _ _).bootLaw ((BootStands.of_eq (bindCongestion_eq _ _ _).1
      (bindCongestion_eq _ _ _).2).bootLaw (bootLaw_of_none ?_ fun _ => rfl))
    show State.bootKinds (if s.boot.ringMoves w then s.restartRing else s) = []
    split
    · refine List.subperm_nil.mp ?_
      have := (bootStands_withdraw (s.withRrw ReportRing.reset) OwnKind.isReport).kinds
      rwa [show (s.withRrw ReportRing.reset).bootKinds = [] from h.alone] at this
    · exact h.alone

theorem BootTurn.enterBypass {s : State} {k : OwnKind} (h : BootTurn s k) : s.enterBypass.BootLaw :=
  bootLaw_of_none h.alone fun _ => rfl

/-! ### Reports, refetches and reloads -/

theorem bootStands_reportWritten (s : State) (src : Source) : BootStands s (s.reportWritten src) := .of_eq rfl rfl

/-- The end of a drain queues the LOADING write, the boot's only request then. -/
theorem bootLaw_reportDone (s : State) (src : Source) (l : s.BootLaw) : (s.reportDone src).BootLaw := by
  unfold State.reportDone; dsimp only
  split
  · rename_i hd
    have d : s.boot.stage = some .drain := hd.1
    have none : s.bootKinds = [] := ((bootLaw_iff_bootKinds s).mp l).2.1 d
    have dev : s.boot.device = .boot := by
      by_contra e
      rw [(l.onlyInBoot e).1] at d; cases d
    exact bootLaw_next _ none dev (by simp [State.modifyBoot]) (by simp [ownWrite, OwnKind.isLate])
  · exact (bootStands_reportWritten s src).bootLaw l

theorem bootStands_startRefetch (s : State) (a : Addr) (c : Program) : BootStands s (s.startRefetch a c) :=
  (bootStands_withdraw s OwnKind.isRefetch).trans
    (BootStands.after (bootStands_enqueue ((s.withdraw OwnKind.isRefetch).withRefetch _) (ownRead _ _ _ _) rfl) rfl rfl)

theorem bootStands_refetchDone (s : State) (c : Program) (g : Option Generation) (ws : List Word) :
    BootStands s (s.refetchDone c g ws) := by
  unfold State.refetchDone
  split
  · dsimp only
    split
    · exact .of_eq rfl rfl
    · exact BootStands.after (bootStands_takeOutcome _ _) rfl rfl
  · exact .of_eq rfl rfl

theorem bootStands_consumerTaken (s : State) (d : Word) (b : Strobes) : BootStands s (s.consumerTaken d b) := by
  unfold State.consumerTaken; dsimp only
  exact BootStands.after (.foldl _ bootStands_releaseSource _ _) rfl rfl

/-- A reload leaves report writes alone in the queue of own requests (R160). -/
theorem bootKinds_abandon (s : State) : (s.withMra s.mra.abandon).bootKinds = [] := by
  have kept : ∀ r x, keepForDrain r = some x → x.kind.isBoot = false := by
    intro r x h
    unfold keepForDrain at h
    split at h <;> cases h
    rename_i hr
    show r.kind.isBoot = false
    cases hk : r.kind <;> simp_all [OwnKind.isReport, OwnKind.isBoot]
  unfold State.bootKinds State.requestsHeld
  rw [List.filter_eq_nil_iff]
  intro k hk
  obtain ⟨x, hx, rfl⟩ := List.mem_map.mp hk
  simp only [State.withMra_mra, Arbiter.abandon, List.mem_append, Option.mem_toList, Option.bind_eq_some_iff,
    List.mem_filterMap] at hx
  rcases hx with (⟨r, -, e⟩ | ⟨r, -, e⟩) | ⟨r, -, e⟩ <;> simp [kept r x e]

theorem bootLaw_beginBoot (s : State) (h : s.bootKinds = []) (d : s.boot.device = .boot) : s.beginBoot.BootLaw := by
  unfold State.beginBoot
  split
  · exact bootLaw_of_none h fun e => absurd d e
  · exact bootLaw_next _ h d (by simp [State.modifyBoot]) (by simp [ownWrite, OwnKind.isLate])

theorem bootLaw_reload (s : State) : s.reload.BootLaw := by
  unfold State.reload; dsimp only
  refine bootLaw_beginBoot _ ?_ rfl
  refine (bootKinds_of_mra ?_).trans (bootKinds_abandon s)
  show State.mra (if s.boot.device = .boot then _ else _) = _
  split <;> rfl

theorem bootLaw_released (b : Byte) (l : List Instr) : (State.released b l).BootLaw := by
  rw [bootLaw_iff_bootKinds, show (State.released b l).bootKinds = [.statusWrite .loading] from rfl]
  simp [State.released, OwnKind.isLate]

/-- Every change of the part keeps the boot law. -/
theorem Change.bootLaw {s t : State} (c : Change s t) (l : s.BootLaw) : t.BootLaw := by
  cases c with
  | serving h => exact h.moves.bootStands.bootLaw l
  | pending | bus | pairing | fm => exact BootStands.bootLaw (s := s) (.of_eq rfl rfl) l
  | device o _ => exact (bootStands_takeOutcome s o).bootLaw l
  | startRefetch a c => exact (bootStands_startRefetch s a c).bootLaw l
  | refetch c g ws => exact (bootStands_refetchDone s c g ws).bootLaw l
  | choose => exact (bootStands_of_perm _ _ (choose_boot s) (choose_requestsHeld s)).bootLaw l
  | start r h u =>
    refine BootStands.bootLaw (bootStands_of_perm s _ rfl ?_) l
    simp [State.requestsHeld, h, u]
  | underWay r x h k _ _ =>
    refine BootStands.bootLaw (s := s) ⟨rfl, ?_⟩ l
    simp [State.bootKinds, State.requestsHeld, h, k, List.Subperm.refl]
  | delivered r h _ => exact (bootStands_delivered s r h).bootLaw l
  | report r src h _ => exact bootLaw_reportDone _ _ ((bootStands_delivered s r h).bootLaw l)
  | loading r h k => exact (l.turn h (by rw [k]; rfl)).next _ _ rfl (by simp) (by simp [ownRead, OwnKind.isLate])
  | record r ws h k => exact (l.turn h (by rw [k]; rfl)).recordRead _ _
  | congestion r ws h k => exact (l.turn h (by rw [k]; rfl)).congestionFetched _ _
  | cleared r n h k => exact BootTurn.recordCleared (k ▸ l.turn h (by rw [k]; rfl))
  | run r h k => exact (l.turn h (by rw [k]; rfl)).enterRun
  | bypass r c h k _ => exact (l.turn h (by rw [k]; rfl)).enterBypass
  | consumer d b _ _ => exact (bootStands_consumerTaken s d b).bootLaw l
  | reload => exact bootLaw_reload s
  | reset b => exact bootLaw_released b _

/-! ### Outside RUN the part serves nobody (R8, R91, R92, R106, R142) -/

/-- What `State.QuietOutsideRun` asks for outside RUN. -/
structure State.ServesNobody (s : State) : Prop where
  pairing : s.pairing = none
  slots : ∀ j, (s.slot j).state = .idle ∧ (s.slot j).shadow = 0
  gens : ∀ g, s.generator g = Generator.reset
  players : ∀ n, s.player n = { Player.reset with gen := (s.player n).gen }
  queue : s.queue = []

theorem quietOutsideRun_iff (s : State) : s.QuietOutsideRun ↔ (s.boot.device ≠ .run → s.ServesNobody) :=
  ⟨fun q d => ⟨q.pairing d, q.slots d, q.gens d, q.players d, q.queue d⟩,
    fun h => ⟨fun d => (h d).pairing, fun d => (h d).slots, fun d => (h d).gens, fun d => (h d).players,
      fun d => (h d).queue⟩⟩

/-- The device state, the pairing register and the banks that serve callers are as they were. -/
structure BanksStand (s t : State) : Prop where
  device : t.boot.device = s.boot.device
  pairing : t.pairing = s.pairing
  slots : t.slots = s.slots
  gens : t.gens = s.gens
  players : t.players = s.players
  queue : t.queue = s.queue

theorem BanksStand.refl (s : State) : BanksStand s s := ⟨rfl, rfl, rfl, rfl, rfl, rfl⟩

theorem BanksStand.trans {s t u : State} (a : BanksStand s t) (b : BanksStand t u) : BanksStand s u :=
  ⟨b.1.trans a.1, b.2.trans a.2, b.3.trans a.3, b.4.trans a.4, b.5.trans a.5, b.6.trans a.6⟩

theorem BanksStand.servesNobody {s t : State} (b : BanksStand s t) (q : s.ServesNobody) : t.ServesNobody where
  pairing := b.pairing.trans q.pairing
  slots j := by unfold State.slot; rw [b.slots]; exact q.slots j
  gens g := by unfold State.generator; rw [b.gens]; exact q.gens g
  players n := by unfold State.player; rw [b.players]; exact q.players n
  queue := b.queue.trans q.queue

theorem banksStand_takeOutcome (s : State) (o : Outcome) : BanksStand s (s.takeOutcome o) :=
  ⟨by simp, by simp, by simp, by simp, by simp, by simp⟩

theorem banksStand_releaseSource (s : State) (src : Source) : BanksStand s (s.releaseSource src) := by
  unfold State.releaseSource; dsimp only
  split
  · exact ⟨rfl, rfl, rfl, rfl, rfl, rfl⟩
  · refine BanksStand.trans ?_ (banksStand_takeOutcome _ _)
    exact ⟨rfl, rfl, rfl, rfl, rfl, rfl⟩

theorem banksStand_consumerTaken (s : State) (d : Word) (b : Strobes) : BanksStand s (s.consumerTaken d b) := by
  have go : ∀ (l : List Source) (t : State), BanksStand t (l.foldl State.releaseSource t) := by
    intro l
    induction l with
    | nil => exact .refl
    | cons a l ih => exact fun t => (banksStand_releaseSource t a).trans (ih _)
  refine BanksStand.trans ?_ (go _ _)
  exact ⟨rfl, rfl, rfl, rfl, rfl, rfl⟩

theorem banksStand_recordRead (s : State) (g : Option Generation) (ws : List Word) :
    BanksStand s (s.recordRead g ws) := by
  unfold State.recordRead
  split
  · dsimp only
    split <;> exact ⟨rfl, rfl, rfl, rfl, rfl, rfl⟩
  · exact .refl s

theorem banksStand_congestionFetched (s : State) (g : Option Generation) (ws : List Word) :
    BanksStand s (s.congestionFetched g ws) := by
  unfold State.congestionFetched
  split
  · exact .refl s
  · split
    · split
      · exact ⟨rfl, rfl, rfl, rfl, rfl, rfl⟩
      · dsimp only
        split <;> exact ⟨rfl, rfl, rfl, rfl, rfl, rfl⟩
    · exact .refl s

theorem banksStand_recordCleared (s : State) (k : Nat) : BanksStand s (s.recordCleared k) := by
  unfold State.recordCleared
  split
  · exact .refl s
  · split <;> exact ⟨rfl, rfl, rfl, rfl, rfl, rfl⟩

theorem banksStand_reportDone (s : State) (src : Source) : BanksStand s (s.reportDone src) := by
  unfold State.reportDone; dsimp only
  split <;> exact ⟨rfl, rfl, rfl, rfl, rfl, rfl⟩

theorem banksStand_beginBoot (s : State) : BanksStand s s.beginBoot := by
  unfold State.beginBoot
  split <;> exact ⟨rfl, rfl, rfl, rfl, rfl, rfl⟩

/-- The entry to RUN enters RUN, or does nothing where no working copy is in hand. -/
theorem enterRun_cases (s : State) : s.enterRun = s ∨ s.enterRun.boot.device = .run := by
  unfold State.enterRun
  split
  · exact .inl rfl
  · refine .inr ?_
    unfold State.deviceOutcome
    rw [takeOutcome_boot, (bindCongestion_eq _ _ _).1]
    rfl

theorem setGenerator_self (s : State) (g : GenIx) : s.setGenerator g (s.generator g) = s := by
  simp [State.setGenerator, State.generator, State.withGens]

theorem setPlayer_self (s : State) (n : PlayerIx) : s.setPlayer n (s.player n) = s := by
  simp [State.setPlayer, State.player, State.withPlayers]

/-- TG15 being FREE adopts nothing, so a part that serves nobody goes on to. -/
theorem banksStand_refetchDone (s : State) (c : Program) (g : Option Generation) (ws : List Word)
    (h : s.generator congestionGen = Generator.reset) : BanksStand s (s.refetchDone c g ws) := by
  unfold State.refetchDone
  split
  · dsimp only
    split
    · have adopt : (s.generator congestionGen).adopt (toneCopyOf ws) = s.generator congestionGen := by rw [h]; rfl
      have e := setGenerator_self (s.withRefetch { s.refetch with busy := false }) congestionGen
      rw [State.withRefetch_generator] at e ⊢
      rw [adopt, e]
      exact ⟨rfl, rfl, rfl, rfl, rfl, rfl⟩
    · refine BanksStand.trans ?_ (banksStand_takeOutcome _ _)
      exact ⟨rfl, rfl, rfl, rfl, rfl, rfl⟩
  · exact .refl s

/-- Where the part serves nobody, no event of the serving blocks finds anything to do. -/
theorem Serving.eq_of_servesNobody {s t : State} (h : Serving s t) (q : s.ServesNobody) (d : s.boot.device ≠ .run) :
    t = s := by
  have slot : ∀ j, (s.slot j).state = .idle := fun j => (q.slots j).1
  have state : ∀ n, (s.player n).state = .free := fun n => congrArg Player.state (q.players n)
  have walker : ∀ n, (s.player n).walker = Walker.reset := fun n => congrArg Player.walker (q.players n)
  cases h with
  | connection _ _ _ r => exact absurd r d
  | adoption _ _ r => exact absurd r d
  | staleGenerators _ r => exact absurd r d
  | stalePlayer _ _ r => exact absurd r d
  | attach j p g b ws => exact if_neg fun h => by rw [slot j] at h; cases h.2
  | filler j f g b ws => unfold State.fillerDone; rw [slot j]
  | binding n p g b ws => exact if_neg fun h => by rw [state n] at h; cases h.2.1
  | step n g ws => unfold State.stepDone; rw [walker n]; rfl
  | fill n h g ws => unfold State.fillDone; rw [q.players n]; cases h <;> rfl
  | tones =>
    have e : s.markTones.gens = s.gens := State.gens_ext _ _ fun g => by
      rw [State.markTones, State.mapGens_generator, q.gens g]; rfl
    show s.withGens s.markTones.gens = s
    rw [e]; rfl
  | player n _ => exact if_neg (by rw [state n]; decide)
  | dwell j => unfold State.takeDwell; rw [slot j]
  | timeout => unfold State.takeTimeout State.timedOut; rw [q.queue]; rfl
  | window n =>
    unfold State.closeWindow
    split
    · have shut : { s.player n with windowOpen := false } = s.player n := by rw [q.players n]; rfl
      exact (congrArg (s.setPlayer n) shut).trans (setPlayer_self s n)
    · rfl
  | cadence g =>
    have still : (s.generator g).stepEnd = s.generator g := by rw [q.gens g]; rfl
    unfold State.endCadenceStep
    rw [still, setGenerator_self]

theorem servesNobody_resetServing (s : State) : (s.resetServing.withPairing none).ServesNobody where
  pairing := rfl
  slots j := by
    have e : (s.resetServing.withPairing none).slot j = (s.slot j).reload := mapBank_get _ _ _ _
    rw [e]; exact ⟨rfl, rfl⟩
  gens g := by simp [State.resetServing, State.generator]
  players n := by
    have e : (s.resetServing.withPairing none).player n = (s.player n).reload := mapBank_get _ _ _ _
    rw [e]; rfl
  queue := rfl

/-- A reload resets the serving blocks, or is taken in BOOT, where there is nothing to reset (R23, R24). -/
theorem servesNobody_reload (s : State) (q : s.boot.device ≠ .run → s.ServesNobody) : s.reload.ServesNobody := by
  unfold State.reload; dsimp only
  refine (banksStand_beginBoot _).servesNobody ?_
  split
  · rename_i d
    have n := q (by rw [d]; decide)
    exact ⟨rfl, n.slots, n.gens, n.players, n.queue⟩
  · have n := servesNobody_resetServing (s.withMra s.mra.abandon)
    exact ⟨rfl, n.slots, n.gens, n.players, n.queue⟩

theorem servesNobody_released (b : Byte) (l : List Instr) : (State.released b l).ServesNobody where
  pairing := rfl
  slots j := by simp [State.released, State.slot, SlotContext.reset]
  gens g := by simp [State.released, State.generator]
  players n := by simp [State.released, State.player, Player.reset]
  queue := rfl

/-- Every change of the part keeps it serving nobody outside RUN. -/
theorem Change.quietOutsideRun {s t : State} (c : Change s t) (l : s.BootLaw) (q : s.QuietOutsideRun) :
    t.QuietOutsideRun := by
  rw [quietOutsideRun_iff] at q ⊢
  have stand : BanksStand s t → t.boot.device ≠ .run → t.ServesNobody :=
    fun b d => b.servesNobody (q fun e => d (b.device.trans e))
  have done : BanksStand s s.delivered := ⟨rfl, rfl, rfl, rfl, rfl, rfl⟩
  cases c with
  | serving h =>
    intro d
    rw [h.moves.servingOnly.boot] at d
    rw [h.eq_of_servesNobody (q d) d]
    exact q d
  | pending | bus | fm | start | underWay | delivered | startRefetch => exact stand ⟨rfl, rfl, rfl, rfl, rfl, rfl⟩
  | pairing x h =>
    intro d
    have n := q d
    exact ⟨h.resolve_right d, n.slots, n.gens, n.players, n.queue⟩
  | device o _ => exact stand (banksStand_takeOutcome s o)
  | refetch c g ws =>
    intro d
    have n := q fun e => d (by rwa [(bootStands_refetchDone s c g ws).boot])
    exact (banksStand_refetchDone s c g ws (n.gens _)).servesNobody n
  | choose => exact stand ⟨by simp, by simp, by simp, by simp, by simp, by simp⟩
  | report r src _ _ => exact stand (done.trans (banksStand_reportDone _ src))
  | loading r _ _ => exact stand ⟨rfl, rfl, rfl, rfl, rfl, rfl⟩
  | record r ws _ _ => exact stand (done.trans (banksStand_recordRead _ r.gen ws))
  | congestion r ws _ _ => exact stand (done.trans (banksStand_congestionFetched _ r.gen ws))
  | cleared r n _ _ => exact stand (done.trans (banksStand_recordCleared _ n))
  | run r h k =>
    rcases enterRun_cases s.delivered with e | e
    · exact stand (by rw [e]; exact done)
    · exact fun d => absurd e d
  | bypass r c h k _ =>
    intro _
    have n := q (by rw [show s.boot.device = .boot from (l.turn h (by rw [k]; rfl)).device]; decide)
    exact ⟨n.pairing, n.slots, n.gens, n.players, n.queue⟩
  | consumer d b _ _ => exact stand (banksStand_consumerTaken s d b)
  | reload => exact fun _ => servesNobody_reload s q
  | reset b => exact fun _ => servesNobody_released b _

/-- Settles O57: both laws are kept by each of the changes that make up a step. -/
theorem bootLawKept : Obligations.BootLawKept := by
  intro s t l q h
  exact step_keeps (P := fun s => s.BootLaw ∧ s.QuietOutsideRun)
    (fun _ _ c k => ⟨c.bootLaw k.1, c.quietOutsideRun k.1 k.2⟩) s t h ⟨l, q⟩

end Sys2Proof.Machine

namespace Sys2Proof.Machine

/-! ### The watch ranges (R3, R4, Table 1-1) -/

theorem wordBase_even (a : Addr) : wordBase a % 2 = 0 := by
  unfold wordBase; omega

theorem wordBase_lt (a : Addr) : wordBase a < 16777216 := by
  have := a.isLt
  unfold wordBase; omega

/-- The only even address of a range of one word is its first. -/
theorem inRange_word_iff (lo : Nat) (a : Addr) (h : lo % 2 = 0) : inRange lo 2 (wordBase a) = true ↔ wordBase a = lo := by
  have even := wordBase_even a
  have lt := wordBase_lt a
  rw [inRange_iff]
  omega

theorem isCommandWord_iff (s : State) (a : Addr) :
    s.isCommandWord a = true ↔ wordBase a = s.boot.bootsel.toNat * 65536 + 60 := by
  unfold State.isCommandWord bootBase
  exact inRange_word_iff _ a (by omega)

theorem isConsumerWord_iff (s : State) (a : Addr) (r : BootRecord) (h : s.boot.accepted = some r)
    (even : r.cw.toNat % 2 = 0) : s.isConsumerWord a = true ↔ wordBase a = r.cw.toNat := by
  unfold State.isConsumerWord
  rw [h]
  exact inRange_word_iff _ a even

/-- A range's blocks of `k` bytes: the word lies in the range and in its block `p` exactly where it lies in the `k`
bytes from the block's first. -/
theorem block_eq_iff (lo size k x : Nat) (p : Fin 256) (hk : 0 < k) (hs : size ≤ 256 * k) (h : lo ≤ x)
    (h' : x < lo + size) :
    (Fin.ofNat 256 ((x - lo) / k) = p ↔ lo + k * p.val ≤ x ∧ x < lo + k * p.val + k) := by
  have small : (x - lo) / k < 256 := Nat.div_lt_of_lt_mul (by rw [Nat.mul_comm]; omega)
  rw [Fin.ext_iff, Fin.val_ofNat, Nat.mod_eq_of_lt small, Nat.div_eq_iff hk]
  rw [Nat.mul_comm p.val k]
  omega

theorem connectionEntry_iff (s : State) (a : Addr) (r : BootRecord) (h : s.boot.accepted = some r)
    (even : r.cb.toNat % 2 = 0) (j : Slot) :
    s.connectionEntry a = some j ↔ s.boot.device = .run ∧ wordBase a = r.cb.toNat + 2 * j.val := by
  have e := wordBase_even a
  have lt := wordBase_lt a
  unfold State.connectionEntry State.ranges
  by_cases d : s.boot.device = .run
  · simp only [d, if_true, h, true_and]
    by_cases c : inRange r.cb.toNat 512 (wordBase a) = true
    · obtain ⟨lo, hi, _⟩ := (inRange_iff _ _ _).mp c
      rw [if_pos c, Option.some_inj, block_eq_iff _ 512 2 _ j (by omega) (by omega) (by omega) hi]
      omega
    · rw [if_neg c]
      rw [inRange_iff] at c
      have := j.isLt
      simp only [reduceCtorEq, false_iff]
      omega
  · simp [d]

theorem isVirtualWord_iff (s : State) (a : Addr) (r : BootRecord) (h : s.boot.accepted = some r)
    (even : r.sb.toNat % 2 = 0) : s.isVirtualWord a = true ↔ s.boot.device = .run ∧
      ∃ w, 256 ≤ w ∧ w < 512 ∧ wordBase a = r.sb.toNat + 2 * w := by
  have e := wordBase_even a
  have lt := wordBase_lt a
  unfold State.isVirtualWord State.ranges
  by_cases d : s.boot.device = .run
  · simp only [d, if_true, h, true_and]
    rw [inRange_iff]
    constructor
    · intro c
      exact ⟨(wordBase a - r.sb.toNat) / 2, by omega, by omega, by omega⟩
    · rintro ⟨w, lo, hi, eq⟩
      omega
  · simp [d]

theorem programAt_iff (s : State) (a : Addr) (r : BootRecord) (h : s.boot.accepted = some r)
    (limit : r.limit.toNat ≤ 256) (even : r.pb.toNat % 2 = 0) (p : Program) :
    s.programAt a = some p ↔ s.boot.device = .run ∧ p.val < r.limit.toNat ∧
      r.pb.toNat + 32 * p.val ≤ wordBase a ∧ wordBase a < r.pb.toNat + 32 * p.val + 32 := by
  have e := wordBase_even a
  have lt := wordBase_lt a
  unfold State.programAt State.ranges
  by_cases d : s.boot.device = .run
  · simp only [d, if_true, h, true_and]
    by_cases c : inRange r.pb.toNat (32 * r.limit.toNat) (wordBase a) = true
    · obtain ⟨lo, hi, _⟩ := (inRange_iff _ _ _).mp c
      rw [if_pos c, Option.some_inj,
        block_eq_iff _ (32 * r.limit.toNat) 32 _ p (by omega) (by omega) (by omega) hi]
      omega
    · rw [if_neg c]
      rw [inRange_iff] at c
      simp only [reduceCtorEq, false_iff]
      omega
  · simp [d]

/-- Where no record is accepted, the command word alone is watched (R3). -/
theorem no_ranges (s : State) (a : Addr) (h : s.boot.accepted = none) : s.connectionEntry a = none ∧
    s.isVirtualWord a = false ∧ s.programAt a = none ∧ s.isConsumerWord a = false := by
  have none : s.ranges = none := by unfold State.ranges; rw [h, ite_self]
  unfold State.connectionEntry State.isVirtualWord State.programAt State.isConsumerWord
  rw [none, h]
  exact ⟨rfl, rfl, rfl, rfl⟩

/-- Settles O6, range by range: an even base makes a range's words its even addresses. -/
theorem watchRanges : Obligations.WatchRanges := by
  intro s a
  refine ⟨isCommandWord_iff s a, no_ranges s a, fun r h => ?_, fun r h limit cb sb pb cw =>
    ⟨connectionEntry_iff s a r h cb, isVirtualWord_iff s a r h sb, programAt_iff s a r h limit pb,
      isConsumerWord_iff s a r h cw⟩⟩
  unfold State.limit State.programBase State.storeBase State.storeSize
  rw [h]
  exact ⟨rfl, rfl, rfl, rfl⟩

/-! ### The store bus at an event (R2, R12, R13) -/

theorem SoundUnchanged.finish {s t : State} (h : SoundUnchanged s t) : SoundUnchanged s t.finish := by
  obtain ⟨slots, gens, refetch, players, queue, rrw⟩ := h
  exact ⟨by simpa, by simpa, by simpa, by simpa, by simpa, by simpa⟩

theorem ControlUnchanged.finish {s t : State} (h : ControlUnchanged s t) : ControlUnchanged s t.finish := by
  obtain ⟨pending, pairing, boot, fm⟩ := h
  exact ⟨by simpa, by simpa, by simpa, by simpa⟩

/-- The end of an event that left the own requests alone makes a choice among them at most (R156). -/
theorem sameRequests_finish {s t : State} (h : t.mra = s.mra) : SameRequests s t.finish :=
  (finish_requestsHeld t).trans (.of_eq (by unfold State.requestsHeld; rw [h]))

/-- A change of the bus alone. -/
theorem sound_withBus (s : State) (b : Bus) : SoundUnchanged s (s.withBus b) := ⟨rfl, rfl, rfl, rfl, rfl, rfl⟩

theorem control_withBus (s : State) (b : Bus) : ControlUnchanged s (s.withBus b) := ⟨rfl, rfl, rfl, rfl⟩

/-- A request passed at the end of an event that left the bus alone has gone toward memory (R2, R12). -/
theorem forwarded_pass {s t : State} (b : t.bus = s.bus) (r : Request) : Forwarded s (t.pass r).finish r := by
  have port : (t.pass r).bus.port = s.bus.port := by rw [← b]; rfl
  have waiting : (t.pass r).bus.waiting = s.bus.waiting ++ [r] := by rw [← b]; rfl
  refine ⟨fun h w => ?_, fun h => ?_, ?_, ?_⟩
  · have free := finish_free (t.pass r) (port.trans h)
    rw [waiting, w] at free
    exact free
  · rw [finish_busy _ (by rwa [port])]
    exact ⟨port, waiting⟩
  · rw [finish_engineEnd, ← b]; rfl
  · rw [finish_cpuEnd, ← b]; rfl

theorem endTo_endings (s : State) (m : Master) (e : Ending) :
    (s.endTo m e).bus.engineEnd = (if m = .engine then some e else s.bus.engineEnd) ∧
    (s.endTo m e).bus.cpuEnd = (if m = .callProcessor then some e else s.bus.cpuEnd) ∧
    (s.endTo m e).bus.port = s.bus.port ∧ (s.endTo m e).bus.waiting = s.bus.waiting := by
  cases m <;> exact ⟨rfl, rfl, rfl, rfl⟩

/-- A passing request whose end has gone up, at the end of an event that left the bus alone, has ended (R2). -/
theorem ended_finish {s t : State} {m : Master} {e : Ending} (b : t.bus = (s.freePort.endTo m e).bus) :
    Ended s t.finish m e := by
  obtain ⟨engine, cpu, port, waiting⟩ := endTo_endings s.freePort m e
  rw [← b] at engine cpu port waiting
  have free := finish_free t port
  rw [waiting] at free
  exact ⟨(finish_engineEnd t).trans engine, (finish_cpuEnd t).trans cpu, free.1, free.2⟩

/-- The ending carried up to a master is all that it changes. -/
theorem endTo_frame (s : State) (m : Master) (e : Ending) :
    s.freePort.endTo m e = s.withBus (s.freePort.endTo m e).bus := by
  cases m <;> rfl

/-! ### Requests outstanding (R1) -/

theorem outstanding_iff (s : State) (m : Master) : s.outstanding m = true ↔
    (∃ r, s.bus.port = some (.passing r) ∧ r.master = m) ∨ ∃ r ∈ s.bus.waiting, r.master = m := by
  unfold State.outstanding
  rw [Bool.or_eq_true, List.any_eq_true]
  refine or_congr ?_ (by simp only [beq_iff_eq])
  cases s.bus.port with
  | none => simp
  | some u => cases u <;> simp

/-- No master's request has ended and none has arrived. -/
def OutstandingKept (s t : State) : Prop := ∀ m, t.outstanding m = s.outstanding m

theorem OutstandingKept.of_bus {s t : State} (h : t.bus = s.bus) : OutstandingKept s t := fun m => by
  unfold State.outstanding; rw [h]

theorem OutstandingKept.trans {s t u : State} (a : OutstandingKept s t) (b : OutstandingKept t u) :
    OutstandingKept s u := fun m => (b m).trans (a m)

theorem OutstandingKept.foldl {α : Type} (f : State → α → State) (h : ∀ s a, OutstandingKept s (f s a)) (l : List α) :
    ∀ s, OutstandingKept s (l.foldl f s) := by
  induction l with
  | nil => exact fun s => .of_bus rfl
  | cons a l ih => exact fun s => (h s a).trans (ih _)

theorem Moves.outstandingKept {s t : State} (m : Moves s t) : OutstandingKept s t := .of_bus m.servingOnly.bus

/-- A passing request that waits is outstanding, and is when the port is given to it. -/
theorem outstandingKept_finish (s : State) : OutstandingKept s s.finish := by
  intro m
  by_cases h : s.bus.port = none
  · obtain ⟨port, waiting⟩ := finish_free s h
    unfold State.outstanding
    rw [port, waiting, h]
    cases s.bus.waiting with
    | nil => cases h : s.mra.underWay <;> simp [nextOnPort, h]
    | cons q l => simp [nextOnPort]
  · exact OutstandingKept.of_bus (finish_busy s h) m

theorem outstandingKept_takeTimeouts (k : Nat) : ∀ s : State, OutstandingKept s (State.takeTimeouts k s) := by
  induction k with
  | zero => exact fun s => .of_bus rfl
  | succ k ih =>
    intro s
    unfold State.takeTimeouts
    split
    · exact ((moves_takeTimeout s).outstandingKept.trans (outstandingKept_finish _)).trans (ih _)
    · exact .of_bus rfl

theorem outstandingKept_takeEnds (s : State) : OutstandingKept s s.takeEnds := by
  unfold State.takeEnds
  split
  · refine OutstandingKept.trans ?_ (outstandingKept_takeTimeouts _ _)
    refine OutstandingKept.trans ?_
      (.foldl _ (fun t j => (moves_takeDwell t j).outstandingKept.trans (outstandingKept_finish _)) _ _)
    refine OutstandingKept.trans ?_ (.foldl _ (fun t n => (moves_closeWindow t n).outstandingKept) _ _)
    refine OutstandingKept.trans ?_ (.foldl _ (fun t g => (moves_endCadenceStep t g).outstandingKept) _ _)
    exact .of_bus rfl
  · exact .of_bus rfl

theorem flywheelMark_bus (s : State) (k : Nat) (order : List MarkTask) : (s.flywheelMark k order).bus = s.bus :=
  (moves_handMark (s.modifyFm _) order rfl).servingOnly.bus

theorem windowExpired_bus (s : State) (order : List MarkTask) : (s.windowExpired order).bus = s.bus := by
  unfold State.windowExpired
  split
  · split
    · rfl
    · exact flywheelMark_bus s 1 order
    all_goals rfl
  · rfl

theorem flywheelExpired_bus (s : State) (order : List MarkTask) : (s.flywheelExpired order).bus = s.bus := by
  unfold State.flywheelExpired
  split
  · split
    · split
      · exact flywheelMark_bus s 2 order
      · exact takeOutcome_bus _ _
    all_goals rfl
  · rfl

theorem outstandingKept_expire (s : State) : OutstandingKept s s.expire := by
  unfold State.expire
  refine (OutstandingKept.trans ?_ (outstandingKept_finish _)).trans (outstandingKept_takeEnds _)
  split
  · exact .of_bus (flywheelExpired_bus s [])
  · exact .of_bus (windowExpired_bus s [])
  · exact .of_bus (windowExpired_bus s [])
  all_goals exact .of_bus rfl

/-- The passing of time ends no master's request and brings none. -/
theorem tick_outstanding (s : State) (n : Nat) (m : Master) : (s.tick n).outstanding m = s.outstanding m :=
  tick_keeps (P := OutstandingKept) (fun _ _ _ => .of_bus rfl) (fun _ _ _ => OutstandingKept.trans)
    (fun s _ => outstandingKept_expire s) s n m

/-! ### Arrivals (R5 to R8, R10) -/

theorem connectionEntry_of_boot {s t : State} (h : t.boot = s.boot) (a : Addr) :
    t.connectionEntry a = s.connectionEntry a := by
  unfold State.connectionEntry State.ranges; rw [h]

theorem no_ranges_outside_run (s : State) (a : Addr) (h : s.boot.device ≠ .run) :
    s.connectionEntry a = none ∧ s.isVirtualWord a = false := by
  have none : s.ranges = none := if_neg h
  unfold State.connectionEntry State.isVirtualWord
  rw [none]
  exact ⟨rfl, rfl⟩

/-- A switching-engine read of connection entry j arrives after n periods, its master's last request ended (R6). -/
theorem arriveRequest_connection (s : State) (a : Addr) (b : Strobes) (n : Nat) (order : List MarkTask) (j : Slot)
    (e : s.connectionEntry a = some j) (o : s.outstanding .engine = false) :
    s.arriveRequest { master := .engine, dir := .read, addr := a, strobes := b } n order =
      (s.tick n).connectionArrives j { master := .engine, dir := .read, addr := a, strobes := b } order := by
  have entry : (s.tick n).connectionEntry a = some j := (connectionEntry_of_boot (tick_control s n).1 a).trans e
  have idle : (s.tick n).outstanding .engine = false := (tick_outstanding s n .engine).trans o
  unfold State.arriveRequest State.arrivalClass
  simp [entry, idle]

/-- A request of the class PASSED arrives, its master's last request ended (R5, R10). -/
theorem arriveRequest_passed (s : State) (r : Request) (order : List MarkTask) (c : s.arrivalClass r = .passed)
    (o : s.outstanding r.master = false) : s.arriveRequest r 0 order = (s.pass r).finish := by
  unfold State.arriveRequest
  simp [tick_zero, c, o]

theorem arrivalClass_passed (s : State) (r : Request) (h : s.boot.device ≠ .run ∨ r.master = .callProcessor ∨
    r.dir ≠ .read ∨ (s.connectionEntry r.addr = none ∧ s.isVirtualWord r.addr = false)) :
    s.arrivalClass r = .passed := by
  have unwatched : s.connectionEntry r.addr = none ∧ s.isVirtualWord r.addr = false → s.arrivalClass r = .passed := by
    intro ⟨c, v⟩
    unfold State.arrivalClass
    rw [c, v]
    split <;> rfl
  unfold State.arrivalClass at *
  rcases h with d | m | d | u
  · exact unwatched (no_ranges_outside_run s r.addr d)
  · rw [m]
  · split
    · exact absurd ‹_› d
    · rfl
  · exact unwatched u

theorem exec_connectionRead (s : State) (a : Addr) (b : Strobes) (n : Nat) (order : List MarkTask) (h : s.Settled) :
    exec (.connectionRead a b n order) s =
      .next (s.arriveRequest { master := .engine, dir := .read, addr := a, strobes := b } n order) := by
  show Host.Outcome.next (s.takeEnds.arriveRequest _ n order) = _
  rw [takeEnds_settled s h]

theorem exec_virtualRead (s : State) (a : Addr) (b : Strobes) (h : s.Settled) : exec (.virtualRead a b) s =
    .next (s.arriveRequest { master := .engine, dir := .read, addr := a, strobes := b } 0 []) := by
  show Host.Outcome.next (s.takeEnds.arriveRequest _ 0 []) = _
  rw [takeEnds_settled s h]

theorem exec_passingRequest (s : State) (r : Request) (h : s.Settled) :
    exec (.passingRequest r) s = .next (s.arriveRequest r 0 []) := by
  show Host.Outcome.next (s.takeEnds.arriveRequest _ 0 []) = _
  rw [takeEnds_settled s h]

/-- Settles O7: time leaves the ranges and what is outstanding, so the read is still a connection read after it. -/
theorem connectionReadPairs : Obligations.ConnectionReadPairs := by
  intro s u a b n order j settled _ entry hj idle hu
  have boot : u.boot = s.boot := hu ▸ (tick_control s n).1
  have pending : u.pending = s.pending := hu ▸ (tick_control s n).2.1
  have arrives := exec_connectionRead s a b n order settled
  rw [arriveRequest_connection s a b n order j entry idle, ← hu] at arrives
  unfold State.connectionArrives at arrives
  simp only [hj, if_false] at arrives
  exact ⟨_, arrives, by rw [finish_pairing]; rfl, forwarded_pass (s := u) (t := u.withPairing (some j)) rfl _,
    by rw [finish_fm]; rfl, SoundUnchanged.finish ⟨rfl, rfl, rfl, rfl, rfl, rfl⟩, sameRequests_finish rfl,
    by rw [finish_boot]; exact boot, by rw [finish_pending]; exact pending⟩

/-- Settles O10: each of these requests is of the class PASSED. -/
theorem otherRequestsPass : Obligations.OtherRequestsPass := by
  refine ⟨outstanding_iff, fun s r settled idle h => ⟨(s.pass r).finish, ?_, forwarded_pass rfl r,
    (control_withBus s _).finish, (sound_withBus s _).finish, sameRequests_finish rfl⟩⟩
  rw [exec_passingRequest s r settled, arriveRequest_passed s r [] (arrivalClass_passed s r h) idle]

/-- The answered word is the code itself: its high byte is 0 (R7, R172). -/
theorem speechWord_toNat (c : Byte) : (speechWord c).toNat = c.toNat := by
  refine (BitVec.toNat_append (0 : Byte) c).trans ?_
  simp

theorem speechWord_bytes (c : Byte) : highByte (speechWord c) = 0 ∧ lowByte (speechWord c) = c := by
  have small := c.isLt
  constructor <;> refine BitVec.eq_of_toNat_eq ?_
  · rw [highByte, BitVec.extractLsb'_toNat, speechWord_toNat, Nat.shiftRight_eq_div_pow, Nat.div_eq_of_lt small]
    rfl
  · rw [lowByte, BitVec.extractLsb'_toNat, speechWord_toNat, Nat.shiftRight_zero, Nat.mod_eq_of_lt small]

/-- A virtual read that is no connection read is answered at once (R7). -/
theorem arriveRequest_virtual (s : State) (a : Addr) (b : Strobes) (v : s.isVirtualWord a = true)
    (c : s.connectionEntry a = none) (o : s.outstanding .engine = false) :
    s.arriveRequest { master := .engine, dir := .read, addr := a, strobes := b } 0 [] = s.answerVirtual := by
  unfold State.arriveRequest State.arrivalClass
  simp [tick_zero, v, c, o]

/-- The code that the answer carries: the paired slot's, or the idle code (R7). -/
def State.answeredCode (s : State) : Byte :=
  match s.pairing with
  | some j => s.heardCode j
  | none => idleCode

theorem answerVirtual_eq (s : State) : s.answerVirtual =
    { s with bus := { s.bus with engineEnd := some (.answer (speechWord s.answeredCode)) }, pairing := none } := rfl

/-- The code a slot hears is that of its state's sound source (R72, Table 6-3). -/
theorem heardCode_of_state (s : State) (j : Slot) (x : SlotState) (h : (s.slot j).state = x) :
    s.heardCode j = match x.source with
      | .silent => 128
      | .generator g => (s.generator g).code
      | .player n => (s.player n).code := by
  subst h; rfl

/-- Settles O9, from the exact next state and the sound source of each slot state. -/
theorem virtualReadAnswered : Obligations.VirtualReadAnswered := by
  refine ⟨fun s a b settled _ v c idle => ⟨speechWord s.answeredCode, ?_, (speechWord_bytes _).1, fun j h => ?_,
    fun h => ?_⟩, fun s j => ?_⟩
  · rw [exec_virtualRead s a b settled, arriveRequest_virtual s a b v c idle, answerVirtual_eq]
  · rw [(speechWord_bytes _).2, State.answeredCode, h]
  · rw [(speechWord_bytes _).2, State.answeredCode, h]; rfl
  · have heard := heardCode_of_state s j
    exact ⟨heard _, fun _ => heard _, fun _ _ _ => heard _, fun _ _ _ => heard _, fun _ _ => heard _,
      fun _ _ _ _ _ => heard _, fun _ => heard _, fun _ => heard _⟩

end Sys2Proof.Machine

namespace Sys2Proof.Machine

/-! ### Engine frame marks (R28 to R31, Table 3-2) -/

theorem intervalOf_onTime_iff (p : Nat) : intervalOf p = .onTime ↔ 492 ≤ p ∧ p ≤ 532 := by
  unfold intervalOf
  split
  · simp; omega
  · split <;> simp <;> omega

/-- An engine mark in UNLOCKED, HOLDOVER or STALLED begins LOCKING anew. -/
theorem FrameMonitor.engineMark_unlocked (m : FrameMonitor)
    (h : m.lock = .unlocked ∨ m.lock = .holdover ∨ m.lock = .stalled) :
    m.engineMark.lock = .locking ∧ m.engineMark.onTime = 0 ∧ m.engineMark.misses = 0 := by
  unfold FrameMonitor.engineMark lockAfter
  rcases h with h | h | h <;> simp [h]

theorem lockAfter_offTime (l : LockState) (o k : Nat) (i : Interval) (h : i ≠ .onTime) :
    lockAfter l o k i = (.locking, 0, 0) := by
  unfold lockAfter
  split
  · exact absurd rfl h
  · exact absurd rfl h
  · rfl

/-- An engine mark that is early or late begins LOCKING anew. -/
theorem FrameMonitor.engineMark_offTime (m : FrameMonitor) (p : Nat) (t : m.timer = some p)
    (h : ¬ (492 ≤ p ∧ p ≤ 532)) :
    m.engineMark.lock = .locking ∧ m.engineMark.onTime = 0 ∧ m.engineMark.misses = 0 := by
  have off : m.interval ≠ .onTime := by
    unfold FrameMonitor.interval
    rw [t]
    exact fun e => h ((intervalOf_onTime_iff p).mp e)
  unfold FrameMonitor.engineMark
  rw [lockAfter_offTime _ _ _ _ off]
  exact ⟨rfl, rfl, rfl⟩

/-- An engine mark on time: the first in LOCKING is counted, the second locks, and LOCKED stays. -/
theorem FrameMonitor.engineMark_onTime (m : FrameMonitor) (p : Nat) (t : m.timer = some p) (h : 492 ≤ p ∧ p ≤ 532) :
    (m.lock = .locking → m.onTime = 0 → m.engineMark.lock = .locking ∧ m.engineMark.onTime = 1 ∧
      m.engineMark.misses = 0) ∧
    (m.lock = .locking → m.onTime = 1 → m.engineMark.lock = .locked ∧ m.engineMark.onTime = 2 ∧
      m.engineMark.misses = 0) ∧
    (m.lock = .locked → m.engineMark.lock = .locked ∧ m.engineMark.onTime = m.onTime ∧
      m.engineMark.misses = m.misses) := by
  have i : m.interval = .onTime := by
    unfold FrameMonitor.interval
    rw [t]
    exact (intervalOf_onTime_iff p).mpr h
  unfold FrameMonitor.engineMark lockAfter
  rw [i]
  refine ⟨fun l o => ?_, fun l o => ?_, fun l => ?_⟩
  · simp [l, o]
  · simp [l, o]
  · simp [l]

theorem FrameMonitor.relocks_iff (m : FrameMonitor) :
    m.relocks = true ↔ m.stallReported = true ∧ m.engineMark.lock = .locked := by
  unfold FrameMonitor.relocks
  rw [Bool.and_eq_true, beq_iff_eq]

/-- No expiry leads to LOCKED (Table 3-3). -/
theorem FrameMonitor.afterExpiry_ne_locked (m : FrameMonitor) : m.afterExpiry.lock ≠ .locked := by
  unfold FrameMonitor.afterExpiry
  cases h : m.lock
  case holdover =>
    dsimp only
    split <;> exact nofun
  all_goals simp [h]

/-- No miss is counted in LOCKED: an expiry leaves that state, and enters it never (R33). -/
theorem tick_misses (s : State) (n : Nat) (h : s.fm.lock = .locked → s.fm.misses = 0) :
    (s.tick n).fm.lock = .locked → (s.tick n).fm.misses = 0 := by
  refine tick_keeps (P := fun s t => (s.fm.lock = .locked → s.fm.misses = 0) → t.fm.lock = .locked → t.fm.misses = 0)
    (fun _ _ _ => id) (fun _ _ _ a b => b ∘ a) (fun u e _ l => ?_) s n h
  rw [expire_fm u e] at l
  exact absurd l u.fm.afterExpiry_ne_locked

/-- The state in which the blocks take an engine mark: the Frame Monitor has taken it, and FRAME_RELOCK is handed over
where it relocks (log 14). -/
def State.markTaken (s : State) : State :=
  if s.fm.relocks then (s.withFm s.fm.engineMark).deviceOutcome .frameRelock 0 0 else s.withFm s.fm.engineMark

theorem engineMark_eq (s : State) (order : List MarkTask) : s.engineMark order = s.markTaken.handMark order := rfl

theorem markTaken_fm (s : State) : s.markTaken.fm = s.fm.engineMark := by
  unfold State.markTaken State.deviceOutcome
  split
  · rw [takeOutcome_fm, State.withFm_fm]
  · rfl

/-- The blocks take an engine mark by moves of their own. -/
theorem moves_engineMark (s : State) (order : List MarkTask) : Moves s.markTaken (s.engineMark order) :=
  moves_handMark s.markTaken order (by rw [markTaken_fm]; rfl)

/-- An engine mark changes the Frame Monitor as Table 3-2 gives, and leaves the bus and the other control blocks. -/
theorem engineMark_frame (s : State) (order : List MarkTask) : (s.engineMark order).fm = s.fm.engineMark ∧
    (s.engineMark order).bus = s.bus ∧ (s.engineMark order).pairing = s.pairing ∧
    (s.engineMark order).boot = s.boot ∧ (s.engineMark order).pending = s.pending ∧
    (s.engineMark order).refetch = s.refetch := by
  have m := (moves_engineMark s order).servingOnly
  rw [m.fm, m.bus, m.pairing, m.boot, m.pending, m.refetch, markTaken_fm]
  unfold State.markTaken State.deviceOutcome
  split
  · exact ⟨rfl, by simp, by simp, by simp, by simp, by simp⟩
  · exact ⟨rfl, rfl, rfl, rfl, rfl, rfl⟩

/-- The blocks' taking of a mark hands over outcomes of slots alone. -/
theorem Moves.calmDevice {s t : State} (m : Moves s t) : Calm deviceSource s t := by
  obtain ⟨pend, held, wait⟩ := m.device
  refine ⟨m.servingOnly.boot, pend, held, fun q k w => wait q ?_ w⟩
  unfold OwnKind.isServing
  simp [k]

/-- An engine mark that relocks hands over FRAME_RELOCK, stamped with the mark's F (R31, R38). -/
theorem engineMark_reported (s : State) (order : List MarkTask) (h : s.fm.relocks = true) :
    Reported s (s.engineMark order) (deviceRecord (s.fm.frame + 1) .frameRelock 0 0) := by
  refine Reported.after ?_ (moves_engineMark s order).calmDevice
  unfold State.markTaken
  rw [if_pos h]
  exact Reported.before (takeOutcome_reported (s.withFm s.fm.engineMark) _) rfl rfl rfl

/-- An engine mark that does not relock hands over nothing of the device. -/
theorem engineMark_calm (s : State) (order : List MarkTask) (h : s.fm.relocks = false) :
    Calm deviceSource s (s.engineMark order) := by
  refine Calm.trans ?_ (moves_engineMark s order).calmDevice
  unfold State.markTaken
  rw [if_neg (by simp [h])]
  exact .of rfl rfl rfl

theorem calm_pass_finish (src : Source) (s : State) (r : Request) : Calm src s (s.pass r).finish :=
  ⟨finish_boot _, finish_isPending _ src, finish_heldOutcome _ src, fun q _ h => (finish_waiting (s.pass r) q).mpr h⟩

/-- Settles O8: the lock machine's part is `FrameMonitor.engineMark`, the record's is `engineMark_reported`, and the
blocks' part is `markTaken` handed on; passing the read changes none of it. -/
theorem engineFrameMark : Obligations.EngineFrameMark := by
  intro s u a b n order settled _ entry idle misses hu
  have arrives := exec_connectionRead s a b n order settled
  rw [arriveRequest_connection s a b n order 0 entry idle, ← hu] at arrives
  have noMisses : u.fm.lock = .locked → u.fm.misses = 0 := hu ▸ tick_misses s n misses
  obtain ⟨boot, pending, -, refetch⟩ := tick_control s n
  rw [← hu] at boot pending refetch
  obtain ⟨mFm, mBus, mPairing, mBoot, mPending, mRefetch⟩ := engineMark_frame (u.withPairing (some 0)) order
  have relocks_iff : (u.withPairing (some 0)).fm.relocks = true ↔
    u.fm.stallReported = true ∧ u.fm.engineMark.lock = .locked := u.fm.relocks_iff
  have passed := calm_pass_finish deviceSource ((u.withPairing (some 0)).engineMark order)
    { master := .engine, dir := .read, addr := a, strobes := b }
  refine ⟨_, (u.withPairing (some 0)).withFm u.fm.engineMark, (u.withPairing (some 0)).engineMark order, arrives,
    (finish_pairing _).trans mPairing, (finish_boot _).trans (mBoot.trans boot), (finish_pending _).trans (mPending.trans pending),
    forwarded_pass (s := u) mBus _, ?_⟩
  rw [show (State.connectionArrives u 0 _ order).fm = u.fm.engineMark from (finish_fm _).trans mFm]
  refine ⟨rfl, rfl, rfl, u.fm.engineMark_unlocked, fun q hq off _ => u.fm.engineMark_offTime q hq off, ?_, rfl, ?_, ?_,
    rfl, ?_, finish_slots _, finish_gens _, (finish_refetch _).trans (mRefetch.trans refetch),
    finish_players _, finish_queue _, finish_rrw _⟩
  · intro q hq on
    obtain ⟨first, second, stays⟩ := u.fm.engineMark_onTime q hq on
    refine ⟨first, second, fun l => ?_⟩
    rw [← noMisses l]
    exact stays l
  · intro stall locked
    have reported := engineMark_reported (u.withPairing (some 0)) order (relocks_iff.mpr ⟨stall, locked⟩)
    exact Reported.before (reported.after passed) rfl rfl rfl
  · intro stall
    have still : (u.withPairing (some 0)).fm.relocks = false := by
      rw [Bool.eq_false_iff, Ne, relocks_iff, stall]
      simp
    have calm := (engineMark_calm _ order still).trans passed
    exact ⟨calm.pend, calm.held⟩
  · rw [engineMark_eq]
    unfold State.markTaken
    simp only [relocks_iff]
    rfl

/-! ### Passing requests end (R2, R4, R76) -/

theorem exec_read_ends (s : State) (r : Request) (data : Word) (c : Instr)
    (hc : c = .passingCompletion data ∨ c = .adoptionCheck data) (h : s.Settled) (p : s.PassingOnPort r)
    (d : r.dir = .read) : exec c s = .next (s.readAnswered r data) := by
  have port : s.bus.port = some (.passing r) := p
  rcases hc with rfl | rfl
  · show Host.Outcome.next (s.takeEnds.completePassing data) = _
    rw [takeEnds_settled s h]
    unfold State.completePassing
    simp only [port, d]
  · show Host.Outcome.next (s.takeEnds.answerRead data) = _
    rw [takeEnds_settled s h]
    unfold State.answerRead
    simp only [port, d]

theorem sameConnection_iff (x y : Word) : sameConnection x y = true ↔ isActive x = isActive y ∧ sourceOf x = sourceOf y := by
  unfold sameConnection
  rw [Bool.and_eq_true, beq_iff_eq, beq_iff_eq]

/-- An answer that no slot adopts goes up, and nothing else happens (R2, R76). -/
theorem readAnswered_unadopted (s : State) (r : Request) (data : Word)
    (h : ∀ j, s.connectionEntry r.addr = some j → r.master = .callProcessor ∨
      (isActive data = isActive (s.slot j).shadow ∧ sourceOf data = sourceOf (s.slot j).shadow)) :
    s.readAnswered r data = (s.freePort.endTo r.master (.answer data)).finish := by
  obtain ⟨b, hb⟩ : ∃ b, s.freePort.endTo r.master (.answer data) = s.withBus b := ⟨_, endTo_frame _ _ _⟩
  have entry : (s.withBus b).connectionEntry r.addr = s.connectionEntry r.addr := connectionEntry_of_boot rfl _
  unfold State.readAnswered
  dsimp only
  rw [hb, entry]
  split
  · rename_i j m hj
    rcases h j hj with cpu | same
    · rw [m] at cpu; cases cpu
    · unfold State.adoptionChecked
      rw [State.withBus_slot, if_pos ((sameConnection_iff _ _).mpr same)]
  · rfl

/-- A store that lies in no watched range is taken by no block (R4). -/
theorem takeStore_unwatched (s : State) (q : Request) (data : Word) (x : StoreTaker)
    (c : s.connectionEntry q.addr = none) (p : s.programAt q.addr = none) (w : s.isConsumerWord q.addr = false) :
    State.takeStore q data s x = s := by
  unfold State.takeStore
  cases x
  · simp only [c]
  · simp only [p]
  · simp only [w, Bool.false_eq_true, if_false]

theorem storeAccepted_unwatched (s : State) (q : Request) (data : Word) (l : List StoreTaker)
    (c : s.connectionEntry q.addr = none) (p : s.programAt q.addr = none) (w : s.isConsumerWord q.addr = false)
    (k : s.isCommandWord q.addr = false) : s.storeAccepted q data l = (s.freePort.endTo q.master .stored).finish := by
  obtain ⟨b, hb⟩ : ∃ b, s.freePort.endTo q.master .stored = s.withBus b := ⟨_, endTo_frame _ _ _⟩
  have command : ¬ (s.withBus b).isCommandWord q.addr = true := fun h => Bool.false_ne_true (k.symm.trans h)
  have untaken : l.foldl (State.takeStore q data) (s.withBus b) = s.withBus b := by
    induction l with
    | nil => rfl
    | cons x l ih => rw [List.foldl_cons, takeStore_unwatched (s.withBus b) q data x c p w, ih]
  unfold State.storeAccepted
  dsimp only
  rw [hb, if_neg command, untaken]

/-- What holds where a passing request has ended and nothing else has happened. -/
theorem only_ended (s : State) (m : Master) (e : Ending) :
    Ended s (s.freePort.endTo m e).finish m e ∧ ControlUnchanged s (s.freePort.endTo m e).finish ∧
      SoundUnchanged s (s.freePort.endTo m e).finish ∧ SameRequests s (s.freePort.endTo m e).finish := by
  refine ⟨ended_finish rfl, ?_⟩
  rw [endTo_frame]
  exact ⟨(control_withBus s _).finish, (sound_withBus s _).finish, sameRequests_finish rfl⟩

/-- Settles O11: no slot adopts the answer and no block takes the store, so the ending is all that happens. -/
theorem passingRequestEnds : Obligations.PassingRequestEnds := by
  constructor
  · intro s r data c hc settled port dir unadopted
    refine ⟨_, exec_read_ends s r data c hc settled port dir, ?_⟩
    rw [readAnswered_unadopted s r data unadopted]
    exact only_ended s r.master (.answer data)
  · intro s q data c hc settled port entry program consumer command
    obtain ⟨l, accepts, -⟩ := acceptance_eq s q data c hc settled port
    rw [storeAccepted_unwatched s q data l entry program consumer command] at accepts
    exact ⟨_, accepts, only_ended s q.master .stored⟩

/-! ### Own bursts (R12, R13, R155, R170) -/

theorem startBurst_free (s : State) (r : OwnRequest) (c : s.mra.chosen = some r) (u : s.mra.underWay = none)
    (p : s.bus.port = none) (w : s.bus.waiting = []) : s.startBurst =
      { s with bus := { s.bus with port := some .ownWord }, mra := { s.mra with chosen := none, underWay := some r } } := by
  unfold State.startBurst
  simp only [p, w, u, c]
  rfl

theorem startBurst_busy (s : State) (h : s.bus.port ≠ none ∨ s.bus.waiting ≠ []) : s.startBurst = s := by
  unfold State.startBurst
  split
  · rename_i p w _ _
    rcases h with h | h
    · exact absurd p h
    · exact absurd w h
  · rfl

/-- A word of a burst that is not its last: the port goes to the passing request that waits first, or the burst goes
on at its next word (R13). -/
theorem wordDone_eq (s : State) (r : OwnRequest) (data : Word) (p : s.bus.port = some .ownWord)
    (u : s.mra.underWay = some r) (h : r.done + 1 < r.length) : s.wordDone data =
      (s.withBus { s.bus with port := nextOnPort s.bus.waiting s.mra, waiting := s.bus.waiting.tail }).withMra
        { s.mra with underWay := some (r.advance data) } := by
  unfold State.wordDone
  simp only [p, u, h, if_true]
  unfold State.grant
  cases w : s.bus.waiting with
  | nil => simp [nextOnPort, u, State.withBus, State.withMra]
  | cons q l => simp [nextOnPort, State.withBus, State.withMra]

theorem busWord_store (r : OwnRequest) (w : Word) (h : r.data[r.done]? = some w) : r.busWord.dir = .store w := by
  have data : r.data ≠ [] := by rintro e; rw [e] at h; cases h
  unfold OwnRequest.busWord
  rw [if_neg data, List.getD_eq_getElem?_getD, h]
  rfl

/-- Settles O18, by what each of the two operations does and what the memory bus shows of a request. -/
theorem ownBurstWords : Obligations.OwnBurstWords := by
  refine ⟨fun s r settled chosen none => ⟨fun port waiting => ?_, fun busy => ?_⟩,
    fun s r data settled port underWay more => ?_, fun _ _ => rfl, fun s port => ?_, fun s q port => ?_,
    fun s r port underWay => ⟨r.busWord, ?_, rfl, rfl, rfl, fun h => if_pos h, busWord_store r⟩⟩
  · show Host.Outcome.next s.takeEnds.startBurst = _
    rw [takeEnds_settled s settled, startBurst_free s r chosen none port waiting]
  · show Host.Outcome.next s.takeEnds.startBurst = _
    rw [takeEnds_settled s settled, startBurst_busy s busy]
  · show Host.Outcome.next (s.takeEnds.wordDone data) = _
    rw [takeEnds_settled s settled, wordDone_eq s r data port underWay more]
  all_goals unfold State.memoryRequest; rw [port]
  rw [underWay]; rfl

/-! ### RESET (R14) -/

theorem firstLoading_addr (b : Byte) : (OwnRequest.firstLoading b).addr.toNat = b.toNat * 65536 + 62 := by
  refine (BitVec.toNat_append b (62 : BitVec 16)).trans ?_
  rw [← Nat.shiftLeft_add_eq_or_of_lt (by decide), Nat.shiftLeft_eq]
  rfl

/-- Settles O4 at `State.released`, whatever the state before it. -/
theorem resetRestoresAll : Obligations.ResetRestoresAll := by
  intro b s
  refine ⟨State.released b s.pending, rfl, rfl, rfl, rfl, rfl, rfl, rfl, rfl, rfl, rfl, rfl, rfl, fun j => ?_,
    fun g => ?_, rfl, fun n => ?_, rfl, rfl, rfl,
    ⟨OwnRequest.firstLoading b, rfl, rfl, rfl, rfl, rfl, firstLoading_addr b⟩, rfl, rfl, rfl, rfl, rfl,
    fun src => ⟨?_, ?_⟩, rfl⟩
  · simp [State.released, State.slot, SlotContext.reset]
  · simp [State.released, State.generator, Generator.reset]
  · simp [State.released, State.player]
  · simp [State.released, State.isPending, ReportRing.reset]
  · simp [State.released, State.heldOutcome, ReportRing.reset]

end Sys2Proof.Machine

namespace Sys2Proof.Machine

/-! ### Formats of the boot record (R169, R171) -/

theorem lowByte_toNat (w : Word) : (lowByte w).toNat = w.toNat % 256 := by
  rw [lowByte, BitVec.extractLsb'_toNat, Nat.shiftRight_zero]

theorem highByte_toNat (w : Word) : (highByte w).toNat = w.toNat / 256 := by
  have := w.isLt
  rw [highByte, BitVec.extractLsb'_toNat, Nat.shiftRight_eq_div_pow]
  omega

theorem wordAt_of_getElem? (ws : List Word) (k : Nat) (w : Word) (h : ws[k]? = some w) : wordAt ws (2 * k) = w := by
  rw [wordAt, Nat.mul_div_cancel_left k (by decide), List.getD_eq_getElem?_getD, h]
  rfl

theorem byteAt_even (ws : List Word) (k : Nat) : byteAt ws (2 * k) = lowByte (wordAt ws (2 * k)) :=
  if_pos (Nat.mul_mod_right 2 k)

theorem byteAt_odd (ws : List Word) (k : Nat) : byteAt ws (2 * k + 1) = highByte (wordAt ws (2 * k)) := by
  have same : wordAt ws (2 * k + 1) = wordAt ws (2 * k) := by
    unfold wordAt
    rw [show (2 * k + 1) / 2 = 2 * k / 2 by omega]
  rw [byteAt, if_neg (by omega), same]

/-- An address is a word and, above it, the low byte of the next word (R169). -/
theorem addrAt_toNat (ws : List Word) (o : Nat) (even : o % 2 = 0) :
    (addrAt ws o).toNat = (wordAt ws o).toNat + 65536 * ((wordAt ws (o + 2)).toNat % 256) := by
  have bank : byteAt ws (o + 2) = lowByte (wordAt ws (o + 2)) := if_pos (by omega)
  have small := (wordAt ws o).isLt
  rw [addrAt, bank]
  refine (BitVec.toNat_append _ _).trans ?_
  rw [← Nat.shiftLeft_add_eq_or_of_lt small, Nat.shiftLeft_eq, lowByte_toNat]
  omega

/-! ### The record checks (R18, Table 2-3) -/

theorem isEven_iff (a : Addr) : isEven a = true ↔ a.toNat % 2 = 0 := beq_iff_eq

/-- Two spans are clear of each other where one ends before the other begins. -/
theorem spansOverlap_eq_false_iff (a m b n : Nat) : spansOverlap a m b n = false ↔ a + m ≤ b ∨ b + n ≤ a := by
  unfold spansOverlap
  rw [Bool.and_eq_false_iff, decide_eq_false_iff_not, decide_eq_false_iff_not]
  omega

/-- The checks of Table 2-3, each a proposition, are taken in order: the first that fails gives its code. -/
theorem checks_in_order (signature version even region limit ring congestion : Prop) [Decidable signature]
    [Decidable version] [Decidable even] [Decidable region] [Decidable limit] [Decidable ring] [Decidable congestion]
    (c : Option StatusCode) (h : c =
      if ¬ signature then some .badSignature else if ¬ version then some .badVersion
      else if ¬ even then some .badRegion else if ¬ region then some .badRegion else if ¬ limit then some .badLimit
      else if ¬ ring then some .badRegion else if ¬ congestion then some .badCongestion else none) :
    (c = some .badSignature ↔ ¬ signature) ∧
    (c = some .badVersion ↔ signature ∧ ¬ version) ∧
    (c = some .badLimit ↔ signature ∧ version ∧ even ∧ region ∧ ¬ limit) ∧
    (c = some .badRegion ↔ signature ∧ version ∧ (¬ even ∨ ¬ region ∨ (limit ∧ ¬ ring))) ∧
    (c = some .badCongestion ↔ signature ∧ version ∧ even ∧ region ∧ limit ∧ ring ∧ ¬ congestion) ∧
    (c = none ↔ signature ∧ version ∧ even ∧ region ∧ limit ∧ ring ∧ congestion) := by
  subst h
  split_ifs <;> simp_all

/-- The ring is clear of the areas that check 6 names (R18). -/
theorem ringOverlaps_eq_false_iff (b : Byte) (r : BootRecord) : ringOverlaps b r = false ↔
    (r.rb.toNat + 8192 ≤ r.cb.toNat ∨ r.cb.toNat + 512 ≤ r.rb.toNat) ∧
    (r.rb.toNat + 8192 ≤ r.sb.toNat ∨ r.sb.toNat + 1024 ≤ r.rb.toNat) ∧
    (r.rb.toNat + 8192 ≤ r.pb.toNat ∨ r.pb.toNat + 32 * r.limit.toNat ≤ r.rb.toNat) ∧
    (r.rb.toNat + 8192 ≤ b.toNat * 65536 ∨ b.toNat * 65536 + 64 ≤ r.rb.toNat) ∧
    (r.rb.toNat + 8192 ≤ r.cw.toNat ∨ r.cw.toNat + 2 ≤ r.rb.toNat) := by
  unfold ringOverlaps bootBase
  simp only [Bool.or_eq_false_iff, spansOverlap_eq_false_iff, and_assoc]

theorem bases_odd_iff (r : BootRecord) : (!(isEven r.cb && isEven r.sb && isEven r.pb && isEven r.ab && isEven r.rb &&
    isEven r.cw)) = true ↔ ¬ (r.cb.toNat % 2 = 0 ∧ r.sb.toNat % 2 = 0 ∧ r.pb.toNat % 2 = 0 ∧ r.ab.toNat % 2 = 0 ∧
      r.rb.toNat % 2 = 0 ∧ r.cw.toNat % 2 = 0) := by
  rw [Bool.not_eq_true', ← Bool.not_eq_true]
  simp only [Bool.and_eq_true, isEven_iff, and_assoc]

/-- Settles O19: `recordCheck` is `checks_in_order` of the seven checks, each as the statement spells it. -/
theorem recordChecksInOrder : Obligations.RecordChecksInOrder := by
  refine ⟨fun b r => ?_, fun ws k w h => ?_, fun ws r h => ?_⟩
  · intro even clear ring limit region
    have limitIff : r.limit.toNat < 1 ∨ 256 < r.limit.toNat ↔ ¬ limit := by
      simp only [limit]
      omega
    have ringIff : 2 ^ 24 < r.rb.toNat + 8192 ∨ ringOverlaps b r = true ↔ ¬ ring := by
      rw [← Nat.not_le, ← Bool.not_eq_false, ringOverlaps_eq_false_iff, ← not_and_or]
    have chain := checks_in_order (r.signature = 0x4D2A) (r.version = 1) even region limit ring
      (r.congestion.toNat < r.limit.toNat) (recordCheck b r)
      (if_congr .rfl rfl (if_congr .rfl rfl (if_congr (bases_odd_iff r) rfl (if_congr Nat.not_le.symm rfl
        (if_congr limitIff rfl (if_congr ringIff rfl (if_congr Nat.not_lt.symm rfl rfl)))))))
    rwa [Nat.not_lt] at chain
  · rw [byteAt_even, byteAt_odd, wordAt_of_getElem? ws k w h]
    exact ⟨rfl, lowByte_toNat w, highByte_toNat w⟩
  · subst h
    exact ⟨rfl, rfl, addrAt_toNat ws 4 rfl, addrAt_toNat ws 8 rfl, addrAt_toNat ws 12 rfl, rfl, rfl,
      addrAt_toNat ws 20 rfl, addrAt_toNat ws 24 rfl, addrAt_toNat ws 28 rfl, addrAt_toNat ws 32 rfl, rfl, rfl⟩

end Sys2Proof.Machine

namespace Sys2Proof.Machine

/-! ### Own requests of the boot complete (R155, R156) -/

/-- A completed request of the command's kind is delivered to its requester, and the event ends. -/
theorem takeEnds_complete {s t : State} {r : OwnRequest} {data : Word} {deliver : OwnRequest → State → Option State}
    (h : s.Settled) (last : s.LastWordOf r) (d : deliver (r.advance data) s.delivered = some t) :
    s.takeEnds.complete data deliver = t.finish := by
  rw [takeEnds_settled s h]
  exact complete_eq s t r data deliver last d

/-- A delivery that leaves the bus and the control blocks, but for the pairing register, completes the request. -/
theorem completed_withPairing {s u : State} (pending : u.pending = s.pending) (fm : u.fm = s.fm)
    (bus : u.bus = s.delivered.bus) (underWay : u.mra.underWay = none) :
    Completed s (u.finish.withPairing s.pairing) := by
  obtain ⟨port, waiting⟩ := finish_free u (by rw [bus]; rfl)
  rw [bus] at port waiting
  exact ⟨(finish_pending u).trans pending, rfl, (finish_fm u).trans fm, (finish_engineEnd u).trans (by rw [bus]; rfl),
    (finish_cpuEnd u).trans (by rw [bus]; rfl), (finish_underWay u).trans underWay, port, waiting⟩

theorem completed_finish {s u : State} (pending : u.pending = s.pending) (pairing : u.pairing = s.pairing)
    (fm : u.fm = s.fm) (bus : u.bus = s.delivered.bus) (underWay : u.mra.underWay = none) : Completed s u.finish := by
  have same : u.finish.withPairing s.pairing = u.finish := by rw [← pairing, ← finish_pairing]; rfl
  exact same ▸ completed_withPairing pending fm bus underWay

/-- The end of an event at which the boot's last request has completed, its state is `b` and its next request is `q`. -/
def State.bootNext (s : State) (b : BootLoader) (q : OwnRequest) : State := ((s.delivered.withBoot b).enqueue q).finish

theorem bootNext_completed (s : State) (b : BootLoader) (q : OwnRequest) : Completed s (s.bootNext b q) :=
  completed_finish rfl rfl rfl rfl rfl

theorem bootNext_sound (s : State) (b : BootLoader) (q : OwnRequest) : SoundUnchanged s (s.bootNext b q) :=
  SoundUnchanged.finish ⟨rfl, rfl, rfl, rfl, rfl, rfl⟩

theorem bootNext_boot (s : State) (b : BootLoader) (q : OwnRequest) : (s.bootNext b q).boot = b := finish_boot _

theorem bootNext_requestsHeld (s : State) (b : BootLoader) (q : OwnRequest) :
    (s.bootNext b q).requestsHeld.Perm (s.mra.chosen.toList ++ s.mra.queued ++ [q]) :=
  (finish_requestsHeld _).trans (.of_eq (List.append_assoc _ _ _).symm)

/-! ### The boot's own writes (R17, R20 to R22) -/

theorem exec_loadingWriteComplete {s : State} {r : OwnRequest} (h : s.Settled) (last : s.LastWordOf r)
    (kind : r.kind = .statusWrite .loading) :
    exec .loadingWriteComplete s = .next s.delivered.loadingWritten.finish :=
  congrArg Host.Outcome.next (takeEnds_complete h last (by simp only [OwnRequest.advance_kind, kind]))

theorem exec_ringClearWriteComplete {s : State} {r : OwnRequest} {k : Nat} (h : s.Settled) (last : s.LastWordOf r)
    (kind : r.kind = .ringClear k) : exec .ringClearWriteComplete s = .next (s.delivered.recordCleared k).finish :=
  congrArg Host.Outcome.next (takeEnds_complete h last (by simp only [OwnRequest.advance_kind, kind]))

theorem exec_recordReadComplete {s : State} {r : OwnRequest} {data : Word} (h : s.Settled) (last : s.LastWordOf r)
    (kind : r.kind = .bootRead) : exec (.recordReadComplete data) s =
      .next (s.delivered.recordRead r.gen (r.advance data).answer).finish :=
  congrArg Host.Outcome.next (takeEnds_complete h last
    (by simp only [OwnRequest.advance_kind, OwnRequest.advance_gen, kind]))

theorem exec_congestionFetchComplete {s : State} {r : OwnRequest} {data : Word} (h : s.Settled) (last : s.LastWordOf r)
    (kind : r.kind = .congestionFetch) : exec (.congestionFetchComplete data) s =
      .next (s.delivered.congestionFetched r.gen (r.advance data).answer).finish :=
  congrArg Host.Outcome.next (takeEnds_complete h last
    (by simp only [OwnRequest.advance_kind, OwnRequest.advance_gen, kind]))

theorem exec_runningWriteComplete {s : State} {r : OwnRequest} (h : s.Settled) (last : s.LastWordOf r)
    (kind : r.kind = .statusWrite .running) : exec .runningWriteComplete s = .next s.delivered.enterRun.finish :=
  congrArg Host.Outcome.next (takeEnds_complete h last (by simp only [OwnRequest.advance_kind, kind]))

theorem exec_failureWriteComplete {s : State} {r : OwnRequest} {code : StatusCode} (h : s.Settled)
    (last : s.LastWordOf r) (kind : r.kind = .statusWrite code) (failure : code.isFailure = true) :
    exec .failureWriteComplete s = .next s.delivered.enterBypass.finish :=
  congrArg Host.Outcome.next (takeEnds_complete h last (by simp only [OwnRequest.advance_kind, kind, failure, if_true]))

/-- The write of a code to the status word, at offset 62 of the record (R171, R176). -/
def statusRequest (bootsel : Byte) (code : StatusCode) : OwnRequest :=
  ownWrite (.statusWrite code) (BitVec.ofNat 24 (bootsel.toNat * 65536 + 62)) [code.code]

/-- A stage with a status write is entered by the Boot Loader's stage and the queuing of that write (Table 2-2). -/
theorem statusStage_eq (s : State) (stage : BootStage) (code : StatusCode) : s.statusStage stage code =
    (s.withBoot { s.boot with stage := some stage }).enqueue (statusRequest s.boot.bootsel code) := rfl

/-- The clearing of record k goes on to the next record, and from the 512th to the RUNNING write (R20). -/
theorem recordCleared_eq (s : State) (k : Nat) (w : BootRecord) (h : s.boot.working = some w) : s.recordCleared k =
    if k + 1 < 512 then s.clearRecord w.rb (k + 1) else s.statusStage .running .running := by
  unfold State.recordCleared
  rw [h]

/-- Settles O22: each completion is a `State.bootNext`, the last clearing's with the RUNNING write. -/
theorem bootWritesLeadOn : Obligations.BootWritesLeadOn := by
  refine ⟨fun s r settled last kind => ?_, fun s r k w settled last kind working => ?_⟩
  · let q := ownRead .bootRead s.boot.bootGen (BitVec.ofNat 24 (s.boot.bootsel.toNat * 65536)) 32
    let b := { s.boot with stage := some .record }
    exact ⟨s.bootNext b q, q, exec_loadingWriteComplete settled last kind, bootNext_completed s b q,
      bootNext_sound s b q, bootNext_boot s b q, bootNext_requestsHeld s b q, rfl, rfl, rfl, rfl, rfl⟩
  · have runs := exec_ringClearWriteComplete settled last kind
    rw [recordCleared_eq s.delivered k w working] at runs
    by_cases more : k + 1 < 512
    · let q := ownWrite (.ringClear (k + 1)) (w.rb + BitVec.ofNat 24 (16 * (k + 1))) (List.replicate 8 0)
      rw [if_pos more] at runs
      exact ⟨s.bootNext s.boot q, q, runs, bootNext_completed s s.boot q, bootNext_sound s s.boot q,
        bootNext_requestsHeld s s.boot q, fun _ => ⟨bootNext_boot s s.boot q, rfl, rfl, rfl, rfl⟩,
        fun done => absurd more (by omega)⟩
    · let q := statusRequest s.boot.bootsel .running
      let b := { s.boot with stage := some .running }
      rw [if_neg more] at runs
      exact ⟨s.bootNext b q, q, runs, bootNext_completed s b q, bootNext_sound s b q, bootNext_requestsHeld s b q,
        fun less => absurd less (by omega), fun _ => ⟨bootNext_boot s b q, rfl, rfl, rfl⟩⟩

/-! ### The record and the congestion descriptor are read (R17 to R20) -/

/-- The congestion descriptor's fetch: 16 words at PB + 32c (R19). -/
def congestionRequest (w : BootRecord) (gen : Generation) : OwnRequest :=
  ownRead .congestionFetch gen (descriptorAddr w.pb w.congestion.toNat) 16

/-- A record read of this boot whose working copy fails a check leads to the write of that check's code (R18, R22). -/
theorem recordRead_failed (s : State) (g : Option Generation) (ws : List Word) (code : StatusCode)
    (gen : g = some s.boot.bootGen) (h : recordCheck s.boot.bootsel (parseBootRecord ws) = some code) :
    s.recordRead g ws =
      (s.withBoot { s.boot with working := some (parseBootRecord ws), stage := some .failing }).enqueue
        (statusRequest s.boot.bootsel code) := by
  unfold State.recordRead
  rw [if_pos gen]
  dsimp only
  rw [h]
  rfl

/-- One whose working copy passes them all leads to the congestion descriptor's fetch (R19). -/
theorem recordRead_passed (s : State) (g : Option Generation) (ws : List Word)
    (gen : g = some s.boot.bootGen) (h : recordCheck s.boot.bootsel (parseBootRecord ws) = none) :
    s.recordRead g ws =
      (s.withBoot { s.boot with working := some (parseBootRecord ws), stage := some .congestion }).enqueue
        (congestionRequest (parseBootRecord ws) s.boot.bootGen) := by
  unfold State.recordRead
  rw [if_pos gen]
  dsimp only
  rw [h]
  rfl

/-- Settles O20: the check's result decides between two next requests. -/
theorem recordReadChecked : Obligations.RecordReadChecked := by
  intro s r data settled last kind gen
  have runs := exec_recordReadComplete (data := data) settled last kind
  generalize (r.advance data).answer = ws at runs ⊢
  cases check : recordCheck s.boot.bootsel (parseBootRecord ws) with
  | some code =>
    let b := { s.boot with working := some (parseBootRecord ws), stage := some .failing }
    let q := statusRequest s.boot.bootsel code
    rw [recordRead_failed s.delivered r.gen ws code gen check] at runs
    refine ⟨s.bootNext b q, _, q, runs, rfl, bootNext_completed s b q, bootNext_sound s b q,
      bootNext_requestsHeld s b q, fun found h => ?_,
      fun h => nomatch check.symm.trans h⟩
    obtain rfl : code = found := Option.some_inj.mp (check.symm.trans h)
    exact ⟨bootNext_boot s b q, rfl, rfl, rfl⟩
  | none =>
    let b := { s.boot with working := some (parseBootRecord ws), stage := some .congestion }
    let q := congestionRequest (parseBootRecord ws) s.boot.bootGen
    rw [recordRead_passed s.delivered r.gen ws gen check] at runs
    exact ⟨s.bootNext b q, _, q, runs, rfl, bootNext_completed s b q, bootNext_sound s b q,
      bootNext_requestsHeld s b q, fun _ h => (nomatch check.symm.trans h),
      fun _ => ⟨bootNext_boot s b q, rfl, rfl, rfl, rfl⟩⟩

theorem checkTone_eq_none_iff (highway : Option Nat) (ws : List Word) :
    checkTone highway ws = none ↔ checkCopy highway ws = none ∧ isTone ws = true := by
  unfold checkTone
  cases checkCopy highway ws <;> simp

theorem ringMoves_iff (b : BootLoader) (w : BootRecord) :
    b.ringMoves w = true ↔ ∀ a, b.accepted = some a → a.rb ≠ w.rb := by
  unfold BootLoader.ringMoves
  cases b.accepted <;> simp

/-- The boot's next step at a congestion descriptor of this boot (R19, R20). -/
theorem congestionFetched_eq (s : State) (g : Option Generation) (ws : List Word) (w : BootRecord)
    (gen : g = some s.boot.bootGen) (working : s.boot.working = some w) : s.congestionFetched g ws =
    if checkTone none ws ≠ none then
      (s.withBoot { s.boot with stage := some .failing }).enqueue (statusRequest s.boot.bootsel .badCongestion)
    else if s.boot.ringMoves w then
      (s.withBoot { s.boot with congestionCopy := some (toneCopyOf ws), stage := some .clearing }).clearRecord w.rb 0
    else (s.withBoot { s.boot with congestionCopy := some (toneCopyOf ws), stage := some .running }).enqueue
      (statusRequest s.boot.bootsel .running) := by
  unfold State.congestionFetched
  split
  · rename_i absent
    exact nomatch working.symm.trans absent
  · rename_i found
    obtain rfl := Option.some_inj.mp (working.symm.trans found)
    rw [if_pos gen]
    cases checkTone none ws <;> rfl

/-- Settles O21: the descriptor fails, or passes with a ring that moves or one that stands. -/
theorem congestionCopyChecked : Obligations.CongestionCopyChecked := by
  intro s r data w settled last kind gen working
  have runs := exec_congestionFetchComplete (data := data) settled last kind
  generalize (r.advance data).answer = ws at runs ⊢
  rw [congestionFetched_eq s.delivered r.gen ws w gen working] at runs
  have passed_iff := checkTone_eq_none_iff none ws
  by_cases check : checkTone none ws = none
  · obtain ⟨copy, tone⟩ := passed_iff.mp check
    rw [if_neg (not_not.mpr check)] at runs
    have passed : ¬ (checkCopy none ws ≠ none ∨ isTone ws = false) := by simp [copy, tone]
    by_cases moves : s.delivered.boot.ringMoves w = true
    · let b := { s.boot with congestionCopy := some (toneCopyOf ws), stage := some .clearing }
      let q := ownWrite (.ringClear 0) (w.rb + BitVec.ofNat 24 (16 * 0)) (List.replicate 8 0)
      rw [if_pos moves] at runs
      refine ⟨s.bootNext b q, q, ws, runs, rfl, bootNext_completed s b q, bootNext_sound s b q,
        bootNext_requestsHeld s b q, fun failed => absurd failed passed, fun _ _ ⟨a, accepted, same⟩ => ?_,
        fun _ _ _ => ⟨bootNext_boot s b q, rfl, rfl, BitVec.add_zero w.rb⟩⟩
      exact absurd same ((ringMoves_iff _ w).mp moves a accepted)
    · let b := { s.boot with congestionCopy := some (toneCopyOf ws), stage := some .running }
      let q := statusRequest s.boot.bootsel .running
      rw [if_neg moves] at runs
      refine ⟨s.bootNext b q, q, ws, runs, rfl, bootNext_completed s b q, bootNext_sound s b q,
        bootNext_requestsHeld s b q, fun failed => absurd failed passed,
        fun _ _ _ => ⟨bootNext_boot s b q, rfl, rfl⟩, fun _ _ other => ?_⟩
      exact absurd ((ringMoves_iff _ w).mpr other) moves
  · let b := { s.boot with stage := some .failing }
    let q := statusRequest s.boot.bootsel .badCongestion
    rw [if_pos check] at runs
    exact ⟨s.bootNext b q, q, ws, runs, rfl, bootNext_completed s b q, bootNext_sound s b q,
      bootNext_requestsHeld s b q, fun _ => ⟨bootNext_boot s b q, rfl, rfl⟩,
      fun copy tone => absurd (passed_iff.mpr ⟨copy, tone⟩) check,
      fun copy tone => absurd (passed_iff.mpr ⟨copy, tone⟩) check⟩

/-! ### The entry to BYPASS (R22, R158) -/

theorem isFailure_of_ne {code : StatusCode} (loading : code ≠ .loading) (running : code ≠ .running) :
    code.isFailure = true := by
  cases code with
  | loading => exact absurd rfl loading
  | running => exact absurd rfl running
  | badSignature | badVersion | badRegion | badLimit | badCongestion => rfl

/-- In BYPASS no own request is chosen (R158), so the end of an event leaves them all as they are. -/
theorem finish_mra_bypass (u : State) (h : u.boot.device = .bypass) : u.finish.mra = u.mra := by
  have picked : u.pick = none := by unfold State.pick; rw [h]
  rcases finish_cases u with ⟨same, -⟩ | ⟨-, -, chosen, some⟩
  · exact same
  · rcases choose_cases u with same | ⟨r, -, -, -, pick, -⟩
    · rw [chosen, same]
    · exact nomatch picked.symm.trans pick

/-- Settles O24: the failure write's completion changes the Boot Loader alone, and no choice follows it. -/
theorem bypassEntered : Obligations.BypassEntered := by
  intro s r code settled last kind loading running
  have arbiter : s.delivered.enterBypass.finish.mra = s.delivered.mra := finish_mra_bypass _ rfl
  exact ⟨_, exec_failureWriteComplete settled last kind (isFailure_of_ne loading running), finish_boot _,
    completed_finish rfl rfl rfl rfl rfl, SoundUnchanged.finish ⟨rfl, rfl, rfl, rfl, rfl, rfl⟩,
    by rw [arbiter]; rfl, by rw [arbiter]; rfl⟩

end Sys2Proof.Machine

namespace Sys2Proof.Machine

/-! ### The entry to RUN (R21, R167) -/

/-- The ring is restarted where it moves (R167). -/
def State.ringReady (s : State) (w : BootRecord) : State := if s.boot.ringMoves w then s.restartRing else s

/-- The working copy is the accepted record of a part in RUN, its pairing invalid and TG15 bound from the kept copy
(R21). -/
def State.serve (s : State) (w : BootRecord) (copy : ToneCopy) : State :=
  ((s.withBoot { s.boot with
    device := .run, accepted := some w, working := none, congestionCopy := none, stage := none }).withPairing
      none).setGenerator congestionGen (boundGenerator (Fin.ofNat 256 w.congestion.toNat) copy true 0)

theorem enterRun_eq (s : State) (w : BootRecord) (copy : ToneCopy) (working : s.boot.working = some w)
    (kept : s.boot.congestionCopy = some copy) : s.enterRun =
      ((s.ringReady w).serve w copy).takeOutcome (deviceRecord s.fm.frame .reloaded 0 0) := by
  unfold State.enterRun State.ringReady
  split
  · rename_i absent
    exact nomatch working.symm.trans absent
  · rename_i found
    obtain rfl := Option.some_inj.mp (working.symm.trans found)
    rw [kept]
    split <;> rfl

/-- The taking of an outcome changes the request queue and the report ring alone, and nothing that is under way. -/
theorem takeOutcome_frame (s : State) (o : Outcome) : ∃ m x, s.takeOutcome o = (s.withMra m).withRrw x ∧
    m.underWay = s.mra.underWay := by
  refine ⟨(s.takeOutcome o).mra, (s.takeOutcome o).rrw, ?_, takeOutcome_underWay s o⟩
  unfold State.takeOutcome
  split
  · rfl
  · split <;> rfl

theorem ringReady_frame (s : State) (w : BootRecord) : ∃ m x, s.ringReady w = (s.withMra m).withRrw x ∧
    m.underWay = s.mra.underWay := by
  refine ⟨(s.ringReady w).mra, (s.ringReady w).rrw, ?_, ?_⟩ <;> unfold State.ringReady <;> split <;> rfl

/-- Beside the request queue and the report ring, the entry to RUN is `State.serve`. -/
theorem enterRun_frame (s : State) (w : BootRecord) (copy : ToneCopy) (working : s.boot.working = some w)
    (kept : s.boot.congestionCopy = some copy) : ∃ m x, s.enterRun = ((s.serve w copy).withMra m).withRrw x ∧
      m.underWay = s.mra.underWay := by
  obtain ⟨m, x, ready, same⟩ := ringReady_frame s w
  obtain ⟨n, y, taken, stands⟩ := takeOutcome_frame ((s.ringReady w).serve w copy)
    (deviceRecord s.fm.frame .reloaded 0 0)
  refine ⟨n, y, ?_, ?_⟩
  · rw [enterRun_eq s w copy working kept, taken, ready]
    rfl
  · rw [stands, ready]
    exact same

/-! ### RELOADED where the ring stands -/

/-- What the taking of an outcome leaves of the ring: its indices, phase, order list and consumer copy, and, where the
source has no unconsumed record, every held outcome. -/
theorem takeOutcome_ring (s : State) (o : Outcome) : (s.takeOutcome o).rrw.producer = s.rrw.producer ∧
    (s.takeOutcome o).rrw.consumer = s.rrw.consumer ∧ (s.takeOutcome o).rrw.phase = s.rrw.phase ∧
    (s.takeOutcome o).rrw.order = s.rrw.order ∧ (s.takeOutcome o).rrw.consumerCopy = s.rrw.consumerCopy ∧
    (s.isPending o.source = false → (s.takeOutcome o).rrw.held = s.rrw.held) := by
  unfold State.takeOutcome
  split
  · exact ⟨rfl, rfl, rfl, rfl, rfl, fun _ => rfl⟩
  · split
    · rename_i pending
      exact ⟨rfl, rfl, rfl, rfl, rfl, fun free => absurd pending (by rw [free]; decide)⟩
    · exact ⟨rfl, rfl, rfl, rfl, rfl, fun _ => rfl⟩

/-- Of the Boot Loader, the handing over of an outcome reads the accepted RB alone. -/
theorem Reported.of_same_rb {s u t : State} {o : Outcome} {a w : BootRecord} (h : Reported u t o)
    (before : s.boot.accepted = some a) (after : u.boot.accepted = some w) (rb : a.rb = w.rb) (ring : u.rrw = s.rrw)
    (held : u.reportsHeld = s.reportsHeld) : Reported s t o := by
  intro rec found
  obtain rfl := Option.some_inj.mp (before.symm.trans found)
  have taken := h w after
  unfold WaitsAt State.isPending State.heldOutcome at *
  rw [ring, held] at taken
  rw [rb]
  exact taken

/-- A completed request that is no report write leaves the report writes. -/
theorem delivered_reportWrites {s : State} {r : OwnRequest} (last : s.LastWordOf r) (h : r.kind.isReport = false) :
    s.delivered.reportWrites = s.reportWrites := by
  unfold State.reportWrites State.requestsHeld
  rw [last.underWay]
  simp [h]

/-! ### RELOADED where the ring moves -/

theorem restartRing_reportWrites (s : State) (idle : s.mra.underWay = none) : s.restartRing.reportWrites = [] := by
  have kept : ∀ r ∈ s.restartRing.requestsHeld, r.kind.isReport = false := by
    intro r held
    have waits : s.restartRing.Waiting r := by
      have none : s.restartRing.mra.underWay = none := idle
      simp only [State.requestsHeld, none, Option.toList_none, List.nil_append, List.mem_append,
        Option.mem_toList] at held
      exact held.symm
    exact ((withdraw_waiting_iff _ _ r).mp waits).2
  exact List.filter_eq_nil_iff.mpr fun r held => by simp [kept r held]

theorem queueReport_reportWrites (s : State) (rb : Addr) (o : Outcome) : (s.queueReport rb o).reportWrites =
    s.reportWrites ++ [ownWrite (.reportWrite o.source) (rb + BitVec.ofNat 24 (16 * s.nextIndex.1))
      (recordWords o s.nextIndex.2)] := by
  simp [State.queueReport, State.reportWrites, State.requestsHeld, State.enqueue, ownWrite, OwnKind.isReport]

/-- On a ring that has restarted, with no report write queued, a record takes index 0 with phase 1 (R167). -/
theorem nextIndex_restarted (s : State) (ring : s.rrw = ReportRing.reset) (empty : s.reportWrites = []) :
    s.nextIndex = (0, true) := by
  have zero : s.reportsHeld = 0 := congrArg List.length empty
  unfold State.nextIndex
  rw [ring, zero]
  rfl

theorem restarted_isPending (s : State) (ring : s.rrw = ReportRing.reset) (src : Source) : s.isPending src = false := by
  unfold State.isPending
  simp [ring, ReportRing.reset]

theorem restarted_heldOutcome (s : State) (ring : s.rrw = ReportRing.reset) (src : Source) :
    s.heldOutcome src = none := by
  unfold State.heldOutcome
  simp [ring, ReportRing.reset]

/-- An outcome taken on a ring that has restarted is queued. -/
theorem takeOutcome_restarted (s : State) (o : Outcome) (w : BootRecord) (accepted : s.boot.accepted = some w)
    (ring : s.rrw = ReportRing.reset) : s.takeOutcome o = s.queueReport w.rb o := by
  unfold State.takeOutcome
  rw [accepted]
  exact if_neg (by rw [restarted_isPending s ring]; decide)

theorem finish_reportWrites (u : State) : u.finish.reportWrites.Perm u.reportWrites := (finish_requestsHeld u).filter _

/-- RELOADED on a ring that moves: the ring has restarted, and RELOADED takes its index 0 (R167). -/
theorem enterRun_ringMoves (s : State) (w : BootRecord) (copy : ToneCopy) (working : s.boot.working = some w)
    (kept : s.boot.congestionCopy = some copy) (idle : s.mra.underWay = none) (moves : s.boot.ringMoves w = true) :
    s.enterRun.rrw = ReportRing.reset.setFlag deviceSource true ∧ s.enterRun.reportWrites =
      [ownWrite (.reportWrite deviceSource) w.rb (recordWords (deviceRecord s.fm.frame .reloaded 0 0) true)] := by
  have ready : s.ringReady w = s.restartRing := if_pos moves
  have empty : (s.restartRing.serve w copy).reportWrites = [] := restartRing_reportWrites s idle
  rw [enterRun_eq s w copy working kept, ready, takeOutcome_restarted _ _ w rfl rfl]
  refine ⟨rfl, ?_⟩
  rw [queueReport_reportWrites, empty, nextIndex_restarted _ rfl empty]
  show [ownWrite _ (w.rb + 0#24) _] = _
  rw [BitVec.add_zero]
  rfl

/-- RELOADED on a ring that stands: it is taken as any outcome is (R21, R163). -/
theorem enterRun_ringStands (s : State) (w : BootRecord) (copy : ToneCopy) (working : s.boot.working = some w)
    (kept : s.boot.congestionCopy = some copy) (stands : ¬ s.boot.ringMoves w = true) :
    s.enterRun = (s.serve w copy).takeOutcome (deviceRecord s.fm.frame .reloaded 0 0) := by
  rw [enterRun_eq s w copy working kept]
  unfold State.ringReady
  rw [if_neg stands]

/-- Settles O23: `State.serve` gives the blocks, and the two lemmas above the ring and RELOADED. -/
theorem runEntered : Obligations.RunEntered := by
  intro s r w copy settled last kind working kept
  obtain ⟨m, x, frame, underWay⟩ := enterRun_frame s.delivered w copy working kept
  refine ⟨s.delivered.enterRun.finish, _, exec_runningWriteComplete settled last kind, ?_, rfl, ?_, ?_, ?_, ?_, ?_,
    ?_, ?_, fun a accepted same => ?_, fun other => ?_⟩
  · refine completed_withPairing ?_ ?_ ?_ ?_ <;> rw [frame]
    · rfl
    · rfl
    · rfl
    · exact underWay
  · rw [finish_boot, frame]; rfl
  · rw [finish_pairing, frame]; rfl
  · rw [finish_slots, frame]; rfl
  · rw [finish_players, frame]; rfl
  · rw [finish_queue, frame]; rfl
  · rw [finish_refetch, frame]; rfl
  · rw [finish_gens, frame]; rfl
  · let u := s.delivered.serve w copy
    let o := deviceRecord s.fm.frame .reloaded 0 0
    have taken : s.delivered.enterRun = u.takeOutcome o := enterRun_ringStands _ w copy working kept fun moves =>
      (ringMoves_iff _ w).mp moves a accepted same
    have writes : u.reportsHeld = s.reportsHeld :=
      reportsHeld_of_reportWrites (delivered_reportWrites last (by rw [kind]; rfl))
    obtain ⟨producer, consumer, phase, order, consumerCopy, held⟩ := takeOutcome_ring u o
    have reported : Reported s (u.takeOutcome o) o :=
      (takeOutcome_reported u o).of_same_rb accepted rfl same rfl writes
    rw [taken, finish_rrw]
    refine ⟨producer, consumer, phase, order, consumerCopy, reported.finish, fun src other => ?_, fun _ => ?_,
      fun free => ?_⟩
    · obtain ⟨pending, outcome⟩ := takeOutcome_other u o src (Ne.symm other)
      rw [finish_isPending, finish_heldOutcome]
      exact ⟨pending, outcome⟩
    · rw [finish_isPending]
      exact takeOutcome_isPending u o rfl
    · rw [finish_heldOutcome]
      unfold State.heldOutcome
      rw [held free]
      rfl
  · obtain ⟨ring, writes⟩ := enterRun_ringMoves s.delivered w copy working kept rfl ((ringMoves_iff _ w).mpr other)
    have same : s.delivered.enterRun.finish.rrw = ReportRing.reset.setFlag deviceSource true :=
      (finish_rrw _).trans ring
    have queued := (finish_reportWrites s.delivered.enterRun).trans (.of_eq writes)
    unfold State.attn State.heldOutcome State.isPending
    rw [same]
    refine ⟨rfl, rfl, rfl, rfl, rfl, rfl, fun src => ?_, fun src => ?_, _,
      List.perm_singleton.mp queued, rfl, rfl, rfl⟩
    · simp [ReportRing.setFlag, ReportRing.reset]
    · rw [ReportRing.setFlag_get]
      simp [ReportRing.reset, eq_comm]

end Sys2Proof.Machine

namespace Sys2Proof.Machine

/-! ### The reload (R16, R23, R24, R160) -/

/-- The drain of a reload: the report writes held, each marked (R16). -/
def State.drainWrites (s : State) : List OwnRequest := s.reportWrites.map (fun r => { r with drain := true })

theorem drainWrites_eq_nil_iff (s : State) : s.drainWrites = [] ↔ s.reportWrites = [] := List.map_eq_nil_iff

theorem filterMap_keepForDrain (l : List OwnRequest) : l.filterMap keepForDrain =
    (l.filter (fun r => r.kind.isReport)).map (fun r => { r with drain := true }) := by
  induction l with
  | nil => rfl
  | cons r l ih => by_cases h : r.kind.isReport = true <;> simp [keepForDrain, h, ih]

/-- The drain is all that a reload keeps of the own requests (R160). -/
theorem abandon_requestsHeld (s : State) : (s.withMra s.mra.abandon).requestsHeld = s.drainWrites := by
  have kept : ∀ o : Option OwnRequest, (o.bind keepForDrain).toList = o.toList.filterMap keepForDrain := by
    intro o
    cases o with
    | none => rfl
    | some r => cases h : keepForDrain r <;> simp [h]
  unfold State.drainWrites State.reportWrites State.requestsHeld
  simp only [State.withMra_mra, Arbiter.abandon, kept, filterMap_keepForDrain, List.filter_append,
    List.map_append]

/-- A reload resets the serving blocks, but in BOOT, where they have been reset (R23, R24). -/
def State.quieted (s : State) : State := if s.boot.device = .boot then s else s.resetServing

/-- The part that a reload stops, with its new boot not yet begun. -/
def State.stopped (s : State) : State :=
  (((s.quieted.withMra s.mra.abandon).withRrw
    { s.rrw with held := Vector.replicate 257 none }).withPairing none).withBoot { s.boot with
      device := .boot, working := none, congestionCopy := none, bootGen := s.boot.bootGen + 1 }

theorem reload_eq (s : State) : s.reload = s.stopped.beginBoot := by
  unfold State.reload State.stopped State.quieted
  dsimp only
  split <;> rfl

theorem stopped_requestsHeld (s : State) : s.stopped.requestsHeld = s.drainWrites := abandon_requestsHeld s

theorem drainLeft_stopped_iff (s : State) : s.stopped.drainLeft = true ↔ s.reportWrites ≠ [] := by
  unfold State.drainLeft
  rw [stopped_requestsHeld, List.any_eq_true]
  constructor
  · rintro ⟨r, held, -⟩ empty
    rw [(drainWrites_eq_nil_iff s).mpr empty] at held
    cases held
  · intro some
    obtain ⟨r, held⟩ := List.exists_mem_of_ne_nil _ some
    exact ⟨{ r with drain := true }, List.mem_map_of_mem held, rfl⟩

/-- With no report write held, the new boot begins with its LOADING write (R16). -/
theorem reload_loading (s : State) (h : s.reportWrites = []) : s.reload =
    (s.stopped.withBoot { s.stopped.boot with stage := some .loading }).enqueue
      (statusRequest s.boot.bootsel .loading) := by
  rw [reload_eq]
  exact if_neg fun left => (drainLeft_stopped_iff s).mp left h

/-- With one held, it begins with the drain (R16). -/
theorem reload_drain (s : State) (h : s.reportWrites ≠ []) : s.reload =
    s.stopped.withBoot { s.stopped.boot with stage := some .drain } := by
  rw [reload_eq]
  exact if_pos ((drainLeft_stopped_iff s).mpr h)

/-- Beside the request queue, a reload is `State.stopped` at the first stage of its boot. -/
theorem reload_frame (s : State) : ∃ m, s.reload = (s.stopped.withBoot { s.stopped.boot with
    stage := some (if s.reportWrites = [] then .loading else .drain) }).withMra m := by
  refine ⟨s.reload.mra, ?_⟩
  by_cases h : s.reportWrites = []
  · rw [reload_loading s h, if_pos h]
    rfl
  · rw [reload_drain s h, if_neg h]
    rfl

/-- In BOOT, where every request queued is the boot's or the drain's, the choice takes the oldest (R158). -/
theorem finish_requestsHeld_boot (u : State) (boot : u.boot.device = .boot)
    (h : ∀ r ∈ u.mra.queued, (r.drain || r.kind.isBoot) = true) : u.finish.requestsHeld = u.requestsHeld := by
  have same : u.finish.requestsHeld = u.choose.requestsHeld := by simp [State.finish, State.requestsHeld]
  rw [same]
  rcases choose_cases u with stands | ⟨r, -, chosen, underWay, pick, choice⟩
  · rw [stands]
  · unfold State.pick at pick
    rw [choice]
    unfold State.requestsHeld
    cases queued : u.mra.queued with
    | nil => simp [boot, queued] at pick
    | cons x l =>
      have first : x = r := by simpa [boot, queued, h x (by simp [queued])] using pick
      simp [chosen, underWay, first]

/-- The only request queued in BOOT, the boot's own, is chosen where none is chosen or under way (R156, R158). -/
theorem finish_chosen_boot (u : State) (w : OwnRequest) (boot : u.boot.device = .boot) (chosen : u.mra.chosen = none)
    (underWay : u.mra.underWay = none) (queued : u.mra.queued = [w]) (own : w.kind.isBoot = true) :
    u.finish.mra.chosen = some w := by
  have pick : u.pick = some w := by
    unfold State.pick
    simp [boot, queued, own]
  have same : u.finish.mra = u.choose.mra := grant_mra _
  rw [same]
  unfold State.choose
  simp [chosen, underWay, pick]

/-- The own requests after a reload without a drain: the LOADING write, which is chosen (R16, R156). -/
theorem reload_requests_loading (s : State) (h : s.reportWrites = []) :
    s.reload.finish.requestsHeld = [statusRequest s.boot.bootsel .loading] ∧
    s.reload.finish.mra.chosen = some (statusRequest s.boot.bootsel .loading) := by
  have empty : s.stopped.requestsHeld = [] := (stopped_requestsHeld s).trans ((drainWrites_eq_nil_iff s).mpr h)
  obtain ⟨underWay, chosen, queued⟩ : s.stopped.mra.underWay = none ∧ s.stopped.mra.chosen = none ∧
      s.stopped.mra.queued = [] := by simpa [State.requestsHeld] using empty
  rw [reload_loading s h]
  have one : ((s.stopped.withBoot { s.stopped.boot with stage := some .loading }).enqueue
      (statusRequest s.boot.bootsel .loading)).mra.queued = [statusRequest s.boot.bootsel .loading] :=
    congrArg (· ++ [statusRequest s.boot.bootsel .loading]) queued
  refine ⟨(finish_requestsHeld_boot _ rfl ?_).trans ?_, finish_chosen_boot _ _ rfl chosen underWay one rfl⟩
  · rw [one]
    simp [statusRequest, ownWrite, OwnKind.isBoot]
  · unfold State.requestsHeld
    rw [one]
    show s.stopped.mra.underWay.toList ++ s.stopped.mra.chosen.toList ++ _ = _
    rw [underWay, chosen]
    rfl

/-- The own requests after a reload with a drain: the drain alone (R16, R160). -/
theorem reload_requests_drain (s : State) (h : s.reportWrites ≠ []) : s.reload.finish.requestsHeld = s.drainWrites := by
  rw [reload_drain s h]
  refine (finish_requestsHeld_boot _ rfl fun r queued => ?_).trans (stopped_requestsHeld s)
  have held : r ∈ s.drainWrites := stopped_requestsHeld s ▸ List.mem_append_right _ queued
  obtain ⟨x, -, rfl⟩ := List.mem_map.mp held
  rfl

theorem drainWrites_filter (s : State) : s.drainWrites.filter (fun r => r.kind.isReport) = s.drainWrites := by
  refine List.filter_eq_self.mpr fun r held => ?_
  obtain ⟨x, write, rfl⟩ := List.mem_map.mp held
  exact (List.mem_filter.mp write).2

/-- The own requests after a reload: its drain, or else the LOADING write. -/
theorem reload_requests (s : State) : s.reload.finish.reportWrites = s.drainWrites ∧
    (s.reportWrites = [] → ∃ w, s.reload.finish.requestsHeld = [w] ∧ s.reload.finish.mra.chosen = some w ∧
      w.kind = .statusWrite .loading ∧ w.data = [0x0001] ∧ w.length = 1 ∧ w.done = 0 ∧
      w.addr = BitVec.ofNat 24 (s.boot.bootsel.toNat * 65536 + 62)) ∧
    (s.reportWrites ≠ [] → s.reload.finish.requestsHeld = s.reload.finish.reportWrites) := by
  by_cases h : s.reportWrites = []
  · obtain ⟨held, chosen⟩ := reload_requests_loading s h
    refine ⟨?_, fun _ => ⟨_, held, chosen, rfl, rfl, rfl, rfl, rfl⟩, fun some => absurd h some⟩
    rw [(drainWrites_eq_nil_iff s).mpr h, State.reportWrites, held]
    rfl
  · have held := reload_requests_drain s h
    have writes : s.reload.finish.reportWrites = s.drainWrites := by
      rw [State.reportWrites, held, drainWrites_filter]
    exact ⟨writes, fun empty => absurd empty h, fun _ => held.trans writes.symm⟩

theorem quieted_control (s : State) : s.quieted.pending = s.pending ∧ s.quieted.bus = s.bus ∧ s.quieted.fm = s.fm := by
  unfold State.quieted
  split
  · exact ⟨rfl, rfl, rfl⟩
  · simp [State.resetServing]

theorem reload_bus (s : State) : s.reload.bus = s.bus := by
  obtain ⟨m, frame⟩ := reload_frame s
  obtain ⟨-, bus, -⟩ := quieted_control s
  rw [frame]
  simp [State.stopped, bus]

/-- The control blocks after a reload, and the ring, which loses its held outcomes alone (R23, R24, R167). -/
theorem reload_control (s : State) : s.reload.finish.pending = s.pending ∧ s.reload.finish.pairing = none ∧
    s.reload.finish.fm = s.fm ∧
    s.reload.finish.boot = { s.boot with device := .boot, working := none, congestionCopy := none,
                                         bootGen := s.boot.bootGen + 1,
                                         stage := some (if s.reportWrites = [] then .loading else .drain) } ∧
    s.reload.finish.rrw = { s.rrw with held := Vector.replicate 257 none } := by
  obtain ⟨m, frame⟩ := reload_frame s
  obtain ⟨pending, -, fm⟩ := quieted_control s
  rw [finish_pending, finish_pairing, finish_fm, finish_boot, finish_rrw, frame]
  simp [State.stopped, pending, fm]

/-- The serving blocks after a reload. -/
theorem reload_serving (s : State) : s.reload.finish.slots = s.quieted.slots ∧
    s.reload.finish.gens = s.quieted.gens ∧ s.reload.finish.refetch = s.quieted.refetch ∧
    s.reload.finish.players = s.quieted.players ∧ s.reload.finish.queue = s.quieted.queue := by
  obtain ⟨m, frame⟩ := reload_frame s
  rw [finish_slots, finish_gens, finish_refetch, finish_players, finish_queue, frame]
  simp [State.stopped]

/-- A store to the command word is a reload, and nothing else (R4, R23). -/
theorem storeAccepted_command (s : State) (q : Request) (data : Word) (l : List StoreTaker)
    (h : s.isCommandWord q.addr = true) :
    s.storeAccepted q data l = (s.freePort.endTo q.master .stored).reload.finish := by
  have command : (s.freePort.endTo q.master .stored).isCommandWord q.addr = true := by
    rw [endTo_frame]
    exact h
  unfold State.storeAccepted
  dsimp only
  rw [if_pos command]

/-- Whichever command brings it, memory's acceptance of a store to the command word ends the store and is a reload. -/
theorem exec_commandWord_store {s : State} {q : Request} {data : Word} {c : Instr} (hc : IsAcceptance c)
    (settled : s.Settled) (port : s.StoreOnPort q data) (command : s.isCommandWord q.addr = true) :
    ∃ b, exec c s = .next (s.withBus b).reload.finish ∧ Ended s (s.withBus b).reload.finish q.master .stored := by
  obtain ⟨l, accepts, -⟩ := acceptance_eq s q data c hc settled port
  rw [storeAccepted_command s q data l command] at accepts
  have ended := ended_finish (s := s) (e := .stored) (reload_bus (s.freePort.endTo q.master .stored))
  rw [endTo_frame] at accepts ended
  exact ⟨_, accepts, ended⟩

/-- Settles O17: `reload_control` and `reload_requests` in every device state, and the serving blocks reset or not. -/
theorem commandStoreReloads : Obligations.CommandStoreReloads := by
  constructor
  · intro s q data c hc settled port command device
    obtain ⟨b, accepts, ended⟩ := exec_commandWord_store hc settled port command
    obtain ⟨pending, pairing, fm, boot, ring⟩ := reload_control (s.withBus b)
    obtain ⟨slots, gens, refetch, players, queue⟩ := reload_serving (s.withBus b)
    have reset : (s.withBus b).quieted = (s.withBus b).resetServing := if_neg device
    rw [reset] at slots gens refetch players queue
    refine ⟨_, accepts, ended, pending, pairing, fm, boot, fun j => ?_, fun g => ?_, refetch, fun n => ?_, queue, ring,
      reload_requests (s.withBus b)⟩
    · have slot : (s.withBus b).reload.finish.slot j = (s.slot j).reload :=
        (congrArg (fun v => v[j.val]) slots).trans (mapBank_get _ _ _ _)
      rw [slot]
      exact ⟨rfl, rfl, rfl⟩
    · exact (congrArg (fun v => v[g.val]) gens).trans (Vector.getElem_replicate _)
    · exact (congrArg (fun v => v[n.val]) players).trans (mapBank_get _ _ _ _)
  · intro s q data c hc settled port command device
    obtain ⟨b, accepts, ended⟩ := exec_commandWord_store hc settled port command
    obtain ⟨pending, pairing, fm, boot, ring⟩ := reload_control (s.withBus b)
    obtain ⟨slots, gens, refetch, players, queue⟩ := reload_serving (s.withBus b)
    have stands : (s.withBus b).quieted = s.withBus b := if_pos device
    rw [stands] at slots gens refetch players queue
    refine ⟨_, accepts, ended, pending, pairing, fm, boot.trans ?_, slots, gens, refetch, players, queue, ring,
      reload_requests (s.withBus b)⟩
    rw [← device]
    rfl

end Sys2Proof.Machine

namespace Sys2Proof.Machine

/-! ### What a change does to the Frame Monitor, the players and the waiting queue (R26, R106, R142) -/

/-- The Frame Monitor, the players and the waiting queue are as they were. -/
structure TimingStands (s t : State) : Prop where
  fm : t.fm = s.fm
  players : t.players = s.players
  queue : t.queue = s.queue

theorem TimingStands.refl (s : State) : TimingStands s s := ⟨rfl, rfl, rfl⟩

theorem TimingStands.trans {s t u : State} (a : TimingStands s t) (b : TimingStands t u) : TimingStands s u :=
  ⟨b.fm.trans a.fm, b.players.trans a.players, b.queue.trans a.queue⟩

theorem timingStands_takeOutcome (s : State) (o : Outcome) : TimingStands s (s.takeOutcome o) :=
  ⟨by simp, by simp, by simp⟩

theorem timingStands_refetchDone (s : State) (c : Program) (g : Option Generation) (ws : List Word) :
    TimingStands s (s.refetchDone c g ws) := by
  unfold State.refetchDone
  split
  · dsimp only
    split
    · exact ⟨rfl, rfl, rfl⟩
    · refine TimingStands.trans ?_ (timingStands_takeOutcome _ _)
      exact ⟨rfl, rfl, rfl⟩
  · exact .refl s

theorem timingStands_releaseSource (s : State) (src : Source) : TimingStands s (s.releaseSource src) := by
  unfold State.releaseSource
  dsimp only
  split
  · exact ⟨rfl, rfl, rfl⟩
  · refine TimingStands.trans ?_ (timingStands_takeOutcome _ _)
    exact ⟨rfl, rfl, rfl⟩

theorem timingStands_consumerTaken (s : State) (d : Word) (b : Strobes) : TimingStands s (s.consumerTaken d b) := by
  have released : ∀ (l : List Source) (t : State), TimingStands t (l.foldl State.releaseSource t) := by
    intro l
    induction l with
    | nil => exact .refl
    | cons src l ih => exact fun t => (timingStands_releaseSource t src).trans (ih _)
  refine TimingStands.trans ?_ (released _ _)
  exact ⟨rfl, rfl, rfl⟩

theorem timingStands_recordRead (s : State) (g : Option Generation) (ws : List Word) :
    TimingStands s (s.recordRead g ws) := by
  unfold State.recordRead
  split
  · dsimp only
    split <;> exact ⟨rfl, rfl, rfl⟩
  · exact .refl s

theorem timingStands_congestionFetched (s : State) (g : Option Generation) (ws : List Word) :
    TimingStands s (s.congestionFetched g ws) := by
  unfold State.congestionFetched
  split
  · exact .refl s
  · split
    · split
      · exact ⟨rfl, rfl, rfl⟩
      · dsimp only
        split <;> exact ⟨rfl, rfl, rfl⟩
    · exact .refl s

theorem timingStands_recordCleared (s : State) (k : Nat) : TimingStands s (s.recordCleared k) := by
  unfold State.recordCleared
  split
  · exact .refl s
  · split <;> exact ⟨rfl, rfl, rfl⟩

theorem timingStands_reportDone (s : State) (src : Source) : TimingStands s (s.reportDone src) := by
  unfold State.reportDone
  dsimp only
  split <;> exact ⟨rfl, rfl, rfl⟩

theorem timingStands_bindCongestion (s : State) (c : Program) (x : Option ToneCopy) :
    TimingStands s (s.bindCongestion c x) := by
  cases x <;> exact ⟨rfl, rfl, rfl⟩

theorem timingStands_enterRun (s : State) : TimingStands s s.enterRun := by
  unfold State.enterRun
  split
  · exact .refl s
  · dsimp only
    refine TimingStands.trans (TimingStands.trans ?_ (timingStands_bindCongestion _ _ _)) (timingStands_takeOutcome _ _)
    split <;> exact ⟨rfl, rfl, rfl⟩

/-- A reload leaves the Frame Monitor alone; the queue and the players are reset, or stand where the part was in BOOT
already (R23, R24). -/
theorem reload_timing (s : State) : TimingStands s s.reload ∨
    (s.reload.fm = s.fm ∧ s.reload.players = mapBank Player.reload s.players ∧ s.reload.queue = []) := by
  obtain ⟨m, frame⟩ := reload_frame s
  rw [frame]
  by_cases boot : s.boot.device = .boot
  · left
    have stands : s.quieted = s := if_pos boot
    constructor <;> simp [State.stopped, stands]
  · right
    have reset : s.quieted = s.resetServing := if_neg boot
    refine ⟨?_, ?_, ?_⟩ <;> simp [State.stopped, reset, State.resetServing]

/-- What a change can do to the Frame Monitor, the players and the queue: moves of the serving blocks, the Frame
Monitor's own change, nothing at all, a reload, or RESET. -/
inductive TimingChange : State → State → Prop where
  | moves {s t : State} (m : Moves s t) : TimingChange s t
  | fm (s : State) (x : FrameMonitor) (lawful : s.fm.Lawful → x.Lawful)
      (latched : s.WindowsLatched → (s.withFm x).WindowsLatched) : TimingChange s (s.withFm x)
  | stands {s t : State} (h : TimingStands s t) : TimingChange s t
  | reload (s : State) : TimingChange s s.reload
  | reset (s : State) (b : Byte) : TimingChange s (State.released b s.pending)

theorem Change.timing {s t : State} (c : Change s t) : TimingChange s t := by
  have done : TimingStands s s.delivered := ⟨rfl, rfl, rfl⟩
  cases c with
  | serving h => exact .moves h.moves
  | fm x lawful latched => exact .fm s x lawful latched
  | reload => exact .reload s
  | reset b => exact .reset s b
  | pending | bus | pairing | start | underWay | startRefetch | delivered | loading | bypass =>
    exact .stands ⟨rfl, rfl, rfl⟩
  | device o _ => exact .stands (timingStands_takeOutcome s o)
  | refetch c g ws => exact .stands (timingStands_refetchDone s c g ws)
  | choose => exact .stands ⟨choose_fm s, choose_players s, choose_queue s⟩
  | report r src _ _ => exact .stands (done.trans (timingStands_reportDone _ src))
  | record r ws _ _ => exact .stands (done.trans (timingStands_recordRead _ r.gen ws))
  | congestion r ws _ _ => exact .stands (done.trans (timingStands_congestionFetched _ r.gen ws))
  | cleared r n _ _ => exact .stands (done.trans (timingStands_recordCleared _ n))
  | run r _ _ => exact .stands (done.trans (timingStands_enterRun _))
  | consumer d b _ _ => exact .stands (timingStands_consumerTaken s d b)

theorem TimingStands.player {s t : State} (h : TimingStands s t) (n : PlayerIx) : t.player n = s.player n := by
  unfold State.player; rw [h.players]

theorem reload_fm (s : State) : s.reload.fm = s.fm := by
  rcases reload_timing s with same | ⟨fm, -, -⟩
  · exact same.fm
  · exact fm

theorem reload_player (s : State) (n : PlayerIx) :
    s.reload.player n = s.player n ∨ s.reload.player n = (s.player n).reload := by
  rcases reload_timing s with same | ⟨-, reset, -⟩
  · exact .inl (same.player n)
  · right
    unfold State.player
    rw [reset]
    exact mapBank_get _ _ _ _

/-! ### The bounds of the queue and the players (R111, R115, R134, R138, R142) -/

theorem Player.reload_bounded (pl : Player) : pl.reload.Bounded := Player.reset_bounded

theorem Move.queueBounded {s t : State} (m : Move s t) (h : s.QueueBounded) : t.QueueBounded := by
  unfold State.QueueBounded at *
  cases m with
  | enqueue | withdraw | slot | generator | tones | player => exact h
  | leave j => exact (List.length_filter_le _ _).trans h
  | append e room => simpa using room
  | outcome o j _ => simpa using h

/-- A move leaves player k's record alone or replaces it by one that may stand for it. -/
theorem Move.player_cases {s t : State} (m : Move s t) (k : PlayerIx) :
    t.player k = s.player k ∨ PlayerStep s k (t.player k) := by
  cases m with
  | player n x step =>
    rw [State.setPlayer_player]
    split
    · rename_i same
      subst same
      exact .inr step
    · exact .inl rfl
  | outcome o j _ => exact .inl (takeOutcome_player s o k)
  | enqueue | withdraw | slot | generator | tones | leave | append => exact .inl rfl

theorem Move.playersBounded {s t : State} (m : Move s t) (h : s.PlayersBounded) : t.PlayersBounded := by
  intro k
  rcases m.player_cases k with same | step
  · rw [same]; exact h k
  · exact step.bounded (h k)

/-- A player's part of `State.WindowsLatched`: the latch is set while frames are left, and else only while a mark's
ends wait. -/
def Player.Latched (pl : Player) (ends : Bool) : Prop :=
  (0 < pl.framesLeft → pl.windowOpen = true) ∧ (pl.windowOpen = true → pl.framesLeft = 0 → ends = true)

theorem windowsLatched_iff (s : State) : s.WindowsLatched ↔ ∀ n, (s.player n).Latched s.fm.endsOpen := Iff.rfl

theorem Player.Latched.step {ends : Bool} {old x : Player} (h : old.Latched ends) (w : WindowStep ends old x) :
    x.Latched ends := by
  obtain ⟨left, shut⟩ := h
  rcases w with ⟨latch, frames⟩ | latch | ⟨waits, latch, frames⟩
  · unfold Player.Latched
    rw [latch, frames]
    exact ⟨left, shut⟩
  · exact ⟨latch.mpr, fun isOpen spent => absurd (latch.mp isOpen) (by omega)⟩
  · exact ⟨fun more => latch.trans (left (by omega)), fun _ _ => waits⟩

theorem Move.windowsLatched {s t : State} (m : Move s t) (h : s.WindowsLatched) : t.WindowsLatched := by
  rw [windowsLatched_iff] at *
  intro k
  rw [m.servingOnly.fm]
  rcases m.player_cases k with same | step
  · rw [same]; exact h k
  · exact (h k).step step.window

/-! ### The bounds over every change -/

theorem released_fm_lawful (b : Byte) (l : List Instr) : (State.released b l).fm.Lawful :=
  ⟨⟨rfl, rfl⟩, fun h => absurd rfl h, fun _ _ h => nomatch h⟩

theorem released_player (b : Byte) (l : List Instr) (n : PlayerIx) : (State.released b l).player n = Player.reset :=
  Vector.getElem_replicate _

theorem released_playersBounded (b : Byte) (l : List Instr) : (State.released b l).PlayersBounded := fun n => by
  rw [released_player]; exact Player.reset_bounded

theorem Player.reset_latched (ends : Bool) : Player.reset.Latched ends :=
  ⟨fun h => absurd h (Nat.lt_irrefl 0), fun h => nomatch h⟩

theorem released_windowsLatched (b : Byte) (l : List Instr) : (State.released b l).WindowsLatched := fun n => by
  rw [released_player]; exact Player.reset_latched _

theorem Change.lawful {s t : State} (c : Change s t) (h : s.fm.Lawful) : t.fm.Lawful := by
  cases c.timing with
  | moves m => rw [m.servingOnly.fm]; exact h
  | fm x lawful _ => exact lawful h
  | stands same => rw [same.fm]; exact h
  | reload => rw [reload_fm]; exact h
  | reset b => exact released_fm_lawful b _

theorem Change.queueBounded {s t : State} (c : Change s t) (h : s.QueueBounded) : t.QueueBounded := by
  cases c.timing with
  | moves m => exact m.keeps (fun _ _ => Move.queueBounded) h
  | fm => exact h
  | stands same => exact (congrArg List.length same.queue).trans_le h
  | reload =>
    rcases reload_timing s with same | ⟨-, -, empty⟩
    · exact (congrArg List.length same.queue).trans_le h
    · exact (congrArg List.length empty).trans_le (Nat.zero_le _)
  | reset b => exact Nat.zero_le _

theorem Change.playersBounded {s t : State} (c : Change s t) (h : s.PlayersBounded) : t.PlayersBounded := by
  cases c.timing with
  | moves m => exact m.keeps (fun _ _ => Move.playersBounded) h
  | fm => exact h
  | stands same => exact fun n => same.player n ▸ h n
  | reload =>
    intro n
    rcases reload_player s n with same | reset
    · rw [same]; exact h n
    · rw [reset]; exact Player.reload_bounded _
  | reset b => exact released_playersBounded b _

theorem Change.windowsLatched {s t : State} (c : Change s t) (h : s.WindowsLatched) : t.WindowsLatched := by
  cases c.timing with
  | moves m => exact m.keeps (fun _ _ => Move.windowsLatched) h
  | fm x _ latched => exact latched h
  | stands same => intro n; rw [same.player n, same.fm]; exact h n
  | reload =>
    intro n
    rw [reload_fm]
    rcases reload_player s n with same | reset
    · rw [same]; exact h n
    · rw [reset]; exact Player.reset_latched _
  | reset b => exact released_windowsLatched b _

/-- Settles O54: each of the four laws is kept by every change that makes up a step. -/
theorem boundsKept : Obligations.BoundsKept := fun s t h =>
  ⟨step_keeps (P := fun s => s.fm.Lawful) (fun _ _ => Change.lawful) s t h,
    step_keeps (fun _ _ => Change.queueBounded) s t h,
    step_keeps (fun _ _ => Change.playersBounded) s t h,
    step_keeps (fun _ _ => Change.windowsLatched) s t h⟩

end Sys2Proof.Machine

namespace Sys2Proof.Machine

/-! ### The laws at reset (R14) -/

/-- Where the part serves nobody there is nothing in the queue or in a listener set. -/
theorem State.ServesNobody.membership {s : State} (h : s.ServesNobody) : s.Membership := by
  have idle : ∀ j, (s.slot j).state = .idle := fun j => (h.slots j).1
  have listeners : ∀ n, (s.player n).listeners = [] := fun n => congrArg Player.listeners (h.players n)
  have state : ∀ n, (s.player n).state = .free := fun n => congrArg Player.state (h.players n)
  exact {
    entriesOnce := by rw [h.queue]; exact List.nodup_nil
    waiting := fun j p => by simp [h.queue, idle]
    playing := fun j n => by simp [listeners, idle]
    ordered := fun n => by rw [listeners]; exact .nil
    listening := fun n => by simp [listeners, state] }

theorem State.ServesNobody.oneFreshPlayer {s : State} (h : s.ServesNobody) : s.OneFreshPlayer := by
  intro p n _ fresh _
  rw [h.players n] at fresh
  exact absurd fresh (by simp [Player.isFreshFor, Player.reset])

theorem State.ServesNobody.oneFreshGenerator {s : State} (h : s.ServesNobody) : s.OneFreshGenerator := by
  intro p g _ fresh _
  rw [h.gens g] at fresh
  exact nomatch fresh

theorem State.ServesNobody.countsExact {s : State} (h : s.ServesNobody) : s.CountsExact := by
  constructor
  · intro g
    have silent : s.sourceCount g = 0 := List.countP_eq_zero.mpr fun j _ => by rw [(h.slots j).1]; exact nofun
    rw [silent, h.gens g]
    rfl
  · intro g _
    rw [h.gens g]
    exact iff_of_true rfl rfl

theorem released_reportWrites (b : Byte) (l : List Instr) : (State.released b l).reportWrites = [] := rfl

theorem released_ringLaw (b : Byte) (l : List Instr) : (State.released b l).RingLaw := by
  have empty : (State.released b l).unconsumed = [] := rfl
  have flag : ∀ src, (State.released b l).isPending src = false := fun src => Vector.getElem_replicate _
  have held : ∀ src, (State.released b l).heldOutcome src = none := fun src => Vector.getElem_replicate _
  exact {
    once := by rw [empty]; exact List.nodup_nil
    flags := fun src => by simp [empty, flag]
    held := fun src o h => by rw [held] at h; cases h
    indices := by simp [State.released, ReportRing.reset] }

theorem released_writesInOrder (b : Byte) (l : List Instr) : (State.released b l).WritesInOrder where
  addresses _ h := nomatch h
  drainFirst := by rw [released_reportWrites]; exact .nil

/-- Settles O5: after RESET the part serves nobody, its ring is empty, and the LOADING write is chosen. -/
theorem lawsAtReset : Obligations.LawsAtReset := by
  have quiet : State.reset.ServesNobody := servesNobody_released _ _
  refine ⟨released_fm_lawful _ _, Nat.zero_le _, quiet.membership, released_playersBounded _ _, released_windowsLatched _ _,
    quiet.oneFreshPlayer, quiet.oneFreshGenerator, bootLaw_released _ _, ?_, ?_, quiet.countsExact,
    released_ringLaw _ _, released_writesInOrder _ _, ?_⟩
  · exact (quietOutsideRun_iff _).mpr fun _ => quiet
  · exact fun run => nomatch run
  · exact fun chosen => nomatch chosen

/-! ### Deadlines (R37) -/

/-- The frames from a deadline's mark to the present one are counted without regard to where F stands. -/
theorem frames_since_deadline (f : Frame) (n k : Nat) :
    f + BitVec.ofNat 32 k - deadlineAfter f n = BitVec.ofNat 32 k - BitVec.ofNat 32 n :=
  add_sub_add_left_eq_sub _ _ f

/-- Settles O28: the difference of the two counts is k - n modulo 2^32. -/
theorem deadlineAtNthMark : Obligations.DeadlineAtNthMark := by
  intro f n k hn hk
  unfold deadlinePassed
  rw [frames_since_deadline, decide_eq_true_iff, BitVec.toNat_sub, BitVec.toNat_ofNat, BitVec.toNat_ofNat]
  omega

end Sys2Proof.Machine

namespace Sys2Proof.Machine

/-! ### The expiries' commands (R28, R32 to R35) -/

theorem exec_windowExpiry (s : State) (order : List MarkTask) (h : s.Settled) :
    exec (.windowExpiry order) s = .next (s.windowExpired order).finish := by
  show Host.Outcome.next (s.takeEnds.windowExpired order).finish = _
  rw [takeEnds_settled s h]

theorem exec_flywheelExpiry (s : State) (order : List MarkTask) (h : s.Settled) :
    exec (.flywheelExpiry order) s = .next (s.flywheelExpired order).finish := by
  show Host.Outcome.next (s.takeEnds.flywheelExpired order).finish = _
  rw [takeEnds_settled s h]

theorem FrameMonitor.atExpiry_iff (m : FrameMonitor) :
    m.atExpiry = true ↔ ∃ p e, m.timer = some p ∧ expiryCount m.lock = some e ∧ e ≤ p := by
  unfold FrameMonitor.atExpiry FrameMonitor.untilExpiry
  cases m.timer <;> cases expiryCount m.lock <;> simp
  omega

theorem FrameMonitor.atExpiry_of_short (m : FrameMonitor) (e : Nat) (count : expiryCount m.lock = some e)
    (short : ∀ p, m.timer = some p → p < e) : m.atExpiry = false := by
  rw [Bool.eq_false_iff, Ne, m.atExpiry_iff]
  rintro ⟨p, e', timer, count', late⟩
  obtain rfl : e = e' := Option.some_inj.mp (count.symm.trans count')
  exact absurd (short p timer) (by omega)

theorem FrameMonitor.untilExpiry_of_count_none (m : FrameMonitor) (h : expiryCount m.lock = none) :
    m.untilExpiry = none := by
  unfold FrameMonitor.untilExpiry
  rw [h]
  cases m.timer <;> rfl

/-- The Frame Monitor once LOCKING has given up (R32). -/
def FrameMonitor.givenUp (m : FrameMonitor) : FrameMonitor := { m with lock := .unlocked, onTime := 0, misses := 0 }

/-- The Frame Monitor once a flywheel mark has been taken with its miss count (R33, R34). -/
def FrameMonitor.flywheeled (m : FrameMonitor) (misses : Nat) : FrameMonitor :=
  { m.mark with lock := .holdover, misses := misses }

/-- The Frame Monitor once the third miss has stalled it (R34). -/
def FrameMonitor.stalledAt (m : FrameMonitor) : FrameMonitor :=
  { m with lock := .stalled, misses := 3, stallReported := true }

theorem windowExpired_locking (s : State) (order : List MarkTask) (lock : s.fm.lock = .locking)
    (ends : s.fm.atExpiry = true) : s.windowExpired order = s.withFm s.fm.givenUp := by
  unfold State.windowExpired
  rw [if_pos ends, lock]
  rfl

theorem windowExpired_locked (s : State) (order : List MarkTask) (lock : s.fm.lock = .locked)
    (ends : s.fm.atExpiry = true) : s.windowExpired order = (s.withFm (s.fm.flywheeled 1)).handMark order := by
  unfold State.windowExpired
  rw [if_pos ends, lock]
  rfl

/-- WINDOW_EXPIRY finds no expiry outside LOCKING and LOCKED, or with the timer short of its count (log 8). -/
theorem windowExpired_still (s : State) (order : List MarkTask)
    (h : s.fm.atExpiry = false ∨ (s.fm.lock ≠ .locking ∧ s.fm.lock ≠ .locked)) : s.windowExpired order = s := by
  unfold State.windowExpired
  rcases h with short | ⟨locking, locked⟩
  · exact if_neg (by simp [short])
  · split
    · split
      · exact absurd ‹_› locking
      · exact absurd ‹_› locked
      all_goals rfl
    · rfl

theorem flywheelExpired_mark (s : State) (order : List MarkTask) (lock : s.fm.lock = .holdover)
    (misses : s.fm.misses ≤ 1) (ends : s.fm.atExpiry = true) :
    s.flywheelExpired order = (s.withFm (s.fm.flywheeled 2)).handMark order := by
  unfold State.flywheelExpired
  rw [if_pos ends, lock]
  exact if_pos misses

theorem flywheelExpired_stall (s : State) (order : List MarkTask) (lock : s.fm.lock = .holdover)
    (misses : ¬ s.fm.misses ≤ 1) (ends : s.fm.atExpiry = true) :
    s.flywheelExpired order = (s.withFm s.fm.stalledAt).deviceOutcome .frameStall 0 0 := by
  unfold State.flywheelExpired
  rw [if_pos ends, lock]
  exact if_neg misses

/-- FLYWHEEL_EXPIRY finds no expiry outside HOLDOVER, or with the timer short of its count (log 8). -/
theorem flywheelExpired_still (s : State) (order : List MarkTask)
    (h : s.fm.atExpiry = false ∨ s.fm.lock ≠ .holdover) : s.flywheelExpired order = s := by
  unfold State.flywheelExpired
  rcases h with short | lock
  · exact if_neg (by simp [short])
  · split
    · split
      · exact absurd ‹_› lock
      all_goals rfl
    · rfl

/-- The end of an event that did nothing makes a choice at most. -/
theorem finish_unchanged (s : State) : ControlUnchanged s s.finish ∧ SoundUnchanged s s.finish ∧ SameRequests s s.finish :=
  ⟨ControlUnchanged.finish ⟨rfl, rfl, rfl, rfl⟩, SoundUnchanged.finish ⟨rfl, rfl, rfl, rfl, rfl, rfl⟩,
    sameRequests_finish rfl⟩

/-- A timer without an expiry counts on (R28). -/
theorem tick_counts_on (s : State) (p : Nat) (timer : s.fm.timer = some p) (never : expiryCount s.fm.lock = none) (n : Nat) :
    s.tick n = s.withFm { s.fm with timer := some (p + n) } := by
  rw [tick_short s n fun r h => by rw [s.fm.untilExpiry_of_count_none never] at h; cases h]
  show s.withFm { s.fm with timer := s.fm.timer.map (· + n) } = _
  rw [timer]
  rfl

/-- A frame mark that the Frame Monitor has taken as `m`, at the end of its event: the blocks have taken it from the
state in which `m` stands, and the other control blocks are as they were (R36). -/
theorem handMark_finish (s t : State) (m : FrameMonitor) (order : List MarkTask) (ends : m.endsOpen = true)
    (h : ((s.withFm m).handMark order).finish = t) : ∃ u, t.fm = m ∧ t.boot = s.boot ∧ t.pairing = s.pairing ∧
      t.refetch = s.refetch ∧ t.pending = s.pending ∧ u = (s.withFm t.fm).handMark order ∧ t.slots = u.slots ∧
      t.gens = u.gens ∧ t.players = u.players ∧ t.queue = u.queue ∧ t.rrw = u.rrw := by
  subst h
  obtain ⟨pending, pairing, boot, fm, refetch⟩ := handMark_kept (s.withFm m) order ends
  refine ⟨(s.withFm m).handMark order, (finish_fm _).trans fm, (finish_boot _).trans boot,
    (finish_pairing _).trans pairing, (finish_refetch _).trans refetch, (finish_pending _).trans pending, ?_,
    finish_slots _, finish_gens _, finish_players _, finish_queue _, finish_rrw _⟩
  rw [finish_fm, fm]
  rfl

/-- A read of connection entry 0 in UNLOCKED returns the lock machine to LOCKING (R30). -/
theorem connectionRead_begins_locking (s : State) (a : Addr) (b : Strobes) (n : Nat) (order : List MarkTask)
    (settled : s.Settled) (lock : (s.tick n).fm.lock = .unlocked) (entry : s.connectionEntry a = some 0)
    (idle : s.outstanding .engine = false) :
    ∃ v, exec (.connectionRead a b n order) s = .next v ∧ v.fm.lock = .locking ∧ v.fm.onTime = 0 ∧ v.fm.misses = 0 := by
  refine ⟨_, exec_connectionRead s a b n order settled, ?_⟩
  rw [arriveRequest_connection s a b n order 0 entry idle]
  have marked : ((s.tick n).connectionArrives 0 { master := .engine, dir := .read, addr := a, strobes := b } order).fm =
      (s.tick n).fm.engineMark := (finish_fm _).trans (engineMark_frame ((s.tick n).withPairing (some 0)) order).1
  rw [marked]
  exact (s.tick n).fm.engineMark_unlocked (.inl lock)

/-- Settles O25: the giving up, the first flywheel mark, and a timer short of its count. -/
theorem windowExpiryTaken : Obligations.WindowExpiryTaken := by
  intro s order settled
  have taken := exec_windowExpiry s order settled
  refine ⟨fun p lock timer late => ?_, fun p lock timer late => ?_, fun short => ?_⟩
  · have ends := s.fm.atExpiry_iff.mpr ⟨p, 533, timer, by rw [lock]; rfl, late⟩
    rw [windowExpired_locking s order lock ends] at taken
    have fm : (s.withFm s.fm.givenUp).finish.fm = s.fm.givenUp := finish_fm _
    have counts := tick_counts_on (s.withFm s.fm.givenUp).finish p (by rw [fm]; exact timer) (by rw [fm]; rfl)
    refine ⟨_, taken, fm, counts, fun a b n o _ entry idle => ?_, SoundUnchanged.finish ⟨rfl, rfl, rfl, rfl, rfl, rfl⟩,
      sameRequests_finish rfl, finish_boot _, finish_pairing _, finish_pending _⟩
    refine connectionRead_begins_locking _ a b n o ((congrArg FrameMonitor.endsOpen fm).trans settled) ?_ entry idle
    rw [counts n, fm]
    rfl
  · have ends := s.fm.atExpiry_iff.mpr ⟨p, 533, timer, by rw [lock]; rfl, late⟩
    rw [windowExpired_locked s order lock ends] at taken
    obtain ⟨u, rest⟩ := handMark_finish s _ (s.fm.flywheeled 1) order rfl rfl
    exact ⟨_, u, taken, rest⟩
  · have still : s.fm.atExpiry = false ∨ (s.fm.lock ≠ .locking ∧ s.fm.lock ≠ .locked) := by
      cases lock : s.fm.lock with
      | locking | locked => exact .inl (s.fm.atExpiry_of_short 533 (by rw [lock]; rfl) short)
      | unlocked | holdover | stalled => exact .inr ⟨nofun, nofun⟩
    rw [windowExpired_still s order still] at taken
    exact ⟨_, taken, finish_unchanged s⟩

/-- Settles O26: the second flywheel mark, the stall, and where there is no such expiry. -/
theorem flywheelExpiryInHoldover : Obligations.FlywheelExpiryInHoldover := by
  intro s order settled
  have taken := exec_flywheelExpiry s order settled
  refine ⟨fun p lock misses timer late => ?_, fun p lock misses timer late => ?_, fun absent => ?_,
    fun locking locked => ?_⟩
  · have ends := s.fm.atExpiry_iff.mpr ⟨p, 512, timer, by rw [lock]; rfl, late⟩
    rw [flywheelExpired_mark s order lock (by omega) ends] at taken
    obtain ⟨u, fm, rest⟩ := handMark_finish s _ (s.fm.flywheeled 2) order rfl rfl
    refine ⟨_, u, taken, fm.trans ?_, rest⟩
    show s.fm.flywheeled 2 = { s.fm.flywheeled 2 with lock := s.fm.lock }
    rw [lock]
    rfl
  · have ends := s.fm.atExpiry_iff.mpr ⟨p, 512, timer, by rw [lock]; rfl, late⟩
    rw [flywheelExpired_stall s order lock (by omega) ends] at taken
    unfold State.deviceOutcome at taken
    have fm : ∀ o, ((s.withFm s.fm.stalledAt).takeOutcome o).finish.fm = s.fm.stalledAt := fun o => by
      rw [finish_fm, takeOutcome_fm]; rfl
    refine ⟨_, taken, fm _, tick_counts_on _ p (by rw [fm]; exact timer) (by rw [fm]; rfl), ?_, ?_, ?_, ?_, ?_, ?_, ?_, ?_,
      Reported.before (takeOutcome_reported (s.withFm s.fm.stalledAt) _).finish rfl rfl rfl⟩
    all_goals simp
  · have still : s.fm.atExpiry = false ∨ s.fm.lock ≠ .holdover := by
      by_cases lock : s.fm.lock = .holdover
      · exact .inl (s.fm.atExpiry_of_short 512 (by rw [lock]; rfl) (absent.resolve_left (absurd lock)))
      · exact .inr lock
    rw [flywheelExpired_still s order still] at taken
    exact ⟨_, taken, finish_unchanged s⟩
  · have taken := exec_windowExpiry s order settled
    rw [windowExpired_still s order (.inr ⟨locking, locked⟩)] at taken
    exact ⟨_, taken, finish_unchanged s⟩

end Sys2Proof.Machine

namespace Sys2Proof.Machine

/-! ### Commands that leave the Frame Monitor alone (R29) -/

/-- A completion leaves the Frame Monitor alone where its delivery does. -/
theorem complete_fm (s : State) (d : Word) (f : OwnRequest → State → Option State)
    (h : ∀ r t u, f r t = some u → u.fm = t.fm) : (s.complete d f).fm = s.fm := by
  rcases complete_cases s d f with e | ⟨r, u, -, delivers, e⟩
  · rw [e]
  · rw [e, finish_fm, h _ _ u delivers, delivered_fm]

theorem programTaken_fm (s : State) (p : Program) : (s.programTaken p).fm = s.fm := by
  unfold State.programTaken
  generalize marked : s.withMra { s.mra with underWay := s.mra.underWay.map (OwnRequest.overtake p) } = a
  have fm : a.fm = s.fm := marked ▸ rfl
  have moves := (moves_staleGenerators a p).trans (Moves.foldl _ (fun t n => moves_stalePlayer t p n) allPlayers _)
  dsimp only
  generalize allPlayers.foldl (fun t n => t.stalePlayer p n) (a.staleGenerators p) = b at moves
  split
  · exact moves.servingOnly.fm.trans fm
  · exact moves.servingOnly.fm.trans fm

theorem takeStore_fm (r : Request) (d : Word) (s : State) (x : StoreTaker) : (State.takeStore r d s x).fm = s.fm := by
  cases x <;> dsimp only [State.takeStore] <;> split
  · exact (moves_connectionTaken _ _ _ _).servingOnly.fm
  · rfl
  · exact programTaken_fm _ _
  · rfl
  · exact (timingStands_consumerTaken _ _ _).fm
  · rfl

theorem endTo_fm (s : State) (m : Master) (e : Ending) : (s.freePort.endTo m e).fm = s.fm := by
  rw [endTo_frame, State.withBus_fm]

theorem storeAccepted_fm (s : State) (r : Request) (d : Word) (l : List StoreTaker) :
    (s.storeAccepted r d l).fm = s.fm := by
  have takers : ∀ (l : List StoreTaker) (t : State), (l.foldl (State.takeStore r d) t).fm = t.fm := by
    intro l
    induction l with
    | nil => exact fun _ => rfl
    | cons x l ih => exact fun t => (ih _).trans (takeStore_fm r d t x)
  unfold State.storeAccepted
  dsimp only
  rw [finish_fm]
  split
  · rw [reload_fm, endTo_fm]
  · rw [takers, endTo_fm]

theorem readAnswered_fm (s : State) (r : Request) (d : Word) : (s.readAnswered r d).fm = s.fm := by
  unfold State.readAnswered
  dsimp only
  rw [finish_fm]
  split
  · rw [(moves_adoptionChecked _ _ _).servingOnly.fm, endTo_fm]
  · exact endTo_fm _ _ _

theorem acceptStore_fm (s : State) (l : List StoreTaker) : (s.acceptStore l).fm = s.fm := by
  unfold State.acceptStore
  split
  · split
    · exact storeAccepted_fm _ _ _ _
    · rfl
  all_goals rfl

theorem answerRead_fm (s : State) (d : Word) : (s.answerRead d).fm = s.fm := by
  unfold State.answerRead
  split
  · split
    · exact readAnswered_fm _ _ _
    · rfl
  all_goals rfl

theorem completePassing_fm (s : State) (d : Word) : (s.completePassing d).fm = s.fm := by
  unfold State.completePassing
  split
  · split
    · exact readAnswered_fm _ _ _
    · exact storeAccepted_fm _ _ _ _
  all_goals rfl

theorem wordDone_fm (s : State) (d : Word) : (s.wordDone d).fm = s.fm := by
  unfold State.wordDone
  split
  · split
    · exact grant_fm _
    · rfl
  · rfl

theorem startBurst_fm (s : State) : s.startBurst.fm = s.fm := by
  unfold State.startBurst
  split <;> rfl

/-- The commands that can bring a frame mark or an expiry, or reset the part (R29). -/
def reachesMonitor : Instr → Bool
  | .reset _ => true
  | .connectionRead .. => true
  | .virtualRead .. => true
  | .passingRequest _ => true
  | .windowExpiry _ => true
  | .flywheelExpiry _ => true
  | _ => false

/-- Every other command leaves the Frame Monitor as the ends it takes first leave it. -/
theorem exec_fm (c : Instr) (s t : State) (other : reachesMonitor c = false) (h : exec c s = .next t) :
    t.fm = s.fm ∨ t.fm = s.takeEnds.fm := by
  have ends : ∀ {u : State}, exec c s = .next u → u.fm = s.takeEnds.fm → t.fm = s.fm ∨ t.fm = s.takeEnds.fm :=
    fun e fm => .inr (by rw [e] at h; cases h; exact fm)
  have still : ∀ {u : State}, exec c s = .next u → u.fm = s.fm → t.fm = s.fm ∨ t.fm = s.takeEnds.fm :=
    fun e fm => .inl (by rw [e] at h; cases h; exact fm)
  have take : ∀ {d : Word} {f : OwnRequest → State → Option State}, exec c s = .next (s.takeEnds.complete d f) →
      (∀ r u v, f r u = some v → v.fm = u.fm) → t.fm = s.fm ∨ t.fm = s.takeEnds.fm :=
    fun e fm => ends e (complete_fm _ _ _ fm)
  cases c with
  | reset | connectionRead | virtualRead | passingRequest | windowExpiry | flywheelExpiry => cases other
  | passingCompletion d => exact ends rfl (completePassing_fm _ d)
  | adoptionCheck d => exact ends rfl (answerRead_fm _ d)
  | connectionStore | programStore | consumerStore | commandStore => exact ends rfl (acceptStore_fm _ _)
  | cadenceStepEnd g => exact still rfl (moves_endCadenceStep s g).servingOnly.fm
  | joinWindowClose n => exact still rfl (moves_closeWindow s n).servingOnly.fm
  | dwellExpiry j => exact still rfl ((finish_fm _).trans (moves_takeDwell s j).servingOnly.fm)
  | waitTimeout => exact still rfl ((finish_fm _).trans (moves_takeTimeout s).servingOnly.fm)
  | burstWordComplete d => exact ends rfl (wordDone_fm _ d)
  | ownBurstStart => exact ends rfl (startBurst_fm _)
  | failureWriteComplete =>
    refine take rfl fun r u v h => ?_
    split at h
    · split at h <;> cases h
      rfl
    · cases h
  | loadingWriteComplete =>
    exact take rfl fun r u v h => by split at h <;> cases h; rfl
  | recordReadComplete d =>
    exact take rfl fun r u v h => by split at h <;> cases h; exact (timingStands_recordRead _ _ _).fm
  | congestionFetchComplete d =>
    exact take rfl fun r u v h => by split at h <;> cases h; exact (timingStands_congestionFetched _ _ _).fm
  | ringClearWriteComplete =>
    exact take rfl fun r u v h => by split at h <;> cases h; exact (timingStands_recordCleared _ _).fm
  | runningWriteComplete =>
    exact take rfl fun r u v h => by split at h <;> cases h; exact (timingStands_enterRun _).fm
  | attachFetchComplete d =>
    exact take rfl fun r u v h => by split at h <;> cases h; exact (moves_attachDone _ _ _ _ _ _).servingOnly.fm
  | fillerFetchComplete d =>
    exact take rfl fun r u v h => by split at h <;> cases h; exact (moves_fillerDone _ _ _ _ _ _).servingOnly.fm
  | refetchComplete d =>
    exact take rfl fun r u v h => by split at h <;> cases h; exact (timingStands_refetchDone _ _ _ _).fm
  | bindingFetchComplete d =>
    exact take rfl fun r u v h => by split at h <;> cases h; exact (moves_bindingDone _ _ _ _ _ _).servingOnly.fm
  | stepFetchComplete d =>
    exact take rfl fun r u v h => by split at h <;> cases h; exact (moves_stepDone _ _ _ _).servingOnly.fm
  | fillComplete d =>
    exact take rfl fun r u v h => by split at h <;> cases h; exact (moves_fillDone _ _ _ _ _).servingOnly.fm
  | reportWriteComplete =>
    exact take rfl fun r u v h => by split at h <;> cases h; exact (timingStands_reportDone _ _).fm

/-- Taking the ends of timers changes of the Frame Monitor the flag that they wait alone. -/
theorem takeEnds_fm (s : State) : s.takeEnds.fm = { s.fm with endsOpen := false } := (takeEnds_kept s).fm

/-! ### Frame marks (R27, R29, R33, R34) -/

/-- An arrival is an engine mark exactly where it is a switching-engine read of entry 0 in RUN (R6, R27). -/
theorem arriveRequest_fm (s : State) (r : Request) (n : Nat) (order : List MarkTask) :
    (s.arriveRequest r n order).fm = (s.tick n).fm ∨
    ((s.arriveRequest r n order).fm = (s.tick n).fm.engineMark ∧ r.master = .engine ∧ r.dir = .read ∧
      s.connectionEntry r.addr = some 0) := by
  unfold State.arriveRequest
  dsimp only
  have entry := connectionEntry_of_boot (tick_control s n).1
  generalize s.tick n = t at entry
  split
  · exact .inl rfl
  · split
    · rename_i j connection
      unfold State.connectionArrives
      dsimp only
      rw [finish_fm]
      by_cases zero : j = 0
      · subst zero
        right
        refine ⟨(engineMark_frame (t.withPairing (some 0)) order).1, ?_⟩
        unfold State.arrivalClass at connection
        split at connection
        · rename_i engine read
          refine ⟨engine, read, (entry r.addr).symm.trans ?_⟩
          split at connection
          · rename_i i isEntry
            cases connection
            exact isEntry
          · split at connection <;> cases connection
        · cases connection
      · left
        rw [if_neg zero]
        rfl
    · exact .inl (by cases r.master <;> rfl)
    · exact .inl (finish_fm _)

theorem run_of_connectionEntry {s : State} {a : Addr} {j : Slot} (h : s.connectionEntry a = some j) :
    s.boot.device = .run := by
  by_contra idle
  rw [(no_ranges_outside_run s a idle).1] at h
  cases h

/-- An arrival after the ends of timers changes F at an engine mark alone. -/
theorem arrival_frame (s : State) (r : Request) (n : Nat) (order : List MarkTask) :
    (s.takeEnds.arriveRequest r n order).fm.frame = (s.takeEnds.tick n).fm.frame ∨
    ((s.takeEnds.arriveRequest r n order).fm.frame = (s.takeEnds.tick n).fm.frame + 1 ∧ r.master = .engine ∧
      r.dir = .read ∧ s.boot.device = .run ∧ s.connectionEntry r.addr = some 0) := by
  rcases arriveRequest_fm s.takeEnds r n order with same | ⟨mark, engine, read, entry⟩
  · exact .inl (congrArg FrameMonitor.frame same)
  · rw [connectionEntry_of_boot (takeEnds_kept s).boot] at entry
    exact .inr ⟨congrArg FrameMonitor.frame mark, engine, read, run_of_connectionEntry entry, entry⟩

/-- WINDOW_EXPIRY changes F at the first flywheel mark alone (R33). -/
theorem windowExpired_frame (s : State) (order : List MarkTask) : (s.windowExpired order).fm.frame = s.fm.frame ∨
    ((s.windowExpired order).fm.frame = s.fm.frame + 1 ∧ s.fm.lock = .locked ∧ s.fm.atExpiry = true) := by
  by_cases ends : s.fm.atExpiry = true
  · cases lock : s.fm.lock with
    | locking =>
      rw [windowExpired_locking s order lock ends]
      exact .inl rfl
    | locked =>
      rw [windowExpired_locked s order lock ends, (handMark_kept _ order rfl).fm]
      exact .inr ⟨rfl, rfl, ends⟩
    | unlocked | holdover | stalled =>
      rw [windowExpired_still s order (.inr (by rw [lock]; exact ⟨nofun, nofun⟩))]
      exact .inl rfl
  · rw [windowExpired_still s order (.inl (by simpa using ends))]
    exact .inl rfl

/-- FLYWHEEL_EXPIRY changes F at the second flywheel mark alone (R34). -/
theorem flywheelExpired_frame (s : State) (order : List MarkTask) : (s.flywheelExpired order).fm.frame = s.fm.frame ∨
    ((s.flywheelExpired order).fm.frame = s.fm.frame + 1 ∧ s.fm.lock = .holdover ∧ s.fm.misses ≤ 1 ∧
      s.fm.atExpiry = true) := by
  by_cases here : s.fm.lock = .holdover ∧ s.fm.atExpiry = true
  · obtain ⟨lock, ends⟩ := here
    by_cases misses : s.fm.misses ≤ 1
    · rw [flywheelExpired_mark s order lock misses ends, (handMark_kept _ order rfl).fm]
      exact .inr ⟨rfl, lock, misses, ends⟩
    · rw [flywheelExpired_stall s order lock misses ends]
      unfold State.deviceOutcome
      rw [takeOutcome_fm]
      exact .inl rfl
  · rw [flywheelExpired_still s order]
    · exact .inl rfl
    · by_contra c
      simp only [not_or, Bool.not_eq_false, Decidable.not_not] at c
      exact here ⟨c.2, c.1⟩

/-- The timer stands at the expiry count of its lock state. -/
theorem FrameMonitor.timer_of_atExpiry {m : FrameMonitor} {e : Nat} (ends : m.atExpiry = true)
    (count : expiryCount m.lock = some e) : ∃ p, m.timer = some p ∧ e ≤ p := by
  obtain ⟨p, e', timer, count', late⟩ := m.atExpiry_iff.mp ends
  cases count.symm.trans count'
  exact ⟨p, timer, late⟩

/-- WINDOW_EXPIRY, after the ends it takes first, changes F in LOCKED with the timer at 533 periods alone (R33). -/
theorem windowExpiry_frame (s : State) (order : List MarkTask) :
    (s.takeEnds.windowExpired order).finish.fm.frame = s.fm.frame ∨
    ((s.takeEnds.windowExpired order).finish.fm.frame = s.fm.frame + 1 ∧
      ∃ p, s.fm.lock = .locked ∧ s.fm.timer = some p ∧ 533 ≤ p) := by
  have expired := windowExpired_frame s.takeEnds order
  rw [takeEnds_fm] at expired
  rw [finish_fm]
  refine expired.imp_right fun ⟨mark, locked, ends⟩ => ⟨mark, ?_⟩
  obtain ⟨p, timer, late⟩ := FrameMonitor.timer_of_atExpiry (e := 533) ends (by rw [locked]; rfl)
  exact ⟨p, locked, timer, late⟩

/-- FLYWHEEL_EXPIRY, after the ends it takes first, changes F in HOLDOVER with the timer at 512 periods, before the third
miss, alone (R34). -/
theorem flywheelExpiry_frame (s : State) (order : List MarkTask) :
    (s.takeEnds.flywheelExpired order).finish.fm.frame = s.fm.frame ∨
    ((s.takeEnds.flywheelExpired order).finish.fm.frame = s.fm.frame + 1 ∧
      ∃ p, s.fm.lock = .holdover ∧ s.fm.misses ≤ 1 ∧ s.fm.timer = some p ∧ 512 ≤ p) := by
  have expired := flywheelExpired_frame s.takeEnds order
  rw [takeEnds_fm] at expired
  rw [finish_fm]
  refine expired.imp_right fun ⟨mark, holdover, misses, ends⟩ => ⟨mark, ?_⟩
  obtain ⟨p, timer, late⟩ := FrameMonitor.timer_of_atExpiry (e := 512) ends (by rw [holdover]; rfl)
  exact ⟨p, holdover, misses, timer, late⟩

/-- A request that arrives at once changes F at an engine mark alone. -/
theorem arrivalNow_frame (s : State) (r : Request) : (s.takeEnds.arriveRequest r 0 []).fm.frame = s.fm.frame ∨
    ((s.takeEnds.arriveRequest r 0 []).fm.frame = s.fm.frame + 1 ∧ r.master = .engine ∧ r.dir = .read ∧
      s.boot.device = .run ∧ s.connectionEntry r.addr = some 0) := by
  have arrives := arrival_frame s r 0 []
  rw [tick_zero, takeEnds_fm] at arrives
  exact arrives

/-! ### Time passes period after period (R28) -/

theorem untilExpiry_count (s : State) (m : Nat) :
    (s.count m).fm.untilExpiry = s.fm.untilExpiry.map (fun r => r - m) := by
  show FrameMonitor.untilExpiry { s.fm with timer := s.fm.timer.map (· + m) } = _
  unfold FrameMonitor.untilExpiry
  dsimp only
  cases s.fm.timer <;> cases expiryCount s.fm.lock <;> simp
  omega

theorem count_count (s : State) (m n : Nat) : (s.count m).count n = s.count (m + n) := by
  show s.withFm { s.fm with timer := (s.fm.timer.map (· + m)).map (· + n) } =
    s.withFm { s.fm with timer := s.fm.timer.map (· + (m + n)) }
  have add : (· + n) ∘ (· + m) = (· + (m + n)) := funext fun p => Nat.add_assoc p m n
  rw [Option.map_map, add]

/-- A bound on the expiries that no time meets makes no difference (log 16). -/
theorem passTime_bound (k : Nat) : ∀ (l n : Nat) (s : State), s.fm.expiriesLeft ≤ k → s.fm.expiriesLeft ≤ l →
    State.passTime k n s = State.passTime l n s := by
  have never : ∀ (l n : Nat) (s : State), s.fm.expiriesLeft = 0 → State.passTime l n s = s.count n := by
    intro l n s h
    cases l with
    | zero => rfl
    | succ l => unfold State.passTime; rw [s.fm.untilExpiry_none h]
  induction k with
  | zero => exact fun l n s hk _ => (never l n s (by omega)).symm
  | succ k ih =>
    intro l n s hk hl
    cases l with
    | zero => exact never (k + 1) n s (by omega)
    | succ l =>
      unfold State.passTime
      split
      · rfl
      · rename_i r expiry
        have left := expire_left s r expiry
        rw [ih l (n - r) _ (by omega) (by omega)]

/-- Time that goes on past the timer's expiry count is counted up to it, the expiry is taken, and the rest passes. -/
theorem tick_past (s : State) (n r : Nat) (expiry : s.fm.untilExpiry = some r) (past : r < n) :
    s.tick n = (s.count r).expire.tick (n - r) := by
  have left := expire_left s r expiry
  have le := s.fm.expiriesLeft_le
  have once : s.tick n = State.passTime 2 (n - r) (s.count r).expire := by
    unfold State.tick
    rw [State.passTime, expiry]
    exact if_neg (by omega)
  rw [once]
  exact passTime_bound 2 3 _ _ (by omega) (by omega)

theorem tick_of_none (s : State) (n : Nat) (h : s.fm.untilExpiry = none) : s.tick n = s.count n :=
  tick_short s n fun r e => by rw [h] at e; cases e

theorem tick_within (s : State) (n r : Nat) (expiry : s.fm.untilExpiry = some r) (within : n ≤ r) : s.tick n = s.count n :=
  tick_short s n fun r' e => by cases expiry.symm.trans e; exact within

/-- Periods pass one after another, by the expiries still to come. -/
theorem tick_add (s : State) (m n : Nat) : s.tick (m + n) = (s.tick m).tick n := by
  induction left : s.fm.expiriesLeft using Nat.strong_induction_on generalizing s m n with
  | _ k ih =>
    cases expiry : s.fm.untilExpiry with
    | none =>
      have counted : (s.count m).fm.untilExpiry = none := by rw [untilExpiry_count, expiry]; rfl
      rw [tick_of_none s _ expiry, tick_of_none s _ expiry, tick_of_none _ _ counted, count_count]
    | some r =>
      have counted : (s.count m).fm.untilExpiry = some (r - m) := by rw [untilExpiry_count, expiry]; rfl
      by_cases first : m ≤ r
      · rw [tick_within s m r expiry first]
        by_cases second : m + n ≤ r
        · rw [tick_within s _ r expiry second, tick_within _ n _ counted (by omega), count_count]
        · rw [tick_past s _ r expiry (by omega), tick_past _ n _ counted (by omega), count_count,
            show m + (r - m) = r by omega, show m + n - r = n - (r - m) by omega]
      · rw [tick_past s _ r expiry (by omega), tick_past s m r expiry (by omega),
          show m + n - r = m - r + n by omega]
        exact ih _ (left ▸ expire_left s r expiry) _ _ _ rfl

/-- After an expiry the timer stands short of the next (R28, R32 to R34). -/
theorem FrameMonitor.afterExpiry_untilExpiry (m : FrameMonitor) (ends : m.atExpiry = true) (r : Nat)
    (h : m.afterExpiry.untilExpiry = some r) : 1 ≤ r := by
  obtain ⟨p, e, -, count, -⟩ := m.atExpiry_iff.mp ends
  unfold FrameMonitor.afterExpiry FrameMonitor.untilExpiry at h
  cases lock : m.lock with
  | unlocked | stalled => rw [lock] at count; cases count
  | locking => cases m.timer <;> simp [lock, expiryCount] at h
  | locked => simp [lock, expiryCount] at h; omega
  | holdover =>
    by_cases misses : m.misses ≤ 1
    · simp [lock, misses, expiryCount] at h; omega
    · cases m.timer <;> simp [lock, misses, expiryCount] at h

theorem count_zero (s : State) : s.count 0 = s := by
  rw [← tick_short s 0 fun _ _ => Nat.zero_le _, tick_zero]

/-- A period with the timer at its expiry count: the expiry is taken, and the period is counted after it. -/
theorem tick_one_atExpiry (s : State) (ends : s.fm.atExpiry = true) : s.tick 1 = s.expire.count 1 := by
  have expiry : s.fm.untilExpiry = some 0 := by simpa [FrameMonitor.atExpiry] using ends
  rw [tick_past s 1 0 expiry Nat.one_pos, count_zero]
  refine tick_short _ _ fun r h => s.fm.afterExpiry_untilExpiry ends r ?_
  rw [expire_fm s ends] at h
  exact h

/-- A period after an expiry, as its command takes it: counted after the ends of the expiry's mark (log 3). -/
theorem count_takeEnds (v : State) :
    v.takeEnds.count 1 = v.takeEnds.withFm { v.takeEnds.fm with timer := v.fm.timer.map (fun p => p + 1) } := by
  have timer : v.takeEnds.fm.timer = v.fm.timer := by rw [takeEnds_fm]
  rw [← timer]
  rfl

/-- The timer short of its expiry count leaves a period at least until the expiry (R28). -/
theorem FrameMonitor.untilExpiry_pos (m : FrameMonitor) (short : ∀ p, m.timer = some p →
    (m.lock = .locking ∨ m.lock = .locked → p < 533) ∧ (m.lock = .holdover → p < 512)) (r : Nat)
    (h : m.untilExpiry = some r) : 1 ≤ r := by
  unfold FrameMonitor.untilExpiry at h
  cases timer : m.timer with
  | none => rw [timer] at h; cases h
  | some p =>
    obtain ⟨window, flywheel⟩ := short p timer
    cases lock : m.lock with
    | unlocked | stalled => rw [timer, lock] at h; cases h
    | locking | locked =>
      have := window (by simp [lock])
      simp [timer, lock, expiryCount] at h
      omega
    | holdover =>
      have := flywheel lock
      simp [timer, lock, expiryCount] at h
      omega

/-- A period with the timer at its expiry count takes the expiry as its command takes it with no order named, and the
ends of its mark's timers after it (logs 2, 3). -/
theorem tick_one_expiry (s v : State) (p : Nat) (settled : s.Settled) (timer : s.fm.timer = some p)
    (expires : ((s.fm.lock = .locking ∨ s.fm.lock = .locked) ∧ 533 ≤ p ∧ exec (.windowExpiry []) s = .next v) ∨
      (s.fm.lock = .holdover ∧ 512 ≤ p ∧ exec (.flywheelExpiry []) s = .next v)) :
    s.tick 1 = v.takeEnds.withFm { v.takeEnds.fm with timer := v.fm.timer.map (fun p => p + 1) } := by
  rw [← count_takeEnds]
  have ends : s.fm.atExpiry = true ∧ s.expire = v.takeEnds := by
    unfold State.expire
    rw [s.fm.atExpiry_iff]
    rcases expires with ⟨window, late, h⟩ | ⟨holdover, late, h⟩
    · rw [exec_windowExpiry s [] settled] at h
      cases h
      rcases window with lock | lock <;> rw [lock] <;> exact ⟨⟨p, 533, timer, rfl, late⟩, rfl⟩
    · rw [exec_flywheelExpiry s [] settled] at h
      cases h
      rw [holdover]
      exact ⟨⟨p, 512, timer, rfl, late⟩, rfl⟩
  rw [tick_one_atExpiry s ends.1, ends.2]

/-- Settles O27: the commands by what they do to the Frame Monitor, and time by the expiries still to come. -/
theorem frameCountAtMarksOnly : Obligations.FrameCountAtMarksOnly := by
  refine ⟨fun c s t h notRead => ?_, fun a b n order s t u hu h => ?_, fun s => ⟨tick_zero s, tick_add s, fun short => ?_,
    fun p v settled timer expires => ?_⟩⟩
  · by_cases other : reachesMonitor c = false
    · left
      rcases exec_fm c s t other h with fm | fm
      · rw [fm]
      · rw [fm, takeEnds_fm]
    · cases c with
      | reset b => cases h; exact .inr (.inl ⟨b, rfl, rfl⟩)
      | connectionRead a b n order => exact absurd rfl (notRead a b n order)
      | virtualRead a b =>
        cases h
        exact (arrivalNow_frame s _).imp_right fun ⟨mark, _, _, run, entry⟩ =>
          .inr ⟨mark, .inl ⟨a, b, rfl, run, entry⟩⟩
      | passingRequest r =>
        cases h
        exact (arrivalNow_frame s r).imp_right fun ⟨mark, engine⟩ => .inr ⟨mark, .inr (.inl ⟨r, rfl, engine⟩)⟩
      | windowExpiry order =>
        cases h
        exact (windowExpiry_frame s order).imp_right fun ⟨mark, p, locked⟩ =>
          .inr ⟨mark, .inr (.inr (.inl ⟨order, p, rfl, locked⟩))⟩
      | flywheelExpiry order =>
        cases h
        exact (flywheelExpiry_frame s order).imp_right fun ⟨mark, p, holdover⟩ =>
          .inr ⟨mark, .inr (.inr (.inr ⟨order, p, rfl, holdover⟩))⟩
      | _ => exact absurd rfl other
  · cases h
    subst hu
    exact (arrival_frame s _ n order).imp_right fun ⟨mark, _, _, run, entry⟩ => ⟨mark, run, entry⟩
  · exact tick_short s 1 (s.fm.untilExpiry_pos short)
  · exact tick_one_expiry s v p settled timer expires

end Sys2Proof.Machine

namespace Sys2Proof.Machine

/-! ### The order of the blocks at a frame mark (R36; log 5) -/

/-- One naming in an order, after those that have given the tasks `acc` (R36). -/
def nameTask (acc : List MarkTask) (t : MarkTask) : List MarkTask :=
  if t.isBlock && acc.contains t then acc else acc ++ [t]

theorem onceEach_eq (order : List MarkTask) : onceEach order = order.foldl nameTask [] := rfl

theorem nameTask_again {acc : List MarkTask} {t : MarkTask} (h : t.isBlock = true ∧ t ∈ acc) : nameTask acc t = acc :=
  if_pos (by simpa using h)

theorem nameTask_new {acc : List MarkTask} {t : MarkTask} (h : ¬ (t.isBlock = true ∧ t ∈ acc)) :
    nameTask acc t = acc ++ [t] := if_neg (by simpa using h)

/-- A block that is named joins the tasks once; an end of timers joins them as often as it is named. -/
theorem foldl_nameTask_count (x : MarkTask) (l : List MarkTask) : ∀ acc : List MarkTask, (l.foldl nameTask acc).count x =
    acc.count x + if x.isBlock then (if x ∈ l ∧ x ∉ acc then 1 else 0) else l.count x := by
  induction l with
  | nil => intro acc; simp
  | cons t l ih =>
    intro acc
    rw [List.foldl_cons, ih]
    by_cases again : t.isBlock = true ∧ t ∈ acc
    · rw [nameTask_again again]
      by_cases same : x = t
      · subst same; simp [again]
      · simp [same, Ne.symm same]
    · rw [nameTask_new again]
      by_cases same : x = t
      · subst same
        by_cases block : x.isBlock = true
        · have fresh : x ∉ acc := fun h => again ⟨block, h⟩
          simp [block, fresh]
        · simp [block, Nat.add_comm, Nat.add_left_comm]
      · simp [same, Ne.symm same]

theorem onceEach_count (order : List MarkTask) (x : MarkTask) : (onceEach order).count x =
    if x.isBlock then (if x ∈ order then 1 else 0) else order.count x := by
  simpa [onceEach_eq] using foldl_nameTask_count x order []

theorem markBlocks_count (x : MarkTask) : markBlocks.count x = if x.isBlock then 1 else 0 := by
  cases x with
  | tones => decide
  | player n => revert n; decide
  | dwell j => exact List.count_eq_zero.mpr (by simp [markBlocks])
  | wait => decide

/-- A mark's tasks: each block once, and the ends of timers as often as the order names them. -/
theorem schedule_count (order : List MarkTask) (x : MarkTask) :
    (schedule order).count x = if x.isBlock then 1 else order.count x := by
  unfold schedule
  rw [List.count_append, onceEach_count]
  by_cases named : x ∈ order
  · have out : x ∉ markBlocks.filter (fun t => !order.contains t) := by simp [named]
    rw [List.count_eq_zero.mpr out, if_pos named, Nat.add_zero]
  · rw [List.count_filter (by simp [named]), markBlocks_count, if_neg named, List.count_eq_zero.mpr named]
    split <;> rfl

theorem foldl_nameTask_of_nodup (l : List MarkTask) : ∀ acc : List MarkTask,
    ((acc ++ l).filter MarkTask.isBlock).Nodup → l.foldl nameTask acc = acc ++ l := by
  induction l with
  | nil => intro acc _; simp
  | cons t l ih =>
    intro acc once
    have new : ¬ (t.isBlock = true ∧ t ∈ acc) := by
      rintro ⟨block, taken⟩
      rw [List.filter_append, List.filter_cons, if_pos block] at once
      exact List.disjoint_of_nodup_append once (List.mem_filter.mpr ⟨taken, block⟩) List.mem_cons_self
    have regroup : acc ++ t :: l = acc ++ [t] ++ l := by simp
    rw [List.foldl_cons, nameTask_new new, regroup, ih _ (regroup ▸ once)]

/-- An order that names no block twice is taken as it stands. -/
theorem onceEach_of_wellFormed (order : List MarkTask) (h : orderWellFormed order = true) : onceEach order = order :=
  foldl_nameTask_of_nodup order [] (decide_eq_true_iff.mp h)

/-! ### A generator at a mark (R48, R49, R97) -/

theorem markTones_generator (s : State) (g : GenIx) : s.markTones.generator g = (s.generator g).mark :=
  State.mapGens_generator s Generator.mark g

theorem Generator.mark_free (x : Generator) (h : x.binding = none) : x.mark = x := by
  unfold Generator.mark
  rw [h]

theorem Generator.mark_bound (x : Generator) (b : ToneBinding) (h : x.binding = some b) : x.mark =
    { binding := some b.countFrame
      count := x.count
      phase1 := x.phase1 + b.copy.step1
      phase2 := x.phase2 + b.copy.step2
      code := toneCode b.mask b.copy x.phase1 x.phase2 } := by
  unfold Generator.mark
  rw [h]

/-- The mask of a continuous tone, or of the step at which the cadence stands. -/
theorem ToneBinding.mask_of_cadence (b : ToneBinding) (mask : CadenceMask) (h : b.cadence = none ∧ mask = .both ∨
    ∃ i frames c, b.cadence = some (i, frames) ∧ b.copy.cadence[i]? = some c ∧ mask = c.mask) : b.mask = mask := by
  unfold ToneBinding.mask
  rcases h with ⟨continuous, rfl⟩ | ⟨i, frames, c, stands, step, rfl⟩
  · rw [continuous]
  · rw [stands]
    simp only [step]

theorem clampSum_eq (v : Int) : clampSum v = max (-32768) (min 32767 v) := by
  unfold clampSum
  split
  · omega
  · split <;> omega

theorem CadenceMask.hasOne_iff (m : CadenceMask) (h : m ≠ .none) : m.hasOne = true ↔ m ≠ .two := by
  cases m <;> simp_all [CadenceMask.hasOne]

theorem CadenceMask.hasTwo_iff (m : CadenceMask) (h : m ≠ .none) : m.hasTwo = true ↔ m ≠ .one := by
  cases m <;> simp_all [CadenceMask.hasTwo]

/-- A component contributes where the mask includes it and its step is not 0 (R48). -/
theorem contribution_eq (on : Bool) (step phase : Word) (a : BitVec 7) (p : Prop) [Decidable p] (h : on = true ↔ p) :
    contribution on step phase a = if step ≠ 0 ∧ p then scaleValue (tableValue phase) a else 0 := by
  have sounds : ¬ (step = 0 ∨ on = false) ↔ step ≠ 0 ∧ p := by rw [not_or, Bool.not_eq_false, h]
  exact (ite_not _ _ _).symm.trans (if_congr sounds rfl rfl)

theorem toneCode_sound (mask : CadenceMask) (copy : ToneCopy) (x y : Word) (h : mask ≠ .none) :
    toneCode mask copy x y = encodeValue (max (-32768) (min 32767
      ((if copy.step1 ≠ 0 ∧ mask ≠ .two then scaleValue (tableValue x) copy.att1 else 0) +
       (if copy.step2 ≠ 0 ∧ mask ≠ .one then scaleValue (tableValue y) copy.att2 else 0)))) := by
  rw [← clampSum_eq, ← contribution_eq mask.hasOne _ _ _ _ (mask.hasOne_iff h),
    ← contribution_eq mask.hasTwo _ _ _ _ (mask.hasTwo_iff h)]
  unfold toneCode
  split
  · exact absurd rfl h
  · rfl

/-! ### The length of a cadence step (R98) -/

/-- A frame mark, followed by the end of generator g's cadence step where it has come (log 4). -/
def State.markAndEnd (g : GenIx) (u : State) : State := u.markTones.afterAll [.cadenceStepEnd g]

theorem markAndEnd_generator (g : GenIx) (u : State) :
    (State.markAndEnd g u).generator g = (u.generator g).mark.stepEnd := by
  show (u.markTones.setGenerator g (u.markTones.generator g).stepEnd).generator g = _
  rw [State.setGenerator_generator_same, markTones_generator]

/-- A mark that leaves frames counts one; a mark that leaves none moves the cadence to its next step. -/
theorem Generator.mark_stepEnd_binding (x : Generator) (b : ToneBinding) (i frames : Nat) (h : x.binding = some b)
    (stands : b.cadence = some (i, frames)) : x.mark.stepEnd.binding =
      some { b with cadence := nextStep b.copy.cadence (some (i, frames - 1)) } := by
  rw [x.mark_bound b h]
  unfold Generator.stepEnd ToneBinding.countFrame
  simp [stands]

theorem nextStep_inside (l : List CadenceStep) (i frames : Nat) (h : 0 < frames) :
    nextStep l (some (i, frames)) = some (i, frames) := by
  cases frames with
  | zero => cases h
  | succ n => rfl

theorem nextStep_over (l : List CadenceStep) (i : Nat) (c : CadenceStep) (h : l[(i + 1) % l.length]? = some c) :
    nextStep l (some (i, 0)) = some ((i + 1) % l.length, c.duration.toNat * 40) := by
  unfold nextStep
  simp only [h]

/-- Marks short of the step's frames leave the cadence in the step, a frame less at each. -/
theorem marks_within_step (g : GenIx) (b : ToneBinding) (i frames : Nat) (s : State)
    (bound : (s.generator g).binding = some b) (stands : b.cadence = some (i, frames)) (m : Nat) (h : m < frames) :
    (((State.markAndEnd g)^[m] s).generator g).binding =
      some { b with cadence := some (i, frames - m) } := by
  induction m with
  | zero =>
    rw [Function.iterate_zero, id, bound, Nat.sub_zero, ← stands]
  | succ m ih =>
    rw [Function.iterate_succ_apply', markAndEnd_generator,
      Generator.mark_stepEnd_binding _ _ i (frames - m) (ih (by omega)) rfl, nextStep_inside _ _ _ (by omega)]
    rfl

theorem Generator.isFreshFor_iff (p : Program) (x : Generator) :
    x.isFreshFor p = true ↔ ∃ b, x.binding = some b ∧ b.program = p ∧ b.fresh = true := by
  unfold Generator.isFreshFor
  cases x.binding <;> simp

/-- Settles O40: the schedule's counts, a generator's mark, and the cadence by the marks counted. -/
theorem generatorMarked : Obligations.GeneratorMarked := by
  refine ⟨fun s order => ⟨schedule order, rfl, schedule_count order .tones, fun n => schedule_count order (.player n),
      fun j => schedule_count order (.dwell j), schedule_count order .wait, fun h => ?_⟩,
    fun s => ⟨rfl, fun _ => rfl, fun _ => rfl, rfl⟩, fun s g => ⟨rfl, fun free => ?_, fun b mask bound cadence => ?_⟩,
    fun s g b i frames c mark hm bound stands left next => ?_, Generator.isFreshFor_iff⟩
  · unfold schedule
    rw [onceEach_of_wellFormed order h]
    exact List.prefix_append _ _
  · rw [markTones_generator, (s.generator g).mark_free free]
  · refine ⟨toneCode b.mask b.copy (s.generator g).phase1 (s.generator g).phase2, ?_, ?_⟩
    · rw [markTones_generator, (s.generator g).mark_bound b bound]
      rfl
    · rw [b.mask_of_cadence mask cadence]
      exact ⟨fun silent => by rw [silent]; rfl, toneCode_sound mask b.copy _ _⟩
  · obtain rfl : mark = State.markAndEnd g := hm
    refine ⟨fun m h => marks_within_step g b i frames s bound stands m h, ?_⟩
    obtain ⟨m, rfl⟩ : ∃ m, frames = m + 1 := ⟨frames - 1, by omega⟩
    have last := marks_within_step g b i (m + 1) s bound stands m (Nat.lt_succ_self m)
    rw [Function.iterate_succ_apply', markAndEnd_generator, Generator.mark_stepEnd_binding _ _ i _ last rfl,
      show m + 1 - m - 1 = 0 by omega, nextStep_over _ _ c next]

end Sys2Proof.Machine

namespace Sys2Proof.Machine

/-! ### Segments and steps of a magnitude (R41, R42) -/

theorem segmentOf_low {m : Nat} (h : m < 256) : segmentOf m = 0 := if_pos h

/-- Segment j + 1 begins at 256 · 2^j and is as long again (Table 4-1). -/
theorem segmentOf_span {m j : Nat} (hj : j < 7) (lo : 256 * 2 ^ j ≤ m) (hi : m < 512 * 2 ^ j) : segmentOf m = j + 1 := by
  unfold segmentOf
  interval_cases j <;> grind

/-- The spans cover every magnitude an encoded value is taken at. -/
theorem magnitude_cases {m : Nat} (h : m < 32768) : m < 256 ∨ ∃ j < 7, 256 * 2 ^ j ≤ m ∧ m < 512 * 2 ^ j := by
  refine (Nat.lt_or_ge m 256).imp_right fun above => ?_
  have below : Nat.log 2 m < 15 := Nat.log_lt_of_lt_pow (by omega) h
  obtain ⟨j, hj⟩ : ∃ j, Nat.log 2 m = j + 8 :=
    ⟨Nat.log 2 m - 8, (Nat.sub_add_cancel (Nat.le_log_of_pow_le (by omega) above)).symm⟩
  have lo : 2 ^ j * 2 ^ 8 ≤ m := by
    rw [← pow_add, ← hj]
    exact Nat.pow_log_le_self 2 (by omega)
  have hi : m < 2 ^ j * 2 ^ 9 := by
    rw [← pow_add, ← Nat.add_assoc j 8 1, ← hj]
    exact Nat.lt_pow_succ_log_self (by omega) m
  exact ⟨j, by omega, by omega, by omega⟩

/-- The code of a magnitude, without its sign: the segment above the step. -/
def magnitudeCode (m : Nat) : Nat := segmentOf m * 16 + stepOf m

theorem magnitudeCode_low {m : Nat} (h : m < 256) : magnitudeCode m = m / 16 := by
  simp [magnitudeCode, stepOf, segmentOf_low h]

theorem magnitudeCode_span {m j : Nat} (hj : j < 7) (lo : 256 * 2 ^ j ≤ m) (hi : m < 512 * 2 ^ j) :
    magnitudeCode m = (j + 1) * 16 + (m - 256 * 2 ^ j) / (16 * 2 ^ j) := by
  simp [magnitudeCode, stepOf, segmentOf_span hj lo hi]

theorem magnitudeCode_lt {m : Nat} (h : m < 32768) : magnitudeCode m < 128 := by
  rcases magnitude_cases h with low | ⟨j, hj, lo, hi⟩
  · rw [magnitudeCode_low low]
    omega
  · have step : (m - 256 * 2 ^ j) / (16 * 2 ^ j) < 16 := Nat.div_lt_of_lt_mul (by omega)
    rw [magnitudeCode_span hj lo hi]
    omega

theorem encodeValue_toNat (v : Int) : (encodeValue v).toNat =
    (if 0 ≤ v then 128 else 0) + magnitudeCode (min v.natAbs 32767) := by
  have low : magnitudeCode (min v.natAbs 32767) < 128 := magnitudeCode_lt (by omega)
  have sum : encodeValue v = BitVec.ofNat 8 ((if 0 ≤ v then 128 else 0) + magnitudeCode (min v.natAbs 32767)) := by
    rw [magnitudeCode, ← Nat.add_assoc]
    rfl
  rw [sum, BitVec.toNat_ofNat]
  exact Nat.mod_eq_of_lt (by split <;> omega)

theorem encodeValue_sign (v : Int) : 128 ≤ (encodeValue v).toNat ↔ 0 ≤ v := by
  have low : magnitudeCode (min v.natAbs 32767) < 128 := magnitudeCode_lt (by omega)
  rw [encodeValue_toNat]
  split <;> omega

theorem encodeValue_magnitude (v : Int) : (encodeValue v).toNat % 128 = magnitudeCode (min v.natAbs 32767) := by
  have low : magnitudeCode (min v.natAbs 32767) < 128 := magnitudeCode_lt (by omega)
  rw [encodeValue_toNat]
  split <;> omega

/-- Step 0 of segment 0 with sign 1 is the idle code (R43). -/
theorem encodeValue_step_zero {v : Int} (sign : 0 ≤ v) (small : v < 16) : encodeValue v = idleCode := by
  apply BitVec.eq_of_toNat_eq
  rw [encodeValue_toNat, if_pos sign, magnitudeCode_low (by omega)]
  show 128 + min v.natAbs 32767 / 16 = 128
  omega

/-! ### The value of a code (R41) -/

theorem decodedMagnitude_low {x : Byte} (h : x.toNat % 128 / 16 = 0) : decodedMagnitude x = x.toNat % 16 * 16 + 8 :=
  if_pos h

theorem decodedMagnitude_span {x : Byte} {j : Nat} (h : x.toNat % 128 / 16 = j + 1) : decodedMagnitude x =
    256 * 2 ^ j + x.toNat % 16 * 16 * 2 ^ j + 8 * 2 ^ j := by
  simp [decodedMagnitude, h]

theorem decodedMagnitude_pos (x : Byte) : 0 < decodedMagnitude x := by
  rcases h : x.toNat % 128 / 16 with _ | j
  · rw [decodedMagnitude_low h]
    omega
  · rw [decodedMagnitude_span h]
    positivity

/-- The midpoint of a step's span lies in it: the magnitude has the segment and the step of its code. -/
theorem magnitudeCode_decodedMagnitude (x : Byte) : decodedMagnitude x < 32768 ∧
    magnitudeCode (decodedMagnitude x) = x.toNat % 128 := by
  rcases h : x.toNat % 128 / 16 with _ | j
  · have low := decodedMagnitude_low h
    rw [magnitudeCode_low (by omega)]
    omega
  · have hj : j < 7 := by omega
    have span : decodedMagnitude x = 256 * 2 ^ j + (16 * 2 ^ j * (x.toNat % 16) + 8 * 2 ^ j) := by
      rw [decodedMagnitude_span h]
      ring
    have step : 16 * 2 ^ j * (x.toNat % 16) ≤ 16 * 2 ^ j * 15 := Nat.mul_le_mul_left _ (by omega)
    have one : 0 < 2 ^ j := Nat.two_pow_pos j
    have top : 2 ^ j ≤ 2 ^ 6 := Nat.pow_le_pow_right (by omega) (by omega)
    refine ⟨by omega, ?_⟩
    rw [magnitudeCode_span hj (by omega) (by omega), span, Nat.add_sub_cancel_left, Nat.mul_add_div (by omega),
      Nat.div_eq_of_lt (by omega)]
    omega

theorem decodeCode_natAbs (x : Byte) : (decodeCode x).natAbs = decodedMagnitude x := by
  unfold decodeCode
  split <;> simp

theorem decodeCode_sign (x : Byte) : 0 ≤ decodeCode x ↔ 128 ≤ x.toNat := by
  have pos := decodedMagnitude_pos x
  unfold decodeCode
  split <;> omega

theorem encodeValue_decodeCode (x : Byte) : encodeValue (decodeCode x) = x := by
  obtain ⟨bound, code⟩ := magnitudeCode_decodedMagnitude x
  apply BitVec.eq_of_toNat_eq
  rw [encodeValue_toNat, decodeCode_natAbs, Nat.min_eq_left (by omega), code, if_congr (decodeCode_sign x) rfl rfl]
  split <;> omega

/-! ### Attenuation (R46, R47, R52) -/

theorem gainEntry_le {k : Nat} (h : k < 12) : gainEntry k ≤ 32768 := by
  revert k
  decide

/-- No gain is above 1, and the half added before the division is lost in it. -/
theorem scaledMagnitude_le (m : Nat) (a : BitVec 7) : scaledMagnitude m a ≤ m := by
  have gain : gainEntry (a.toNat % 12) ≤ 2 ^ 15 := gainEntry_le (Nat.mod_lt _ (by omega))
  have shift : 2 ^ 15 ≤ 2 ^ (15 + a.toNat / 12) := Nat.pow_le_pow_right (by omega) (by omega)
  have half : 2 ^ (14 + a.toNat / 12) < 2 ^ (15 + a.toNat / 12) := Nat.pow_lt_pow_right (by omega) (by omega)
  refine Nat.le_of_lt_succ (Nat.div_lt_of_lt_mul ?_)
  calc m * gainEntry (a.toNat % 12) + 2 ^ (14 + a.toNat / 12)
      < m * 2 ^ (15 + a.toNat / 12) + 2 ^ (15 + a.toNat / 12) :=
        Nat.add_lt_add_of_le_of_lt (Nat.mul_le_mul_left m (gain.trans shift)) half
    _ = 2 ^ (15 + a.toNat / 12) * m.succ := by rw [Nat.mul_succ, Nat.mul_comm]

theorem scaledMagnitude_unattenuated (m : Nat) : scaledMagnitude m 0 = m := by
  show (m * 32768 + 16384) / 32768 = m
  omega

theorem scaleValue_natAbs (v : Int) (a : BitVec 7) : (scaleValue v a).natAbs = scaledMagnitude v.natAbs a := by
  unfold scaleValue
  split <;> simp

theorem scaleValue_nonneg {v : Int} (a : BitVec 7) (h : 0 ≤ v) : 0 ≤ scaleValue v a := by
  rw [scaleValue, if_pos h]
  exact Int.natCast_nonneg _

theorem scaleValue_nonpos {v : Int} (a : BitVec 7) (h : v ≤ 0) : scaleValue v a ≤ 0 := by
  have smaller := scaledMagnitude_le v.natAbs a
  unfold scaleValue
  split <;> omega

theorem scaleValue_unattenuated (v : Int) : scaleValue v 0 = v := by
  unfold scaleValue
  rw [scaledMagnitude_unattenuated]
  split <;> omega

theorem rescaleCode_unattenuated (x : Byte) : rescaleCode x 0 = x := by
  rw [rescaleCode, scaleValue_unattenuated, encodeValue_decodeCode]

/-- The idle code decodes to 8, within step 0, and scaling moves no value away from 0. -/
theorem rescaleCode_idle (a : BitVec 7) : rescaleCode idleCode a = idleCode := by
  have eight : decodeCode idleCode = 8 := by decide
  have smaller := scaledMagnitude_le (decodeCode idleCode).natAbs a
  rw [← scaleValue_natAbs, eight] at smaller
  rw [rescaleCode, eight]
  exact encodeValue_step_zero (scaleValue_nonneg a (by decide)) (by omega)

/-! ### The table value (R45) -/

/-- The quarter wave read upward in the even quadrants and downward in the odd, negative in the last two. -/
theorem tableValue_quadrants (phase : Word) :
    (phase.toNat / 16384 = 0 → tableValue phase = sineEntry (phase.toNat % 16384 / 64)) ∧
    (phase.toNat / 16384 = 1 → tableValue phase = sineEntry (256 - phase.toNat % 16384 / 64)) ∧
    (phase.toNat / 16384 = 2 → tableValue phase = -(sineEntry (phase.toNat % 16384 / 64) : Int)) ∧
    (phase.toNat / 16384 = 3 → tableValue phase = -(sineEntry (256 - phase.toNat % 16384 / 64) : Int)) := by
  refine ⟨fun q => ?_, fun q => ?_, fun q => ?_, fun q => ?_⟩ <;> simp [tableValue, q]

/-- Settles O29: the segments and steps of R41 and R42, then the quadrants of R45 and the gain of R47. -/
theorem sampleCodes : Obligations.SampleCodes := by
  refine ⟨fun x => ⟨fun low => ?_, fun k hk segment => ?_, decodeCode_sign x, encodeValue_decodeCode x⟩,
    fun v m hm => ⟨encodeValue_sign v, fun low => ?_, fun k hk top lo hi => ?_⟩,
    fun phase i hi => hi ▸ tableValue_quadrants phase, rfl,
    fun v a _ => ⟨scaleValue_natAbs v a, ?_, scaleValue_nonneg a, scaleValue_nonpos a, scaleValue_unattenuated v⟩,
    rescaleCode_unattenuated, rescaleCode_idle⟩
  · rw [decodeCode_natAbs, decodedMagnitude_low (by omega)]
  · obtain ⟨j, rfl⟩ := Nat.exists_eq_add_of_le' hk
    rw [decodeCode_natAbs, decodedMagnitude_span segment, Nat.add_sub_cancel]
  · rw [encodeValue_magnitude, ← hm, magnitudeCode_low low]
  · obtain ⟨j, rfl⟩ := Nat.exists_eq_add_of_le' hk
    rw [Nat.add_sub_cancel] at lo ⊢
    rw [encodeValue_magnitude, ← hm, magnitudeCode_span (by omega) lo (by omega)]
  · rw [scaleValue_natAbs]
    exact scaledMagnitude_le v.natAbs a

end Sys2Proof.Machine

namespace Sys2Proof.Machine

/-! ### TG15 and the fresh generators (R66, R100, R101) -/

/-- In RUN the accepted record's congestion program is what TG15 is bound to and fresh for. -/
theorem congestionServed_iff_tag (s : State) : s.CongestionServed ↔ (s.boot.device = .run →
    ∃ r, s.boot.accepted = some r ∧ (s.generator congestionGen).tag = some (r.congestionProgram, true)) := by
  unfold State.CongestionServed Generator.tag
  simp only [Option.map_eq_some_iff, Prod.mk.injEq, exists_and_left]

theorem congestionServed_outside_run {s : State} (h : s.boot.device ≠ .run) : s.CongestionServed :=
  fun run => absurd run h

theorem generator_of_gens {s t : State} (h : t.gens = s.gens) (g : GenIx) : t.generator g = s.generator g :=
  congrArg (fun v => v[g.val]) h

/-- All that the two laws read is as it was: the device state, the accepted record and the generators' tags. -/
structure TagsStand (s t : State) : Prop where
  device : t.boot.device = s.boot.device
  accepted : t.boot.accepted = s.boot.accepted
  tag : ∀ g, (t.generator g).tag = (s.generator g).tag

theorem TagsStand.congestionServed {s t : State} (h : TagsStand s t) (c : s.CongestionServed) : t.CongestionServed := by
  rw [congestionServed_iff_tag] at *
  rwa [h.device, h.accepted, h.tag]

theorem oneFreshGenerator_of_tags {s t : State} (h : ∀ g, (t.generator g).tag = (s.generator g).tag)
    (o : s.OneFreshGenerator) : t.OneFreshGenerator := by
  unfold State.OneFreshGenerator at *
  simp only [Generator.isFreshFor_tag, h] at o ⊢
  exact o

theorem oneFreshGenerator_of_gens {s t : State} (h : t.gens = s.gens) : s.OneFreshGenerator → t.OneFreshGenerator :=
  oneFreshGenerator_of_tags fun g => congrArg Generator.tag (generator_of_gens h g)

/-- Replacing one record by a permitted one neither makes two generators fresh for one program nor lets TG15 go. -/
theorem GenStep.oneFreshGenerator {s : State} {g : GenIx} {x : Generator} (h : GenStep s g x) (o : s.OneFreshGenerator) :
    (s.setGenerator g x).OneFreshGenerator := by
  have fresh : ∀ p k, ((s.setGenerator g x).generator k).isFreshFor p = true →
      (s.generator k).isFreshFor p = true ∨ k = g ∧ ∀ m, (s.generator m).isFreshFor p = false := by
    intro p k hk
    rw [State.setGenerator_generator] at hk
    split at hk
    · rename_i same
      exact (same ▸ h.fresh p hk).imp_right fun none => ⟨same, none⟩
    · exact .inl hk
  intro p k m hk hm
  rcases fresh p k hk with k1 | ⟨rfl, none⟩ <;> rcases fresh p m hm with m1 | ⟨rfl, other⟩
  · exact o p k m k1 m1
  · exact absurd k1 (by rw [other k]; decide)
  · exact absurd m1 (by rw [none m]; decide)
  · rfl

theorem GenStep.congestionServed {s : State} {g : GenIx} {x : Generator} (h : GenStep s g x) (c : s.CongestionServed) :
    (s.setGenerator g x).CongestionServed := by
  have tag : ((s.setGenerator g x).generator congestionGen).tag = (s.generator congestionGen).tag := by
    rw [State.setGenerator_generator]
    split
    · rename_i same
      exact same ▸ h.congestion same.symm
    · rfl
  rw [congestionServed_iff_tag] at *
  rwa [tag]

/-- What the statement asks of the generators: TG15 serves the congestion program, and no program has two fresh ones. -/
structure State.TonesServed (s : State) : Prop where
  congestion : s.CongestionServed
  oneFresh : s.OneFreshGenerator

theorem TagsStand.tonesServed {s t : State} (h : TagsStand s t) (l : s.TonesServed) : t.TonesServed :=
  ⟨h.congestionServed l.congestion, oneFreshGenerator_of_tags h.tag l.oneFresh⟩

/-- A change that reaches neither the Boot Loader nor the generators. -/
theorem State.TonesServed.of_gens {s t : State} (l : s.TonesServed) (boot : t.boot = s.boot) (gens : t.gens = s.gens) :
    t.TonesServed :=
  TagsStand.tonesServed ⟨congrArg BootLoader.device boot, congrArg BootLoader.accepted boot,
    fun g => congrArg Generator.tag (generator_of_gens gens g)⟩ l

/-- Outside RUN nothing is asked of TG15. -/
theorem State.TonesServed.outside_run {s t : State} (l : s.TonesServed) (device : t.boot.device ≠ .run)
    (gens : t.gens = s.gens) : t.TonesServed :=
  ⟨congestionServed_outside_run device, oneFreshGenerator_of_gens gens l.oneFresh⟩

theorem State.ServesNobody.tonesServed {s : State} (h : s.ServesNobody) (device : s.boot.device ≠ .run) :
    s.TonesServed := ⟨congestionServed_outside_run device, h.oneFreshGenerator⟩

/-- A mark leaves every generator's program and fresh flag. -/
theorem tagsStand_markTones (s : State) : TagsStand s s.markTones :=
  ⟨rfl, rfl, fun g => by rw [markTones_generator, Generator.mark_tag]⟩

theorem Move.tonesServed {s t : State} (m : Move s t) (l : s.TonesServed) : t.TonesServed := by
  cases m with
  | generator g x h => exact ⟨h.congestionServed l.congestion, h.oneFreshGenerator l.oneFresh⟩
  | tones => exact (tagsStand_markTones s).tonesServed l
  | outcome o j _ => exact l.of_gens (takeOutcome_boot s o) (takeOutcome_gens s o)
  | enqueue | withdraw | slot | player | leave | append => exact l.of_gens rfl rfl

/-- TG15 adopts a copy for the program it is bound to (R68). -/
theorem tagsStand_refetchDone (s : State) (c : Program) (g : Option Generation) (ws : List Word) :
    TagsStand s (s.refetchDone c g ws) := by
  have boot := (bootStands_refetchDone s c g ws).boot
  refine ⟨congrArg BootLoader.device boot, congrArg BootLoader.accepted boot, fun k => ?_⟩
  unfold State.refetchDone
  split
  · dsimp only
    split
    · rw [State.setGenerator_generator, State.withRefetch_generator, State.withRefetch_generator]
      split
      · rename_i same
        rw [same, Generator.adopt_tag]
      · rfl
    · exact congrArg Generator.tag (takeOutcome_generator _ _ k)
  · rfl

/-- At the entry to RUN every generator is FREE, and TG15 is bound to the congestion program of the record (R21). -/
theorem tonesServed_enterRun {s : State} {k : OwnKind} (turn : BootTurn s k) (late : k.isLate = true)
    (free : ∀ g, s.generator g = Generator.reset) : s.enterRun.TonesServed := by
  obtain ⟨hasWorking, hasCopy⟩ := turn.copies late
  obtain ⟨w, working⟩ := Option.isSome_iff_exists.mp hasWorking
  obtain ⟨copy, kept⟩ := Option.isSome_iff_exists.mp hasCopy
  obtain ⟨m, x, frame, -⟩ := enterRun_frame s w copy working kept
  have gen : ∀ g, s.enterRun.generator g =
      if g = congestionGen then boundGenerator w.congestionProgram copy true 0 else Generator.reset := by
    intro g
    rw [frame, State.withRrw_generator, State.withMra_generator, State.serve, State.setGenerator_generator]
    exact if_congr .rfl rfl (free g)
  have only : ∀ p g, (s.enterRun.generator g).isFreshFor p = true → g = congestionGen := by
    intro p g fresh
    by_contra other
    rw [gen, if_neg other] at fresh
    cases fresh
  refine ⟨(congestionServed_iff_tag _).mpr fun _ => ⟨w, by rw [frame]; rfl, by rw [gen]; rfl⟩, fun p g h hg hh => ?_⟩
  rw [only p g hg, only p h hh]

theorem reportDone_accepted (s : State) (src : Source) :
    (s.reportDone src).boot.accepted = s.boot.accepted := by
  unfold State.reportDone
  dsimp only
  split <;> rfl

theorem reload_device (s : State) : s.reload.boot.device = .boot := by
  obtain ⟨m, frame⟩ := reload_frame s
  rw [frame]
  rfl

/-- Every change keeps TG15 serving the congestion program in RUN, and one fresh generator for a program. -/
theorem Change.tonesServed {s t : State} (c : Change s t) (law : s.BootLaw) (quiet : s.QuietOutsideRun)
    (l : s.TonesServed) : t.TonesServed := by
  rw [quietOutsideRun_iff] at quiet
  have inBoot : ∀ r, s.LastWordOf r → r.kind.isBoot = true → s.boot.device ≠ .run := fun r h own => by
    rw [show s.boot.device = .boot from (law.turn h own).device]; decide
  have outside : BanksStand s t → s.boot.device ≠ .run → t.TonesServed :=
    fun b d => l.outside_run (by rwa [b.device]) b.gens
  have done : BanksStand s s.delivered := ⟨rfl, rfl, rfl, rfl, rfl, rfl⟩
  cases c with
  | serving h => exact h.moves.keeps (fun _ _ => Move.tonesServed) l
  | pending | bus | pairing | fm | start | underWay | delivered | startRefetch =>
    exact l.of_gens rfl rfl
  | device o _ => exact l.of_gens (takeOutcome_boot s o) (takeOutcome_gens s o)
  | refetch c g ws => exact (tagsStand_refetchDone s c g ws).tonesServed l
  | choose => exact l.of_gens (choose_boot s) (choose_gens s)
  | report r src _ _ =>
    have stands := done.trans (banksStand_reportDone _ src)
    exact TagsStand.tonesServed ⟨stands.device, reportDone_accepted s.delivered src,
      fun g => congrArg Generator.tag (generator_of_gens stands.gens g)⟩ l
  | loading r h k => exact outside ⟨rfl, rfl, rfl, rfl, rfl, rfl⟩ (inBoot r h (by rw [k]; rfl))
  | record r ws h k => exact outside (done.trans (banksStand_recordRead _ r.gen ws)) (inBoot r h (by rw [k]; rfl))
  | congestion r ws h k =>
    exact outside (done.trans (banksStand_congestionFetched _ r.gen ws)) (inBoot r h (by rw [k]; rfl))
  | cleared r n h k => exact outside (done.trans (banksStand_recordCleared _ n)) (inBoot r h (by rw [k]; rfl))
  | run r h k =>
    have own : r.kind.isBoot = true := by rw [k]; rfl
    exact tonesServed_enterRun (law.turn h own) (by rw [k]; rfl) (quiet (inBoot r h own)).gens
  | bypass r c h k _ => exact l.outside_run (by simp [State.enterBypass, State.modifyBoot]) rfl
  | consumer d b _ _ => exact l.of_gens (bootStands_consumerTaken s d b).boot (banksStand_consumerTaken s d b).gens
  | reload => exact (servesNobody_reload s quiet).tonesServed (by rw [reload_device]; decide)
  | reset b => exact (servesNobody_released b _).tonesServed fun run => nomatch run

/-- Settles O58: with the invariants of O57, each of the changes that make up a step keeps it. -/
theorem congestionServedKept : Obligations.CongestionServedKept := by
  intro s t law quiet congestion oneFresh h
  have kept := step_keeps (P := fun s => (s.BootLaw ∧ s.QuietOutsideRun) ∧ s.TonesServed)
    (fun _ _ c ⟨⟨law, quiet⟩, l⟩ => ⟨⟨c.bootLaw law, c.quietOutsideRun law quiet⟩, c.tonesServed law quiet l⟩)
    s t h ⟨⟨law, quiet⟩, congestion, oneFresh⟩
  exact ⟨kept.2.congestion, kept.2.oneFresh⟩

end Sys2Proof.Machine

namespace Sys2Proof.Machine

/-! ### The bits of a field (R1, R169) -/

/-- Some bit of a word from `lo` up to but not including `hi` is set. -/
def FieldSet (w : Word) (lo hi : Nat) : Prop := ∃ b, lo ≤ b ∧ b < hi ∧ w.getLsbD b = true

theorem lowByte_getLsbD (w : Word) (b : Nat) (h : b < 8) : (lowByte w).getLsbD b = w.getLsbD b := by
  simp [lowByte, h]

theorem highByte_getLsbD (w : Word) (b : Nat) (h : b < 8) : (highByte w).getLsbD b = w.getLsbD (8 + b) := by
  simp [highByte, h]

/-- Something is left of a word or byte above its first k bits exactly where one of the bits there is set. -/
theorem shifted_ne_zero_iff {n : Nat} (x : BitVec n) (k : Nat) :
    (x >>> k != 0) = true ↔ ∃ b, k ≤ b ∧ b < n ∧ x.getLsbD b = true := by
  rw [bne_iff_ne]
  constructor
  · intro left
    by_contra none
    refine left (BitVec.eq_of_getLsbD_eq fun i _ => ?_)
    by_contra set
    have set : x.getLsbD (k + i) = true := by simpa using set
    exact none ⟨k + i, Nat.le_add_right k i, BitVec.lt_of_getLsbD set, set⟩
  · rintro ⟨b, hb, -, set⟩ zero
    have bit := congrArg (fun y => y.getLsbD (b - k)) zero
    simp [BitVec.getLsbD_ushiftRight, Nat.add_sub_cancel' hb, set] at bit

theorem bitsFrom_iff (k : Nat) (w : Word) : bitsFrom k w = true ↔ FieldSet w k 16 := shifted_ne_zero_iff w k

theorem word_ne_zero_iff (w : Word) : (w != 0) = true ↔ FieldSet w 0 16 := by
  rw [← bitsFrom_iff, bitsFrom, BitVec.ushiftRight_zero]

theorem lowByte_shifted_iff (w : Word) (k : Nat) : (lowByte w >>> k != 0) = true ↔ FieldSet w k 8 := by
  rw [shifted_ne_zero_iff]
  refine exists_congr fun b => and_congr_right fun _ => and_congr_right fun h => ?_
  rw [lowByte_getLsbD w b h]

theorem highByte_shifted_iff (w : Word) (k : Nat) : (highByte w >>> k != 0) = true ↔ FieldSet w (8 + k) 16 := by
  rw [shifted_ne_zero_iff]
  constructor
  · rintro ⟨b, hb, h, set⟩
    exact ⟨8 + b, by omega, by omega, by rwa [highByte_getLsbD w b h] at set⟩
  · rintro ⟨b, hb, h, set⟩
    refine ⟨b - 8, by omega, by omega, ?_⟩
    rwa [highByte_getLsbD w _ (by omega), Nat.add_sub_cancel' (by omega)]

/-! ### The checks of a descriptor (R54, R60, Table 5-1) -/

theorem kind_eq_iff (ws : List Word) (k : Nat) (h : k < 256) :
    byteAt ws 0 = BitVec.ofNat 8 k ↔ (byteAt ws 0).toNat = k := by
  rw [← BitVec.toNat_inj, BitVec.toNat_ofNat, Nat.mod_eq_of_lt h]

theorem isTone_iff (ws : List Word) : isTone ws = true ↔ (byteAt ws 0).toNat = 1 :=
  beq_iff_eq.trans (kind_eq_iff ws 1 (by decide))

theorem isAnnouncement_iff (ws : List Word) : isAnnouncement ws = true ↔ (byteAt ws 0).toNat = 2 :=
  beq_iff_eq.trans (kind_eq_iff ws 2 (by decide))

/-- The reserved fields of a TONE descriptor, by their bits (Table 13-3). -/
theorem toneReservedSet_iff (ws : List Word) : toneReservedSet ws = true ↔
    FieldSet (wordAt ws 2) 0 16 ∨ (wordAt ws 8).getLsbD 7 = true ∨ (wordAt ws 8).getLsbD 15 = true ∨
    FieldSet (wordAt ws 10) 12 16 ∨ FieldSet (wordAt ws 20) 9 16 ∨
    ∃ o, (o = 12 ∨ o = 14 ∨ o = 16 ∨ o = 18) ∧ FieldSet (wordAt ws o) 10 16 := by
  have first : (byteAt ws 8).getLsbD 7 = (wordAt ws 8).getLsbD 7 := by
    rw [byteAt_even ws 4, lowByte_getLsbD _ _ (by decide)]
  have second : (byteAt ws 9).getLsbD 7 = (wordAt ws 8).getLsbD 15 := by
    rw [byteAt_odd ws 4, highByte_getLsbD _ _ (by decide)]
  unfold toneReservedSet
  simp only [Bool.or_eq_true, word_ne_zero_iff, bitsFrom_iff, first, second, or_and_right, exists_or, exists_eq_left]
  tauto

/-- The reserved fields of an ANNOUNCEMENT descriptor, by their bits (Table 13-4). -/
theorem annReservedSet_iff (ws : List Word) : annReservedSet ws = true ↔
    FieldSet (wordAt ws 2) 0 16 ∨ FieldSet (wordAt ws 8) 4 8 ∨ FieldSet (wordAt ws 8) 10 16 ∨
    (wordAt ws 10).getLsbD 7 = true ∨ FieldSet (wordAt ws 20) 9 16 ∨ FieldSet (wordAt ws 22) 9 16 := by
  have listens : (byteAt ws 8 >>> 4 != 0) = true ↔ FieldSet (wordAt ws 8) 4 8 := by
    rw [byteAt_even ws 4, lowByte_shifted_iff]
  have priority : (byteAt ws 9 >>> 2 != 0) = true ↔ FieldSet (wordAt ws 8) 10 16 := by
    rw [byteAt_odd ws 4, highByte_shifted_iff]
  have attenuation : (byteAt ws 10).getLsbD 7 = (wordAt ws 10).getLsbD 7 := by
    rw [byteAt_even ws 5, lowByte_getLsbD _ _ (by decide)]
  unfold annReservedSet
  simp only [Bool.or_eq_true, word_ne_zero_iff, bitsFrom_iff, listens, priority, attenuation]
  tauto

/-- A reserved field of the descriptor's own type is not zero. -/
def reservedSet (ws : List Word) : Bool :=
  isTone ws && toneReservedSet ws || isAnnouncement ws && annReservedSet ws

theorem reservedSet_iff (ws : List Word) (known : (byteAt ws 0).toNat = 1 ∨ (byteAt ws 0).toNat = 2) :
    reservedSet ws = true ↔ FieldSet (wordAt ws 2) 0 16 ∨
      ((byteAt ws 0).toNat = 1 ∧ ((wordAt ws 8).getLsbD 7 = true ∨ (wordAt ws 8).getLsbD 15 = true ∨
        FieldSet (wordAt ws 10) 12 16 ∨ FieldSet (wordAt ws 20) 9 16 ∨
        ∃ o, (o = 12 ∨ o = 14 ∨ o = 16 ∨ o = 18) ∧ FieldSet (wordAt ws o) 10 16)) ∨
      ((byteAt ws 0).toNat = 2 ∧ (FieldSet (wordAt ws 8) 4 8 ∨ FieldSet (wordAt ws 8) 10 16 ∨
        (wordAt ws 10).getLsbD 7 = true ∨ FieldSet (wordAt ws 20) 9 16 ∨ FieldSet (wordAt ws 22) 9 16)) := by
  unfold reservedSet
  rw [Bool.or_eq_true, Bool.and_eq_true, Bool.and_eq_true, isTone_iff, isAnnouncement_iff, toneReservedSet_iff,
    annReservedSet_iff]
  rcases known with tone | announcement
  · simp [tone]
  · simp [announcement]

/-- Checks 2 to 5 in order, by the number of the type (Table 5-1). -/
theorem checkCopy_eq (highway : Option Nat) (ws : List Word) : checkCopy highway ws =
    if (byteAt ws 0).toNat = 0 then some .absent
    else if 2 < (byteAt ws 0).toNat then some .type
    else if reservedSet ws = true then some .reserved
    else highway.elim none fun h => if (byteAt ws 1).getLsbD h = true then none else some .highway := by
  have unknown : (!(isTone ws || isAnnouncement ws)) = true ↔
      ¬ ((byteAt ws 0).toNat = 1 ∨ (byteAt ws 0).toNat = 2) := by
    rw [Bool.not_eq_true', ← Bool.not_eq_true, Bool.or_eq_true, isTone_iff, isAnnouncement_iff]
  have absent := kind_eq_iff ws 0 (by decide)
  unfold checkCopy
  refine if_ctx_congr absent (fun _ => rfl) fun present => ?_
  refine if_ctx_congr (unknown.trans (by omega)) (fun _ => rfl) fun _ => ?_
  refine if_congr .rfl rfl ?_
  cases highway <;> rfl

/-- Each cause of a slot's fetch, and its passing, where `kind` is the type's number. -/
theorem checkCopy_some_iff (ws : List Word) (h kind : Nat) (reserved on : Prop) (hk : (byteAt ws 0).toNat = kind)
    (hr : kind = 1 ∨ kind = 2 → (reservedSet ws = true ↔ reserved)) (ho : (byteAt ws 1).getLsbD h = true ↔ on) :
    (checkCopy (some h) ws = some .absent ↔ kind = 0) ∧
    (checkCopy (some h) ws = some .type ↔ 2 < kind) ∧
    (checkCopy (some h) ws = some .reserved ↔ (kind = 1 ∨ kind = 2) ∧ reserved) ∧
    (checkCopy (some h) ws = some .highway ↔ (kind = 1 ∨ kind = 2) ∧ ¬ reserved ∧ ¬ on) ∧
    (checkCopy (some h) ws = none ↔ (kind = 1 ∨ kind = 2) ∧ ¬ reserved ∧ on) ∧
    (checkCopy none ws = none ↔ (kind = 1 ∨ kind = 2) ∧ ¬ reserved) := by
  rw [checkCopy_eq, checkCopy_eq, hk, Option.elim_some, Option.elim_none]
  by_cases known : kind = 1 ∨ kind = 2
  · have present : kind ≠ 0 := by omega
    have small : ¬ 2 < kind := by omega
    rw [← hr known, ← ho]
    simp only [present, small, known, if_false, true_and]
    split_ifs <;> simp_all
  · by_cases absent : kind = 0
    · simp [absent]
    · have large : 2 < kind := by omega
      simp [absent, large, known]

/-! ### What is taken from a copy (R51, R55 to R58, R173) -/

theorem clampStep_toNat (w : Word) : (clampStep w).toNat = min w.toNat 32767 := by
  unfold clampStep
  split
  · show 32767 = _
    omega
  · omega

theorem field_toNat (b : Byte) (n : Nat) : (b.extractLsb' 0 n).toNat = b.toNat % 2 ^ n := by
  rw [BitVec.extractLsb'_toNat, Nat.shiftRight_zero]

/-- The leading run of a list of n items: the first k, where those pass and the next, if any, does not. -/
theorem takeWhile_map_range {α : Type} (f : Nat → α) (p : α → Bool) (n k : Nat) (hk : k ≤ n)
    (pass : ∀ i, i < k → p (f i) = true) (stop : k < n → p (f k) = false) :
    ((List.range n).map f).takeWhile p = (List.range k).map f := by
  obtain ⟨m, rfl⟩ := Nat.exists_eq_add_of_le hk
  rw [List.range_add, List.map_append, List.takeWhile_append_of_pos (by simpa using pass)]
  cases m with
  | zero => simp
  | succ m => simp [List.range_succ_eq_map, stop (by omega)]

/-- The cadence list is the leading run of steps whose duration is not zero (R56). -/
theorem cadenceOf_eq (ws : List Word) (k : Nat) (hk : k ≤ 4)
    (pass : ∀ i, i < k → lowByte (wordAt ws (12 + 2 * i)) ≠ 0) (stop : k < 4 → lowByte (wordAt ws (12 + 2 * k)) = 0) :
    cadenceOf ws = (List.range k).map (fun i => cadenceStepOf (wordAt ws (12 + 2 * i))) :=
  takeWhile_map_range (fun i => cadenceStepOf (wordAt ws (12 + 2 * i))) (fun c => c.duration != 0) 4 k hk
    (fun i hi => bne_iff_ne.mpr (pass i hi)) (fun h => bne_eq_false_iff_eq.mpr (stop h))

/-- An option field gives a program exactly where its valid flag is set (R173). -/
theorem optionOf_eq_some_iff (w : Word) (p : Program) :
    optionOf w = some p ↔ w.getLsbD 8 = true ∧ p.val = (lowByte w).toNat := by
  unfold optionOf
  cases w.getLsbD 8
  · simp
  · simp [programOf, Fin.ext_iff, eq_comm]

theorem annFieldsOf_listens (ws : List Word) : (annFieldsOf ws).listens = max 1 ((byteAt ws 8).toNat % 16) := by
  have field := field_toNat (byteAt ws 8) 4
  show (if _ = 0 then 1 else _) = _
  rw [field]
  split <;> omega

theorem maskOf_components (w : Word) : (maskOf w).hasOne = w.getLsbD 8 ∧ (maskOf w).hasTwo = w.getLsbD 9 := by
  unfold maskOf
  cases w.getLsbD 9 <;> cases w.getLsbD 8 <;> exact ⟨rfl, rfl⟩

/-- Settles O31: the checks by `checkCopy_some_iff`, and each field by the lemma above that reads it. -/
theorem descriptorCopyRead : Obligations.DescriptorCopyRead := by
  refine ⟨fun ws h hh => ?_, fun ws => ?_, fun w => ⟨rfl, maskOf_components w⟩, rfl⟩
  · intro kind set options reserved
    have highway : (byteAt ws 1).getLsbD h = true ↔ set 0 (8 + h) := by
      rw [byteAt_odd ws 0, highByte_getLsbD _ h hh]
    have fields : kind = 1 ∨ kind = 2 → (reservedSet ws = true ↔ reserved) := by
      intro known
      rw [reservedSet_iff ws known]
      simp only [FieldSet, Nat.zero_le, true_and, exists_and_left, reserved, options, set, kind]
    obtain ⟨absent, type, res, way, pass, other⟩ := checkCopy_some_iff ws h kind reserved _ rfl fields highway
    exact ⟨absent, type, res, way, pass, other, isTone_iff ws⟩
  · have start := addrAt_toNat ws 4 rfl
    rw [← lowByte_toNat, ← byteAt_even ws 3] at start
    refine ⟨clampStep_toNat _, clampStep_toNat _, field_toNat _ 7, field_toNat _ 7, cadenceOf_eq ws, ?_,
      annFieldsOf_listens ws, field_toNat _ 2, rfl, fun p => ?_, start, rfl, field_toNat _ 7⟩
    · rw [dwellOf, BitVec.extractLsb'_toNat, Nat.shiftRight_zero]
    · rw [byteAt_even ws 10, byteAt_even ws 11]
      exact ⟨optionOf_eq_some_iff _ p, optionOf_eq_some_iff _ p, optionOf_eq_some_iff _ p⟩

end Sys2Proof.Machine

namespace Sys2Proof.Machine

/-! ### TG15's refetch (R67, R68) -/

theorem exec_refetchComplete {s : State} {r : OwnRequest} {data : Word} {c : Program} (h : s.Settled)
    (last : s.LastWordOf r) (kind : r.kind = .refetch c) : exec (.refetchComplete data) s =
      .next (s.delivered.refetchDone c r.gen (r.advance data).answer).finish :=
  congrArg Host.Outcome.next (takeEnds_complete h last
    (by simp only [OwnRequest.advance_kind, OwnRequest.advance_gen, kind]))

/-- The refetch is idle again (R68). -/
def State.refetched (s : State) : State := s.withRefetch { s.refetch with busy := false }

/-- TG15 takes its steps, attenuations and cadence from a copy (R68). -/
def State.adopts (s : State) (copy : ToneCopy) : State :=
  s.setGenerator congestionGen ((s.generator congestionGen).adopt copy)

theorem refetchDone_discarded (s : State) (c : Program) (g : Option Generation) (ws : List Word)
    (h : ¬ (g = some s.refetch.gen ∧ s.refetch.busy = true)) : s.refetchDone c g ws = s := if_neg h

/-- A TONE copy that passes is adopted. -/
theorem refetchDone_adopted (s : State) (c : Program) (g : Option Generation) (ws : List Word)
    (h : g = some s.refetch.gen ∧ s.refetch.busy = true) (check : checkTone none ws = none) :
    s.refetchDone c g ws = s.refetched.adopts (toneCopyOf ws) := by
  unfold State.refetchDone
  rw [if_pos h, check]
  rfl

/-- Any other copy is kept out, with CONG_KEPT. -/
theorem refetchDone_kept (s : State) (c : Program) (g : Option Generation) (ws : List Word) (cause : Cause)
    (h : g = some s.refetch.gen ∧ s.refetch.busy = true) (check : checkTone none ws = some cause) :
    s.refetchDone c g ws =
      s.refetched.takeOutcome (deviceRecord s.fm.frame .congKept c (causeCode cause)) := by
  unfold State.refetchDone
  rw [if_pos h, check]
  rfl

/-- What a matching answer leaves, whether its copy is adopted or not. -/
theorem refetchDone_frame (s : State) (c : Program) (g : Option Generation) (ws : List Word) :
    (s.refetchDone c g ws).pending = s.pending ∧ (s.refetchDone c g ws).pairing = s.pairing ∧
    (s.refetchDone c g ws).bus = s.bus ∧ (s.refetchDone c g ws).slots = s.slots ∧
    (s.refetchDone c g ws).mra.underWay = s.mra.underWay ∧
    (g = some s.refetch.gen → s.refetch.busy = true → (s.refetchDone c g ws).refetch = { s.refetch with busy := false })
    := by
  by_cases h : g = some s.refetch.gen ∧ s.refetch.busy = true
  · cases check : checkTone none ws with
    | none =>
      rw [refetchDone_adopted s c g ws h check]
      exact ⟨rfl, rfl, rfl, rfl, rfl, fun _ _ => rfl⟩
    | some cause =>
      rw [refetchDone_kept s c g ws cause h check]
      exact ⟨takeOutcome_pending _ _, takeOutcome_pairing _ _, takeOutcome_bus _ _, takeOutcome_slots _ _,
        takeOutcome_underWay _ _, fun _ _ => takeOutcome_refetch _ _⟩
  · rw [refetchDone_discarded s c g ws h]
    exact ⟨rfl, rfl, rfl, rfl, rfl, fun gen busy => absurd ⟨gen, busy⟩ h⟩

/-- TG15 starts its new cadence at step 0 with its full duration, and keeps its phases, code and count (R68). -/
theorem Generator.adopt_bound (copy : ToneCopy) (x : Generator) (b : ToneBinding) (h : x.binding = some b) :
    x.adopt copy = { x with binding := some { b with
      copy := copy, cadence := copy.cadence.head?.map (fun step => (0, step.duration.toNat * 40)) } } := by
  have cadence : initialCadence copy = copy.cadence.head?.map (fun step => (0, step.duration.toNat * 40)) := by
    unfold initialCadence
    cases copy.cadence <;> rfl
  unfold Generator.adopt
  simp only [h, cadence]

theorem checkTone_eq_some_iff (highway : Option Nat) (ws : List Word) (cause : Cause) :
    checkTone highway ws = some cause ↔
      checkCopy highway ws = some cause ∨ (checkCopy highway ws = none ∧ isTone ws = false ∧ cause = .type) := by
  unfold checkTone
  cases checkCopy highway ws <;> cases isTone ws <;> simp [eq_comm]

/-- Settles O41: the answer is discarded, or its copy is adopted or kept out. -/
theorem refetchTaken : Obligations.RefetchTaken := by
  intro s r data c settled last kind
  have runs := exec_refetchComplete (data := data) settled last kind
  generalize (r.advance data).answer = ws at runs ⊢
  obtain ⟨pending, pairing, bus, slots, underWay, refetch⟩ := refetchDone_frame s.delivered c r.gen ws
  have timing := timingStands_refetchDone s.delivered c r.gen ws
  have boot := (bootStands_refetchDone s.delivered c r.gen ws).boot
  refine ⟨_, ws, runs, rfl, completed_finish pending pairing timing.fm bus underWay, fun other => ?_,
    fun gen busy => ⟨(finish_refetch _).trans (refetch gen busy), (finish_slots _).trans slots,
      (finish_players _).trans timing.players, (finish_queue _).trans timing.queue, (finish_boot _).trans boot,
      fun copy tone => ?_, fun cause failed => ?_⟩⟩
  · rw [refetchDone_discarded s.delivered c r.gen ws fun matching => other matching.1]
    exact discarded_delivered s
  · rw [refetchDone_adopted s.delivered c r.gen ws ⟨gen, busy⟩ ((checkTone_eq_none_iff none ws).mpr ⟨copy, tone⟩)]
    refine ⟨finish_rrw _, fun h other => ?_, fun b bound => ?_⟩
    · rw [finish_generator]
      exact State.setGenerator_generator_ne _ _ _ _ other
    · rw [finish_generator]
      exact (State.setGenerator_generator_same _ _ _).trans (Generator.adopt_bound _ _ b bound)
  · rw [refetchDone_kept s.delivered c r.gen ws cause ⟨gen, busy⟩ ((checkTone_eq_some_iff none ws cause).mpr failed)]
    refine ⟨(finish_gens _).trans (takeOutcome_gens _ _), Reported.finish ?_⟩
    exact (takeOutcome_reported _ _).before rfl rfl
      (reportsHeld_of_reportWrites (delivered_reportWrites last (by rw [kind]; rfl)))

end Sys2Proof.Machine

namespace Sys2Proof.Machine

/-! ### One operation for each record of a bank -/

/-- A run of operations, each on a record of its own, does to record k what the k-th operation does. -/
theorem foldl_at {σ ι α : Type} (read : σ → ι → α) (f : σ → ι → σ) (other : ∀ s i k, k ≠ i → read (f s i) k = read s k)
    (l : List ι) (once : l.Nodup) (k : ι) (hk : k ∈ l) (s : σ) :
    ∃ u, read u k = read s k ∧ read (l.foldl f s) k = read (f u k) k := by
  have untouched : ∀ (l : List ι) (s : σ), k ∉ l → read (l.foldl f s) k = read s k := by
    intro l
    induction l with
    | nil => exact fun _ _ => rfl
    | cons i l ih =>
      intro s h
      rw [List.mem_cons, not_or] at h
      exact (ih _ h.2).trans (other s i k h.1)
  obtain ⟨before, after, rfl⟩ := List.append_of_mem hk
  obtain ⟨-, last, apart⟩ := List.nodup_append.mp once
  refine ⟨before.foldl f s, untouched before s fun h => apart k h k List.mem_cons_self rfl, ?_⟩
  rw [List.foldl_append, List.foldl_cons]
  exact untouched after _ (List.nodup_cons.mp last).1

/-- What each operation of a run keeps, the run keeps. -/
theorem foldl_kept {σ ι α : Type} (read : σ → α) (f : σ → ι → σ) (h : ∀ s i, read (f s i) = read s) (l : List ι) :
    ∀ s, read (l.foldl f s) = read s := by
  induction l with
  | nil => exact fun _ => rfl
  | cons i l ih => exact fun s => (ih _).trans (h s i)

/-- A run of operations that find nothing to do does nothing. -/
theorem foldl_still {σ ι : Type} (f : σ → ι → σ) (s : σ) (l : List ι) (h : ∀ i ∈ l, f s i = s) : l.foldl f s = s := by
  induction l with
  | nil => rfl
  | cons i l ih =>
    rw [List.foldl_cons, h i List.mem_cons_self]
    exact ih fun k hk => h k (List.mem_cons_of_mem i hk)

/-! ### The fetch under way (R63, R64) -/

theorem OwnRequest.overtake_eq (p : Program) (r : OwnRequest) : r.overtake p =
    { r with overtaken := r.overtaken || (r.kind.descriptor? == some p && decide (1 ≤ r.done)) } := by
  unfold OwnRequest.overtake
  by_cases h : r.kind.descriptor? = some p ∧ 1 ≤ r.done
  · simp [h]
  · have unreached : (r.kind.descriptor? == some p && decide (1 ≤ r.done)) = false := by simpa using h
    rw [if_neg h, unreached, Bool.or_false]

/-- The fetch of p under way, with a word read, is marked as overtaken. -/
def State.overtaken (s : State) (p : Program) : State :=
  s.withMra { s.mra with underWay := s.mra.underWay.map (OwnRequest.overtake p) }

/-- The mark leaves the generation of the read under way. -/
theorem underWayGen_of_overtake {s u : State} {p : Program}
    (h : u.mra.underWay = s.mra.underWay.map (OwnRequest.overtake p)) (f : OwnKind → Bool) :
    u.underWayGen f = s.underWayGen f := by
  unfold State.underWayGen
  rw [h]
  cases s.mra.underWay with
  | none => rfl
  | some r => simp [OwnRequest.overtake_eq]

/-! ### Generators made stale (R64, R100) -/

/-- One generator's part of a program store. -/
def State.staleGenerator (s : State) (p : Program) (g : GenIx) : State :=
  if g = congestionGen then s else s.setGenerator g ((s.generator g).makeStale p)

theorem staleGenerators_eq (s : State) (p : Program) :
    s.staleGenerators p = allGenerators.foldl (fun t g => t.staleGenerator p g) s := rfl

/-- It replaces its own record, and nothing else. -/
theorem staleGenerator_eq (s : State) (p : Program) (g : GenIx) : s.staleGenerator p g =
    s.setGenerator g (if g = congestionGen then s.generator g else (s.generator g).makeStale p) := by
  unfold State.staleGenerator
  split
  · rw [setGenerator_self]
  · rfl

theorem staleGenerators_generator (s : State) (p : Program) (g : GenIx) : (s.staleGenerators p).generator g =
    if g = congestionGen then s.generator g else (s.generator g).makeStale p := by
  obtain ⟨u, same, turn⟩ := foldl_at State.generator (fun t g => t.staleGenerator p g)
    (fun t i k h => by rw [staleGenerator_eq, State.setGenerator_generator_ne _ _ _ _ h])
    allGenerators (by decide) g (by rw [allGenerators_eq]; exact List.mem_finRange g) s
  rw [staleGenerators_eq, turn, staleGenerator_eq, State.setGenerator_generator_same, same]

theorem staleGenerators_frame (s : State) (p : Program) : (s.staleGenerators p).slots = s.slots ∧
    (s.staleGenerators p).players = s.players ∧ (s.staleGenerators p).queue = s.queue ∧
    (s.staleGenerators p).rrw = s.rrw := by
  have kept : ∀ {α : Type} (read : State → α), (∀ t g x, read (State.setGenerator t g x) = read t) →
      read (s.staleGenerators p) = read s := fun read h =>
    foldl_kept read _ (fun t g => by rw [← State.staleGenerator, staleGenerator_eq, h]) allGenerators s
  exact ⟨kept State.slots fun _ _ _ => rfl, kept State.players fun _ _ _ => rfl, kept State.queue fun _ _ _ => rfl,
    kept State.rrw fun _ _ _ => rfl⟩

theorem Generator.makeStale_bound (p : Program) (x : Generator) (b : ToneBinding) (h : x.binding = some b)
    (program : b.program = p) : x.makeStale p = { x with binding := some { b with fresh := false } } := by
  unfold Generator.makeStale
  simp only [h, program, if_true]

theorem Generator.makeStale_other (p : Program) (x : Generator) (h : ∀ b, x.binding = some b → b.program ≠ p) :
    x.makeStale p = x := by
  unfold Generator.makeStale
  split
  · rfl
  · rename_i b bound
    exact if_neg (h b bound)

/-! ### Players closed or freed (R108, R122, R124) -/

theorem stalePlayer_unreached (s : State) (p : Program) (n : PlayerIx)
    (h : (s.player n).program ≠ some p ∨ (s.player n).fresh ≠ some true) : s.stalePlayer p n = s :=
  if_neg fun ⟨program, fresh⟩ => h.elim (absurd program) (absurd fresh)

theorem stalePlayer_running (s : State) (p : Program) (n : PlayerIx) (program : (s.player n).program = some p)
    (fresh : (s.player n).fresh = some true) (state : (s.player n).state = .running) : s.stalePlayer p n =
      s.setPlayer n { s.player n with fresh := some false, framesLeft := 0, windowOpen := false } := by
  unfold State.stalePlayer
  dsimp only
  rw [if_pos ⟨program, fresh⟩, state]

theorem stalePlayer_priming (s : State) (p : Program) (n : PlayerIx) (program : (s.player n).program = some p)
    (fresh : (s.player n).fresh = some true) (state : (s.player n).state = .priming) :
    s.stalePlayer p n = s.releasePlayer n := by
  unfold State.stalePlayer
  dsimp only
  rw [if_pos ⟨program, fresh⟩, state]

/-- A player that does not serve p afresh is not reached. -/
theorem stalePlayer_not_fresh (s : State) (p : Program) (n : PlayerIx) (h : (s.player n).isFreshFor p = false) :
    s.stalePlayer p n = s := by
  unfold State.stalePlayer
  dsimp only
  split
  · rename_i bound
    obtain ⟨program, fresh⟩ := bound
    cases state : (s.player n).state with
    | free => rfl
    | priming | running => simp [Player.isFreshFor, program, fresh, state] at h
  · rfl

theorem onlyPlayer_releasePlayer (s : State) (n : PlayerIx) : OnlyPlayer n s (s.releasePlayer n) :=
  ⟨by simp, by simp, by simp, by simp, by simp, by simp, fun _ h => releasePlayer_other _ _ _ h⟩

theorem onlyPlayer_stalePlayer (s : State) (p : Program) (n : PlayerIx) : OnlyPlayer n s (s.stalePlayer p n) := by
  unfold State.stalePlayer
  dsimp only
  split
  · split
    · exact onlyPlayer_releasePlayer s n
    · exact onlyPlayer_setPlayer s n _
    · exact .refl n s
  · exact .refl n s

/-- A program store at the eight players in turn. -/
def State.stalePlayers (s : State) (p : Program) : State := allPlayers.foldl (fun t n => t.stalePlayer p n) s

theorem stalePlayers_frame (s : State) (p : Program) : (s.stalePlayers p).slots = s.slots ∧
    (s.stalePlayers p).gens = s.gens ∧ (s.stalePlayers p).queue = s.queue ∧ (s.stalePlayers p).rrw = s.rrw :=
  have only := fun t n => onlyPlayer_stalePlayer t p n
  ⟨foldl_kept State.slots _ (fun t n => (only t n).slots) allPlayers s,
    foldl_kept State.gens _ (fun t n => (only t n).gens) allPlayers s,
    foldl_kept State.queue _ (fun t n => (only t n).queue) allPlayers s,
    foldl_kept State.rrw _ (fun t n => (only t n).rrw) allPlayers s⟩

theorem mem_allPlayers (n : PlayerIx) : n ∈ allPlayers := by
  rw [allPlayers_eq]
  exact List.mem_finRange n

/-- The store finds each player's record as it was, and what it leaves of it stands. -/
theorem stalePlayers_player (s : State) (p : Program) (n : PlayerIx) :
    ∃ u : State, u.player n = s.player n ∧ (s.stalePlayers p).player n = (u.stalePlayer p n).player n :=
  foldl_at State.player (fun t n => t.stalePlayer p n) (fun t i k h => (onlyPlayer_stalePlayer t p i).players k h)
    allPlayers (by decide) n (mem_allPlayers n) s

/-- Where one player alone may serve p afresh, the store reaches that player alone. -/
theorem stalePlayers_alone (s : State) (p : Program) (n : PlayerIx)
    (alone : ∀ m, m ≠ n → (s.player m).isFreshFor p = false) : s.stalePlayers p = s.stalePlayer p n := by
  obtain ⟨before, after, split⟩ := List.append_of_mem (mem_allPlayers n)
  have once : (before ++ n :: after).Nodup := split ▸ (by decide)
  obtain ⟨-, last, apart⟩ := List.nodup_append.mp once
  have others : ∀ m, m ≠ n → (s.stalePlayer p n).stalePlayer p m = s.stalePlayer p n := fun m other => by
    refine stalePlayer_not_fresh _ p m ?_
    rw [(onlyPlayer_stalePlayer s p n).players m other]
    exact alone m other
  unfold State.stalePlayers
  rw [split, List.foldl_append, List.foldl_cons, foldl_still _ s before fun m hm =>
    stalePlayer_not_fresh s p m (alone m fun e => apart m hm n List.mem_cons_self e)]
  exact foldl_still _ _ after fun m hm => others m fun e => (List.nodup_cons.mp last).1 (e ▸ hm)

/-! ### The store at the fetch, the generators and the players -/

/-- What a program store does before it comes to TG15's refetch (log 23). -/
def State.staled (s : State) (p : Program) : State := ((s.overtaken p).staleGenerators p).stalePlayers p

theorem moves_staled (s : State) (p : Program) : Moves (s.overtaken p) (s.staled p) :=
  (moves_staleGenerators _ p).trans (Moves.foldl _ (fun t n => moves_stalePlayer t p n) allPlayers _)

theorem staled_frame (s : State) (p : Program) : (s.staled p).slots = s.slots ∧ (s.staled p).queue = s.queue ∧
    (s.staled p).rrw = s.rrw := by
  obtain ⟨slots, -, queue, rrw⟩ := stalePlayers_frame ((s.overtaken p).staleGenerators p) p
  obtain ⟨slots', -, queue', rrw'⟩ := staleGenerators_frame (s.overtaken p) p
  exact ⟨slots.trans slots', queue.trans queue', rrw.trans rrw'⟩

theorem staled_generator (s : State) (p : Program) (g : GenIx) : (s.staled p).generator g =
    if g = congestionGen then s.generator g else (s.generator g).makeStale p :=
  (generator_of_gens (stalePlayers_frame _ p).2.1 g).trans (staleGenerators_generator (s.overtaken p) p g)

theorem staleGenerators_player (s : State) (p : Program) (n : PlayerIx) :
    (s.staleGenerators p).player n = s.player n := by
  unfold State.player
  rw [(staleGenerators_frame s p).2.1]

theorem staled_player (s : State) (p : Program) (n : PlayerIx) :
    ∃ u : State, u.player n = s.player n ∧ (s.staled p).player n = (u.stalePlayer p n).player n := by
  obtain ⟨u, same, turn⟩ := stalePlayers_player ((s.overtaken p).staleGenerators p) p n
  exact ⟨u, same.trans (staleGenerators_player _ p n), turn⟩

theorem staled_player_unreached (s : State) (p : Program) (n : PlayerIx)
    (h : (s.player n).program ≠ some p ∨ (s.player n).fresh ≠ some true) : (s.staled p).player n = s.player n := by
  obtain ⟨u, same, turn⟩ := staled_player s p n
  rw [turn, stalePlayer_unreached u p n (by rwa [same]), same]

/-- A fresh RUNNING player of p is made stale and closed. -/
theorem staled_player_running (s : State) (p : Program) (n : PlayerIx) (program : (s.player n).program = some p)
    (fresh : (s.player n).fresh = some true) (state : (s.player n).state = .running) : (s.staled p).player n =
      { s.player n with fresh := some false, framesLeft := 0, windowOpen := false } := by
  obtain ⟨u, same, turn⟩ := staled_player s p n
  rw [← same] at program fresh state ⊢
  rw [turn, stalePlayer_running u p n program fresh state, State.setPlayer_player_same]

/-- A PRIMING player of p with its copy in hand goes FREE, and may be bound again at once. -/
theorem staled_player_priming (s : State) (p : Program) (n : PlayerIx) (program : (s.player n).program = some p)
    (fresh : (s.player n).fresh = some true) (state : (s.player n).state = .priming) :
    ((s.staled p).player n).listeners = [] ∧ ((s.staled p).player n).state ≠ .running ∧
      ((s.staled p).player n).fresh = none := by
  obtain ⟨u, same, turn⟩ := staled_player s p n
  rw [← same] at program fresh state
  rw [turn, stalePlayer_priming u p n program fresh state]
  exact releasePlayer_player_same u n

/-- Its freeing is the store's only effect on the players, where no other is fresh for p. -/
theorem staled_freed (s : State) (p : Program) (n : PlayerIx) (program : (s.player n).program = some p)
    (fresh : (s.player n).fresh = some true) (state : (s.player n).state = .priming) (one : s.OneFreshPlayer) :
    Freed s (s.staled p) n := by
  have serves : (s.player n).isFreshFor p = true := by simp [Player.isFreshFor, program, fresh, state]
  have same := staleGenerators_player (s.overtaken p) p
  have alone : ∀ m, m ≠ n → (((s.overtaken p).staleGenerators p).player m).isFreshFor p = false := by
    intro m other
    rw [same]
    exact Bool.eq_false_of_not_eq_true fun also => other (one p m n also serves)
  unfold State.staled
  rw [stalePlayers_alone _ p n alone, stalePlayer_priming _ p n (by rw [same]; exact program)
    (by rw [same]; exact fresh) (by rw [same]; exact state)]
  exact (releasePlayer_freed _ n).before (by rw [same]; rfl) (by rw [same]; rfl)

/-- What a program store into p leaves of the part before it comes to TG15's refetch. -/
structure Staled (p : Program) (s u : State) : Prop where
  control : ControlUnchanged s u
  refetch : u.refetch = s.refetch
  slots : u.slots = s.slots
  queue : u.queue = s.queue
  rrw : u.rrw = s.rrw
  underWay : u.mra.underWay = s.mra.underWay.map (OwnRequest.overtake p)
  generator : ∀ g, u.generator g = if g = congestionGen then s.generator g else (s.generator g).makeStale p
  unreached : ∀ n, (s.player n).program ≠ some p ∨ (s.player n).fresh ≠ some true → u.player n = s.player n
  running : ∀ n, (s.player n).program = some p → (s.player n).fresh = some true → (s.player n).state = .running →
    u.player n = { s.player n with fresh := some false, framesLeft := 0, windowOpen := false }
  priming : ∀ n, (s.player n).program = some p → (s.player n).fresh = some true → (s.player n).state = .priming →
    (u.player n).listeners = [] ∧ (u.player n).state ≠ .running ∧ (u.player n).fresh = none
  freed : ∀ n, (s.player n).program = some p → (s.player n).fresh = some true → (s.player n).state = .priming →
    s.OneFreshPlayer → Freed s u n

theorem staled_staled (s : State) (p : Program) : Staled p s (s.staled p) := by
  obtain ⟨slots, queue, rrw⟩ := staled_frame s p
  have moves := moves_staled s p
  have kept := moves.servingOnly
  exact ⟨⟨kept.pending, kept.pairing, kept.boot, kept.fm⟩, kept.refetch, slots, queue, rrw, moves.underWay,
    staled_generator s p, staled_player_unreached s p, staled_player_running s p, staled_player_priming s p,
    staled_freed s p⟩

/-- The bus makes no difference to what a program store does to the rest. -/
theorem Staled.of_withBus {p : Program} {s u : State} {b : Bus} (h : Staled p (s.withBus b) u) : Staled p s u := by
  obtain ⟨control, refetch, slots, queue, rrw, underWay, generator, unreached, running, priming, freed⟩ := h
  exact ⟨⟨control.pending, control.pairing, control.boot, control.fm⟩, refetch, slots, queue, rrw, underWay, generator,
    unreached, running, priming, fun n bound fresh state one => (freed n bound fresh state one).before rfl rfl⟩

/-! ### TG15's refetch (R67) -/

/-- A program store at TG15: the refetch begins or restarts where p is the congestion program. -/
def State.refetchFor (u : State) (p : Program) : State :=
  if u.isCongestion p then u.startRefetch u.programBase p else u

theorem programTaken_eq (s : State) (p : Program) : s.programTaken p = (s.staled p).refetchFor p := by
  unfold State.programTaken State.refetchFor State.staled State.stalePlayers State.overtaken
  rfl

/-- `t` differs from `u` at most in TG15's refetch and in the own requests that wait. -/
structure RefetchOnly (u t : State) : Prop where
  control : ControlUnchanged u t
  bus : t.bus = u.bus
  slots : t.slots = u.slots
  gens : t.gens = u.gens
  players : t.players = u.players
  queue : t.queue = u.queue
  rrw : t.rrw = u.rrw
  underWay : t.mra.underWay = u.mra.underWay

theorem refetchFor_only (u : State) (p : Program) : RefetchOnly u (u.refetchFor p) := by
  unfold State.refetchFor
  split <;> exact ⟨⟨rfl, rfl, rfl, rfl⟩, rfl, rfl, rfl, rfl, rfl, rfl, rfl⟩

/-- It withdraws no request but TG15's refetch. -/
theorem refetchFor_waiting (u : State) (p : Program) (q : OwnRequest) (h : q.kind.isRefetch = false)
    (waits : u.Waiting q) : (u.refetchFor p).Waiting q := by
  unfold State.refetchFor
  split
  · exact enqueue_waiting _ _ _ (withdraw_waiting u OwnKind.isRefetch q waits h)
  · exact waits

theorem Freed.refetchFor {s u : State} {n : PlayerIx} (h : Freed s u n) (p : Program) : Freed s (u.refetchFor p) n := by
  have only := refetchFor_only u p
  refine h.after only.players only.queue only.underWay only.control.boot fun q read waits =>
    refetchFor_waiting u p q ?_ waits
  unfold readOfPlayer at read
  cases kind : q.kind <;> simp_all [OwnKind.player?, OwnKind.isRefetch]

/-- The refetch that begins carries a new generation, and no earlier one waits any longer (R67). -/
theorem startRefetch_begun (s : State) (a : Addr) (c : Program) : (s.startRefetch a c).refetch.busy = true ∧
    (s.startRefetch a c).refetch.gen = nextGeneration s.refetch.gen (s.underWayGen OwnKind.isRefetch) ∧
    (∃ r, (s.startRefetch a c).Waiting r ∧ r.kind = .refetch c ∧ r.gen = some (s.startRefetch a c).refetch.gen ∧
      r.length = 16) ∧
    ∀ r, (s.startRefetch a c).Waiting r → r.kind.isRefetch = true → r.gen = some (s.startRefetch a c).refetch.gen := by
  refine ⟨rfl, rfl, ⟨_, (enqueue_waiting_iff _ _ _).mpr (.inr rfl), rfl, rfl, rfl⟩, fun r waits refetch => ?_⟩
  rcases (enqueue_waiting_iff _ _ _).mp waits with earlier | rfl
  · have gone := ((withdraw_waiting_iff s OwnKind.isRefetch r).mp earlier).2
    exact absurd refetch (by rw [gone]; decide)
  · rfl

/-! ### The store's acceptance (R2, R4) -/

/-- The other blocks do not take a store that lies outside their ranges. -/
theorem takeStore_elsewhere (s : State) (q : Request) (data : Word) (x : StoreTaker) (other : x ≠ .program)
    (entry : s.connectionEntry q.addr = none) (consumer : s.isConsumerWord q.addr = false) :
    State.takeStore q data s x = s := by
  unfold State.takeStore
  cases x with
  | connection => simp only [entry]
  | program => exact absurd rfl other
  | consumer => simp only [consumer, Bool.false_eq_true, if_false]

/-- A store that lies in a program's descriptor and in no other watched range is taken by the program's block, once,
wherever its turn comes (R4; log 10). -/
theorem takeStores_program (s : State) (q : Request) (data : Word) (p : Program) (program : s.programAt q.addr = some p)
    (entry : s.connectionEntry q.addr = none) (consumer : s.isConsumerWord q.addr = false) (l : List StoreTaker)
    (once : l.count .program = 1) : l.foldl (State.takeStore q data) s = s.programTaken p := by
  have untaken : ∀ (l : List StoreTaker) (t : State), l.count .program = 0 → t.boot = s.boot →
      l.foldl (State.takeStore q data) t = t := fun l t none boot => by
    have outside : t.isConsumerWord q.addr = false := by
      rw [← consumer]
      unfold State.isConsumerWord
      rw [boot]
    refine foldl_still _ t l fun x hx => takeStore_elsewhere t q data x ?_
      ((connectionEntry_of_boot boot _).trans entry) outside
    rintro rfl
    exact List.count_eq_zero.mp none hx
  have taken : State.takeStore q data s .program = s.programTaken p := by
    unfold State.takeStore
    simp only [program]
  have boot : (s.programTaken p).boot = s.boot := by
    rw [programTaken_eq, (refetchFor_only _ p).control.boot]
    exact (staled_staled s p).control.boot
  obtain ⟨before, after, rfl⟩ := List.append_of_mem (List.count_pos_iff.mp (by omega : 0 < l.count .program))
  rw [List.count_append, List.count_cons_self] at once
  rw [List.foldl_append, List.foldl_cons, untaken before s (by omega) rfl, taken]
  exact untaken after _ (by omega) boot

/-- Whichever command brings it, memory's acceptance of a store into program p's descriptor ends the store and is the
store's taking by the program's block. -/
theorem exec_program_store {s : State} {q : Request} {data : Word} {c : Instr} {p : Program} (hc : IsAcceptance c)
    (settled : s.Settled) (port : s.StoreOnPort q data) (program : s.programAt q.addr = some p)
    (entry : s.connectionEntry q.addr = none) (consumer : s.isConsumerWord q.addr = false)
    (command : s.isCommandWord q.addr = false) : ∃ u, exec c s = .next (u.refetchFor p).finish ∧
      Ended s (u.refetchFor p).finish q.master .stored ∧ Staled p s u := by
  obtain ⟨l, accepts, order⟩ := acceptance_eq s q data c hc settled port
  obtain ⟨b, hb⟩ : ∃ b, s.freePort.endTo q.master .stored = s.withBus b := ⟨_, endTo_frame _ _ _⟩
  have other : ¬ (s.withBus b).isCommandWord q.addr = true := fun h => Bool.false_ne_true (command.symm.trans h)
  have taken := takeStores_program (s.withBus b) q data p program entry consumer l
    ((order.count_eq .program).trans (by decide))
  unfold State.storeAccepted at accepts
  dsimp only at accepts
  rw [hb, if_neg other, taken, programTaken_eq] at accepts
  refine ⟨_, accepts, ended_finish ?_, (staled_staled (s.withBus b) p).of_withBus⟩
  rw [hb, (refetchFor_only _ p).bus]
  exact (moves_staled (s.withBus b) p).servingOnly.bus

theorem isCongestion_iff (s : State) (p : Program) (r : BootRecord) (h : s.boot.accepted = some r) :
    s.isCongestion p = true ↔ r.congestionProgram = p := by
  unfold State.isCongestion
  rw [h]
  exact beq_iff_eq

/-- Settles O15: the fetch, the generators and the players by `Staled`, and the refetch after it. -/
theorem programStoreTaken : Obligations.ProgramStoreTaken := by
  intro s q data c rec p hc settled port accepted program entry consumer command
  obtain ⟨u, accepts, ended, stale⟩ := exec_program_store hc settled port program entry consumer command
  have only := refetchFor_only u p
  have congestion := isCongestion_iff u p rec (by rw [stale.control.boot]; exact accepted)
  have generator : ∀ g, (u.refetchFor p).finish.generator g = u.generator g := fun g =>
    (finish_generator _ g).trans (generator_of_gens only.gens g)
  have player : ∀ n, (u.refetchFor p).finish.player n = u.player n := fun n =>
    (finish_player _ n).trans (congrArg (fun v => v[n.val]) only.players)
  refine ⟨_, accepts, ended, ControlUnchanged.finish ?_, (finish_slots _).trans (only.slots.trans stale.slots),
    (finish_queue _).trans (only.queue.trans stale.queue), (finish_rrw _).trans (only.rrw.trans stale.rrw),
    fun g t bound same other => ?_, fun g h => ?_, fun n bound fresh state => ?_, fun n bound fresh state => ?_,
    fun n h => ?_, fun r underWay => ?_, fun other => ?_, fun same => ?_⟩
  · exact ⟨only.control.pending.trans stale.control.pending, only.control.pairing.trans stale.control.pairing,
      only.control.boot.trans stale.control.boot, only.control.fm.trans stale.control.fm⟩
  · rw [generator, stale.generator]
    exact (if_neg other).trans (Generator.makeStale_bound p _ t bound same)
  · rw [generator, stale.generator]
    split
    · rfl
    · rename_i other
      exact Generator.makeStale_other p _ (h.resolve_right other)
  · rw [player]
    exact stale.running n bound fresh state
  · rw [player]
    obtain ⟨listeners, notRunning, notFresh⟩ := stale.priming n bound fresh state
    exact ⟨notRunning, notFresh, listeners, fun one => ((stale.freed n bound fresh state one).refetchFor p).finish⟩
  · rw [player]
    exact stale.unreached n h
  · rw [finish_underWay, only.underWay, stale.underWay, underWay, Option.map_some, OwnRequest.overtake_eq]
  · rw [finish_refetch, State.refetchFor, if_neg (mt congestion.mp other)]
    exact stale.refetch
  · have begun := startRefetch_begun u u.programBase p
    rw [stale.refetch, underWayGen_of_overtake stale.underWay] at begun
    rw [State.refetchFor, if_pos (congestion.mpr same)]
    simp only [finish_refetch, finish_waiting]
    exact begun

end Sys2Proof.Machine

namespace Sys2Proof.Machine

/-! ### What a detach releases (R77, R96, R105, R123, Table 6-4) -/

theorem releaseGenerator_eq (s : State) (g : GenIx) :
    s.releaseGenerator g = s.setGenerator g (releasedGenerator g (s.generator g)) := by
  unfold State.releaseGenerator releasedGenerator
  dsimp only
  split <;> rfl

/-- The listener set of player n with slot j taken out. -/
def State.unlisten (s : State) (n : PlayerIx) (j : Slot) : State :=
  s.modifyPlayer n (fun pl => { pl with listeners := pl.listeners.filter (fun i => i != j) })

theorem unlisten_player_same (s : State) (n : PlayerIx) (j : Slot) : (s.unlisten n j).player n =
    { s.player n with listeners := (s.player n).listeners.filter (fun i => i != j) } :=
  State.modifyPlayer_player_same ..

theorem leavePlayer_some (s : State) (n : PlayerIx) (j : Slot)
    (h : (s.player n).listeners.filter (fun i => i != j) ≠ []) : s.leavePlayer n j = s.unlisten n j := by
  have left : ((s.unlisten n j).player n).listeners ≠ [] := by rwa [unlisten_player_same]
  exact if_neg left

theorem leavePlayer_none (s : State) (n : PlayerIx) (j : Slot)
    (h : (s.player n).listeners.filter (fun i => i != j) = []) :
    s.leavePlayer n j = (s.unlisten n j).releasePlayer n := by
  have left : ((s.unlisten n j).player n).listeners = [] := by rwa [unlisten_player_same]
  exact if_pos left

theorem onlyPlayer_unlisten (s : State) (n : PlayerIx) (j : Slot) : OnlyPlayer n s (s.unlisten n j) :=
  onlyPlayer_setPlayer s n _

theorem onlyPlayer_leavePlayer (s : State) (n : PlayerIx) (j : Slot) : OnlyPlayer n s (s.leavePlayer n j) := by
  have left := onlyPlayer_unlisten s n j
  by_cases h : (s.player n).listeners.filter (fun i => i != j) = []
  · rw [leavePlayer_none s n j h]
    exact left.trans (onlyPlayer_releasePlayer _ n)
  · rw [leavePlayer_some s n j h]
    exact left

theorem leavePlayer_freed (s : State) (n : PlayerIx) (j : Slot)
    (h : (s.player n).listeners.filter (fun i => i != j) = []) : Freed s (s.leavePlayer n j) n := by
  rw [leavePlayer_none s n j h]
  exact (releasePlayer_freed _ n).before (by rw [unlisten_player_same]) (by rw [unlisten_player_same])

theorem detach_tone (s : State) (j : Slot) (p : Program) (g : GenIx) (d : Option Dwell)
    (h : (s.slot j).state = .tone p g d) : s.detach j = s.releaseGenerator g := by
  unfold State.detach; rw [h]

theorem detach_overflow (s : State) (j : Slot) (p : Program) (h : (s.slot j).state = .overflow p) :
    s.detach j = s.releaseGenerator congestionGen := by
  unfold State.detach; rw [h]

theorem detach_waiting (s : State) (j : Slot) (p : Program) (ann : AnnFields) (filler : Option GenIx)
    (h : (s.slot j).state = .waiting p ann filler) : s.detach j = s.leaveWaiting j filler := by
  unfold State.detach; rw [h]

theorem detach_playing (s : State) (j : Slot) (p : Program) (ann : AnnFields) (n : PlayerIx) (r : Nat) (mark : Frame)
    (h : (s.slot j).state = .playing p ann n r mark) : s.detach j = s.leavePlayer n j := by
  unfold State.detach; rw [h]

/-- Nothing is released in IDLE, ATTACHING and FAULT. -/
theorem detach_nothing (s : State) (j : Slot) (h : (s.slot j).state = .idle ∨
    ∃ p, (s.slot j).state = .attaching p ∨ (s.slot j).state = .fault p) : s.detach j = s := by
  unfold State.detach
  rcases h with h | ⟨p, h | h⟩ <;> rw [h]

/-- A detach changes no context and hands over no record. -/
theorem detach_frame (s : State) (j : Slot) : (s.detach j).slots = s.slots ∧ (s.detach j).rrw = s.rrw := by
  cases h : (s.slot j).state with
  | idle | attaching | fault => rw [detach_nothing s j (by simp [h])]; exact ⟨rfl, rfl⟩
  | tone p g d => rw [detach_tone s j p g d h]; exact ⟨releaseGenerator_slots s g, releaseGenerator_rrw s g⟩
  | overflow p => rw [detach_overflow s j p h]; exact ⟨releaseGenerator_slots s _, releaseGenerator_rrw s _⟩
  | waiting p ann filler =>
    rw [detach_waiting s j p ann filler h]
    exact ⟨releaseFiller_slots _ filler, releaseFiller_rrw _ filler⟩
  | playing p ann n r mark =>
    rw [detach_playing s j p ann n r mark h]
    exact ⟨(onlyPlayer_leavePlayer s n j).slots, (onlyPlayer_leavePlayer s n j).rrw⟩

/-- A filler loses its slot; where there is none the Bank stands. -/
theorem releaseFiller_generator (s : State) (filler : Option GenIx) (h : GenIx) : (s.releaseFiller filler).generator h =
    if filler = some h then releasedGenerator h (s.generator h) else s.generator h := by
  cases filler with
  | none => rfl
  | some g =>
    have same : h = g ↔ some g = some h := by rw [Option.some.injEq, eq_comm]
    rw [State.releaseFiller, releaseGenerator_generator]
    by_cases e : h = g
    · rw [if_pos e, if_pos (same.mp e), e]
    · rw [if_neg e, if_neg (mt same.mpr e)]

/-- Settles O12: state by state, what each releases. -/
theorem detachReleases : Obligations.DetachReleases := by
  intro s j
  obtain ⟨slots, rrw⟩ := detach_frame s j
  refine ⟨(moves_detach s j).servingOnly, slots, rrw, fun idle => detach_nothing s j (.inl idle),
    fun p h => detach_nothing s j (.inr ⟨p, h⟩), fun p g d h => ?_, fun p ann filler waiting => ?_,
    fun p ann n r mark playing => ?_⟩
  · rw [← releaseGenerator_eq]
    rcases h with tone | ⟨overflow, rfl⟩
    · exact detach_tone s j p g d tone
    · exact detach_overflow s j p overflow
  · rw [detach_waiting s j p ann filler waiting]
    exact ⟨leaveWaiting_queue s j filler, releaseFiller_players _ filler, releaseFiller_generator _ filler⟩
  · rw [detach_playing s j p ann n r mark playing]
    have only := onlyPlayer_leavePlayer s n j
    refine ⟨only.queue, only.gens, only.players, fun some => ?_, leavePlayer_freed s n j⟩
    rw [leavePlayer_some s n j some, unlisten_player_same]

end Sys2Proof.Machine

namespace Sys2Proof.Machine

/-! ### Places of slots (R71, R123) -/

/-- Where a context's state places its slot: in the waiting queue for a program, among a player's listeners, or in
neither. -/
inductive Place where
  | nowhere
  | queued (p : Program)
  | listening (n : PlayerIx)

def SlotState.place : SlotState → Place
  | .waiting p _ _ => .queued p
  | .playing _ _ n _ _ => .listening n
  | _ => .nowhere

theorem SlotState.place_queued_iff (st : SlotState) (p : Program) :
    st.place = .queued p ↔ ∃ ann filler, st = .waiting p ann filler := by
  cases st <;> simp [SlotState.place]

theorem SlotState.place_listening_iff (st : SlotState) (n : PlayerIx) :
    st.place = .listening n ↔ ∃ p ann r mark, st = .playing p ann n r mark := by
  cases st <;> simp [SlotState.place]

/-- The places that the contexts give. -/
def State.places (s : State) (j : Slot) : Place := (s.slot j).state.place

/-- A player has listeners exactly while it is RUNNING. -/
def Player.Heard (pl : Player) : Prop := pl.state = .running ↔ pl.listeners ≠ []

/-- The queue and the listener sets place every slot as `f` says, and every player but x has listeners exactly while it
is RUNNING. Within an event `f` runs ahead of the contexts for the slot that moves, and x is the player whose event it
is. -/
structure State.Booked (s : State) (f : Slot → Place) (x : Option PlayerIx) : Prop where
  once : (s.queue.map (fun e => e.slot)).Nodup
  queued : ∀ j p, (∃ e ∈ s.queue, e.slot = j ∧ e.program = p) ↔ f j = .queued p
  listening : ∀ j n, j ∈ (s.player n).listeners ↔ f j = .listening n
  ordered : ∀ n, (s.player n).listeners.Pairwise (fun a b => a < b)
  heard : ∀ n, x ≠ some n → (s.player n).Heard

theorem membership_iff_booked (s : State) : s.Membership ↔ s.Booked s.places none := by
  have queued : ∀ j p, s.places j = .queued p ↔ ∃ ann filler, (s.slot j).state = .waiting p ann filler :=
    fun j => (s.slot j).state.place_queued_iff
  have listening : ∀ j n, s.places j = .listening n ↔
      ∃ p ann r mark, (s.slot j).state = .playing p ann n r mark := fun j => (s.slot j).state.place_listening_iff
  constructor
  · rintro ⟨once, waiting, playing, ordered, heard⟩
    exact ⟨once, fun j p => (waiting j p).trans (queued j p).symm, fun j n => (playing j n).trans (listening j n).symm,
      ordered, fun n _ => heard n⟩
  · rintro ⟨once, waiting, playing, ordered, heard⟩
    exact ⟨once, fun j p => (waiting j p).trans (queued j p), fun j n => (playing j n).trans (listening j n),
      ordered, fun n => heard n nofun⟩

theorem State.Booked.except {s : State} {f : Slot → Place} (b : s.Booked f none) (n : PlayerIx) :
    s.Booked f (some n) := ⟨b.once, b.queued, b.listening, b.ordered, fun m _ => b.heard m nofun⟩

/-- At the end of its event the player itself has listeners exactly while it is RUNNING. -/
theorem State.Booked.settle {s : State} {f : Slot → Place} {n : PlayerIx} (b : s.Booked f (some n))
    (h : (s.player n).Heard) : s.Booked f none := by
  refine ⟨b.once, b.queued, b.listening, b.ordered, fun m _ => ?_⟩
  by_cases same : m = n
  · exact same ▸ h
  · exact b.heard m fun e => same (Option.some.inj e).symm

/-- The queue, the listener sets and the players' states are as they were. -/
structure BooksStand (s t : State) : Prop where
  queue : t.queue = s.queue
  listeners : ∀ n, (t.player n).listeners = (s.player n).listeners
  state : ∀ n, (t.player n).state = (s.player n).state

theorem BooksStand.refl (s : State) : BooksStand s s := ⟨rfl, fun _ => rfl, fun _ => rfl⟩

theorem BooksStand.trans {s t u : State} (a : BooksStand s t) (b : BooksStand t u) : BooksStand s u :=
  ⟨b.queue.trans a.queue, fun n => (b.listeners n).trans (a.listeners n), fun n => (b.state n).trans (a.state n)⟩

theorem BooksStand.of_players {s t : State} (queue : t.queue = s.queue) (players : t.players = s.players) :
    BooksStand s t :=
  have player : ∀ n, t.player n = s.player n := fun n => congrArg (fun v => v[n.val]) players
  ⟨queue, fun n => congrArg Player.listeners (player n), fun n => congrArg Player.state (player n)⟩

theorem State.Booked.stand {s t : State} {f : Slot → Place} {x : Option PlayerIx} (b : s.Booked f x)
    (h : BooksStand s t) : t.Booked f x where
  once := by rw [h.queue]; exact b.once
  queued j p := by rw [h.queue]; exact b.queued j p
  listening j n := by rw [h.listeners]; exact b.listening j n
  ordered n := by rw [h.listeners]; exact b.ordered n
  heard n other := by unfold Player.Heard; rw [h.listeners, h.state]; exact b.heard n other

/-- Nothing that R71 and R123 speak of has changed. -/
structure SeatsStand (s t : State) : Prop where
  books : BooksStand s t
  places : t.places = s.places

theorem SeatsStand.refl (s : State) : SeatsStand s s := ⟨.refl s, rfl⟩

theorem SeatsStand.trans {s t u : State} (a : SeatsStand s t) (b : SeatsStand t u) : SeatsStand s u :=
  ⟨a.books.trans b.books, b.places.trans a.places⟩

theorem SeatsStand.foldl {α : Type} (f : State → α → State) (h : ∀ s a, SeatsStand s (f s a)) (l : List α) :
    ∀ s, SeatsStand s (l.foldl f s) := by
  induction l with
  | nil => exact SeatsStand.refl
  | cons a l ih => exact fun s => (h s a).trans (ih _)

theorem places_of_slots {s t : State} (h : t.slots = s.slots) : t.places = s.places := by
  unfold State.places State.slot
  rw [h]

theorem SeatsStand.of_banks {s t : State} (queue : t.queue = s.queue) (players : t.players = s.players)
    (slots : t.slots = s.slots) : SeatsStand s t := ⟨.of_players queue players, places_of_slots slots⟩

theorem BanksStand.seatsStand {s t : State} (h : BanksStand s t) : SeatsStand s t :=
  .of_banks h.queue h.players h.slots

/-- A booking of the contexts' own places. -/
theorem SeatsStand.booked {s t : State} {x : Option PlayerIx} (h : SeatsStand s t) (b : s.Booked s.places x) :
    t.Booked t.places x := by
  rw [h.places]
  exact b.stand h.books

theorem SeatsStand.membership {s t : State} (h : SeatsStand s t) (m : s.Membership) : t.Membership := by
  rw [membership_iff_booked] at *
  exact h.booked m

/-! ### Operations that move no slot -/

theorem setSlot_places (s : State) (j : Slot) (c : SlotContext) :
    (s.setSlot j c).places = Function.update s.places j c.state.place := by
  funext i
  unfold State.places
  rw [State.setSlot_slot, Function.update_apply]
  split <;> rfl

theorem seatsStand_setSlot (s : State) (j : Slot) (c : SlotContext) (h : c.state.place = s.places j) :
    SeatsStand s (s.setSlot j c) :=
  ⟨.of_players rfl rfl, by rw [setSlot_places, h, Function.update_eq_self]⟩

theorem seatsStand_setPlayer (s : State) (n : PlayerIx) (x : Player) (listeners : x.listeners = (s.player n).listeners)
    (state : x.state = (s.player n).state) : SeatsStand s (s.setPlayer n x) := by
  refine ⟨⟨rfl, fun m => ?_, fun m => ?_⟩, rfl⟩
  all_goals
    rw [State.setPlayer_player]
    split
    · rename_i same
      rw [same]
      assumption
    · rfl

theorem seatsStand_modifyPlayer (s : State) (n : PlayerIx) (f : Player → Player)
    (listeners : (f (s.player n)).listeners = (s.player n).listeners)
    (state : (f (s.player n)).state = (s.player n).state) : SeatsStand s (s.modifyPlayer n f) :=
  seatsStand_setPlayer s n _ listeners state

theorem seatsStand_modifyWalker (s : State) (n : PlayerIx) (f : Walker → Walker) : SeatsStand s (s.modifyWalker n f) :=
  seatsStand_modifyPlayer s n _ rfl rfl

theorem seatsStand_enqueue (s : State) (r : OwnRequest) : SeatsStand s (s.enqueue r) := .of_banks rfl rfl rfl

theorem seatsStand_joinGenerator (s : State) (g : GenIx) : SeatsStand s (s.joinGenerator g) := .of_banks rfl rfl rfl

theorem seatsStand_bindGenerator (s : State) (g : GenIx) (p : Program) (c : ToneCopy) (b : Bool) (k : Nat) :
    SeatsStand s (s.bindGenerator g p c b k) := .of_banks rfl rfl rfl

theorem seatsStand_takeOutcome (s : State) (o : Outcome) : SeatsStand s (s.takeOutcome o) :=
  (banksStand_takeOutcome s o).seatsStand

theorem seatsStand_releaseGenerator (s : State) (g : GenIx) : SeatsStand s (s.releaseGenerator g) :=
  .of_banks (releaseGenerator_queue s g) (releaseGenerator_players s g) (releaseGenerator_slots s g)

theorem seatsStand_giveFiller (s : State) (j : Slot) (g : GenIx) : SeatsStand s (s.giveFiller j g) := by
  unfold State.giveFiller
  split
  · rename_i waiting
    exact seatsStand_setSlot s j _ (by unfold State.places; rw [waiting]; rfl)
  · exact .refl s

theorem seatsStand_takeFiller (s : State) (j : Slot) (f : Program) : SeatsStand s (s.takeFiller j f) := by
  unfold State.takeFiller
  split
  · exact (seatsStand_joinGenerator s _).trans (seatsStand_giveFiller _ j _)
  · split
    · exact .refl s
    · exact seatsStand_enqueue s _

theorem seatsStand_fillerDone (s : State) (j : Slot) (f : Program) (g : Option Generation) (b : Bool)
    (ws : List Word) : SeatsStand s (s.fillerDone j f g b ws) := by
  unfold State.fillerDone
  split
  · split
    · split
      · exact .refl s
      · split
        · exact (seatsStand_joinGenerator s _).trans (seatsStand_giveFiller _ j _)
        · split
          · exact (seatsStand_bindGenerator s _ f _ b 1).trans (seatsStand_giveFiller _ j _)
          · exact .refl s
    · exact .refl s
  · exact .refl s

theorem seatsStand_countListen (s : State) (j : Slot) : SeatsStand s (s.countListen j) := by
  unfold State.countListen
  split
  · rename_i playing
    exact seatsStand_setSlot s j _ (by unfold State.places; rw [playing]; rfl)
  · exact .refl s

/-! ### The walker moves no slot (R129, R130, R140) -/

theorem seatsStand_setNext (s : State) (n : PlayerIx) (o : Nat) : SeatsStand s (s.setNext n o) := by
  unfold State.setNext
  split
  · exact seatsStand_modifyWalker s n _
  · exact (seatsStand_modifyWalker s n _).trans (seatsStand_enqueue _ _)

theorem seatsStand_promote (s t : State) (n : PlayerIx) (h : s.promote n = some t) : SeatsStand s t := by
  unfold State.promote at h
  dsimp only at h
  split at h
  · cases h
  · cases h
  · cases h
    exact seatsStand_modifyWalker s n _
  · split at h
    · cases h
      exact (seatsStand_modifyWalker s n _).trans (seatsStand_setNext _ n _)
    · cases h
      exact seatsStand_modifyWalker s n _
    · cases h

theorem seatsStand_place (s t : State) (n : PlayerIx) (h : s.place n = some t) : SeatsStand s t := by
  have half : ∀ x w, SeatsStand s (s.setPlayer n { (s.player n).setHalf (s.player n).walker.nextHalf x with walker := w }) :=
    fun x w => seatsStand_setPlayer s n _ (Player.setHalf_listeners ..) (Player.setHalf_state ..)
  unfold State.place at h
  dsimp only at h
  split at h <;> cases h
  · exact (half _ _).trans (seatsStand_enqueue _ _)
  all_goals exact half _ _

theorem seatsStand_walkOnce (s t : State) (n : PlayerIx) (h : s.walkOnce n = some t) : SeatsStand s t := by
  unfold State.walkOnce at h
  dsimp only at h
  split at h
  · exact seatsStand_place s t n h
  · split at h
    · exact seatsStand_promote s t n h
    · cases h

theorem seatsStand_walk (n : PlayerIx) (k : Nat) : ∀ s, SeatsStand s (State.walk n k s) := by
  induction k with
  | zero => exact SeatsStand.refl
  | succ k ih =>
    intro s
    unfold State.walk
    split
    · exact .refl s
    · exact (seatsStand_walkOnce s _ n ‹_›).trans (ih _)

theorem seatsStand_advanceWalker (s : State) (n : PlayerIx) : SeatsStand s (s.advanceWalker n) :=
  seatsStand_walk n _ s

theorem seatsStand_startWalker (s : State) (n : PlayerIx) : SeatsStand s (s.startWalker n) :=
  ((seatsStand_modifyWalker s n _).trans (seatsStand_setNext _ n _)).trans (seatsStand_advanceWalker _ n)

theorem seatsStand_emptyCurrent (s : State) (n : PlayerIx) : SeatsStand s (s.emptyCurrent n) :=
  (seatsStand_modifyPlayer s n _ (Player.setHalf_listeners ..) (Player.setHalf_state ..)).trans
    (seatsStand_advanceWalker _ n)

theorem seatsStand_outputFrame (s : State) (n : PlayerIx) : SeatsStand s (s.outputFrame n) := by
  have out : SeatsStand s (s.modifyPlayer n Player.output) :=
    seatsStand_modifyPlayer s n _ (by unfold Player.output; split <;> rfl) (by unfold Player.output; split <;> rfl)
  unfold State.outputFrame
  dsimp only
  split
  · exact out.trans (seatsStand_emptyCurrent _ n)
  · exact out

theorem seatsStand_closeWindow (s : State) (n : PlayerIx) : SeatsStand s (s.closeWindow n) := by
  unfold State.closeWindow
  split
  · exact seatsStand_modifyPlayer s n _ rfl rfl
  · exact .refl s

end Sys2Proof.Machine

namespace Sys2Proof.Machine

/-! ### A slot enters a state (R70, R73) -/

theorem enter_places (s : State) (j : Slot) (st : SlotState) :
    (s.enter j st).places = Function.update s.places j st.place := setSlot_places _ _ _

/-- A booking that is ahead of the contexts for slot j alone is theirs once the slot has entered its state. -/
theorem State.Booked.enter {s : State} {j : Slot} {st : SlotState} {x : Option PlayerIx}
    (b : s.Booked (Function.update s.places j st.place) x) :
    (s.enter j st).Booked (s.enter j st).places x := by
  rw [enter_places]
  exact b.stand (.of_players rfl rfl)

/-- Slot j stands in neither the queue nor a listener set, whatever its context says; else all is as it should be. -/
def State.Detached (s : State) (j : Slot) : Prop := s.Booked (Function.update s.places j .nowhere) none

theorem State.Membership.detached {s : State} (m : s.Membership) {j : Slot} (h : s.places j = .nowhere) :
    s.Detached j := by
  unfold State.Detached
  rw [← h, Function.update_eq_self]
  exact (membership_iff_booked s).mp m

theorem SeatsStand.detached {s t : State} (h : SeatsStand s t) {j : Slot} (d : s.Detached j) : t.Detached j := by
  unfold State.Detached at *
  rw [h.places]
  exact d.stand h.books

theorem State.Detached.enter {s : State} {j : Slot} (d : s.Detached j) (st : SlotState) (h : st.place = .nowhere) :
    (s.enter j st).Membership :=
  (membership_iff_booked _).mpr (State.Booked.enter (by rw [h]; exact d))

theorem State.Detached.faultSlot {s : State} {j : Slot} (d : s.Detached j) (p : Program) (c : Cause) :
    (s.faultSlot j p c).Membership := (seatsStand_takeOutcome _ _).membership (d.enter _ rfl)

theorem State.Detached.attach {s : State} {j : Slot} (d : s.Detached j) (p : Program) : (s.attach j p).Membership := by
  unfold State.attach
  split
  · exact d.faultSlot p _
  · exact (seatsStand_enqueue _ _).membership (d.enter _ rfl)

theorem State.Detached.overflowSlot {s : State} {j : Slot} (d : s.Detached j) (p : Program) (k : ReportKind) (w : Word) :
    (s.overflowSlot j p k w).Membership :=
  (seatsStand_takeOutcome _ _).membership (((seatsStand_joinGenerator s _).detached d).enter _ rfl)

/-! ### A slot leaves the queue or a listener set (R123, R143) -/

theorem State.Booked.leaveQueue {s : State} {f : Slot → Place} {x : Option PlayerIx} (b : s.Booked f x) (j : Slot)
    (h : ∀ n, f j ≠ .listening n) : (s.leaveQueue j).Booked (Function.update f j .nowhere) x where
  once := b.once.sublist (List.filter_sublist.map _)
  queued i p := by
    rw [State.leaveQueue, State.withQueue_queue, Function.update_apply]
    split
    · rename_i same
      refine iff_of_false ?_ nofun
      rintro ⟨e, mem, at', -⟩
      exact bne_iff_ne.mp (List.mem_filter.mp mem).2 (at'.trans same)
    · rename_i other
      rw [← b.queued i p]
      refine exists_congr fun e => ?_
      rw [List.mem_filter, bne_iff_ne]
      constructor
      · exact fun ⟨⟨mem, _⟩, at'⟩ => ⟨mem, at'⟩
      · exact fun ⟨mem, at'⟩ => ⟨⟨mem, fun e => other (at'.1.symm.trans e)⟩, at'⟩
  listening i n := by
    rw [leaveQueue_player, b.listening i n, Function.update_apply]
    split
    · rename_i same
      simp [same, h n]
    · rfl
  ordered := b.ordered
  heard := b.heard

/-- The slot's place among the listeners of n is gone; n may be left with none. -/
theorem State.Booked.leaveListeners {s : State} {f : Slot → Place} {x : Option PlayerIx} {n : PlayerIx} {j : Slot}
    (b : s.Booked f x) (h : f j = .listening n) (hx : x = none ∨ x = some n) :
    (s.unlisten n j).Booked (Function.update f j .nowhere) (some n) where
  once := b.once
  queued i p := by
    refine (b.queued i p).trans ?_
    rw [Function.update_apply]
    split
    · rename_i same
      simp [same, h]
    · rfl
  listening i m := by
    rw [State.unlisten, State.modifyPlayer_player, Function.update_apply]
    have apart : ∀ m, m ≠ n → f j ≠ .listening m := fun m other e => other (Place.listening.inj (e.symm.trans h))
    split
    · rename_i same
      subst same
      by_cases hi : i = j <;> simp [hi, b.listening]
    · rename_i other
      rw [b.listening]
      by_cases hi : i = j <;> simp [hi, apart m other]
  ordered m := by
    rw [State.unlisten, State.modifyPlayer_player]
    split
    · exact (b.ordered n).filter _
    · exact b.ordered m
  heard m other := by
    rw [(onlyPlayer_unlisten s n j).players m fun e => other (congrArg some e.symm)]
    refine b.heard m ?_
    rcases hx with rfl | rfl
    · nofun
    · exact other

/-! ### A player without listeners is freed or bound (R107, R108, R122, R146) -/

/-- Player n, which has no listener, is not RUNNING at the end of its event. -/
theorem State.Booked.silence {s t : State} {f : Slot → Place} {n : PlayerIx} (b : s.Booked f (some n))
    (none : (s.player n).listeners = []) (queue : t.queue = s.queue) (others : ∀ m, m ≠ n → t.player m = s.player m)
    (listeners : (t.player n).listeners = []) (state : (t.player n).state ≠ .running) : t.Booked f .none := by
  have same : ∀ m, (t.player m).listeners = (s.player m).listeners := by
    intro m
    by_cases e : m = n
    · rw [e, listeners, none]
    · rw [others m e]
  refine State.Booked.settle (n := n) ⟨?_, fun j p => ?_, fun j m => ?_, fun m => ?_, fun m other => ?_⟩ ?_
  · rw [queue]; exact b.once
  · rw [queue]; exact b.queued j p
  · rw [same]; exact b.listening j m
  · rw [same]; exact b.ordered m
  · rw [others m fun e => other (congrArg some e.symm)]
    exact b.heard m other
  · exact iff_of_false state (by simp [listeners])

theorem State.Booked.releasePlayer {s : State} {f : Slot → Place} {n : PlayerIx} (b : s.Booked f (some n))
    (none : (s.player n).listeners = []) : (s.releasePlayer n).Booked f .none := by
  obtain ⟨listeners, state, -⟩ := releasePlayer_player_same s n
  exact b.silence none (releasePlayer_queue s n) (releasePlayer_other s n) listeners state

theorem State.Booked.bindPlayer {s : State} {f : Slot → Place} {n : PlayerIx} (b : s.Booked f (some n)) (p : Program)
    (none : (s.player n).listeners = []) : (s.bindPlayer n p).Booked f .none :=
  b.silence none (bindPlayer_queue s n p) (bindPlayer_other s n p) (by simp [State.bindPlayer, Player.reset])
    (by simp [State.bindPlayer])

theorem State.Booked.freePlayer {s : State} {f : Slot → Place} {n : PlayerIx} (b : s.Booked f (some n))
    (none : (s.player n).listeners = []) : (s.freePlayer n).Booked f .none :=
  b.silence none (freePlayer_queue s n) (freePlayer_other s n) (by simp [State.freePlayer, Player.reset])
    (by simp [State.freePlayer, Player.reset])

theorem State.Membership.listeners_nil {s : State} (m : s.Membership) {n : PlayerIx}
    (h : (s.player n).state ≠ .running) : (s.player n).listeners = [] := by
  by_contra some
  exact h ((m.listening n).mpr some)

theorem State.Membership.bindPlayer {s : State} (m : s.Membership) {n : PlayerIx} (p : Program)
    (h : (s.player n).state ≠ .running) : (s.bindPlayer n p).Membership := by
  have b := (((membership_iff_booked s).mp m).except n).bindPlayer p (m.listeners_nil h)
  rw [membership_iff_booked, places_of_slots (bindPlayer_slots s n p)]
  exact b

theorem State.Membership.freePlayer {s : State} (m : s.Membership) {n : PlayerIx}
    (h : (s.player n).state ≠ .running) : (s.freePlayer n).Membership := by
  have b := (((membership_iff_booked s).mp m).except n).freePlayer (m.listeners_nil h)
  rw [membership_iff_booked, places_of_slots (freePlayer_slots s n)]
  exact b

theorem State.Membership.allocate {s : State} (m : s.Membership) {n : PlayerIx}
    (h : (s.player n).state ≠ .running) : (s.allocate n).Membership := by
  rcases allocate_cases s n with e | ⟨entry, -, -, e⟩ <;> rw [e]
  · exact m
  · exact m.bindPlayer _ h

theorem State.Membership.releasePlayer {s : State} (m : s.Membership) {n : PlayerIx}
    (h : (s.player n).state ≠ .running) : (s.releasePlayer n).Membership :=
  (m.freePlayer h).allocate (by simp [State.freePlayer, Player.reset])

/-! ### Detaches (R77, Table 6-4) -/

theorem seatsStand_releaseFiller (s : State) (f : Option GenIx) : SeatsStand s (s.releaseFiller f) := by
  cases f with
  | none => exact .refl s
  | some g => exact seatsStand_releaseGenerator s g

theorem State.Membership.leaveWaiting {s : State} (m : s.Membership) {j : Slot} {p : Program} {ann : AnnFields}
    {filler : Option GenIx} (h : (s.slot j).state = .waiting p ann filler) (f : Option GenIx) :
    (s.leaveWaiting j f).Detached j := by
  have place : s.places j = .queued p := by unfold State.places; rw [h]; rfl
  exact (seatsStand_releaseFiller _ f).detached
    (((membership_iff_booked s).mp m).leaveQueue j (by rw [place]; nofun))

theorem State.Membership.leavePlayer {s : State} (m : s.Membership) {j : Slot} {n : PlayerIx}
    (h : s.places j = .listening n) : (s.leavePlayer n j).Detached j := by
  have b := ((membership_iff_booked s).mp m).leaveListeners h (.inl rfl)
  by_cases none : (s.player n).listeners.filter (fun i => i != j) = []
  · rw [leavePlayer_none s n j none, State.Detached, places_of_slots (releasePlayer_slots _ n)]
    exact b.releasePlayer (by rwa [unlisten_player_same])
  · rw [leavePlayer_some s n j none]
    refine b.settle ?_
    rw [unlisten_player_same]
    have listens : j ∈ (s.player n).listeners := (((membership_iff_booked s).mp m).listening j n).mpr h
    exact iff_of_true ((m.listening n).mpr (List.ne_nil_of_mem listens)) none

theorem State.Membership.detach {s : State} (m : s.Membership) (j : Slot) : (s.detach j).Detached j := by
  have stays : (s.slot j).state.place = .nowhere → s.Detached j := m.detached
  cases h : (s.slot j).state with
  | idle | attaching | fault =>
    rw [detach_nothing s j (by simp [h])]
    exact stays (by rw [h]; rfl)
  | tone p g dwell =>
    rw [detach_tone s j p g dwell h]
    exact (seatsStand_releaseGenerator s g).detached (stays (by rw [h]; rfl))
  | overflow p =>
    rw [detach_overflow s j p h]
    exact (seatsStand_releaseGenerator s _).detached (stays (by rw [h]; rfl))
  | waiting p ann filler =>
    rw [detach_waiting s j p ann filler h]
    exact m.leaveWaiting h filler
  | playing p ann n r mark =>
    rw [detach_playing s j p ann n r mark h]
    exact m.leavePlayer (by unfold State.places; rw [h]; rfl)

theorem State.Membership.slotRequest {s : State} (m : s.Membership) (j : Slot) : (s.slotRequest j).Membership := by
  unfold State.slotRequest
  split
  · exact (m.detach j).attach _
  · split
    · exact m
    · exact (m.detach j).enter _ rfl

theorem seatsStand_setShadow (s : State) (j : Slot) (w : Word) : SeatsStand s (s.setShadow j w) :=
  seatsStand_setSlot s j _ rfl

theorem State.Membership.connectionTaken {s : State} (m : s.Membership) (j : Slot) (w : Word) (b : Strobes) :
    (s.connectionTaken j w b).Membership := ((seatsStand_setShadow s j _).membership m).slotRequest j

theorem State.Membership.adoptionChecked {s : State} (m : s.Membership) (j : Slot) (w : Word) :
    (s.adoptionChecked j w).Membership := by
  unfold State.adoptionChecked
  split
  · exact m
  · exact ((seatsStand_setShadow s j w).membership m).slotRequest j

/-! ### Dwells and wait timeouts (R88, R148) -/

theorem State.Membership.takeDwell {s : State} (m : s.Membership) (j : Slot) : (s.takeDwell j).Membership := by
  unfold State.takeDwell
  split
  · rename_i p g d tone
    have place : s.places j = .nowhere := by unfold State.places; rw [tone]; rfl
    split
    · have told := seatsStand_takeOutcome s (slotRecord s j .dwellEnd p (dwellDetail d.next))
      dsimp only
      split
      · exact ((told.trans (seatsStand_releaseGenerator _ g)).detached (m.detached place)).attach _
      · exact (told.trans (seatsStand_setSlot _ j _ (by rw [told.places, place]; rfl))).membership m
    · exact m
  · exact m

/-- An entry's slot is WAITING, so nothing but a wait times out. -/
theorem State.Membership.takeTimeout {s : State} (m : s.Membership) : s.takeTimeout.Membership := by
  unfold State.takeTimeout
  split
  · exact m
  · rename_i e due
    obtain ⟨ann, filler, waiting⟩ :=
      (m.waiting e.slot e.program).mp ⟨e, List.mem_of_find?_eq_some due, rfl, rfl⟩
    rw [waiting]
    exact (m.leaveWaiting waiting filler).overflowSlot _ _ _

end Sys2Proof.Machine

namespace Sys2Proof.Machine

/-! ### Joins (R84, R114) -/

theorem State.Booked.mem_waitersFor {s : State} {f : Slot → Place} {x : Option PlayerIx} (b : s.Booked f x)
    (p : Program) (j : Slot) : j ∈ s.waitersFor p ↔ f j = .queued p := by
  rw [← b.queued j p]
  unfold State.waitersFor
  simp only [List.mem_map, List.mem_filter, beq_iff_eq, and_right_comm, and_assoc]

theorem State.Booked.waitersFor_nodup {s : State} {f : Slot → Place} {x : Option PlayerIx} (b : s.Booked f x)
    (p : Program) : (s.waitersFor p).Nodup := b.once.sublist (List.filter_sublist.map _)

/-- A detached slot joins a RUNNING player. -/
theorem State.Detached.joinPlayer {s : State} {j : Slot} {n : PlayerIx} (d : s.Detached j)
    (run : (s.player n).state = .running) (p : Program) (ann : AnnFields) : (s.joinPlayer n j p ann).Membership := by
  have places : (s.joinPlayer n j p ann).places = Function.update s.places j (.listening n) := enter_places _ _ _
  have moved : ∀ i, i ≠ j → Function.update s.places j (.listening n) i = Function.update s.places j .nowhere i :=
    fun i other => by rw [Function.update_of_ne other, Function.update_of_ne other]
  rw [membership_iff_booked, places]
  refine ⟨d.once, fun i q => ?_, fun i m => ?_, fun m => ?_, fun m _ => ?_⟩
  · refine (d.queued i q).trans ?_
    by_cases same : i = j
    · simp [same]
    · rw [moved i same]
  all_goals
    rw [State.joinPlayer, State.modifyPlayer_player]
    split
  · rename_i here
    rw [enter_player, mem_addListener, d.listening, here]
    by_cases same : i = j <;> simp [same]
  · rename_i other
    rw [enter_player, d.listening]
    by_cases same : i = j
    · simp [same, Ne.symm other]
    · rw [moved i same]
  · exact addListener_ordered _ _ (d.ordered n)
  · exact d.ordered m
  · exact iff_of_true run (List.ne_nil_of_mem ((mem_addListener j j _).mpr (.inl rfl)))
  · exact d.heard m nofun

theorem JoinedBy.booked {n : PlayerIx} {l : List Slot} {s t : State} (h : JoinedBy n l s t)
    (b : s.Booked s.places (some n)) (waiting : ∀ j ∈ l, ∃ p, s.places j = .queued p) :
    t.Booked t.places (some n) := by
  have joined : ∀ j ∈ l, t.places j = .listening n := by
    intro j hj
    obtain ⟨p, place⟩ := waiting j hj
    obtain ⟨ann, filler, state⟩ := (SlotState.place_queued_iff _ p).mp place
    unfold State.places
    rw [h.joined j hj p ann filler state]
    rfl
  have others : ∀ j, j ∉ l → t.places j = s.places j := fun j hj => by
    unfold State.places
    rw [h.others j hj]
  refine ⟨?_, fun j p => ?_, fun j m => ?_, fun m => ?_, fun m other => ?_⟩
  · rw [h.queue]
    exact b.once.sublist (List.filter_sublist.map _)
  · rw [h.queue]
    by_cases hj : j ∈ l
    · rw [joined j hj]
      refine iff_of_false ?_ nofun
      rintro ⟨e, mem, rfl, -⟩
      simp [hj] at mem
    · rw [others j hj, ← b.queued j p]
      refine exists_congr fun e => ?_
      rw [List.mem_filter]
      constructor
      · exact fun ⟨⟨mem, _⟩, entry⟩ => ⟨mem, entry⟩
      · exact fun ⟨mem, entry⟩ => ⟨⟨mem, by simpa [entry.1] using hj⟩, entry⟩
  · by_cases hm : m = n
    · rw [hm, h.listeners, b.listening]
      by_cases hj : j ∈ l
      · simp [hj, joined j hj]
      · simp [hj, others j hj]
    · rw [h.players m hm, b.listening]
      by_cases hj : j ∈ l
      · obtain ⟨p, place⟩ := waiting j hj
        simp [joined j hj, place, Ne.symm hm]
      · rw [others j hj]
  · by_cases hm : m = n
    · rw [hm]
      exact h.ordered (b.ordered n)
    · rw [h.players m hm]
      exact b.ordered m
  · rw [h.players m fun e => other (congrArg some e.symm)]
    exact b.heard m other

/-- What a join point of player n leaves: the slots in their places, and at n no listener lost, and every slot that
waited for a fresh binding gained. -/
structure JoinPointKept (n : PlayerIx) (s t : State) : Prop where
  booked : t.Booked t.places (some n)
  state : (t.player n).state = (s.player n).state
  listeners : ∀ j ∈ (s.player n).listeners, j ∈ (t.player n).listeners
  waiters : ∀ p, (s.player n).fresh = some true → (s.player n).program = some p → ∀ j ∈ s.waitersFor p,
    j ∈ (t.player n).listeners

theorem State.Booked.joinPoint {s : State} {n : PlayerIx} (b : s.Booked s.places (some n)) :
    JoinPointKept n s (s.joinPoint n) := by
  unfold State.joinPoint
  split
  · rename_i p fresh program
    have waiting : ∀ j ∈ s.waitersFor p, s.places j = .queued p := fun j => (b.mem_waitersFor p j).mp
    have joined := joinWaitings_joined n (s.waitersFor p) s (b.waitersFor_nodup p) fun j hj => by
      obtain ⟨ann, filler, state⟩ := (SlotState.place_queued_iff _ p).mp (waiting j hj)
      exact ⟨p, ann, filler, state⟩
    have after := joined.booked b fun j hj => ⟨p, waiting j hj⟩
    generalize (s.waitersFor p).foldl (fun t j => t.joinWaiting n j) s = u at joined after ⊢
    refine ⟨(seatsStand_modifyPlayer u n _ rfl rfl).booked after, ?_, fun j hj => ?_, fun q _ hq j hj => ?_⟩
    all_goals rw [State.modifyPlayer_player_same]
    · have same := congrArg Player.state joined.player
      exact same
    · exact (joined.listeners j).mpr (.inr hj)
    · rw [program] at hq
      cases hq
      exact (joined.listeners j).mpr (.inl hj)
  · rename_i unbound
    refine ⟨(seatsStand_modifyPlayer s n _ rfl rfl).booked b, ?_, fun j hj => ?_, fun q fresh program => ?_⟩
    · rw [State.modifyPlayer_player_same]
    · rw [State.modifyPlayer_player_same]
      exact hj
    · exact (unbound q fresh program).elim

/-! ### Arrivals (R83, R144, R145) -/

theorem State.Membership.bindForArrival {s : State} (m : s.Membership) (p : Program) :
    (s.bindForArrival p).Membership := by
  unfold State.bindForArrival
  split
  · exact m
  · split
    · rename_i n free
      have idle := List.find?_some free
      rw [beq_iff_eq] at idle
      exact m.bindPlayer p (by rw [idle]; decide)
    · exact m

theorem State.Detached.enqueueSlot {s : State} {j : Slot} (d : s.Detached j) (p : Program) (ann : AnnFields) :
    (s.enqueueSlot j p ann).Membership := by
  have gone : ∀ e ∈ s.queue, e.slot ≠ j := by
    rintro e mem rfl
    have := (d.queued e.slot e.program).mp ⟨e, mem, rfl, rfl⟩
    simp at this
  have entered : ∀ e : WaitEntry, e.slot = j → e.program = p →
      ((s.withQueue (s.queue ++ [e])).enter j (.waiting p ann none)).Membership := by
    rintro e rfl rfl
    refine (membership_iff_booked _).mpr (State.Booked.enter ⟨?_, fun i q => ?_, fun i n => ?_, d.ordered, d.heard⟩)
    · rw [State.withQueue_queue, List.map_append, List.nodup_append]
      refine ⟨d.once, List.nodup_singleton _, fun a ha b hb => ?_⟩
      obtain ⟨x, hx, rfl⟩ := List.mem_map.mp ha
      rw [List.mem_singleton.mp hb]
      exact gone x hx
    · have before := d.queued i q
      simp only [State.withQueue_queue, List.mem_append, List.mem_singleton, or_and_right, exists_or, exists_eq_left,
        before]
      by_cases same : i = e.slot
      · simp [same, SlotState.place]
      · rw [Function.update_of_ne same, Function.update_of_ne same]
        exact or_iff_left fun entry => same entry.1.symm
    · refine (d.listening i n).trans ?_
      by_cases same : i = e.slot
      · simp [same, SlotState.place]
      · rw [Function.update_of_ne same, Function.update_of_ne same]
        rfl
  unfold State.enqueueSlot
  dsimp only
  split
  · exact (seatsStand_takeFiller _ j _).membership (entered _ rfl rfl)
  · exact entered _ rfl rfl

theorem State.Membership.arrive {s : State} (m : s.Membership) {j : Slot} (h : s.places j = .nowhere) (p : Program)
    (ann : AnnFields) : (s.arrive j p ann).Membership := by
  have d := m.detached h
  unfold State.arrive
  split
  · rename_i n isOpen
    have flags := List.find?_some isOpen
    simp only [Player.isOpen, Bool.and_eq_true, beq_iff_eq] at flags
    exact d.joinPlayer flags.2.1.1 p ann
  · split
    · exact d.overflowSlot p _ _
    · split
      · exact d.overflowSlot p _ _
      · exact (d.enqueueSlot p ann).bindForArrival p

theorem State.Detached.placeTone {s : State} {j : Slot} (d : s.Detached j) (p : Program) (fresh : Bool)
    (ws : List Word) : (s.placeTone j p fresh ws).Membership := by
  unfold State.placeTone
  dsimp only
  split
  · exact ((seatsStand_joinGenerator s _).detached d).enter _ rfl
  · split
    · exact ((seatsStand_bindGenerator s _ p _ fresh 1).detached d).enter _ rfl
    · exact d.overflowSlot p _ _

theorem State.Membership.attachDone {s : State} (m : s.Membership) (j : Slot) (p : Program) (g : Option Generation)
    (fresh : Bool) (ws : List Word) : (s.attachDone j p g fresh ws).Membership := by
  unfold State.attachDone
  split
  · rename_i matching
    have place : s.places j = .nowhere := by unfold State.places; rw [matching.2]; rfl
    split
    · exact (m.detached place).faultSlot p _
    · split
      · exact (m.detached place).placeTone p fresh ws
      · exact m.arrive place p _
  · exact m

/-! ### Completions of listeners (R87, R118, R119, R121) -/

theorem AfterTaken.place {s t : State} {j : Slot} {ann : AnnFields} (h : AfterTaken s t j ann) :
    t.places j = .nowhere := by
  unfold State.places
  cases after : ann.after with
  | none => rw [h.idle after]; rfl
  | some q =>
    rcases Nat.lt_or_ge q.val s.limit with below | beyond
    · rw [(h.attaching q after below).1]; rfl
    · rw [h.fault q after beyond]; rfl

theorem CompletedBy.booked {n : PlayerIx} {cause : Option PlaylistFault} {l : List Slot} {s t : State}
    (h : CompletedBy n cause l s t) (b : s.Booked s.places (some n)) (playing : ∀ j ∈ l, s.places j = .listening n) :
    t.Booked t.places (some n) := by
  have left : ∀ j ∈ l, t.places j = .nowhere := by
    intro j hj
    obtain ⟨p, ann, r, mark, state⟩ := (SlotState.place_listening_iff _ n).mp (playing j hj)
    exact (h.after j hj p ann n r mark state).place
  have others : ∀ j, j ∉ l → t.places j = s.places j := fun j hj => by
    unfold State.places
    rw [h.others j hj]
  refine ⟨by rw [h.queue]; exact b.once, fun j p => ?_, fun j m => ?_, fun m => ?_, fun m other => ?_⟩
  · rw [h.queue, b.queued]
    by_cases hj : j ∈ l
    · simp [left j hj, playing j hj]
    · rw [others j hj]
  · by_cases hm : m = n
    · rw [hm, h.player, List.mem_filter, b.listening]
      by_cases hj : j ∈ l
      · simp [hj, left j hj]
      · simp [hj, others j hj]
    · rw [h.players m hm, b.listening]
      by_cases hj : j ∈ l
      · simp [left j hj, playing j hj, Ne.symm hm]
      · rw [others j hj]
  · by_cases hm : m = n
    · rw [hm, h.player]
      exact (b.ordered n).filter _
    · rw [h.players m hm]
      exact b.ordered m
  · rw [h.players m fun e => other (congrArg some e.symm)]
    exact b.heard m other

/-- Some of player n's listeners complete in turn. -/
theorem State.Booked.completeListeners {s : State} {n : PlayerIx} (b : s.Booked s.places (some n))
    (cause : Option PlaylistFault) (l : List Slot) (once : l.Nodup) (listening : ∀ j ∈ l, j ∈ (s.player n).listeners) :
    (l.foldl (fun u j => u.completeListener n cause j) s).Booked
        (l.foldl (fun u j => u.completeListener n cause j) s).places (some n) ∧
      (l.foldl (fun u j => u.completeListener n cause j) s).player n =
        { s.player n with listeners := (s.player n).listeners.filter (fun i => !l.contains i) } := by
  have playing : ∀ j ∈ l, s.places j = .listening n := fun j hj => (b.listening j n).mp (listening j hj)
  have done := completeListeners_completed n cause l s once fun j hj => by
    obtain ⟨p, ann, r, mark, state⟩ := (SlotState.place_listening_iff _ n).mp (playing j hj)
    exact ⟨p, ann, n, r, mark, state⟩
  exact ⟨done.booked b playing, done.player⟩

theorem State.Booked.releasePlayer_membership {s : State} {n : PlayerIx} (b : s.Booked s.places (some n))
    (none : (s.player n).listeners = []) : (s.releasePlayer n).Membership := by
  rw [membership_iff_booked, places_of_slots (releasePlayer_slots s n)]
  exact b.releasePlayer none

theorem State.Booked.listeners_nodup {s : State} {f : Slot → Place} {x : Option PlayerIx} (b : s.Booked f x)
    (n : PlayerIx) : (s.player n).listeners.Nodup := (b.ordered n).imp fun h => ne_of_lt h

/-- Every listener completes, and the player goes FREE. -/
theorem State.Booked.faultMark {s : State} {n : PlayerIx} (b : s.Booked s.places (some n)) (cause : PlaylistFault) :
    (s.faultMark n cause).Membership := by
  obtain ⟨after, player⟩ := b.completeListeners (some cause) _ (b.listeners_nodup n) fun _ => id
  refine after.releasePlayer_membership ?_
  rw [player]
  exact List.filter_eq_nil_iff.mpr fun j hj => by simp [hj]

/-- A RUNNING player plays on to listeners, or takes one that waits for it, or goes FREE. -/
theorem State.Booked.playOn {s : State} {n : PlayerIx} (b : s.Booked s.places (some n))
    (run : (s.player n).state = .running) : (s.playOn n).Membership := by
  have join : (∃ j, j ∈ ((s.joinPoint n).player n).listeners) → (s.joinPoint n).Membership := fun ⟨j, hj⟩ =>
    (membership_iff_booked _).mpr (b.joinPoint.booked.settle
      (iff_of_true (b.joinPoint.state.trans run) (List.ne_nil_of_mem hj)))
  have listened : (s.player n).listeners ≠ [] → (s.joinPoint n).Membership := fun some => by
    obtain ⟨j, listens⟩ := List.exists_mem_of_ne_nil _ some
    exact join ⟨j, b.joinPoint.listeners j listens⟩
  unfold State.playOn
  dsimp only
  split <;> split
  · rename_i leaves
    exact b.releasePlayer_membership leaves.1
  · rename_i p program stays
    by_cases none : (s.player n).listeners = []
    · simp only [none, true_and, Bool.not_eq_false, Bool.and_eq_true, beq_iff_eq] at stays
      obtain ⟨j, waits⟩ := List.exists_mem_of_ne_nil _ ((hasWaiter_iff s p).mp stays.2)
      exact join ⟨j, b.joinPoint.waiters p stays.1 program j waits⟩
    · exact listened none
  · rename_i leaves
    exact b.releasePlayer_membership leaves.1
  · rename_i stays
    exact listened fun none => stays ⟨none, rfl⟩

theorem State.Membership.passEnd {s : State} (m : s.Membership) {n : PlayerIx} (run : (s.player n).state = .running) :
    (s.passEnd n).Membership := by
  have counted := SeatsStand.foldl State.countListen seatsStand_countListen (s.player n).listeners s
  have b := ((membership_iff_booked _).mp (counted.membership m)).except n
  unfold State.passEnd
  dsimp only
  generalize (s.player n).listeners.foldl State.countListen s = t at counted b ⊢
  obtain ⟨after, player⟩ := b.completeListeners none ((t.player n).listeners.filter t.heardAll)
    ((b.listeners_nodup n).filter _) fun _ hj => (List.mem_filter.mp hj).1
  refine after.playOn ?_
  rw [player]
  exact (counted.books.state n).trans run

/-! ### Players at a mark and while PRIMING (R113, R116) -/

theorem State.Membership.takeMark {s : State} (m : s.Membership) {n : PlayerIx} (run : (s.player n).state = .running)
    (k : MarkKind) : (s.takeMark n k).Membership := by
  have b := ((membership_iff_booked s).mp m).except n
  cases k with
  | join =>
    obtain ⟨j, listens⟩ := List.exists_mem_of_ne_nil _ ((m.listening n).mp run)
    exact (membership_iff_booked _).mpr (b.joinPoint.booked.settle (iff_of_true (b.joinPoint.state.trans run)
      (List.ne_nil_of_mem (b.joinPoint.listeners j listens))))
  | endPass => exact m.passEnd run
  | fault cause => exact b.faultMark cause

theorem membership_takeMarks (n : PlayerIx) (k : Nat) :
    ∀ s : State, s.Membership → (State.takeMarks n k s).Membership := by
  induction k with
  | zero => exact fun _ => id
  | succ k ih =>
    intro s m
    unfold State.takeMarks
    split
    · rename_i k run _
      have taken := m.takeMark run k
      dsimp only
      split
      · exact ih _ ((seatsStand_emptyCurrent _ n).membership taken)
      · exact taken
    · exact m

theorem State.Membership.markPlayer {s : State} (m : s.Membership) (n : PlayerIx) : (s.markPlayer n).Membership := by
  unfold State.markPlayer
  dsimp only
  split
  · have taken := membership_takeMarks n walkBound _
      ((seatsStand_modifyPlayer s n Player.countWindow rfl rfl).membership m)
    split
    · exact (seatsStand_outputFrame _ n).membership taken
    · exact taken
  · exact m

/-- A change of player n's record that keeps its listeners leaves every slot in its place. -/
theorem State.Booked.modifyPlayer {s : State} {n : PlayerIx} (b : s.Booked s.places (some n)) (f : Player → Player)
    (listeners : (f (s.player n)).listeners = (s.player n).listeners) :
    (s.modifyPlayer n f).Booked (s.modifyPlayer n f).places (some n) := by
  have same : ∀ m, ((s.modifyPlayer n f).player m).listeners = (s.player m).listeners := by
    intro m
    rw [State.modifyPlayer_player]
    split
    · rename_i here
      rw [here, listeners]
    · rfl
  refine ⟨b.once, b.queued, fun j m => ?_, fun m => ?_, fun m other => ?_⟩
  · rw [same]; exact b.listening j m
  · rw [same]; exact b.ordered m
  · rw [State.modifyPlayer_player_ne _ _ _ _ fun e => other (congrArg some e.symm)]
    exact b.heard m other

/-- The player is RUNNING after its first pass start only where a slot has joined it. -/
theorem State.Membership.firstPassStart {s : State} (m : s.Membership) (n : PlayerIx) (fault : Option PlaylistFault) :
    (s.firstPassStart n fault).Membership := by
  have start := (((membership_iff_booked s).mp m).except n).modifyPlayer
    (fun pl => { pl with state := .running, cursor := 0 }) rfl
  unfold State.firstPassStart
  dsimp only
  have run : ((s.modifyPlayer n fun pl => { pl with state := .running, cursor := 0 }).player n).state = .running := by
    rw [State.modifyPlayer_player_same]
  generalize s.modifyPlayer n (fun pl => { pl with state := .running, cursor := 0 }) = u at start run ⊢
  have joined := start.joinPoint
  split
  · rename_i none
    exact joined.booked.releasePlayer_membership none
  · rename_i some
    split
    · exact joined.booked.faultMark _
    · exact (membership_iff_booked _).mpr (joined.booked.settle (iff_of_true (joined.state.trans run) some))

theorem membership_takePriming (n : PlayerIx) (k : Nat) :
    ∀ s : State, s.Membership → (State.takePriming n k s).Membership := by
  induction k with
  | zero => exact fun _ => id
  | succ k ih =>
    intro s m
    unfold State.takePriming
    split
    · exact m.firstPassStart n _
    · exact ih _ ((seatsStand_emptyCurrent s n).membership m)
    · exact m.firstPassStart n _
    · exact m

theorem State.Membership.primed {s : State} (m : s.Membership) (n : PlayerIx) : (s.primed n).Membership :=
  membership_takePriming n _ s m

/-! ### Completions of a player's reads (R109, R110, R129, R132) -/

/-- One waiting entry of a failed binding faults. -/
def State.failWaiter (s : State) (j : Slot) : State :=
  match (s.slot j).state with
  | .waiting q _ filler => (s.leaveWaiting j filler).faultSlot j q .binding
  | _ => s.leaveQueue j

theorem bindingFailed_eq (s : State) (n : PlayerIx) (p : Program) :
    s.bindingFailed n p = ((s.waitersFor p).foldl State.failWaiter (s.freePlayer n)).allocate n := rfl

theorem failWaiter_player (s : State) (j : Slot) (n : PlayerIx) : (s.failWaiter j).player n = s.player n := by
  unfold State.failWaiter
  split
  · unfold State.player
    rw [faultSlot_players]
    exact leaveWaiting_player s j _ n
  · rfl

/-- A slot that does not wait has no entry to lose. -/
theorem State.Membership.failWaiter {s : State} (m : s.Membership) (j : Slot) : (s.failWaiter j).Membership := by
  unfold State.failWaiter
  split
  · rename_i waiting
    exact (m.leaveWaiting waiting _).faultSlot _ _
  · rename_i other
    have absent : ∀ e ∈ s.queue, (e.slot != j) = true := by
      rintro e mem
      rw [bne_iff_ne]
      rintro rfl
      obtain ⟨ann, filler, waiting⟩ := (m.waiting e.slot e.program).mp ⟨e, mem, rfl, rfl⟩
      exact other _ _ _ waiting
    exact SeatsStand.membership (.of_banks (List.filter_eq_self.mpr absent) rfl rfl) m

theorem State.Membership.bindingFailed {s : State} (m : s.Membership) {n : PlayerIx} (p : Program)
    (h : (s.player n).state ≠ .running) : (s.bindingFailed n p).Membership := by
  have failed : ∀ (l : List Slot) (t : State), t.Membership → (l.foldl State.failWaiter t).Membership := by
    intro l
    induction l with
    | nil => exact fun _ => id
    | cons j l ih => exact fun t k => ih _ (k.failWaiter j)
  rw [bindingFailed_eq]
  refine (failed _ _ (m.freePlayer h)).allocate ?_
  rw [foldl_kept (fun t => t.player n) State.failWaiter (fun t j => failWaiter_player t j n)]
  simp [State.freePlayer, Player.reset]

theorem State.Membership.bindingDone {s : State} (m : s.Membership) (n : PlayerIx) (p : Program)
    (g : Option Generation) (fresh : Bool) (ws : List Word) : (s.bindingDone n p g fresh ws).Membership := by
  unfold State.bindingDone
  split
  · rename_i matching
    have priming : (s.player n).state ≠ .running := by rw [matching.2.1]; decide
    split
    · exact m.bindingFailed p priming
    · split
      · have taken := (seatsStand_modifyPlayer s n
          (fun pl => { pl with fresh := some true, copy := some (playerCopyOf ws) }) rfl rfl).membership m
        exact ((seatsStand_startWalker _ n).membership taken).primed n
      · exact m.releasePlayer priming
  · exact m

theorem State.Membership.stepDone {s : State} (m : s.Membership) (n : PlayerIx) (g : Option Generation)
    (ws : List Word) : (s.stepDone n g ws).Membership := by
  unfold State.stepDone
  split
  · split
    · exact (((seatsStand_modifyWalker s n _).trans (seatsStand_advanceWalker _ n)).membership m).primed n
    · exact m
  · exact m

theorem State.Membership.fillDone {s : State} (m : s.Membership) (n : PlayerIx) (h : HalfName) (g : Option Generation)
    (ws : List Word) : (s.fillDone n h g ws).Membership := by
  unfold State.fillDone
  split
  · split
    · exact ((seatsStand_modifyPlayer s n _ (Player.setHalf_listeners ..)
        (Player.setHalf_state ..)).membership m).primed n
    · exact m
  · exact m

theorem State.Membership.stalePlayer {s : State} (m : s.Membership) (p : Program) (n : PlayerIx) :
    (s.stalePlayer p n).Membership := by
  unfold State.stalePlayer
  dsimp only
  split
  · split
    · rename_i priming
      exact m.releasePlayer (by rw [priming]; decide)
    · exact SeatsStand.membership (seatsStand_setPlayer s n
        { s.player n with fresh := some false, framesLeft := 0, windowOpen := false } rfl rfl) m
    · exact m
  · exact m

/-! ### Every step -/

theorem Serving.membership {s t : State} (h : Serving s t) (m : s.Membership) : t.Membership := by
  have still : t.queue = s.queue → t.players = s.players → t.slots = s.slots → t.Membership :=
    fun queue players slots => (SeatsStand.of_banks queue players slots).membership m
  cases h with
  | connection j d b _ => exact m.connectionTaken j d b
  | adoption j d _ => exact m.adoptionChecked j d
  | staleGenerators p _ =>
    obtain ⟨slots, players, queue, -⟩ := staleGenerators_frame s p
    exact still queue players slots
  | stalePlayer p n _ => exact m.stalePlayer p n
  | attach j p g b ws => exact m.attachDone j p g b ws
  | filler j f g b ws => exact (seatsStand_fillerDone s j f g b ws).membership m
  | binding n p g b ws => exact m.bindingDone n p g b ws
  | step n g ws => exact m.stepDone n g ws
  | fill n h g ws => exact m.fillDone n h g ws
  | tones | cadence => exact still rfl rfl rfl
  | player n _ => exact m.markPlayer n
  | dwell j => exact m.takeDwell j
  | timeout => exact m.takeTimeout
  | window n => exact (seatsStand_closeWindow s n).membership m

/-- The entry to RUN leaves the contexts, the queue and the players (R21). -/
theorem seatsStand_enterRun (s : State) : SeatsStand s s.enterRun := by
  have timing := timingStands_enterRun s
  refine .of_banks timing.queue timing.players ?_
  unfold State.enterRun
  split
  · rfl
  · dsimp only
    rw [State.deviceOutcome, takeOutcome_slots]
    have bound : ∀ (t : State) c x, (t.bindCongestion c x).slots = t.slots := fun t c x => by cases x <;> rfl
    rw [bound]
    split <;> rfl

/-- A reload leaves nobody served, or in BOOT moves no slot (R23, R24). -/
theorem State.Membership.reload {s : State} (m : s.Membership) : s.reload.Membership := by
  obtain ⟨a, frame⟩ := reload_frame s
  rw [frame]
  by_cases boot : s.boot.device = .boot
  · have stands : s.quieted = s := if_pos boot
    refine SeatsStand.membership (.of_banks ?_ ?_ ?_) m <;> simp [State.stopped, stands]
  · have reset : s.quieted = s.resetServing := if_neg boot
    have quiet := (servesNobody_resetServing s).membership
    refine SeatsStand.membership (.of_banks ?_ ?_ ?_) quiet <;> simp [State.stopped, reset]

theorem seatsStand_refetchDone (s : State) (c : Program) (g : Option Generation) (ws : List Word) :
    SeatsStand s (s.refetchDone c g ws) := by
  have timing := timingStands_refetchDone s c g ws
  refine .of_banks timing.queue timing.players ?_
  unfold State.refetchDone
  split
  · dsimp only
    split
    · rfl
    · rw [State.deviceOutcome, takeOutcome_slots]
      rfl
  · rfl

/-- Every change of the part keeps slots in their places. -/
theorem Change.membership {s t : State} (c : Change s t) (m : s.Membership) : t.Membership := by
  have done : SeatsStand s s.delivered := .of_banks rfl rfl rfl
  have still : t.queue = s.queue → t.players = s.players → t.slots = s.slots → t.Membership :=
    fun queue players slots => (SeatsStand.of_banks queue players slots).membership m
  cases c with
  | serving h => exact h.membership m
  | pending | bus | pairing | fm | startRefetch | start | underWay | delivered | loading | bypass =>
    exact still rfl rfl rfl
  | device o _ => exact (seatsStand_takeOutcome s o).membership m
  | refetch c g ws => exact (seatsStand_refetchDone s c g ws).membership m
  | choose => exact still (choose_queue s) (choose_players s) (choose_slots s)
  | report r src _ _ => exact (done.trans (banksStand_reportDone _ src).seatsStand).membership m
  | record r ws _ _ => exact (done.trans (banksStand_recordRead _ r.gen ws).seatsStand).membership m
  | congestion r ws _ _ => exact (done.trans (banksStand_congestionFetched _ r.gen ws).seatsStand).membership m
  | cleared r n _ _ => exact (done.trans (banksStand_recordCleared _ n).seatsStand).membership m
  | run r _ _ => exact (done.trans (seatsStand_enterRun _)).membership m
  | consumer d b _ _ => exact (banksStand_consumerTaken s d b).seatsStand.membership m
  | reload => exact m.reload
  | reset b => exact (servesNobody_released b _).membership

/-- Settles O55: each of the changes that make up a step keeps the agreement. -/
theorem membershipKept : Obligations.MembershipKept := fun s t m h =>
  step_keeps (fun _ _ => Change.membership) s t h m

end Sys2Proof.Machine

namespace Sys2Proof.Machine

/-! ### A detach reads of its own slot alone the state (R77) -/

/-- The part with other store bus outputs and other contexts. -/
def State.recast (s : State) (b : Bus) (v : Vector SlotContext 256) : State := (s.withBus b).withSlots v

theorem releaseGenerator_recast (s : State) (b : Bus) (v : Vector SlotContext 256) (g : GenIx) :
    (s.recast b v).releaseGenerator g = (s.releaseGenerator g).recast b v := by
  rw [releaseGenerator_eq, releaseGenerator_eq]
  rfl

theorem leaveWaiting_recast (s : State) (b : Bus) (v : Vector SlotContext 256) (j : Slot) (filler : Option GenIx) :
    (s.recast b v).leaveWaiting j filler = (s.leaveWaiting j filler).recast b v := by
  cases filler with
  | none => rfl
  | some g => exact releaseGenerator_recast (s.leaveQueue j) b v g

theorem releasePlayer_recast (s : State) (b : Bus) (v : Vector SlotContext 256) (n : PlayerIx) :
    (s.recast b v).releasePlayer n = (s.releasePlayer n).recast b v := by
  have free : (s.recast b v).freePlayer n = (s.freePlayer n).recast b v := rfl
  have entries : ∀ u : State, (u.recast b v).queue.filter (u.recast b v).eligible = u.queue.filter u.eligible :=
    fun _ => rfl
  unfold State.releasePlayer State.allocate
  rw [free, entries]
  cases firstHighest ((s.freePlayer n).queue.filter (s.freePlayer n).eligible) <;> rfl

theorem leavePlayer_recast (s : State) (b : Bus) (v : Vector SlotContext 256) (n : PlayerIx) (j : Slot) :
    (s.recast b v).leavePlayer n j = (s.leavePlayer n j).recast b v := by
  by_cases h : (s.player n).listeners.filter (fun i => i != j) = []
  · rw [leavePlayer_none s n j h, leavePlayer_none (s.recast b v) n j h]
    exact releasePlayer_recast (s.unlisten n j) b v n
  · rw [leavePlayer_some s n j h, leavePlayer_some (s.recast b v) n j h]
    rfl

theorem detach_recast (s : State) (b : Bus) (v : Vector SlotContext 256) (j : Slot)
    (same : ((s.recast b v).slot j).state = (s.slot j).state) :
    (s.recast b v).detach j = (s.detach j).recast b v := by
  cases h : (s.slot j).state with
  | idle | attaching | fault => rw [detach_nothing s j (by simp [h]), detach_nothing _ j (by simp [same, h])]
  | tone p g d =>
    rw [detach_tone s j p g d h, detach_tone _ j p g d (same.trans h), releaseGenerator_recast]
  | overflow p => rw [detach_overflow s j p h, detach_overflow _ j p (same.trans h), releaseGenerator_recast]
  | waiting p ann filler =>
    rw [detach_waiting s j p ann filler h, detach_waiting _ j p ann filler (same.trans h), leaveWaiting_recast]
  | playing p ann n r mark =>
    rw [detach_playing s j p ann n r mark h, detach_playing _ j p ann n r mark (same.trans h), leavePlayer_recast]

/-! ### A detach leaves the report writes (R163) -/

theorem reportWrites_of_mra {s t : State} (h : t.mra = s.mra) : t.reportWrites = s.reportWrites := by
  unfold State.reportWrites State.requestsHeld
  rw [h]

theorem enqueue_reportWrites (s : State) (r : OwnRequest) (h : r.kind.isReport = false) :
    (s.enqueue r).reportWrites = s.reportWrites := by
  simp [State.reportWrites, State.requestsHeld, State.enqueue, h]

theorem releasePlayer_reportWrites (s : State) (n : PlayerIx) : (s.releasePlayer n).reportWrites = s.reportWrites := by
  have withdrawn : ∀ t : State, (t.withdraw (readOfPlayer n)).reportWrites = t.reportWrites := fun t =>
    withdraw_reportWrites t _ (readOfPlayer_isServing n)
  have bound : ∀ (t : State) p, (t.bindPlayer n p).reportWrites = t.reportWrites := fun t p =>
    (enqueue_reportWrites _ _ rfl).trans (withdrawn t)
  rcases allocate_cases (s.freePlayer n) n with e | ⟨entry, -, -, e⟩ <;> rw [State.releasePlayer, e]
  · exact withdrawn s
  · exact (bound _ _).trans (withdrawn s)

theorem detach_reportWrites (s : State) (j : Slot) : (s.detach j).reportWrites = s.reportWrites := by
  cases h : (s.slot j).state with
  | idle | attaching | fault => rw [detach_nothing s j (by simp [h])]
  | tone p g d => rw [detach_tone s j p g d h]; exact reportWrites_of_mra (releaseGenerator_mra s g)
  | overflow p => rw [detach_overflow s j p h]; exact reportWrites_of_mra (releaseGenerator_mra s _)
  | waiting p ann filler =>
    rw [detach_waiting s j p ann filler h]
    exact reportWrites_of_mra (releaseFiller_mra (s.leaveQueue j) filler)
  | playing p ann n r mark =>
    rw [detach_playing s j p ann n r mark h]
    by_cases none : (s.player n).listeners.filter (fun i => i != j) = []
    · rw [leavePlayer_none s n j none]
      exact releasePlayer_reportWrites (s.unlisten n j) n
    · rw [leavePlayer_some s n j none]
      rfl

/-! ### Entries and attaches (R62, R73, R78) -/

/-- A slot that enters a state has no read left that waits. -/
theorem enter_unread (s : State) (j : Slot) (st : SlotState) (q : OwnRequest) (waits : (s.enter j st).Waiting q) :
    q.kind.slot? ≠ some j := by
  have kept := ((withdraw_waiting_iff s (readOfSlot j) q).mp waits).2
  unfold readOfSlot at kept
  exact fun own => by simp [own] at kept

/-- What the taking of an outcome leaves waiting: what waited, and a report write. -/
theorem takeOutcome_waits (s : State) (o : Outcome) (q : OwnRequest) (waits : (s.takeOutcome o).Waiting q) :
    s.Waiting q ∨ q.kind = .reportWrite o.source := by
  unfold State.takeOutcome at waits
  split at waits
  · exact .inl waits
  · split at waits
    · exact .inl waits
    · rcases (enqueue_waiting_iff _ _ _).mp waits with earlier | rfl
      · exact .inl earlier
      · exact .inr rfl

theorem attach_gen (s : State) (j : Slot) (p : Program) : ((s.attach j p).slot j).gen =
    nextGeneration (s.slot j).gen (s.underWayGen (readOfSlot j)) := by
  rw [attach_slot, enter_slot, if_pos rfl]

/-- The reads of an attached slot that wait carry its new generation. -/
theorem attach_reads (s : State) (j : Slot) (p : Program) (q : OwnRequest) (waits : (s.attach j p).Waiting q)
    (own : q.kind.slot? = some j) : q.gen = some ((s.attach j p).slot j).gen := by
  rcases Nat.lt_or_ge p.val s.limit with below | beyond
  · rw [attach_below s j p below] at waits ⊢
    rcases (enqueue_waiting_iff _ _ _).mp waits with earlier | rfl
    · exact absurd own (enter_unread s j _ q earlier)
    · rfl
  · rw [attach_beyond s j p beyond] at waits
    rcases takeOutcome_waits _ _ q waits with earlier | report
    · exact absurd own (enter_unread s j _ q earlier)
    · rw [report] at own
      cases own

/-- A slot enters a state with a record, at an event that has queued no record before (R163). -/
theorem enter_slotOutcome_reported (s d : State) (boot : d.boot = s.boot) (fm : d.fm = s.fm) (rrw : d.rrw = s.rrw)
    (reports : d.reportsHeld = s.reportsHeld) (j : Slot) (st : SlotState) (kind : ReportKind) (p : Program)
    (detail : Word) : Reported s ((d.enter j st).slotOutcome j kind p detail) (slotRecord s j kind p detail) := by
  have entered := reportsHeld_of_reportWrites (enter_reportWrites d j st)
  have same : slotRecord s j kind p detail = slotRecord (d.enter j st) j kind p detail := by
    unfold slotRecord
    rw [enter_fm, fm]
  rw [same]
  exact (takeOutcome_reported _ _).before boot rrw (entered.trans reports)

/-! ### Slot requests (R75) -/

/-- `d` is `s` after the detach of slot j, with w merged into its shadow. -/
structure DetachedWith (s d : State) (j : Slot) (w : Word) : Prop where
  slot : d.slot j = { s.slot j with shadow := w }
  others : ∀ i, i ≠ j → d.slot i = s.slot i
  gens : d.gens = (s.detach j).gens
  players : d.players = (s.detach j).players
  queue : d.queue = (s.detach j).queue
  boot : d.boot = s.boot
  fm : d.fm = s.fm
  rrw : d.rrw = s.rrw
  underWay : d.mra.underWay = s.mra.underWay
  reports : d.reportsHeld = s.reportsHeld

theorem detachedWith_recast (s : State) (b : Bus) (j : Slot) (w : Word) :
    DetachedWith s (((s.withBus b).setShadow j w).detach j) j w := by
  have recast : (s.withBus b).setShadow j w = s.recast b (s.slots.set j.val { s.slot j with shadow := w }) := rfl
  have moves := moves_detach s j
  have slot : ∀ i, ((s.detach j).recast b (s.slots.set j.val { s.slot j with shadow := w })).slot i =
      (s.setSlot j { s.slot j with shadow := w }).slot i := fun _ => rfl
  rw [recast, detach_recast s b _ j (by rw [← recast, State.setShadow, State.setSlot_slot_same]; rfl)]
  exact {
    slot := (slot j).trans (State.setSlot_slot_same ..)
    others := fun i other => (slot i).trans (State.setSlot_slot_ne _ _ _ _ other)
    gens := rfl
    players := rfl
    queue := rfl
    boot := moves.servingOnly.boot
    fm := moves.servingOnly.fm
    rrw := (detach_frame s j).2
    underWay := moves.underWay
    reports := reportsHeld_of_reportWrites (detach_reportWrites s j) }

theorem DetachedWith.underWayGen {s d : State} {j : Slot} {w : Word} (h : DetachedWith s d j w) (f : OwnKind → Bool) :
    d.underWayGen f = s.underWayGen f := by
  unfold State.underWayGen
  rw [h.underWay]

theorem DetachedWith.limit {s d : State} {j : Slot} {w : Word} (h : DetachedWith s d j w) : d.limit = s.limit := by
  unfold State.limit
  rw [h.boot]

theorem DetachedWith.programBase {s d : State} {j : Slot} {w : Word} (h : DetachedWith s d j w) :
    d.programBase = s.programBase := by
  unfold State.programBase
  rw [h.boot]

/-- The requested program's attach begins on the detached slot. -/
theorem DetachedWith.attach {s d : State} {j : Slot} {w : Word} (h : DetachedWith s d j w) (p : Program)
    (asked : requestedProgram w = some p) : SlotRequestTaken s (d.attach j p) j w where
  shadow := by rw [attach_slot, (enter_state _ _ _).2, h.slot]
  others i other := by rw [attach_slot, enter_slot, if_neg other, h.others i other]
  gens := (attach_gens d j p).trans h.gens
  players := (attach_players d j p).trans h.players
  queue := (attach_queue d j p).trans h.queue
  generation _ := ⟨by rw [attach_gen, h.slot, h.underWayGen], attach_reads d j p⟩
  attach q same below := by
    obtain rfl : p = q := Option.some.inj (asked.symm.trans same)
    rw [attach_below d j p (by rwa [h.limit])]
    refine ⟨(enter_state _ _ _).1, h.rrw, _, (enqueue_waiting_iff _ _ _).mpr (.inr rfl), rfl, rfl, rfl, rfl, ?_⟩
    rw [← h.programBase]
    rfl
  range q same beyond := by
    obtain rfl : p = q := Option.some.inj (asked.symm.trans same)
    rw [attach_beyond d j p (by rwa [h.limit])]
    exact ⟨by rw [State.faultSlot, slotOutcome_slot, (enter_state _ _ _).1],
      enter_slotOutcome_reported s d h.boot h.fm h.rrw h.reports j (.fault p) .slotFault p 1⟩
  detach none := by rw [asked] at none; cases none
  idle none := by rw [asked] at none; cases none

/-- With no program asked for the slot goes IDLE. -/
theorem DetachedWith.enterIdle {s d : State} {j : Slot} {w : Word} (h : DetachedWith s d j w)
    (none : requestedProgram w = none) (busy : (s.slot j).state ≠ .idle) : SlotRequestTaken s (d.enter j .idle) j w where
  shadow := by rw [(enter_state _ _ _).2, h.slot]
  others i other := by rw [enter_slot, if_neg other, h.others i other]
  gens := h.gens
  players := h.players
  queue := h.queue
  generation _ := ⟨by rw [enter_slot, if_pos rfl, h.slot, h.underWayGen],
    fun q waits own => absurd own (enter_unread d j _ q waits)⟩
  attach p asked := by rw [none] at asked; cases asked
  range p asked := by rw [none] at asked; cases asked
  detach _ := ⟨(enter_state _ _ _).1, h.rrw⟩
  idle _ idle := absurd idle busy

/-- An IDLE slot that asks for no program stays as it is. -/
theorem DetachedWith.stayIdle {s d : State} {j : Slot} {w : Word} (h : DetachedWith s d j w)
    (none : requestedProgram w = none) (idle : (s.slot j).state = .idle) : SlotRequestTaken s d j w where
  shadow := by rw [h.slot]
  others := h.others
  gens := h.gens
  players := h.players
  queue := h.queue
  generation moved := by rcases moved with asked | busy <;> contradiction
  attach p asked := by rw [none] at asked; cases asked
  range p asked := by rw [none] at asked; cases asked
  detach _ := ⟨by rw [h.slot]; exact idle, h.rrw⟩
  idle _ _ := by rw [h.slot]

/-- A slot request with merged word w is taken, whatever the store bus shows. -/
theorem slotRequest_taken (s : State) (b : Bus) (j : Slot) (w : Word) :
    SlotRequestTaken s (((s.withBus b).setShadow j w).slotRequest j) j w := by
  have h := detachedWith_recast s b j w
  have slot : ((s.withBus b).setShadow j w).slot j = { s.slot j with shadow := w } := State.setSlot_slot_same ..
  unfold State.slotRequest
  rw [slot]
  cases asked : requestedProgram w with
  | some p => exact h.attach p asked
  | none =>
    simp only
    split
    · rename_i idle
      have still : ((s.withBus b).setShadow j w).detach j = (s.withBus b).setShadow j w :=
        detach_nothing _ j (.inl (by rw [slot]; exact idle))
      rw [still] at h
      exact h.stayIdle asked idle
    · rename_i busy
      exact h.enterIdle asked busy

theorem SlotRequestTaken.finish {s t : State} {j : Slot} {w : Word} (h : SlotRequestTaken s t j w) :
    SlotRequestTaken s t.finish j w where
  shadow := by rw [finish_slot]; exact h.shadow
  others i other := (finish_slot t i).trans (h.others i other)
  gens := (finish_gens t).trans h.gens
  players := (finish_players t).trans h.players
  queue := (finish_queue t).trans h.queue
  generation := by simpa only [finish_slot, finish_waiting] using h.generation
  attach := by simpa only [finish_slot, finish_waiting, finish_rrw] using h.attach
  range p asked beyond := by
    rw [finish_slot]
    exact (h.range p asked beyond).imp_right Reported.finish
  detach := by simpa only [finish_slot, finish_rrw] using h.detach
  idle := by simpa only [finish_slot] using h.idle

/-! ### Connection stores (R4, R74) -/

theorem lowByte_wordOf (high low : Byte) : lowByte (wordOf high low) = low := by
  unfold lowByte wordOf
  exact BitVec.extractLsb'_append_eq_right

theorem highByte_wordOf (high low : Byte) : highByte (wordOf high low) = high := by
  unfold highByte wordOf
  exact BitVec.extractLsb'_append_eq_left

/-- A store that lies in a connection entry and in no other watched range is taken by the Slot Context Table, once,
wherever its turn comes (R4; log 10). -/
theorem takeStores_connection (s : State) (q : Request) (data : Word) (j : Slot)
    (entry : s.connectionEntry q.addr = some j) (program : s.programAt q.addr = none)
    (consumer : s.isConsumerWord q.addr = false) (l : List StoreTaker) (once : l.count .connection = 1) :
    l.foldl (State.takeStore q data) s = s.connectionTaken j data q.strobes := by
  have untaken : ∀ (l : List StoreTaker) (t : State), l.count .connection = 0 → t.boot = s.boot →
      l.foldl (State.takeStore q data) t = t := fun l t none boot => by
    have outside : t.programAt q.addr = .none := by
      rw [← program]
      unfold State.programAt State.ranges
      rw [boot]
    have other : t.isConsumerWord q.addr = false := by
      rw [← consumer]
      unfold State.isConsumerWord
      rw [boot]
    refine foldl_still _ t l fun x hx => ?_
    unfold State.takeStore
    cases x with
    | connection => exact absurd hx (List.count_eq_zero.mp none)
    | program => simp only [outside]
    | consumer => simp only [other, Bool.false_eq_true, if_false]
  have taken : State.takeStore q data s .connection = s.connectionTaken j data q.strobes := by
    unfold State.takeStore
    simp only [entry]
  obtain ⟨before, after, rfl⟩ := List.append_of_mem (List.count_pos_iff.mp (by omega : 0 < l.count .connection))
  rw [List.count_append, List.count_cons_self] at once
  rw [List.foldl_append, List.foldl_cons, untaken before s (by omega) rfl, taken]
  exact untaken after _ (by omega) (moves_connectionTaken s j data q.strobes).servingOnly.boot

/-- A slot request at the end of a passing request: the ending has gone up, and the device's own blocks stand. -/
theorem slotRequest_ended (s : State) (m : Master) (e : Ending) (j : Slot) (w : Word) :
    let t := (((s.freePort.endTo m e).setShadow j w).slotRequest j).finish
    Ended s t m e ∧ ControlUnchanged s t ∧ t.refetch = s.refetch ∧ SlotRequestTaken s t j w := by
  have moves : Moves (s.freePort.endTo m e) (((s.freePort.endTo m e).setShadow j w).slotRequest j) :=
    (moves_setShadow _ j w).trans (moves_slotRequest _ j)
  have kept := moves.servingOnly
  rw [endTo_frame] at kept ⊢
  refine ⟨ended_finish ?_, ControlUnchanged.finish ⟨kept.pending, kept.pairing, kept.boot, kept.fm⟩,
    (finish_refetch _).trans kept.refetch, (slotRequest_taken s _ j w).finish⟩
  exact kept.bus

/-- Whichever command brings it, memory's acceptance of a store into connection entry j ends the store and is a slot
request with the merged word. -/
theorem exec_connection_store {s : State} {q : Request} {data : Word} {c : Instr} {j : Slot} (hc : IsAcceptance c)
    (settled : s.Settled) (port : s.StoreOnPort q data) (entry : s.connectionEntry q.addr = some j)
    (program : s.programAt q.addr = none) (consumer : s.isConsumerWord q.addr = false)
    (command : s.isCommandWord q.addr = false) : exec c s = .next (((s.freePort.endTo q.master .stored).setShadow j
      (mergeBytes (s.slot j).shadow data q.strobes)).slotRequest j).finish := by
  obtain ⟨l, accepts, order⟩ := acceptance_eq s q data c hc settled port
  obtain ⟨b, ended⟩ : ∃ b, s.freePort.endTo q.master .stored = s.withBus b := ⟨_, endTo_frame _ _ _⟩
  have other : ¬ (s.withBus b).isCommandWord q.addr = true := fun h => Bool.false_ne_true (command.symm.trans h)
  have taken := takeStores_connection (s.withBus b) q data j entry program consumer l
    ((order.count_eq .connection).trans (by decide))
  unfold State.storeAccepted at accepts
  dsimp only at accepts
  rw [ended, if_neg other, taken] at accepts
  rw [accepts, ended]
  rfl

/-! ### How a generation advances (R67, R73, R107) -/

theorem nextGeneration_of_next (g : Generation) (u : Option Generation) (h : u = some (g + 1)) :
    nextGeneration g u = g + 2 := if_pos h

theorem nextGeneration_of_other (g : Generation) (u : Option Generation) (h : u ≠ some (g + 1)) :
    nextGeneration g u = g + 1 := if_neg h

theorem underWayGen_eq_some_iff (s : State) (f : OwnKind → Bool) (g : Generation) :
    s.underWayGen f = some g ↔ ∃ r, s.mra.underWay = some r ∧ f r.kind = true ∧ r.gen = some g := by
  unfold State.underWayGen
  cases s.mra.underWay with
  | none => simp
  | some r => simp

theorem readOfSlot_iff (j : Slot) (k : OwnKind) :
    readOfSlot j k = true ↔ ∃ p, k = .attachFetch j p ∨ k = .fillerFetch j p := by
  cases k <;> simp [readOfSlot, OwnKind.slot?]

theorem readOfPlayer_iff (n : PlayerIx) (k : OwnKind) :
    readOfPlayer n k = true ↔ (∃ p, k = .bindingFetch n p) ∨ k = .stepFetch n ∨ ∃ h, k = .fill n h := by
  cases k <;> simp [readOfPlayer, OwnKind.player?]

theorem isRefetch_iff (k : OwnKind) : k.isRefetch = true ↔ ∃ p, k = .refetch p := by
  cases k <;> simp [OwnKind.isRefetch]

/-- Settles O13: the store is a slot request with the merged word; the generations by the read under way. -/
theorem connectionStoreTaken : Obligations.ConnectionStoreTaken := by
  refine ⟨fun s q data c j hc settled port entry program consumer command => ?_, fun s f g => ⟨fun carried => ?_,
    fun other => ?_⟩, fun k => ⟨fun j => readOfSlot_iff j k, fun n => readOfPlayer_iff n k, isRefetch_iff k⟩⟩
  · obtain ⟨ended, control, refetch, taken⟩ := slotRequest_ended s q.master .stored j
      (mergeBytes (s.slot j).shadow data q.strobes)
    exact ⟨_, _, exec_connection_store hc settled port entry program consumer command, ended, control, refetch,
      lowByte_wordOf _ _, highByte_wordOf _ _, taken⟩
  · exact nextGeneration_of_next g _ ((underWayGen_eq_some_iff s f _).mpr carried)
  · refine nextGeneration_of_other g _ fun e => ?_
    obtain ⟨r, underWay, kind, gen⟩ := (underWayGen_eq_some_iff s f _).mp e
    exact other r underWay kind gen

/-! ### Connection words, the consumer word and speech words (R172) -/

theorem isActive_iff (w : Word) : isActive w = true ↔ 32768 ≤ w.toNat := by
  have := w.isLt
  unfold isActive
  rw [BitVec.getLsbD, Nat.testBit_eq_decide_div_mod_eq]
  simp
  omega

theorem sourceOf_eq (w : Word) : sourceOf w = w.toNat % 512 := by
  simp [sourceOf, BitVec.extractLsb'_toNat]

theorem requestedProgram_iff (w : Word) (p : Program) :
    requestedProgram w = some p ↔ 32768 ≤ w.toNat ∧ w.toNat % 512 = 256 + p.val := by
  have source : w.getLsbD 8 = true ↔ 256 ≤ w.toNat % 512 := by
    rw [BitVec.getLsbD, Nat.testBit_eq_decide_div_mod_eq]
    simp
    omega
  have low := lowByte_toNat w
  have := p.isLt
  unfold requestedProgram programOf
  by_cases h : isActive w = true ∧ w.getLsbD 8 = true
  · rw [if_pos (by simp [h]), Option.some.injEq, Fin.ext_iff]
    rw [isActive_iff, source] at h
    dsimp only
    omega
  · rw [if_neg (by simpa using h)]
    rw [isActive_iff, source] at h
    refine iff_of_false nofun ?_
    omega

/-- Settles O14: an answer that differs is a slot request with the answer as its word. -/
theorem adoptionTaken : Obligations.AdoptionTaken := by
  refine ⟨fun s q data c j hc settled port dir engine entry differs => ?_, fun w => ⟨isActive_iff w, sourceOf_eq w,
    requestedProgram_iff w, ?_, lowByte_toNat w, highByte_toNat w⟩, speechWord_toNat⟩
  · have answered : s.readAnswered q data =
        (((s.freePort.endTo .engine (.answer data)).setShadow j data).slotRequest j).finish := by
      have differ : ¬ sameConnection data (s.slot j).shadow = true := by
        rw [sameConnection_iff]
        tauto
      unfold State.readAnswered
      dsimp only
      have watched : (s.freePort.endTo q.master (.answer data)).connectionEntry q.addr = some j := by
        rw [endTo_frame]
        exact entry
      rw [watched, engine]
      exact congrArg State.finish (if_neg differ)
    exact ⟨_, (exec_read_ends s q data c hc settled port dir).trans (congrArg _ answered),
      slotRequest_ended s .engine (.answer data) j data⟩
  · simp [requestedIndex, BitVec.extractLsb'_toNat]

end Sys2Proof.Machine

namespace Sys2Proof.Machine

/-! ### A slot's descriptor fetch completes (R73, R79 to R81) -/

theorem exec_attachFetchComplete {s : State} {r : OwnRequest} {data : Word} {j : Slot} {p : Program} (h : s.Settled)
    (last : s.LastWordOf r) (kind : r.kind = .attachFetch j p) : exec (.attachFetchComplete data) s =
      .next (s.delivered.attachDone j p r.gen (!r.overtaken) (r.advance data).answer).finish :=
  congrArg Host.Outcome.next (takeEnds_complete h last
    (by simp only [OwnRequest.advance_kind, OwnRequest.advance_gen, OwnRequest.advance_overtaken, kind]))

theorem attachDone_discarded (s : State) (j : Slot) (p : Program) (g : Option Generation) (fresh : Bool)
    (ws : List Word) (h : g ≠ some (s.slot j).gen) : s.attachDone j p g fresh ws = s :=
  if_neg fun matching => h matching.1

theorem attachDone_faulted (s : State) (j : Slot) (p : Program) (g : Option Generation) (fresh : Bool)
    (ws : List Word) (cause : Cause) (gen : g = some (s.slot j).gen) (state : (s.slot j).state = .attaching p)
    (check : checkCopy (some (highwayOf j)) ws = some cause) :
    s.attachDone j p g fresh ws = s.faultSlot j p cause := by
  unfold State.attachDone
  rw [if_pos ⟨gen, state⟩, check]

theorem attachDone_tone (s : State) (j : Slot) (p : Program) (g : Option Generation) (fresh : Bool)
    (ws : List Word) (gen : g = some (s.slot j).gen) (state : (s.slot j).state = .attaching p)
    (check : checkCopy (some (highwayOf j)) ws = none) (tone : isTone ws = true) :
    s.attachDone j p g fresh ws = s.placeTone j p fresh ws := by
  unfold State.attachDone
  rw [if_pos ⟨gen, state⟩, check]
  exact if_pos tone

/-- The completion of a slot's fetch takes no record out of the queue. -/
theorem delivered_reportsHeld {s : State} {r : OwnRequest} (last : s.LastWordOf r) (h : r.kind.isReport = false) :
    s.delivered.reportsHeld = s.reportsHeld := reportsHeld_of_reportWrites (delivered_reportWrites last h)

/-- Settles O32: the answer is discarded, or the slot faults. -/
theorem attachFetchChecked : Obligations.AttachFetchChecked := by
  intro s r data j p settled last kind
  refine ⟨_, _, exec_attachFetchComplete settled last kind, rfl, completed_moves s _ (moves_attachDone _ _ _ _ _ _),
    fun other => ?_, fun cause gen state check => ?_⟩
  · rw [attachDone_discarded s.delivered j p r.gen _ _ other]
    exact discarded_delivered s
  · rw [attachDone_faulted s.delivered j p r.gen _ _ cause gen state check]
    have entered : ∀ i, (s.delivered.faultSlot j p cause).finish.slot i = (s.delivered.enter j (.fault p)).slot i :=
      fun i => (finish_slot _ i).trans (slotOutcome_slot _ _ _ _ _ _)
    refine ⟨(entered j).trans (enter_slot_same _ _ _ rfl), fun i other => (entered i).trans ?_,
      (finish_gens _).trans (faultSlot_gens _ _ _ _), (finish_refetch _).trans (faultSlot_refetch _ _ _ _),
      (finish_players _).trans (faultSlot_players _ _ _ _), (finish_queue _).trans (faultSlot_queue _ _ _ _),
      (finish_boot _).trans (moves_faultSlot _ _ _ _).servingOnly.boot, Reported.finish ?_⟩
    · rw [enter_slot, if_neg other, delivered_slot]
    · exact enter_slotOutcome_reported s s.delivered rfl rfl rfl (delivered_reportsHeld last (by rw [kind]; rfl)) j
        (.fault p) .slotFault p (causeCode cause)

/-! ### Tones are placed (R80, R94) -/

theorem placeTone_fresh (s : State) (j : Slot) (p : Program) (fresh : Bool) (ws : List Word) (g : GenIx)
    (h : s.freshGenerator p = some g) : s.placeTone j p fresh ws =
      (s.joinGenerator g).enter j (.tone p g (dwellArmed s.frame (dwellOf ws) (nextProgramOf ws))) := by
  unfold State.placeTone
  rw [h]

theorem placeTone_free (s : State) (j : Slot) (p : Program) (fresh : Bool) (ws : List Word) (g : GenIx)
    (h : s.freshGenerator p = none) (free : s.freeGenerator = some g) : s.placeTone j p fresh ws =
      (s.bindGenerator g p (toneCopyOf ws) fresh 1).enter j
        (.tone p g (dwellArmed s.frame (dwellOf ws) (nextProgramOf ws))) := by
  unfold State.placeTone
  rw [h, free]

theorem placeTone_none (s : State) (j : Slot) (p : Program) (fresh : Bool) (ws : List Word)
    (h : s.freshGenerator p = none) (free : s.freeGenerator = none) :
    s.placeTone j p fresh ws = s.overflowSlot j p .noGenerator 0 := by
  unfold State.placeTone
  rw [h, free]

/-- Wherever the slot is placed, the other contexts, the players and the queue stand. -/
theorem placeTone_frame (s : State) (j : Slot) (p : Program) (fresh : Bool) (ws : List Word) :
    (∀ i, i ≠ j → (s.placeTone j p fresh ws).slot i = s.slot i) ∧ (s.placeTone j p fresh ws).players = s.players ∧
      (s.placeTone j p fresh ws).queue = s.queue := by
  have others : ∀ (t : State) st i, i ≠ j → (t.enter j st).slot i = t.slot i := fun t st i other => by
    rw [enter_slot, if_neg other]
  cases bound : s.freshGenerator p with
  | some g =>
    rw [placeTone_fresh s j p fresh ws g bound]
    exact ⟨others _ _, rfl, rfl⟩
  | none =>
    cases free : s.freeGenerator with
    | some g =>
      rw [placeTone_free s j p fresh ws g bound free]
      exact ⟨others _ _, rfl, rfl⟩
    | none =>
      rw [placeTone_none s j p fresh ws bound free]
      exact ⟨fun i other => (overflowSlot_slot s i j p _ _).trans (others _ _ i other),
        slotOutcome_players _ _ _ _ _, slotOutcome_queue _ _ _ _ _⟩

/-- Settles O33: the fresh generator, or the lowest-numbered FREE one, or OVERFLOW. -/
theorem tonePlaced : Obligations.TonePlaced := by
  intro s r data j p ws dwell settled last kind gen state answer check tone one hd
  have runs := exec_attachFetchComplete (data := data) settled last kind
  rw [← answer, attachDone_tone s.delivered j p r.gen _ ws gen state check tone] at runs
  have moves := moves_placeTone s.delivered j p (!r.overtaken) ws
  have armed : dwellArmed s.delivered.frame (dwellOf ws) (nextProgramOf ws) = dwell := hd.symm
  obtain ⟨slots, players, queue⟩ := placeTone_frame s.delivered j p (!r.overtaken) ws
  refine ⟨_, runs, completed_moves s _ moves, fun i other => (finish_slot _ i).trans (slots i other),
    (finish_refetch _).trans moves.servingOnly.refetch, (finish_players _).trans players,
    (finish_queue _).trans queue, (finish_boot _).trans moves.servingOnly.boot, fun g fresh => ?_,
    fun none => ⟨fun g other free lowest => ?_, fun busy => ?_⟩⟩
  · rw [placeTone_fresh s.delivered j p _ ws g ((freshGenerator_some s.delivered p g one).mpr fresh), armed]
    simp only [finish_slot, finish_rrw, finish_generator, enter_generator, joinGenerator_generator]
    exact ⟨enter_slot_same _ _ _ rfl, rfl, if_pos trivial, fun h apart => if_neg apart⟩
  · have unbound : s.delivered.freshGenerator p = .none := (freshGenerator_none s.delivered p).mpr none
    have first : s.delivered.freeGenerator = some g :=
      (freeGenerator_some s.delivered g).mpr ⟨⟨other, free⟩, fun h below _ => lowest h below⟩
    rw [placeTone_free s.delivered j p _ ws g unbound first, armed]
    simp only [finish_slot, finish_rrw, finish_generator, enter_generator, bindGenerator_generator]
    exact ⟨enter_slot_same _ _ _ rfl, rfl, if_pos trivial, fun h apart => if_neg apart⟩
  · have unbound : s.delivered.freshGenerator p = .none := (freshGenerator_none s.delivered p).mpr none
    rw [placeTone_none s.delivered j p _ ws unbound ((freeGenerator_none s.delivered).mpr busy)]
    simp only [finish_slot, finish_generator, overflowSlot_slot, overflowSlot_generator, joinGenerator_generator]
    exact ⟨enter_slot_same _ _ _ rfl, if_pos rfl, fun h apart => if_neg apart, Reported.finish
      (enter_slotOutcome_reported s (s.delivered.joinGenerator congestionGen) rfl rfl rfl
        (delivered_reportsHeld last (by rw [kind]; rfl)) j (.overflow p) .noGenerator p 0)⟩

end Sys2Proof.Machine

namespace Sys2Proof.Machine

/-! ### Two outcomes of one source at one event (R163) -/

theorem takeOutcome_holds (s : State) (o : Outcome) (accepted : s.boot.accepted.isSome = true)
    (pend : s.isPending o.source = true) : s.takeOutcome o = s.holdOutcome o := by
  obtain ⟨rec, hr⟩ := Option.isSome_iff_exists.mp accepted
  unfold State.takeOutcome
  rw [hr]
  exact if_pos pend

theorem holdOutcome_heldOutcome (s : State) (o : Outcome) (h : o.superseded = false) :
    (s.holdOutcome o).heldOutcome o.source = some { o with superseded := (s.heldOutcome o.source).isSome } := by
  unfold State.holdOutcome State.heldOutcome
  rw [State.withRrw_rrw, ReportRing.setHeld_get, if_pos rfl]
  cases held : s.rrw.held[o.source.val].isSome <;> simp [← h]

/-- A source holds an outcome after one is taken, where it has an unconsumed record or held one before. -/
theorem takeOutcome_held_isSome (s : State) (o : Outcome) (accepted : s.boot.accepted.isSome = true) :
    ((s.takeOutcome o).heldOutcome o.source).isSome =
      (s.isPending o.source || (s.heldOutcome o.source).isSome) := by
  cases pend : s.isPending o.source with
  | true =>
    rw [takeOutcome_holds s o accepted pend]
    unfold State.holdOutcome State.heldOutcome
    rw [State.withRrw_rrw, ReportRing.setHeld_get, if_pos rfl]
    rfl
  | false =>
    obtain ⟨rec, hr⟩ := Option.isSome_iff_exists.mp accepted
    unfold State.takeOutcome
    simp only [hr, pend, Bool.false_eq_true, if_false]
    rfl

/-- The second outcome of its source is held, in the place of the first where that is held too. -/
theorem takeOutcome_again (s t : State) (o x : Outcome) (accepted : s.boot.accepted.isSome = true)
    (source : x.source = o.source) (first : x.superseded = false) (calm : Calm o.source (s.takeOutcome o) t) :
    t.takeOutcome x = t.holdOutcome x ∧ (t.takeOutcome x).heldOutcome o.source =
      some { x with superseded := s.isPending o.source || (s.heldOutcome o.source).isSome } := by
  have boot : t.boot = s.boot := calm.boot.trans (takeOutcome_boot s o)
  have pend : t.isPending x.source = true := by rw [source, calm.pend, takeOutcome_isPending s o accepted]
  have holds := takeOutcome_holds t x (by rw [boot]; exact accepted) pend
  refine ⟨holds, ?_⟩
  have held := holdOutcome_heldOutcome t x first
  have before : (t.heldOutcome x.source).isSome = (s.isPending o.source || (s.heldOutcome o.source).isSome) := by
    rw [source, calm.held, takeOutcome_held_isSome s o accepted]
  rw [holds, ← source, held, before, source]

/-- A record that was queued at once still waits when a later outcome is held. -/
theorem Reported.hold {s t : State} {o : Outcome} (h : Reported s t o) (x : Outcome)
    (free : s.isPending o.source = false) : Reported s (t.holdOutcome x) o := by
  intro rec hr
  have queued := h rec hr
  rw [if_neg (by rw [free]; decide)] at queued ⊢
  exact queued

/-! ### Dwell expiries (R88) -/

theorem takeDwell_untaken (s : State) (j : Slot) (h : ∀ q g e, (s.slot j).state = .tone q g (some e) →
    deadlinePassed s.fm.frame e.deadline = false) : s.takeDwell j = s := by
  unfold State.takeDwell
  split
  · rename_i p g d tone
    exact if_neg fun passed => Bool.false_ne_true ((h p g d tone).symm.trans passed)
  · rfl

/-- DWELL_END of slot j has been handed over (R88). -/
def State.dwellTold (s : State) (j : Slot) (p : Program) (next : Option Program) : State :=
  s.takeOutcome (slotRecord s j .dwellEnd p (dwellDetail next))

theorem takeDwell_last (s : State) (j : Slot) (p : Program) (g : GenIx) (d : Dwell)
    (tone : (s.slot j).state = .tone p g (some d)) (passed : deadlinePassed s.fm.frame d.deadline = true)
    (next : d.next = none) : s.takeDwell j =
      (s.dwellTold j p none).setSlot j { s.slot j with state := .tone p g none } := by
  unfold State.takeDwell
  simp only [tone]
  rw [if_pos (show deadlinePassed s.frame d.deadline = true from passed), next]
  exact congrArg (fun c => (s.dwellTold j p none).setSlot j { c with state := .tone p g none })
    (takeOutcome_slot s _ j)

/-- DWELL_END of slot j has been handed over and its generator released, before the attach of q (R88). -/
def State.dwellLeft (s : State) (j : Slot) (p : Program) (g : GenIx) (q : Program) : State :=
  (s.dwellTold j p (some q)).releaseGenerator g

theorem takeDwell_next (s : State) (j : Slot) (p q : Program) (g : GenIx) (d : Dwell)
    (tone : (s.slot j).state = .tone p g (some d)) (passed : deadlinePassed s.fm.frame d.deadline = true)
    (next : d.next = some q) : s.takeDwell j = (s.dwellLeft j p g q).attach j q := by
  unfold State.takeDwell
  simp only [tone]
  rw [if_pos (show deadlinePassed s.frame d.deadline = true from passed), next]
  rfl

@[simp] theorem dwellLeft_slot (s : State) (j i : Slot) (p q : Program) (g : GenIx) :
    (s.dwellLeft j p g q).slot i = s.slot i :=
  (releaseGenerator_slot _ g i).trans (takeOutcome_slot s _ i)

theorem dwellLeft_generator (s : State) (j : Slot) (p q : Program) (g h : GenIx) :
    (s.dwellLeft j p g q).generator h = if h = g then releasedGenerator g (s.generator g) else s.generator h := by
  unfold State.dwellLeft State.dwellTold
  rw [releaseGenerator_generator, takeOutcome_generator, takeOutcome_generator]

@[simp] theorem dwellLeft_players (s : State) (j : Slot) (p q : Program) (g : GenIx) :
    (s.dwellLeft j p g q).players = s.players :=
  (releaseGenerator_players _ g).trans (takeOutcome_players s _)

@[simp] theorem dwellLeft_queue (s : State) (j : Slot) (p q : Program) (g : GenIx) :
    (s.dwellLeft j p g q).queue = s.queue :=
  (releaseGenerator_queue _ g).trans (takeOutcome_queue s _)

theorem dwellLeft_boot (s : State) (j : Slot) (p q : Program) (g : GenIx) :
    (s.dwellLeft j p g q).boot = s.boot :=
  (releaseGenerator_boot _ g).trans (takeOutcome_boot s _)

theorem dwellLeft_limit (s : State) (j : Slot) (p q : Program) (g : GenIx) :
    (s.dwellLeft j p g q).limit = s.limit := by
  unfold State.limit
  rw [dwellLeft_boot]

theorem dwellLeft_programBase (s : State) (j : Slot) (p q : Program) (g : GenIx) :
    (s.dwellLeft j p g q).programBase = s.programBase := by
  unfold State.programBase
  rw [dwellLeft_boot]

theorem dwellLeft_frame (s : State) (j : Slot) (p q : Program) (g : GenIx) :
    (s.dwellLeft j p g q).frame = s.frame := by
  unfold State.frame State.dwellLeft State.dwellTold
  rw [releaseGenerator_fm, takeOutcome_fm]

/-- The release of the generator is nothing to the reports. -/
theorem calm_dwellLeft (src : Source) (s : State) (j : Slot) (p q : Program) (g : GenIx) :
    Calm src (s.dwellTold j p (some q)) (s.dwellLeft j p g q) :=
  .of (releaseGenerator_boot _ g) (releaseGenerator_rrw _ g) (releaseGenerator_mra _ g)

theorem dwellTold_reported (s : State) (j : Slot) (p : Program) (next : Option Program) :
    Reported s (s.dwellTold j p next) (slotRecord s j .dwellEnd p (dwellDetail next)) :=
  takeOutcome_reported s _

/-- The slot moves on to a next program that exists: its attach begins, with DWELL_END handed over. -/
theorem dwellNext_below (s : State) (j : Slot) (p q : Program) (g : GenIx) (below : q.val < s.limit) :
    AttachBegun s ((s.dwellLeft j p g q).attach j q) j q ∧
      Reported s ((s.dwellLeft j p g q).attach j q) (slotRecord s j .dwellEnd p (wordOfNat q.val)) := by
  have inRange : q.val < (s.dwellLeft j p g q).limit := by rwa [dwellLeft_limit]
  have begun := attach_begun (s.dwellLeft j p g q) j q inRange
  unfold AttachBegun at begun
  rw [dwellLeft_programBase] at begun
  refine ⟨begun, ?_⟩
  rw [attach_below _ j q inRange]
  exact (dwellTold_reported s j p (some q)).after
    (((calm_dwellLeft _ s j p q g).trans (calm_enter _ _ j _)).trans (calm_enqueue _ _ _))

/-- The next program does not exist: the SLOT_FAULT record is held behind DWELL_END. -/
theorem dwellNext_beyond (s : State) (j : Slot) (p q : Program) (g : GenIx) (beyond : s.limit ≤ q.val)
    (accepted : s.boot.accepted.isSome = true) : let t := (s.dwellLeft j p g q).attach j q
    (s.isPending (slotSource j) = false → Reported s t (slotRecord s j .dwellEnd p (wordOfNat q.val))) ∧
    t.heldOutcome (slotSource j) = some { slotRecord s j .slotFault q 1 with
      superseded := s.isPending (slotSource j) || (s.heldOutcome (slotSource j)).isSome } := by
  have calm := (calm_dwellLeft (slotSource j) s j p q g).trans (calm_enter _ _ j (.fault q))
  obtain ⟨holds, held⟩ := takeOutcome_again s ((s.dwellLeft j p g q).enter j (.fault q))
    (slotRecord s j .dwellEnd p (wordOfNat q.val)) (slotRecord s j .slotFault q 1) accepted rfl rfl calm
  have fault : (s.dwellLeft j p g q).attach j q =
      ((s.dwellLeft j p g q).enter j (.fault q)).takeOutcome (slotRecord s j .slotFault q 1) := by
    have frame : ((s.dwellLeft j p g q).enter j (.fault q)).frame = s.fm.frame := dwellLeft_frame s j p q g
    rw [attach_beyond _ j q (by rwa [dwellLeft_limit])]
    unfold State.faultSlot State.slotOutcome
    rw [frame]
    rfl
  dsimp only
  rw [fault]
  refine ⟨fun free => ?_, held⟩
  rw [holds]
  exact (Reported.after (dwellTold_reported s j p (some q)) calm).hold _ free

theorem dwellNext_slot (s : State) (j i : Slot) (p q : Program) (g : GenIx) :
    ((s.dwellLeft j p g q).attach j q).slot i =
      ((s.dwellLeft j p g q).enter j (if s.limit ≤ q.val then .fault q else .attaching q)).slot i := by
  rw [attach_slot, dwellLeft_limit]

theorem dwellNext_generator (s : State) (j : Slot) (p q : Program) (g h : GenIx) :
    ((s.dwellLeft j p g q).attach j q).generator h =
      if h = g then releasedGenerator g (s.generator g) else s.generator h := by
  rw [← dwellLeft_generator s j p q g h]
  unfold State.generator
  rw [attach_gens]

/-- Settles O37: the dwell ends, or the slot moves on to its next program, or nothing is taken. -/
theorem dwellExpiryTaken : Obligations.DwellExpiryTaken := by
  intro s j p g d
  refine ⟨fun tone passed => ?_, fun untaken => ?_⟩
  · have kept := (moves_takeDwell s j).servingOnly
    refine ⟨_, rfl, ⟨(finish_pending _).trans kept.pending, rfl, (finish_pairing _).trans kept.pairing,
      (finish_boot _).trans kept.boot, (finish_fm _).trans kept.fm, (finish_refetch _).trans kept.refetch⟩, ?_⟩
    cases next : d.next with
    | none =>
      rw [takeDwell_last s j p g d tone passed next]
      refine ⟨fun i other => ?_, (finish_players _).trans (takeOutcome_players s _),
        (finish_queue _).trans (takeOutcome_queue s _), fun _ => ⟨?_, (finish_gens _).trans (takeOutcome_gens s _),
        Reported.finish ((dwellTold_reported s j p none).after (.of rfl rfl rfl))⟩, nofun⟩
      · rw [finish_slot, State.setSlot_slot_ne _ j i _ other]
        exact takeOutcome_slot s _ i
      · rw [finish_slot, State.setSlot_slot_same]
    | some q =>
      rw [takeDwell_next s j p q g d tone passed next]
      refine ⟨fun i other => ?_, (finish_players _).trans ((attach_players _ j q).trans (dwellLeft_players ..)),
        (finish_queue _).trans ((attach_queue _ j q).trans (dwellLeft_queue ..)), nofun, fun q' same => ?_⟩
      · rw [finish_slot, dwellNext_slot, enter_slot, if_neg other, dwellLeft_slot]
      obtain rfl : q = q' := Option.some.inj same
      simp only [finish_generator, finish_slot, finish_heldOutcome, finish_waiting, dwellNext_generator]
      refine ⟨if_pos trivial, fun h other => if_neg other, ?_, fun below => ?_, fun beyond => ⟨?_, ?_, ?_⟩⟩
      · rw [dwellNext_slot, (enter_state _ j _).2, dwellLeft_slot]
      · obtain ⟨⟨state, fetch⟩, reported⟩ := dwellNext_below s j p q g below
        exact ⟨state, reported.finish, fetch⟩
      · rw [dwellNext_slot, (enter_state _ j _).1, if_pos beyond]
      · exact fun free rec hr =>
          ((dwellNext_beyond s j p q g beyond (by rw [hr]; rfl)).1 free).finish rec hr
      · exact fun accepted => (dwellNext_beyond s j p q g beyond accepted).2
  · refine ⟨_, rfl, ?_⟩
    rw [takeDwell_untaken s j untaken]
    exact ⟨ControlUnchanged.finish ⟨rfl, rfl, rfl, rfl⟩, SoundUnchanged.finish ⟨rfl, rfl, rfl, rfl, rfl, rfl⟩,
      sameRequests_finish rfl⟩

end Sys2Proof.Machine

namespace Sys2Proof.Machine

/-! ### The generator a context hears (R72, R95) -/

/-- The generator that is the sound source of a state, if one is. -/
def SlotState.heard (st : SlotState) : Option GenIx :=
  match st.source with
  | .generator g => some g
  | .silent => none
  | .player _ => none

theorem SlotState.source_eq_generator_iff (st : SlotState) (g : GenIx) :
    st.source = .generator g ↔ st.heard = some g := by
  unfold SlotState.heard
  cases st.source <;> simp

/-- The generator that slot j hears, by its context. -/
def State.heard (s : State) (j : Slot) : Option GenIx := (s.slot j).state.heard

theorem State.heard_of_state {s : State} {j : Slot} {st : SlotState} (h : (s.slot j).state = st) :
    s.heard j = st.heard := congrArg SlotState.heard h

theorem heard_of_slots {s t : State} (h : t.slots = s.slots) : t.heard = s.heard := by
  unfold State.heard State.slot
  rw [h]

theorem setSlot_heard (s : State) (j : Slot) (c : SlotContext) :
    (s.setSlot j c).heard = Function.update s.heard j c.state.heard := by
  funext i
  unfold State.heard
  rw [State.setSlot_slot, Function.update_apply]
  split <;> rfl

theorem enter_heard (s : State) (j : Slot) (st : SlotState) :
    (s.enter j st).heard = Function.update s.heard j st.heard := setSlot_heard _ _ _

/-- How many slots hear generator g, where slot j hears `f j`. -/
def hearers (f : Slot → Option GenIx) (g : GenIx) : Nat := (List.finRange 256).countP (fun j => f j == some g)

/-- A slot that comes to hear nothing is one hearer less of the generator it heard. -/
theorem hearers_update_none (f : Slot → Option GenIx) (j : Slot) (g : GenIx) :
    hearers f g = hearers (Function.update f j none) g + if f j = some g then 1 else 0 := by
  have apart := List.perm_cons_erase (List.mem_finRange j)
  have others : ((List.finRange 256).erase j).countP (fun i => Function.update f j none i == some g) =
      ((List.finRange 256).erase j).countP (fun i => f i == some g) := List.countP_congr fun i hi => by
    rw [Function.update_of_ne ((List.nodup_finRange 256).mem_erase_iff.mp hi).1]
  unfold hearers
  rw [apart.countP_eq, apart.countP_eq, List.countP_cons, List.countP_cons, others]
  simp

theorem hearers_of_hears {f : Slot → Option GenIx} {j : Slot} {g : GenIx} (h : f j = some g) :
    hearers f g = hearers (Function.update f j none) g + 1 := by
  rw [hearers_update_none f j g, if_pos h]

theorem hearers_of_not_hears {f : Slot → Option GenIx} {j : Slot} {g : GenIx} (h : f j ≠ some g) :
    hearers f g = hearers (Function.update f j none) g := by
  rw [hearers_update_none f j g, if_neg h, Nat.add_zero]

/-! ### The counts within an event -/

/-- The reference counts are those of slots that hear what `f` says, and one of TG0 to TG14 is FREE exactly at count 0.
Within an event `f` runs ahead of the context of the slot that moves. -/
structure State.Counted (s : State) (f : Slot → Option GenIx) : Prop where
  count : ∀ g, (s.generator g).count = hearers f g
  free : ∀ g, g ≠ congestionGen → ((s.generator g).binding = none ↔ (s.generator g).count = 0)

theorem countsExact_iff_counted (s : State) : s.CountsExact ↔ s.Counted s.heard := by
  have same : ∀ g, s.sourceCount g = hearers s.heard g := fun g => List.countP_congr fun j _ => by
    rw [beq_iff_eq, beq_iff_eq]
    exact (s.slot j).state.source_eq_generator_iff g
  constructor
  · exact fun ⟨count, free⟩ => ⟨fun g => (count g).trans (same g), free⟩
  · exact fun ⟨count, free⟩ => ⟨fun g => (count g).trans (same g).symm, free⟩

/-- One generator's record and one slot's source change together. -/
theorem State.Counted.setGenerator {s : State} {f f' : Slot → Option GenIx} {g : GenIx} {x : Generator}
    (c : s.Counted f) (others : ∀ h, h ≠ g → hearers f' h = hearers f h) (count : x.count = hearers f' g)
    (free : g ≠ congestionGen → (x.binding = none ↔ x.count = 0)) : (s.setGenerator g x).Counted f' := by
  constructor <;> intro h <;> rw [State.setGenerator_generator] <;> split
  · rename_i same
    rw [same, count]
  · rename_i other
    rw [others h other, c.count]
  · rename_i same
    exact fun ordinary => free (same ▸ ordinary)
  · exact c.free h

/-- Slot j ceases to hear generator g. -/
theorem State.Counted.releaseGenerator {s : State} {f : Slot → Option GenIx} {j : Slot} {g : GenIx} (c : s.Counted f)
    (hears : f j = some g) : (s.releaseGenerator g).Counted (Function.update f j none) := by
  have before : (s.generator g).count = hearers (Function.update f j none) g + 1 :=
    (c.count g).trans (hearers_of_hears hears)
  rw [releaseGenerator_eq]
  refine c.setGenerator (fun h other => ?_) ?_ fun ordinary => ?_
  · exact (hearers_of_not_hears fun e => other (Option.some.inj (hears.symm.trans e)).symm).symm
  · unfold releasedGenerator
    split
    · rename_i last
      exact last.1.symm.trans (by omega)
    · exact Nat.sub_eq_of_eq_add before
  · have bound : (s.generator g).binding ≠ none := fun e => by
      have := (c.free g ordinary).mp e
      omega
    unfold releasedGenerator
    split
    · exact iff_of_true rfl rfl
    · rename_i more
      exact iff_of_false bound fun zero => more ⟨zero, ordinary⟩

/-- Slot j, which heard none, comes to hear generator g, whose record x counts it. -/
theorem State.Counted.hear {s : State} {f : Slot → Option GenIx} {j : Slot} {g : GenIx} {x : Generator}
    (c : s.Counted (Function.update f j none)) (count : x.count = (s.generator g).count + 1)
    (bound : g ≠ congestionGen → x.binding ≠ none) :
    (s.setGenerator g x).Counted (Function.update f j (some g)) := by
  have removed : Function.update (Function.update f j (some g)) j none = Function.update f j none :=
    Function.update_idem ..
  refine c.setGenerator (fun h other => ?_) ?_ fun ordinary => iff_of_false (bound ordinary) (by omega)
  · rw [hearers_of_not_hears (j := j), removed]
    rw [Function.update_self]
    exact fun e => other (Option.some.inj e).symm
  · rw [hearers_of_hears (Function.update_self ..), removed, count, c.count]

theorem State.Counted.joinGenerator {s : State} {f : Slot → Option GenIx} {j : Slot} {g : GenIx}
    (c : s.Counted (Function.update f j none)) (bound : g ≠ congestionGen → (s.generator g).binding ≠ none) :
    (s.joinGenerator g).Counted (Function.update f j (some g)) := c.hear rfl bound

/-- A FREE generator has no hearer before it is bound for slot j. -/
theorem State.Counted.bindGenerator {s : State} {f : Slot → Option GenIx} {j : Slot} {g : GenIx}
    (c : s.Counted (Function.update f j none)) (chosen : s.freeGenerator = some g) (p : Program) (copy : ToneCopy)
    (fresh : Bool) : (s.bindGenerator g p copy fresh 1).Counted (Function.update f j (some g)) := by
  obtain ⟨ordinary, unbound⟩ := s.freeGenerator_some g chosen
  have none : (s.generator g).count = 0 := (c.free g ordinary).mp unbound
  exact c.hear (by rw [none]; rfl) fun _ => nofun

theorem freshGenerator_bound {s : State} {p : Program} {g : GenIx} (h : s.freshGenerator p = some g) :
    (s.generator g).binding ≠ none := by
  intro unbound
  have fresh := List.find?_some h
  simp [Generator.isFreshFor, unbound] at fresh

/-! ### Changes that no count reads -/

/-- What the counts read is as it was: what each slot hears, each generator's count, and which of TG0 to TG14 are
FREE. -/
structure HearingStands (s t : State) : Prop where
  heard : t.heard = s.heard
  count : ∀ g, (t.generator g).count = (s.generator g).count
  free : ∀ g, g ≠ congestionGen → ((t.generator g).binding = none ↔ (s.generator g).binding = none)

theorem HearingStands.trans {s t u : State} (a : HearingStands s t) (b : HearingStands t u) : HearingStands s u :=
  ⟨b.heard.trans a.heard, fun g => (b.count g).trans (a.count g), fun g o => (b.free g o).trans (a.free g o)⟩

theorem HearingStands.of_banks {s t : State} (slots : t.slots = s.slots) (gens : t.gens = s.gens) :
    HearingStands s t :=
  ⟨heard_of_slots slots, fun g => by rw [generator_of_gens gens], fun g _ => by rw [generator_of_gens gens]⟩

theorem BanksStand.hearingStands {s t : State} (h : BanksStand s t) : HearingStands s t := .of_banks h.slots h.gens

theorem OnlyPlayer.hearingStands {n : PlayerIx} {s t : State} (h : OnlyPlayer n s t) : HearingStands s t :=
  .of_banks h.slots h.gens

theorem HearingStands.counted {s t : State} {f : Slot → Option GenIx} (h : HearingStands s t) (c : s.Counted f) :
    t.Counted f where
  count g := (h.count g).trans (c.count g)
  free g ordinary := by rw [h.free g ordinary, h.count]; exact c.free g ordinary

theorem HearingStands.countsExact {s t : State} (h : HearingStands s t) (c : s.CountsExact) : t.CountsExact := by
  rw [countsExact_iff_counted] at *
  rw [h.heard]
  exact h.counted c

/-- Exact counts that each operation of a run keeps are kept by the run. -/
theorem State.CountsExact.foldl {α : Type} {f : State → α → State}
    (h : ∀ s a, s.CountsExact → (f s a).CountsExact) {s : State} (c : s.CountsExact) (l : List α) :
    (l.foldl f s).CountsExact := List.foldlRecOn l f c fun t kept a _ => h t a kept

end Sys2Proof.Machine

namespace Sys2Proof.Machine

/-! ### A slot moves (R70, R73, R77, R78) -/

/-- The counts are ahead of the context of slot j alone, which enters a state of the source they say. -/
theorem State.Counted.enter {s : State} {j : Slot} {st : SlotState}
    (c : s.Counted (Function.update s.heard j st.heard)) : (s.enter j st).CountsExact := by
  rw [countsExact_iff_counted, enter_heard]
  exact ⟨c.count, c.free⟩

/-- By the counts slot j hears no generator, whatever its context says. -/
def State.Unheard (s : State) (j : Slot) : Prop := s.Counted (Function.update s.heard j none)

theorem State.CountsExact.unheard {s : State} (c : s.CountsExact) {j : Slot} (h : s.heard j = none) :
    s.Unheard j := by
  unfold State.Unheard
  rw [← h, Function.update_eq_self]
  exact (countsExact_iff_counted s).mp c

/-- Slot j's generator is released, and its context goes on to say so. -/
theorem State.CountsExact.releaseGenerator {s : State} (c : s.CountsExact) {j : Slot} {g : GenIx}
    (h : s.heard j = some g) : (s.releaseGenerator g).Unheard j := by
  unfold State.Unheard
  rw [heard_of_slots (releaseGenerator_slots s g)]
  exact ((countsExact_iff_counted s).mp c).releaseGenerator h

theorem HearingStands.unheard {s t : State} (h : HearingStands s t) {j : Slot} (d : s.Unheard j) : t.Unheard j := by
  unfold State.Unheard at *
  rw [h.heard]
  exact h.counted d

theorem State.Unheard.enter {s : State} {j : Slot} (d : s.Unheard j) (st : SlotState) (h : st.heard = none) :
    (s.enter j st).CountsExact := State.Counted.enter (by rw [h]; exact d)

theorem hearingStands_takeOutcome (s : State) (o : Outcome) : HearingStands s (s.takeOutcome o) :=
  (banksStand_takeOutcome s o).hearingStands

theorem hearingStands_enqueue (s : State) (r : OwnRequest) : HearingStands s (s.enqueue r) := .of_banks rfl rfl

theorem hearingStands_modifyPlayer (s : State) (n : PlayerIx) (f : Player → Player) :
    HearingStands s (s.modifyPlayer n f) := .of_banks rfl rfl

theorem hearingStands_leaveQueue (s : State) (j : Slot) : HearingStands s (s.leaveQueue j) := .of_banks rfl rfl

/-- A context replaced by one of the same sound source. -/
theorem hearingStands_setSlot (s : State) (j : Slot) (c : SlotContext) (h : c.state.heard = s.heard j) :
    HearingStands s (s.setSlot j c) :=
  ⟨by rw [setSlot_heard, h, Function.update_eq_self], fun _ => rfl, fun _ _ => .rfl⟩

theorem State.Unheard.faultSlot {s : State} {j : Slot} (d : s.Unheard j) (p : Program) (cause : Cause) :
    (s.faultSlot j p cause).CountsExact := (hearingStands_takeOutcome _ _).countsExact (d.enter _ rfl)

theorem State.Unheard.attach {s : State} {j : Slot} (d : s.Unheard j) (p : Program) : (s.attach j p).CountsExact := by
  unfold State.attach
  split
  · exact d.faultSlot p _
  · exact (hearingStands_enqueue _ _).countsExact (d.enter _ rfl)

theorem State.Unheard.attachOrIdle {s : State} {j : Slot} (d : s.Unheard j) (next : Option Program) :
    (s.attachOrIdle j next).CountsExact := by
  cases next with
  | none => exact d.enter _ rfl
  | some p => exact d.attach p

/-- An OVERFLOW slot is counted on TG15 (R86, R96). -/
theorem State.Unheard.overflowSlot {s : State} {j : Slot} (d : s.Unheard j) (p : Program) (k : ReportKind) (w : Word) :
    (s.overflowSlot j p k w).CountsExact :=
  (hearingStands_takeOutcome _ _).countsExact
    (State.Counted.enter (st := .overflow p) (d.joinGenerator fun other => absurd rfl other))

theorem State.Unheard.placeTone {s : State} {j : Slot} (d : s.Unheard j) (p : Program) (fresh : Bool)
    (ws : List Word) : (s.placeTone j p fresh ws).CountsExact := by
  unfold State.placeTone
  dsimp only
  split
  · rename_i g bound
    exact State.Counted.enter (d.joinGenerator fun _ => freshGenerator_bound bound)
  · split
    · rename_i g free
      exact State.Counted.enter (d.bindGenerator free p _ fresh)
    · exact d.overflowSlot p _ _

theorem State.Unheard.joinPlayer {s : State} {j : Slot} (d : s.Unheard j) (n : PlayerIx) (p : Program)
    (ann : AnnFields) : (s.joinPlayer n j p ann).CountsExact :=
  (hearingStands_modifyPlayer _ n _).countsExact (d.enter _ rfl)

/-! ### Detaches (R77, Table 6-4) -/

theorem State.CountsExact.leaveWaiting {s : State} (c : s.CountsExact) {j : Slot} {p : Program} {ann : AnnFields}
    {filler : Option GenIx} (waiting : (s.slot j).state = .waiting p ann filler) :
    (s.leaveWaiting j filler).Unheard j := by
  have left := (hearingStands_leaveQueue s j).countsExact c
  have hears : (s.leaveQueue j).heard j = filler := by
    rw [(hearingStands_leaveQueue s j).heard, State.heard_of_state waiting]
    cases filler <;> rfl
  cases filler with
  | none => exact left.unheard hears
  | some g => exact left.releaseGenerator hears

theorem State.CountsExact.detach {s : State} (c : s.CountsExact) (j : Slot) : (s.detach j).Unheard j := by
  cases h : (s.slot j).state with
  | idle | attaching | fault =>
    rw [detach_nothing s j (by simp [h])]
    exact c.unheard (State.heard_of_state h)
  | tone p g dwell =>
    rw [detach_tone s j p g dwell h]
    exact c.releaseGenerator (State.heard_of_state h)
  | overflow p =>
    rw [detach_overflow s j p h]
    exact c.releaseGenerator (State.heard_of_state h)
  | waiting p ann filler =>
    rw [detach_waiting s j p ann filler h]
    exact c.leaveWaiting h
  | playing p ann n r mark =>
    rw [detach_playing s j p ann n r mark h]
    exact (onlyPlayer_leavePlayer s n j).hearingStands.unheard (c.unheard (State.heard_of_state h))

theorem State.CountsExact.slotRequest {s : State} (c : s.CountsExact) (j : Slot) : (s.slotRequest j).CountsExact := by
  unfold State.slotRequest
  split
  · exact (c.detach j).attach _
  · split
    · exact c
    · exact (c.detach j).enter _ rfl

theorem hearingStands_setShadow (s : State) (j : Slot) (w : Word) : HearingStands s (s.setShadow j w) :=
  hearingStands_setSlot s j _ rfl

theorem State.CountsExact.connectionTaken {s : State} (c : s.CountsExact) (j : Slot) (w : Word) (b : Strobes) :
    (s.connectionTaken j w b).CountsExact := ((hearingStands_setShadow s j _).countsExact c).slotRequest j

theorem State.CountsExact.adoptionChecked {s : State} (c : s.CountsExact) (j : Slot) (w : Word) :
    (s.adoptionChecked j w).CountsExact := by
  unfold State.adoptionChecked
  split
  · exact c
  · exact ((hearingStands_setShadow s j w).countsExact c).slotRequest j

/-! ### Fillers (R102, R103) -/

/-- A waiting slot with no filler is given the generator that the counts say it hears. -/
theorem State.Counted.giveFiller {s : State} {j : Slot} {g : GenIx} {p : Program} {ann : AnnFields}
    (c : s.Counted (Function.update s.heard j (some g))) (waiting : (s.slot j).state = .waiting p ann none) :
    (s.giveFiller j g).CountsExact := by
  rw [giveFiller_waiting s j g p ann none waiting, countsExact_iff_counted, setSlot_heard]
  exact ⟨c.count, c.free⟩

theorem State.CountsExact.takeFiller {s : State} (c : s.CountsExact) {j : Slot} {p : Program} {ann : AnnFields}
    (waiting : (s.slot j).state = .waiting p ann none) (f : Program) : (s.takeFiller j f).CountsExact := by
  have d := c.unheard (State.heard_of_state waiting)
  unfold State.takeFiller
  split
  · rename_i g bound
    exact State.Counted.giveFiller (d.joinGenerator fun _ => freshGenerator_bound bound) waiting
  · split
    · exact c
    · exact (hearingStands_enqueue s _).countsExact c

theorem State.CountsExact.fillerDone {s : State} (c : s.CountsExact) (j : Slot) (f : Program)
    (gen : Option Generation) (fresh : Bool) (ws : List Word) : (s.fillerDone j f gen fresh ws).CountsExact := by
  unfold State.fillerDone
  split
  · rename_i waiting
    have d := c.unheard (State.heard_of_state waiting)
    split
    · split
      · exact c
      · split
        · rename_i g bound
          exact State.Counted.giveFiller (d.joinGenerator fun _ => freshGenerator_bound bound) waiting
        · split
          · rename_i g free
            exact State.Counted.giveFiller (d.bindGenerator free f _ fresh) waiting
          · exact c
    · exact c
  · exact c

/-! ### Arrivals and joins (R83, R84, R114, R144, R145) -/

theorem onlyPlayer_bindPlayer (s : State) (n : PlayerIx) (p : Program) : OnlyPlayer n s (s.bindPlayer n p) :=
  ⟨rfl, rfl, rfl, rfl, rfl, rfl, fun m other => bindPlayer_other s n p m other⟩

theorem State.CountsExact.bindForArrival {s : State} (c : s.CountsExact) (p : Program) :
    (s.bindForArrival p).CountsExact := by
  unfold State.bindForArrival
  split
  · exact c
  · split
    · exact (onlyPlayer_bindPlayer s _ p).hearingStands.countsExact c
    · exact c

theorem State.Unheard.enqueueSlot {s : State} {j : Slot} (d : s.Unheard j) (p : Program) (ann : AnnFields) :
    (s.enqueueSlot j p ann).CountsExact := by
  have entered : ∀ q, ((s.withQueue q).enter j (.waiting p ann none)).CountsExact := fun q =>
    ((HearingStands.of_banks (s := s) (t := s.withQueue q) rfl rfl).unheard d).enter _ rfl
  unfold State.enqueueSlot
  dsimp only
  split
  · exact (entered _).takeFiller (enter_state _ j _).1 _
  · exact entered _

theorem State.Unheard.arrive {s : State} {j : Slot} (d : s.Unheard j) (p : Program) (ann : AnnFields) :
    (s.arrive j p ann).CountsExact := by
  unfold State.arrive
  split
  · exact d.joinPlayer _ p ann
  · split
    · exact d.overflowSlot p _ _
    · split
      · exact d.overflowSlot p _ _
      · exact (d.enqueueSlot p ann).bindForArrival p

theorem State.CountsExact.attachDone {s : State} (c : s.CountsExact) (j : Slot) (p : Program)
    (gen : Option Generation) (fresh : Bool) (ws : List Word) : (s.attachDone j p gen fresh ws).CountsExact := by
  unfold State.attachDone
  split
  · rename_i matching
    have d := c.unheard (State.heard_of_state matching.2)
    split
    · exact d.faultSlot p _
    · split
      · exact d.placeTone p fresh ws
      · exact d.arrive p _
  · exact c

theorem State.CountsExact.joinWaiting {s : State} (c : s.CountsExact) (n : PlayerIx) (j : Slot) :
    (s.joinWaiting n j).CountsExact := by
  unfold State.joinWaiting
  split
  · rename_i waiting
    exact (c.leaveWaiting waiting).joinPlayer n _ _
  · exact (hearingStands_leaveQueue s j).countsExact c

theorem State.CountsExact.joinPoint {s : State} (c : s.CountsExact) (n : PlayerIx) : (s.joinPoint n).CountsExact := by
  unfold State.joinPoint
  split
  · exact (hearingStands_modifyPlayer _ n _).countsExact
      (c.foldl (f := fun t j => t.joinWaiting n j) (fun t j k => k.joinWaiting n j) _)
  · exact (hearingStands_modifyPlayer s n _).countsExact c

/-! ### Dwells and wait timeouts (R88, R148) -/

theorem State.CountsExact.takeDwell {s : State} (c : s.CountsExact) (j : Slot) : (s.takeDwell j).CountsExact := by
  unfold State.takeDwell
  split
  · rename_i p g d tone
    split
    · have told := hearingStands_takeOutcome s (slotRecord s j .dwellEnd p (dwellDetail d.next))
      have hears : (s.takeOutcome (slotRecord s j .dwellEnd p (dwellDetail d.next))).heard j = some g := by
        rw [told.heard, State.heard_of_state tone]
        rfl
      dsimp only
      split
      · exact ((told.countsExact c).releaseGenerator hears).attach _
      · exact (hearingStands_setSlot _ j _ (by exact hears.symm)).countsExact (told.countsExact c)
    · exact c
  · exact c

theorem State.CountsExact.takeTimeout {s : State} (c : s.CountsExact) : s.takeTimeout.CountsExact := by
  unfold State.takeTimeout
  split
  · exact c
  · split
    · rename_i waiting
      exact (c.leaveWaiting waiting).overflowSlot _ _ _
    · exact (hearingStands_leaveQueue s _).countsExact c

/-! ### Completions and pass ends (R87, R119 to R121) -/

theorem State.CountsExact.countListen {s : State} (c : s.CountsExact) (j : Slot) : (s.countListen j).CountsExact := by
  unfold State.countListen
  split
  · rename_i playing
    exact (hearingStands_setSlot s j _ (State.heard_of_state playing).symm).countsExact c
  · exact c

/-- A listener hears no generator, and none in the state it goes on to. -/
theorem State.CountsExact.completeListener {s : State} (c : s.CountsExact) (n : PlayerIx)
    (cause : Option PlaylistFault) (j : Slot) : (s.completeListener n cause j).CountsExact := by
  have left := hearingStands_modifyPlayer s n
    (fun pl => { pl with listeners := pl.listeners.filter (fun i => i != j) })
  unfold State.completeListener
  dsimp only
  split
  · rename_i playing
    exact ((hearingStands_takeOutcome _ _).unheard
      (left.unheard (c.unheard (State.heard_of_state playing)))).attachOrIdle _
  · exact left.countsExact c

theorem State.CountsExact.completeListeners {s : State} (c : s.CountsExact) (n : PlayerIx)
    (cause : Option PlaylistFault) (l : List Slot) :
    (l.foldl (fun t j => t.completeListener n cause j) s).CountsExact :=
  c.foldl (fun _ j k => k.completeListener n cause j) l

theorem State.CountsExact.releasePlayer {s : State} (c : s.CountsExact) (n : PlayerIx) :
    (s.releasePlayer n).CountsExact := (onlyPlayer_releasePlayer s n).hearingStands.countsExact c

theorem State.CountsExact.faultMark {s : State} (c : s.CountsExact) (n : PlayerIx) (cause : PlaylistFault) :
    (s.faultMark n cause).CountsExact := (c.completeListeners n (some cause) _).releasePlayer n

theorem State.CountsExact.playOn {s : State} (c : s.CountsExact) (n : PlayerIx) : (s.playOn n).CountsExact := by
  unfold State.playOn
  dsimp only
  split <;> split
  · exact c.releasePlayer n
  · exact c.joinPoint n
  · exact c.releasePlayer n
  · exact c.joinPoint n

theorem State.CountsExact.passEnd {s : State} (c : s.CountsExact) (n : PlayerIx) : (s.passEnd n).CountsExact :=
  ((c.foldl (fun _ j k => k.countListen j) _).completeListeners n none _).playOn n

/-! ### Players at a mark and while PRIMING (R113, R116) -/

theorem State.CountsExact.takeMark {s : State} (c : s.CountsExact) (n : PlayerIx) (m : MarkKind) :
    (s.takeMark n m).CountsExact := by
  cases m with
  | join => exact c.joinPoint n
  | endPass => exact c.passEnd n
  | fault cause => exact c.faultMark n cause

theorem onlyPlayer_emptyCurrent (s : State) (n : PlayerIx) : OnlyPlayer n s (s.emptyCurrent n) :=
  (onlyPlayer_setPlayer s n _).trans (onlyPlayer_walk n _ _)

theorem State.CountsExact.emptyCurrent {s : State} (c : s.CountsExact) (n : PlayerIx) :
    (s.emptyCurrent n).CountsExact := (onlyPlayer_emptyCurrent s n).hearingStands.countsExact c

theorem countsExact_takeMarks (n : PlayerIx) (k : Nat) :
    ∀ s : State, s.CountsExact → (State.takeMarks n k s).CountsExact := by
  induction k with
  | zero => exact fun _ => id
  | succ k ih =>
    intro s c
    unfold State.takeMarks
    split
    · dsimp only
      split
      · exact ih _ ((c.takeMark n _).emptyCurrent n)
      · exact c.takeMark n _
    · exact c

theorem State.CountsExact.outputFrame {s : State} (c : s.CountsExact) (n : PlayerIx) :
    (s.outputFrame n).CountsExact := by
  have out := (hearingStands_modifyPlayer s n Player.output).countsExact c
  unfold State.outputFrame
  dsimp only
  split
  · exact out.emptyCurrent n
  · exact out

theorem State.CountsExact.markPlayer {s : State} (c : s.CountsExact) (n : PlayerIx) :
    (s.markPlayer n).CountsExact := by
  have taken := countsExact_takeMarks n walkBound _
    ((hearingStands_modifyPlayer s n Player.countWindow).countsExact c)
  unfold State.markPlayer
  dsimp only
  split
  · split
    · exact taken.outputFrame n
    · exact taken
  · exact c

theorem State.CountsExact.firstPassStart {s : State} (c : s.CountsExact) (n : PlayerIx)
    (fault : Option PlaylistFault) : (s.firstPassStart n fault).CountsExact := by
  have joined := ((hearingStands_modifyPlayer s n
    (fun pl => { pl with state := .running, cursor := 0 })).countsExact c).joinPoint n
  unfold State.firstPassStart
  dsimp only
  split
  · exact joined.releasePlayer n
  · split
    · exact joined.faultMark n _
    · exact joined

theorem countsExact_takePriming (n : PlayerIx) (k : Nat) :
    ∀ s : State, s.CountsExact → (State.takePriming n k s).CountsExact := by
  induction k with
  | zero => exact fun _ => id
  | succ k ih =>
    intro s c
    unfold State.takePriming
    split
    · exact c.firstPassStart n _
    · exact ih _ (c.emptyCurrent n)
    · exact c.firstPassStart n _
    · exact c

theorem State.CountsExact.primed {s : State} (c : s.CountsExact) (n : PlayerIx) : (s.primed n).CountsExact :=
  countsExact_takePriming n _ s c

/-! ### Completions of a player's reads (R109, R110, R129, R132) -/

theorem State.CountsExact.failWaiter {s : State} (c : s.CountsExact) (j : Slot) : (s.failWaiter j).CountsExact := by
  unfold State.failWaiter
  split
  · rename_i waiting
    exact (c.leaveWaiting waiting).faultSlot _ _
  · exact (hearingStands_leaveQueue s j).countsExact c

theorem hearingStands_freePlayer (s : State) (n : PlayerIx) : HearingStands s (s.freePlayer n) := .of_banks rfl rfl

theorem hearingStands_allocate (s : State) (n : PlayerIx) : HearingStands s (s.allocate n) :=
  .of_banks (allocate_slots s n) (allocate_gens s n)

theorem State.CountsExact.bindingFailed {s : State} (c : s.CountsExact) (n : PlayerIx) (p : Program) :
    (s.bindingFailed n p).CountsExact := by
  rw [bindingFailed_eq]
  exact (hearingStands_allocate _ n).countsExact
    (((hearingStands_freePlayer s n).countsExact c).foldl (fun _ j k => k.failWaiter j) _)

theorem State.CountsExact.bindingDone {s : State} (c : s.CountsExact) (n : PlayerIx) (p : Program)
    (gen : Option Generation) (fresh : Bool) (ws : List Word) : (s.bindingDone n p gen fresh ws).CountsExact := by
  unfold State.bindingDone
  split
  · split
    · exact c.bindingFailed n p
    · split
      · have started : ∀ t : State, OnlyPlayer n t (t.startWalker n) := fun t =>
          ((onlyPlayer_setPlayer t n _).trans (onlyPlayer_setNext _ n _)).trans (onlyPlayer_walk n _ _)
        exact ((started _).hearingStands.countsExact ((hearingStands_modifyPlayer s n _).countsExact c)).primed n
      · exact c.releasePlayer n
  · exact c

theorem State.CountsExact.stepDone {s : State} (c : s.CountsExact) (n : PlayerIx) (gen : Option Generation)
    (ws : List Word) : (s.stepDone n gen ws).CountsExact := by
  unfold State.stepDone
  split
  · split
    · exact (((onlyPlayer_setPlayer s n _).trans (onlyPlayer_walk n _ _)).hearingStands.countsExact c).primed n
    · exact c
  · exact c

theorem State.CountsExact.fillDone {s : State} (c : s.CountsExact) (n : PlayerIx) (h : HalfName)
    (gen : Option Generation) (ws : List Word) : (s.fillDone n h gen ws).CountsExact := by
  unfold State.fillDone
  split
  · split
    · exact ((hearingStands_modifyPlayer s n _).countsExact c).primed n
    · exact c
  · exact c

/-! ### Generators at a mark, at a cadence step's end and at a program store (R64, R68, R97, R98) -/

/-- Record x counts as many slots as y, and is FREE where y is. -/
def Generator.HeardAs (x y : Generator) : Prop := x.count = y.count ∧ (x.binding = none ↔ y.binding = none)

theorem Generator.HeardAs.refl (x : Generator) : x.HeardAs x := ⟨rfl, .rfl⟩

theorem Generator.mark_heardAs (x : Generator) : x.mark.HeardAs x := by
  unfold Generator.mark
  split
  · exact .refl x
  · rename_i bound
    exact ⟨rfl, by simp [bound]⟩

theorem Generator.stepEnd_heardAs (x : Generator) : x.stepEnd.HeardAs x := by
  unfold Generator.stepEnd
  split
  · exact .refl x
  · rename_i bound
    exact ⟨rfl, by simp [bound]⟩

theorem Generator.adopt_heardAs (copy : ToneCopy) (x : Generator) : (x.adopt copy).HeardAs x := by
  unfold Generator.adopt
  split
  · exact .refl x
  · rename_i bound
    exact ⟨rfl, by simp [bound]⟩

theorem Generator.makeStale_heardAs (p : Program) (x : Generator) : (x.makeStale p).HeardAs x := by
  unfold Generator.makeStale
  split
  · exact .refl x
  · rename_i bound
    split
    · exact ⟨rfl, by simp [bound]⟩
    · exact .refl x

theorem hearingStands_of_heardAs {s t : State} (slots : t.slots = s.slots)
    (h : ∀ g, (t.generator g).HeardAs (s.generator g)) : HearingStands s t :=
  ⟨heard_of_slots slots, fun g => (h g).1, fun g _ => (h g).2⟩

theorem hearingStands_setGenerator {s : State} {g : GenIx} {x : Generator} (h : x.HeardAs (s.generator g)) :
    HearingStands s (s.setGenerator g x) := hearingStands_of_heardAs rfl fun k => by
  rw [State.setGenerator_generator]
  split
  · rename_i same
    exact same ▸ h
  · exact .refl _

theorem hearingStands_markTones (s : State) : HearingStands s s.markTones := hearingStands_of_heardAs rfl fun g => by
  rw [markTones_generator]
  exact Generator.mark_heardAs _

theorem hearingStands_staleGenerators (s : State) (p : Program) : HearingStands s (s.staleGenerators p) :=
  hearingStands_of_heardAs (staleGenerators_frame s p).1 fun g => by
    rw [staleGenerators_generator]
    split
    · exact .refl _
    · exact Generator.makeStale_heardAs p _

theorem hearingStands_refetchDone (s : State) (c : Program) (gen : Option Generation) (ws : List Word) :
    HearingStands s (s.refetchDone c gen ws) := by
  unfold State.refetchDone
  split
  · have idle : HearingStands s (s.withRefetch { s.refetch with busy := false }) := .of_banks rfl rfl
    dsimp only
    split
    · exact idle.trans (hearingStands_setGenerator (Generator.adopt_heardAs _ _))
    · exact idle.trans (hearingStands_takeOutcome _ _)
  · exact .of_banks rfl rfl

/-- TG15 is bound with a count of 0 at the entry to RUN, where nobody is served (R21). -/
theorem hearingStands_enterRun {s : State} {k : OwnKind} (turn : BootTurn s k) (late : k.isLate = true)
    (free : s.generator congestionGen = Generator.reset) : HearingStands s s.enterRun := by
  obtain ⟨hasWorking, hasCopy⟩ := turn.copies late
  obtain ⟨w, working⟩ := Option.isSome_iff_exists.mp hasWorking
  obtain ⟨copy, kept⟩ := Option.isSome_iff_exists.mp hasCopy
  obtain ⟨m, x, frame, -⟩ := enterRun_frame s w copy working kept
  have gen : ∀ g, s.enterRun.generator g =
      if g = congestionGen then boundGenerator w.congestionProgram copy true 0 else s.generator g := by
    intro g
    rw [frame, State.withRrw_generator, State.withMra_generator, State.serve, State.setGenerator_generator]
    rfl
  refine ⟨heard_of_slots (by rw [frame]; rfl), fun g => ?_, fun g ordinary => ?_⟩
  · rw [gen]
    split
    · rename_i same
      rw [same, free]
      rfl
    · rfl
  · rw [gen, if_neg ordinary]

/-! ### Every step -/

theorem onlyPlayer_closeWindow (s : State) (n : PlayerIx) : OnlyPlayer n s (s.closeWindow n) := by
  unfold State.closeWindow
  split
  · exact onlyPlayer_setPlayer s n _
  · exact .refl n s

theorem Serving.countsExact {s t : State} (h : Serving s t) (c : s.CountsExact) : t.CountsExact := by
  cases h with
  | connection j d b _ => exact c.connectionTaken j d b
  | adoption j d _ => exact c.adoptionChecked j d
  | staleGenerators p _ => exact (hearingStands_staleGenerators s p).countsExact c
  | stalePlayer p n _ => exact (onlyPlayer_stalePlayer s p n).hearingStands.countsExact c
  | attach j p g b ws => exact c.attachDone j p g b ws
  | filler j f g b ws => exact c.fillerDone j f g b ws
  | binding n p g b ws => exact c.bindingDone n p g b ws
  | step n g ws => exact c.stepDone n g ws
  | fill n h g ws => exact c.fillDone n h g ws
  | tones => exact (hearingStands_markTones s).countsExact c
  | player n _ => exact c.markPlayer n
  | dwell j => exact c.takeDwell j
  | timeout => exact c.takeTimeout
  | window n => exact (onlyPlayer_closeWindow s n).hearingStands.countsExact c
  | cadence g => exact (hearingStands_setGenerator (Generator.stepEnd_heardAs _)).countsExact c

/-- Every change keeps the counts exact; the entry to RUN finds nobody served. -/
theorem Change.countsExact {s t : State} (ch : Change s t) (law : s.BootLaw) (quiet : s.QuietOutsideRun)
    (c : s.CountsExact) : t.CountsExact := by
  have done : BanksStand s s.delivered := ⟨rfl, rfl, rfl, rfl, rfl, rfl⟩
  have still : t.slots = s.slots → t.gens = s.gens → t.CountsExact := fun slots gens =>
    (HearingStands.of_banks slots gens).countsExact c
  have banks : BanksStand s t → t.CountsExact := fun b => b.hearingStands.countsExact c
  cases ch with
  | serving h => exact h.countsExact c
  | pending | bus | pairing | fm | startRefetch | start | underWay | delivered | loading | bypass => exact still rfl rfl
  | device o _ => exact banks (banksStand_takeOutcome s o)
  | refetch p g ws => exact (hearingStands_refetchDone s p g ws).countsExact c
  | choose => exact still (choose_slots s) (choose_gens s)
  | report r src _ _ => exact banks (done.trans (banksStand_reportDone _ src))
  | record r ws _ _ => exact banks (done.trans (banksStand_recordRead _ r.gen ws))
  | congestion r ws _ _ => exact banks (done.trans (banksStand_congestionFetched _ r.gen ws))
  | cleared r n _ _ => exact banks (done.trans (banksStand_recordCleared _ n))
  | run r h k =>
    have turn := law.turn h (by rw [k]; rfl)
    have free := quiet.gens (by rw [show s.boot.device = .boot from turn.device]; decide) congestionGen
    exact (hearingStands_enterRun turn (by rw [k]; rfl) free).countsExact (done.hearingStands.countsExact c)
  | consumer d b _ _ => exact banks (banksStand_consumerTaken s d b)
  | reload => exact (servesNobody_reload s ((quietOutsideRun_iff s).mp quiet)).countsExact
  | reset b => exact (servesNobody_released b _).countsExact

/-- Settles O59: with the invariants of O57, each of the changes that make up a step keeps the counts exact. -/
theorem referenceCountsKept : Obligations.ReferenceCountsKept := by
  intro s t law quiet counts h
  exact (step_keeps (P := fun s => (s.BootLaw ∧ s.QuietOutsideRun) ∧ s.CountsExact)
    (fun _ _ c ⟨⟨law, quiet⟩, counts⟩ =>
      ⟨⟨c.bootLaw law, c.quietOutsideRun law quiet⟩, c.countsExact law quiet counts⟩)
    s t h ⟨⟨law, quiet⟩, counts⟩).2

end Sys2Proof.Machine

namespace Sys2Proof.Machine

/-! ### A filler's descriptor fetch completes (R73, R103) -/

theorem exec_fillerFetchComplete {s : State} {r : OwnRequest} {data : Word} {j : Slot} {f : Program} (h : s.Settled)
    (last : s.LastWordOf r) (kind : r.kind = .fillerFetch j f) : exec (.fillerFetchComplete data) s =
      .next (s.delivered.fillerDone j f r.gen (!r.overtaken) (r.advance data).answer).finish :=
  congrArg Host.Outcome.next (takeEnds_complete h last
    (by simp only [OwnRequest.advance_kind, OwnRequest.advance_gen, OwnRequest.advance_overtaken, kind]))

theorem fillerDone_discarded (s : State) (j : Slot) (f : Program) (gen : Option Generation) (fresh : Bool)
    (ws : List Word) (h : gen ≠ some (s.slot j).gen) : s.fillerDone j f gen fresh ws = s := by
  unfold State.fillerDone
  split
  · exact if_neg h
  · rfl

/-- Slot j waits with no filler, and the answer is of its present generation. -/
structure State.AwaitsFiller (s : State) (j : Slot) (p : Program) (ann : AnnFields) (gen : Option Generation) :
    Prop where
  gen : gen = some (s.slot j).gen
  state : (s.slot j).state = .waiting p ann none

/-- Slot j goes on waiting with generator g as its sound source, and g's record is x (R83, R103). -/
def State.filled (s : State) (j : Slot) (p : Program) (ann : AnnFields) (g : GenIx) (x : Generator) : State :=
  (s.setGenerator g x).setSlot j { s.slot j with state := .waiting p ann (some g) }

section Matching

variable {s : State} {j : Slot} {p : Program} {ann : AnnFields} {gen : Option Generation}

theorem State.AwaitsFiller.failed (h : s.AwaitsFiller j p ann gen) (f : Program) (fresh : Bool) {ws : List Word}
    (failed : checkTone (some (highwayOf j)) ws ≠ none) : s.fillerDone j f gen fresh ws = s := by
  obtain ⟨cause, check⟩ := Option.ne_none_iff_exists'.mp failed
  unfold State.fillerDone
  rw [h.state]
  dsimp only
  rw [if_pos h.gen, check]

theorem State.AwaitsFiller.joins (h : s.AwaitsFiller j p ann gen) {f : Program} (fresh : Bool) {ws : List Word}
    {g : GenIx} (passed : checkTone (some (highwayOf j)) ws = none) (bound : s.freshGenerator f = some g) :
    s.fillerDone j f gen fresh ws =
      s.filled j p ann g { s.generator g with count := (s.generator g).count + 1 } := by
  unfold State.fillerDone
  rw [h.state]
  dsimp only
  rw [if_pos h.gen, passed, bound]
  exact giveFiller_waiting (s.joinGenerator g) j g p ann none h.state

theorem State.AwaitsFiller.binds (h : s.AwaitsFiller j p ann gen) {f : Program} (fresh : Bool) {ws : List Word}
    {g : GenIx} (passed : checkTone (some (highwayOf j)) ws = none) (unbound : s.freshGenerator f = none)
    (free : s.freeGenerator = some g) :
    s.fillerDone j f gen fresh ws = s.filled j p ann g (boundGenerator f (toneCopyOf ws) fresh 1) := by
  unfold State.fillerDone
  rw [h.state]
  dsimp only
  rw [if_pos h.gen, passed, unbound, free]
  exact giveFiller_waiting (s.bindGenerator g f (toneCopyOf ws) fresh 1) j g p ann none h.state

theorem State.AwaitsFiller.unserved (h : s.AwaitsFiller j p ann gen) {f : Program} (fresh : Bool) {ws : List Word}
    (passed : checkTone (some (highwayOf j)) ws = none) (unbound : s.freshGenerator f = none)
    (busy : s.freeGenerator = none) : s.fillerDone j f gen fresh ws = s := by
  unfold State.fillerDone
  rw [h.state]
  dsimp only
  rw [if_pos h.gen, passed, unbound, busy]

end Matching

/-- Beside slot j and one generator, the serving blocks and the report ring stand. -/
theorem fillerDone_frame (s : State) (j : Slot) (f : Program) (gen : Option Generation) (fresh : Bool)
    (ws : List Word) : (∀ i, i ≠ j → (s.fillerDone j f gen fresh ws).slot i = s.slot i) ∧
      (s.fillerDone j f gen fresh ws).players = s.players ∧ (s.fillerDone j f gen fresh ws).queue = s.queue ∧
      (s.fillerDone j f gen fresh ws).rrw = s.rrw := by
  have given : ∀ (t : State) (g : GenIx), (∀ i, i ≠ j → (t.giveFiller j g).slot i = t.slot i) ∧
      (t.giveFiller j g).players = t.players ∧ (t.giveFiller j g).queue = t.queue ∧
      (t.giveFiller j g).rrw = t.rrw := by
    intro t g
    unfold State.giveFiller
    split
    · exact ⟨fun i other => State.setSlot_slot_ne _ j i _ other, rfl, rfl, rfl⟩
    · exact ⟨fun _ _ => rfl, rfl, rfl, rfl⟩
  have still : (∀ i, i ≠ j → s.slot i = s.slot i) ∧ s.players = s.players ∧ s.queue = s.queue ∧ s.rrw = s.rrw :=
    ⟨fun _ _ => rfl, rfl, rfl, rfl⟩
  unfold State.fillerDone
  split
  · split
    · split
      · exact still
      · split
        · exact given (s.joinGenerator _) _
        · split
          · exact given (s.bindGenerator _ f _ fresh 1) _
          · exact still
    · exact still
  · exact still

/-- What a filled slot and the generators read at the end of the event. -/
theorem filled_finish (s : State) (j : Slot) (p : Program) (ann : AnnFields) (g : GenIx) (x : Generator) :
    (s.filled j p ann g x).finish.slot j = { s.slot j with state := .waiting p ann (some g) } ∧
      (s.filled j p ann g x).finish.generator g = x ∧
      ∀ h, h ≠ g → (s.filled j p ann g x).finish.generator h = s.generator h := by
  refine ⟨(finish_slot _ j).trans (State.setSlot_slot_same ..), (finish_generator _ g).trans ?_, fun h other =>
    (finish_generator _ h).trans ?_⟩
  · exact State.setGenerator_generator_same ..
  · exact State.setGenerator_generator_ne _ _ _ _ other

/-- Settles O36: the answer is discarded; or the filler's fresh generator, or the lowest-numbered FREE one, is given;
or the filler is lost. -/
theorem fillerFetchTaken : Obligations.FillerFetchTaken := by
  intro s r data j p f ann settled last kind one
  have moves := moves_fillerDone s.delivered j f r.gen (!r.overtaken) (r.advance data).answer
  obtain ⟨slots, players, queue, rrw⟩ :=
    fillerDone_frame s.delivered j f r.gen (!r.overtaken) (r.advance data).answer
  have untouched : ∀ t, t = s.delivered → SoundUnchanged s t.finish := by
    rintro t rfl
    exact SoundUnchanged.finish ⟨rfl, rfl, rfl, rfl, rfl, rfl⟩
  refine ⟨_, _, exec_fillerFetchComplete settled last kind, rfl, completed_moves s _ moves, fun other => ?_,
    fun gen state => ?_⟩
  · rw [fillerDone_discarded s.delivered j f r.gen _ _ other]
    exact discarded_delivered s
  have awaits : s.delivered.AwaitsFiller j p ann r.gen := ⟨gen, state⟩
  have passes := checkTone_eq_none_iff (some (highwayOf j)) (r.advance data).answer
  refine ⟨fun failed => untouched _ (awaits.failed f _ fun passed => ?_), fun check tone =>
    ⟨fun i other => (finish_slot _ i).trans (slots i other), (finish_refetch _).trans moves.servingOnly.refetch,
      (finish_players _).trans players, (finish_queue _).trans queue, (finish_rrw _).trans rrw,
      (finish_boot _).trans moves.servingOnly.boot, fun g fresh => ?_,
      fun none => ⟨fun g other free lowest => ?_, fun busy => ?_⟩⟩⟩
  · obtain ⟨check, tone⟩ := passes.mp passed
    exact failed.elim (fun h => h check) fun h => Bool.false_ne_true (h.symm.trans tone)
  · rw [awaits.joins _ (passes.mpr ⟨check, tone⟩) ((freshGenerator_some s.delivered f g one).mpr fresh)]
    exact filled_finish s.delivered j p ann g _
  · have unbound : s.delivered.freshGenerator f = .none := (freshGenerator_none s.delivered f).mpr none
    have first : s.delivered.freeGenerator = some g :=
      (freeGenerator_some s.delivered g).mpr ⟨⟨other, free⟩, fun h below _ => lowest h below⟩
    rw [awaits.binds _ (passes.mpr ⟨check, tone⟩) unbound first]
    exact filled_finish s.delivered j p ann g _
  · exact untouched _ (awaits.unserved _ (passes.mpr ⟨check, tone⟩) ((freshGenerator_none s.delivered f).mpr none)
      ((freeGenerator_none s.delivered).mpr busy))

end Sys2Proof.Machine

namespace Sys2Proof.Machine

/-! ### The ends of a mark's timers, one kind after the other (log 22) -/

/-- The ends no longer wait, and every cadence step at its end has moved on. -/
def State.stepsEnded (s : State) : State :=
  allGenerators.foldl State.endCadenceStep (s.withFm { s.fm with endsOpen := false })

/-- After the cadence steps every join window with no frames left has closed. -/
def State.windowsClosed (s : State) : State := allPlayers.foldl State.closeWindow s.stepsEnded

/-- After the windows every dwell that is passed has expired. -/
def State.dwellsExpired (s : State) : State :=
  s.windowsClosed.dueDwells.foldl (fun t j => (t.takeDwell j).finish) s.windowsClosed

theorem takeEnds_open {s : State} (h : ¬ s.Settled) :
    s.takeEnds = State.takeTimeouts s.dwellsExpired.queue.length s.dwellsExpired :=
  if_pos (Bool.eq_true_of_not_eq_false h)

/-- Commands that always complete are run as their effects are. -/
theorem afterAll_map {α : Type} {f : State → α → State} {c : α → Instr} (h : ∀ t a, exec (c a) t = .next (f t a))
    (l : List α) : ∀ s : State, s.afterAll (l.map c) = l.foldl f s := by
  induction l with
  | nil => exact fun _ => rfl
  | cons a l ih =>
    intro s
    refine Eq.trans ?_ (ih (f s a))
    unfold State.afterAll
    rw [List.map_cons, List.foldl_cons, h]

theorem afterAll_append (s : State) (l m : List Instr) : s.afterAll (l ++ m) = (s.afterAll l).afterAll m :=
  List.foldl_append

/-- Of at most n timeouts k are taken, each by its command. -/
theorem takeTimeouts_commands (n : Nat) : ∀ s : State, ∃ k, k ≤ n ∧
    State.takeTimeouts n s = s.afterAll (List.replicate k .waitTimeout) := by
  induction n with
  | zero => exact fun s => ⟨0, Nat.le_refl 0, rfl⟩
  | succ n ih =>
    intro s
    unfold State.takeTimeouts
    split
    · obtain ⟨k, within, taken⟩ := ih s.takeTimeout.finish
      exact ⟨k + 1, Nat.succ_le_succ within, taken⟩
    · exact ⟨0, Nat.zero_le _, rfl⟩

theorem dwellsExpired_commands (s : State) : s.dwellsExpired = (s.withFm { s.fm with endsOpen := false }).afterAll
    ((List.finRange 16).map .cadenceStepEnd ++ (List.finRange 8).map .joinWindowClose ++
      s.windowsClosed.dueDwells.map .dwellExpiry) := by
  rw [afterAll_append, afterAll_append, afterAll_map (f := State.endCadenceStep) fun _ _ => rfl,
    afterAll_map (f := State.closeWindow) fun _ _ => rfl,
    afterAll_map (f := fun t j => (t.takeDwell j).finish) fun _ _ => rfl, ← allGenerators_eq, ← allPlayers_eq]
  rfl

/-! ### Cadence steps and join windows (R98, R115) -/

/-- A cadence whose steps last does not stand at a step's end once that end is taken. -/
theorem nextStep_ne_ended (cadence : List CadenceStep) (stands : Option (Nat × Nat)) (i : Nat) (some : cadence ≠ [])
    (lasting : ∀ c ∈ cadence, c.duration ≠ 0) : nextStep cadence stands ≠ .some (i, 0) := by
  unfold nextStep
  split
  · rename_i i'
    have inside : (i' + 1) % cadence.length < cadence.length := Nat.mod_lt _ (List.length_pos_of_ne_nil some)
    have lasts := lasting _ (List.getElem_mem inside)
    dsimp only
    rw [List.getElem?_eq_getElem inside]
    intro ended
    have zero : cadence[(i' + 1) % cadence.length].duration.toNat * 40 = 0 :=
      congrArg Prod.snd (Option.some.inj ended)
    exact lasts (BitVec.eq_of_toNat_eq (by simpa using zero))
  · rename_i other
    exact other i

theorem Generator.stepEnd_ne_ended {x : Generator} {b : ToneBinding} (bound : x.stepEnd.binding = some b) (i : Nat)
    (some : b.copy.cadence ≠ []) (lasting : ∀ c ∈ b.copy.cadence, c.duration ≠ 0) : b.cadence ≠ .some (i, 0) := by
  unfold Generator.stepEnd at bound
  split at bound
  · rename_i unbound
    rw [unbound] at bound
    cases bound
  · cases bound
    exact nextStep_ne_ended _ _ i some lasting

theorem stepsEnded_generator (s : State) (g : GenIx) : s.stepsEnded.generator g = (s.generator g).stepEnd := by
  obtain ⟨u, same, ended⟩ := foldl_at State.generator State.endCadenceStep
    (fun t i k h => State.setGenerator_generator_ne _ _ _ _ h) allGenerators (by decide) g
    (by rw [allGenerators_eq]; exact List.mem_finRange g) (s.withFm { s.fm with endsOpen := false })
  unfold State.stepsEnded
  rw [ended, State.endCadenceStep, State.setGenerator_generator_same, same]
  rfl

/-- What no cadence step and no window changes. -/
theorem windowsClosed_kept {α : Type} (read : State → α) (generator : ∀ t g x, read (State.setGenerator t g x) = read t)
    (window : ∀ t n, read (State.closeWindow t n) = read t) (s : State) :
    read s.windowsClosed = read (s.withFm { s.fm with endsOpen := false }) :=
  (foldl_kept read State.closeWindow window _ _).trans
    (foldl_kept read State.endCadenceStep (fun _ _ => generator _ _ _) _ _)

theorem windowsClosed_slot (s : State) (j : Slot) : s.windowsClosed.slot j = s.slot j :=
  windowsClosed_kept (fun t => t.slot j) (fun _ _ _ => rfl)
    (fun t n => by unfold State.slot; rw [(onlyPlayer_closeWindow t n).slots]) s

theorem windowsClosed_queue (s : State) : s.windowsClosed.queue = s.queue :=
  windowsClosed_kept State.queue (fun _ _ _ => rfl) (fun t n => (onlyPlayer_closeWindow t n).queue) s

theorem windowsClosed_fm (s : State) : s.windowsClosed.fm = { s.fm with endsOpen := false } :=
  windowsClosed_kept State.fm (fun _ _ _ => rfl) (fun t n => (moves_closeWindow t n).servingOnly.fm) s

theorem windowsClosed_generator (s : State) (g : GenIx) : s.windowsClosed.generator g = (s.generator g).stepEnd :=
  (foldl_kept (fun t => t.generator g) State.closeWindow
    (fun t n => generator_of_gens (onlyPlayer_closeWindow t n).gens g) _ _).trans (stepsEnded_generator s g)

theorem windowsClosed_player (s : State) (n : PlayerIx) (h : (s.windowsClosed.player n).framesLeft = 0) :
    (s.windowsClosed.player n).windowOpen = false := by
  have closed := closeWindows_closed allPlayers s.stepsEnded n (.inl (by rw [allPlayers_eq]; exact List.mem_finRange n))
  exact Bool.eq_false_of_not_eq_true fun isOpen => closed isOpen h

end Sys2Proof.Machine

namespace Sys2Proof.Machine

/-! ### Dwells and wait timeouts (R88, R148) -/

/-- Slot j is in no dwell whose deadline is passed. -/
def State.NoDwellDue (s : State) (j : Slot) : Prop :=
  ∀ p g d, (s.slot j).state = .tone p g (some d) → deadlinePassed s.fm.frame d.deadline = false

/-- What the ends of dwells and waits leave: the Frame Monitor and the players as they were, no generator newly bound,
and no dwell newly armed. -/
structure TimersTaken (s t : State) : Prop where
  fm : t.fm = s.fm
  players : t.players = s.players
  bound : ∀ g b, (t.generator g).binding = some b → (s.generator g).binding = some b
  armed : ∀ j p g d, (t.slot j).state = .tone p g (some d) → (s.slot j).state = .tone p g (some d)

theorem TimersTaken.refl (s : State) : TimersTaken s s := ⟨rfl, rfl, fun _ _ => id, fun _ _ _ _ => id⟩

theorem TimersTaken.trans {s t u : State} (a : TimersTaken s t) (b : TimersTaken t u) : TimersTaken s u :=
  ⟨b.fm.trans a.fm, b.players.trans a.players, fun g x h => a.bound g x (b.bound g x h),
    fun j p g d h => a.armed j p g d (b.armed j p g d h)⟩

theorem TimersTaken.finish {s t : State} (h : TimersTaken s t) : TimersTaken s t.finish :=
  ⟨(finish_fm t).trans h.fm, (finish_players t).trans h.players, fun g b => by rw [finish_generator]; exact h.bound g b,
    fun j p g d => by rw [finish_slot]; exact h.armed j p g d⟩

theorem TimersTaken.noDwellDue {s t : State} (h : TimersTaken s t) {j : Slot} (free : s.NoDwellDue j) :
    t.NoDwellDue j := fun p g d tone => by
  rw [h.fm]
  exact free p g d (h.armed j p g d tone)

theorem releasedGenerator_binding {g : GenIx} {x : Generator} {b : ToneBinding}
    (h : (releasedGenerator g x).binding = some b) : x.binding = some b := by
  unfold releasedGenerator at h
  split at h
  · cases h
  · exact h

/-- A change at which slot j's context alone changes, and that to a state without a dwell. -/
theorem timersTaken_of_unarmed {s t : State} {j : Slot} (fm : t.fm = s.fm) (players : t.players = s.players)
    (bound : ∀ g b, (t.generator g).binding = some b → (s.generator g).binding = some b)
    (others : ∀ i, i ≠ j → t.slot i = s.slot i) (unarmed : ∀ p g d, (t.slot j).state ≠ .tone p g (some d)) :
    TimersTaken s t := ⟨fm, players, bound, fun i p g d armed => by
  by_cases same : i = j
  · exact absurd (same ▸ armed) (unarmed p g d)
  · exact others i same ▸ armed⟩

/-- A dwell that is due expires, and leaves its slot without one. -/
theorem takeDwell_due (s : State) (j : Slot) (due : ¬ s.NoDwellDue j) : TimersTaken s (s.takeDwell j) ∧
    (∀ p g d, ((s.takeDwell j).slot j).state ≠ .tone p g (some d)) ∧ (s.takeDwell j).queue = s.queue := by
  unfold State.NoDwellDue at due
  push Not at due
  obtain ⟨p, g, d, tone, due⟩ := due
  have passed := Bool.eq_true_of_not_eq_false due
  have fm := (moves_takeDwell s j).servingOnly.fm
  cases next : d.next with
  | none =>
    rw [takeDwell_last s j p g d tone passed next] at fm ⊢
    have unarmed : ∀ q h e, (((s.dwellTold j p none).setSlot j
        { s.slot j with state := .tone p g none }).slot j).state ≠ .tone q h (some e) := by
      intro q h e
      rw [State.setSlot_slot_same]
      nofun
    refine ⟨timersTaken_of_unarmed fm (takeOutcome_players s _) (fun h b => ?_) (fun i other => ?_) unarmed, unarmed,
      takeOutcome_queue s _⟩
    · exact (congrArg (fun x => x.binding = some b) (takeOutcome_generator s _ h)).mp
    · exact (State.setSlot_slot_ne _ j i _ other).trans (takeOutcome_slot s _ i)
  | some q =>
    rw [takeDwell_next s j p q g d tone passed next] at fm ⊢
    have unarmed : ∀ p' h e, (((s.dwellLeft j p g q).attach j q).slot j).state ≠ .tone p' h (some e) := by
      intro p' h e
      rw [dwellNext_slot, (enter_state _ j _).1]
      split <;> nofun
    refine ⟨timersTaken_of_unarmed fm ((attach_players _ j q).trans (dwellLeft_players ..)) (fun h b => ?_)
      (fun i other => ?_) unarmed, unarmed, (attach_queue _ j q).trans (dwellLeft_queue ..)⟩
    · rw [dwellNext_generator]
      split
      · rename_i same
        exact same ▸ releasedGenerator_binding
      · exact id
    · rw [dwellNext_slot, enter_slot, if_neg other, dwellLeft_slot]

theorem takeDwell_taken (s : State) (j : Slot) :
    TimersTaken s (s.takeDwell j) ∧ (s.takeDwell j).NoDwellDue j ∧ (s.takeDwell j).queue = s.queue := by
  by_cases free : s.NoDwellDue j
  · rw [takeDwell_untaken s j free]
    exact ⟨.refl s, free, rfl⟩
  · obtain ⟨taken, unarmed, queue⟩ := takeDwell_due s j free
    exact ⟨taken, fun p g d armed => absurd armed (unarmed p g d), queue⟩

theorem mem_dueDwells (s : State) (j : Slot) : j ∈ s.dueDwells ↔
    ∃ p g d, (s.slot j).state = .tone p g (some d) ∧ deadlinePassed s.fm.frame d.deadline = true := by
  unfold State.dueDwells
  rw [List.mem_filter, and_iff_right (List.mem_finRange j)]
  split
  · rename_i p g d tone
    exact ⟨fun due => ⟨p, g, d, tone, due⟩, fun ⟨_, _, _, armed, due⟩ => by
      cases tone.symm.trans armed
      exact due⟩
  · rename_i unarmed
    exact iff_of_false Bool.false_ne_true fun ⟨p, g, d, armed, _⟩ => unarmed p g d armed

theorem dueDwells_ordered (s : State) : s.dueDwells.Pairwise (fun i j => i < j) :=
  (List.pairwise_lt_finRange 256).filter _

theorem takeDwells_taken (l : List Slot) : ∀ s : State,
    TimersTaken s (l.foldl (fun t j => (t.takeDwell j).finish) s) := by
  induction l with
  | nil => exact .refl
  | cons j l ih => exact fun s => (takeDwell_taken s j).1.finish.trans (ih _)

/-- After the dwells that were due have expired, none is. -/
theorem dwellsExpired_noDwellDue (s : State) (j : Slot) : s.dwellsExpired.NoDwellDue j := by
  by_cases due : j ∈ s.windowsClosed.dueDwells
  · obtain ⟨older, newer, order⟩ := List.append_of_mem due
    unfold State.dwellsExpired
    rw [order, List.foldl_append, List.foldl_cons]
    refine (takeDwells_taken newer _).noDwellDue ?_
    exact (TimersTaken.refl _).finish.noDwellDue (takeDwell_taken _ j).2.1
  · refine (takeDwells_taken _ _).noDwellDue fun p g d armed => Bool.eq_false_of_not_eq_true fun passed => ?_
    exact due ((mem_dueDwells _ j).mpr ⟨p, g, d, armed, passed⟩)

theorem dwellsExpired_queue (s : State) : s.dwellsExpired.queue = s.queue :=
  (foldl_kept State.queue _ (fun t j => (finish_queue _).trans (takeDwell_taken t j).2.2) _ _).trans
    (windowsClosed_queue s)

theorem leaveWaiting_binding {s : State} {j : Slot} {filler : Option GenIx} {g : GenIx} {b : ToneBinding}
    (h : ((s.leaveWaiting j filler).generator g).binding = some b) : (s.generator g).binding = some b := by
  unfold State.leaveWaiting at h
  rw [releaseFiller_generator] at h
  split at h
  · exact releasedGenerator_binding h
  · exact h

theorem overflowSlot_binding (s : State) (j : Slot) (p : Program) (k : ReportKind) (d : Word) (g : GenIx) :
    ((s.overflowSlot j p k d).generator g).binding = (s.generator g).binding := by
  rw [overflowSlot_generator, joinGenerator_generator]
  split
  · rename_i same
    rw [same]
  · rfl

/-- A timeout takes the slot's entry out of the queue. -/
theorem takeTimeout_taken (s : State) (e : WaitEntry) (h : s.timedOut = some e) :
    TimersTaken s s.takeTimeout ∧ s.takeTimeout.queue = s.queue.filter (fun x => x.slot != e.slot) := by
  have fm := (moves_takeTimeout s).servingOnly.fm
  unfold State.takeTimeout at fm ⊢
  rw [h] at fm ⊢
  dsimp only at fm ⊢
  split at fm
  · refine ⟨timersTaken_of_unarmed (j := e.slot) fm ?_ (fun g b bound => ?_) (fun i other => ?_) fun p g d => ?_, ?_⟩
    · exact (slotOutcome_players _ _ _ _ _).trans (releaseFiller_players _ _)
    · rw [overflowSlot_binding] at bound
      exact leaveWaiting_binding bound
    · rw [overflowSlot_slot, enter_slot, if_neg other, joinGenerator_slot, leaveWaiting_slot]
    · rw [overflowSlot_slot, (enter_state _ e.slot _).1]
      nofun
    · exact (slotOutcome_queue _ _ _ _ _).trans (leaveWaiting_queue s e.slot _)
  · exact ⟨⟨fm, rfl, fun _ _ => id, fun _ _ _ _ => id⟩, rfl⟩

/-- As many timeouts as the queue has entries leave none whose deadline is passed. -/
theorem takeTimeouts_taken (n : Nat) : ∀ s : State, s.queue.length ≤ n →
    TimersTaken s (State.takeTimeouts n s) ∧ (State.takeTimeouts n s).timedOut = none := by
  induction n with
  | zero =>
    intro s within
    refine ⟨.refl s, ?_⟩
    unfold State.takeTimeouts State.timedOut
    rw [List.length_eq_zero_iff.mp (Nat.le_zero.mp within)]
    rfl
  | succ n ih =>
    intro s within
    unfold State.takeTimeouts
    cases due : s.timedOut with
    | none => exact ⟨.refl s, due⟩
    | some e =>
      obtain ⟨taken, queue⟩ := takeTimeout_taken s e due
      have shorter : s.takeTimeout.finish.queue.length < s.queue.length := by
        rw [finish_queue, queue]
        exact List.length_filter_lt_length_iff_exists.mpr ⟨e, List.mem_of_find?_eq_some due, by simp⟩
      obtain ⟨rest, none⟩ := ih s.takeTimeout.finish (by omega)
      exact ⟨taken.finish.trans rest, none⟩

theorem timedOut_none {s : State} (h : s.timedOut = none) :
    ∀ e ∈ s.queue, deadlinePassed s.fm.frame e.deadline = false := fun e mem =>
  Bool.eq_false_of_not_eq_true (List.find?_eq_none.mp h e mem)

end Sys2Proof.Machine

namespace Sys2Proof.Machine

/-! ### Every command but RESET and the ends themselves takes the ends first (log 4) -/

theorem exec_takeEnds (c : Instr) (s : State) (reset : ∀ b, c ≠ .reset b) (cadence : ∀ g, c ≠ .cadenceStepEnd g)
    (window : ∀ n, c ≠ .joinWindowClose n) (dwell : ∀ j, c ≠ .dwellExpiry j) (wait : c ≠ .waitTimeout) :
    exec c s = exec c s.takeEnds := by
  cases c with
  | reset b => exact absurd rfl (reset b)
  | cadenceStepEnd g => exact absurd rfl (cadence g)
  | joinWindowClose n => exact absurd rfl (window n)
  | dwellExpiry j => exact absurd rfl (dwell j)
  | waitTimeout => exact absurd rfl wait
  | _ =>
    simp only [exec, execConnectionRead, execVirtualRead, execPassingRequest, execPassingCompletion,
      execAdoptionCheck, execConnectionStore, execProgramStore, execConsumerStore, execCommandStore, execWindowExpiry,
      execFlywheelExpiry, execLoadingWriteComplete, execRecordReadComplete, execCongestionFetchComplete,
      execRingClearWriteComplete, execRunningWriteComplete, execFailureWriteComplete, execAttachFetchComplete,
      execFillerFetchComplete, execRefetchComplete, execBindingFetchComplete, execStepFetchComplete,
      execFillComplete, execReportWriteComplete, execBurstWordComplete, execOwnBurstStart, takeEnds_takeEnds]

/-- Where ends wait, taking them all is running their commands in turn. -/
theorem takeEnds_commands {s : State} (h : ¬ s.Settled) : ∃ k, k ≤ s.queue.length ∧
    s.takeEnds = (s.withFm { s.fm with endsOpen := false }).afterAll
      ((List.finRange 16).map .cadenceStepEnd ++ (List.finRange 8).map .joinWindowClose ++
        s.windowsClosed.dueDwells.map .dwellExpiry ++ List.replicate k .waitTimeout) := by
  obtain ⟨k, within, taken⟩ := takeTimeouts_commands s.dwellsExpired.queue.length s.dwellsExpired
  rw [dwellsExpired_queue] at within
  exact ⟨k, within, by rw [takeEnds_open h, taken, afterAll_append, ← dwellsExpired_commands]⟩

/-- What is left after all the ends: no window to close, no dwell and no wait past its deadline, and every generator's
cadence as the cadence steps' ends left it. -/
structure EndsTaken (s t : State) : Prop where
  cadence : ∀ g b, (t.generator g).binding = some b → (s.generator g).stepEnd.binding = some b
  window : ∀ n, (t.player n).framesLeft = 0 → (t.player n).windowOpen = false
  dwell : ∀ j, t.NoDwellDue j
  wait : t.timedOut = none

theorem takeEnds_taken {s : State} (h : ¬ s.Settled) : EndsTaken s s.takeEnds := by
  obtain ⟨waits, none⟩ := takeTimeouts_taken _ s.dwellsExpired (Nat.le_refl _)
  rw [← takeEnds_open h] at waits none
  have timers : TimersTaken s.windowsClosed s.takeEnds := (takeDwells_taken _ _).trans waits
  refine ⟨fun g b bound => ?_, fun n => ?_, fun j => waits.noDwellDue (dwellsExpired_noDwellDue s j), none⟩
  · rw [← windowsClosed_generator]
    exact timers.bound g b bound
  · unfold State.player
    rw [timers.players]
    exact windowsClosed_player s n

/-- Settles O2: the commands of the ends in turn, what they leave, and each other command after them. -/
theorem endsTakenFirst : Obligations.EndsTakenFirst := by
  intro s
  have kept := takeEnds_kept s
  have frame : s.takeEnds.fm.frame = s.fm.frame := by rw [takeEnds_fm]
  refine ⟨kept.fm, kept.pairing, kept.boot, kept.refetch, kept.pending, takeEnds_settled s, fun waits => ?_,
    fun empty => ?_, fun c => ?_⟩
  · obtain ⟨k, within, commands⟩ := takeEnds_commands waits
    have taken := takeEnds_taken waits
    refine ⟨⟨s.windowsClosed.dueDwells, k, dueDwells_ordered _, within, fun j => ?_, commands⟩,
      fun g b i bound some lasting => Generator.stepEnd_ne_ended (taken.cadence g b bound) i some lasting, taken.window,
      fun j p g d tone => ?_, fun e mem => ?_⟩
    · rw [mem_dueDwells, windowsClosed_slot, windowsClosed_fm]
    · rw [← frame]
      exact taken.dwell j p g d tone
    · rw [← frame]
      exact timedOut_none taken.wait e mem
  · unfold step idle
    rw [empty]
  · cases c with
    | reset | cadenceStepEnd | joinWindowClose | dwellExpiry | waitTimeout => trivial
    | _ => exact exec_takeEnds _ s nofun nofun nofun nofun nofun

end Sys2Proof.Machine

namespace Sys2Proof.Machine

/-! ### Join windows and cadence steps end (R98, R115) -/

theorem Player.isOpen_iff (pl : Player) :
    pl.isOpen = true ↔ pl.state = .running ∧ pl.fresh = some true ∧ pl.windowOpen = true := by
  unfold Player.isOpen
  simp only [Bool.and_eq_true, beq_iff_eq, and_assoc]

theorem Player.isOpen_shut (pl : Player) (h : pl.windowOpen = false) : pl.isOpen = false :=
  Bool.eq_false_of_not_eq_true fun isOpen => by
    rw [Player.isOpen_iff, h] at isOpen
    exact Bool.false_ne_true isOpen.2.2

theorem Generator.stepEnd_next (x : Generator) (b : ToneBinding) (i : Nat) (c : CadenceStep)
    (bound : x.binding = some b) (ended : b.cadence = some (i, 0))
    (next : b.copy.cadence[(i + 1) % b.copy.cadence.length]? = some c) : x.stepEnd = { x with
      binding := some { b with cadence := some ((i + 1) % b.copy.cadence.length, c.duration.toNat * 40) } } := by
  unfold Generator.stepEnd
  rw [bound]
  simp only [ended, nextStep, next]

/-- A cadence step with frames left, or a tone without a cadence, does not end. -/
theorem Generator.stepEnd_still (x : Generator) (h : ∀ b i, x.binding = some b → b.cadence ≠ some (i, 0)) :
    x.stepEnd = x := by
  have kept : ∀ b, x.binding = some b → nextStep b.copy.cadence b.cadence = b.cadence := by
    intro b bound
    unfold nextStep
    split
    · rename_i i ended
      exact (h b i bound ended).elim
    · rfl
  unfold Generator.stepEnd
  split
  · rfl
  · rename_i b bound
    rw [kept b bound, ← bound]

/-- Settles O39: the window closes or stands, and the cadence step ends or stands. -/
theorem windowAndCadenceEnds : Obligations.WindowAndCadenceEnds := by
  refine ⟨Player.isOpen_iff, fun s n => ⟨_, rfl, fun spent => ?_, fun left => if_neg left⟩,
    fun s g => ⟨_, rfl, fun b i c bound ended next => ?_, fun still => ?_⟩⟩
  · have closes : s.closeWindow n = s.setPlayer n { s.player n with windowOpen := false } := if_pos spent
    rw [closes]
    exact ⟨rfl, Player.isOpen_shut _ (by rw [State.setPlayer_player_same])⟩
  · exact congrArg (s.setGenerator g) (Generator.stepEnd_next _ b i c bound ended next)
  · exact (congrArg (s.setGenerator g) (Generator.stepEnd_still _ still)).trans (setGenerator_self s g)

end Sys2Proof.Machine

namespace Sys2Proof.Machine

/-! ### The marks ahead of a player's output (R111, R116, R130, R139; log 16) -/

theorem State.setPlayer_setPlayer (s : State) (n : PlayerIx) (x y : Player) :
    (s.setPlayer n x).setPlayer n y = s.setPlayer n y := by
  simp [State.setPlayer, State.withPlayers]

/-- The marks that a half holds. -/
def Half.marks : Half → Nat
  | .full (.mark _) => 1
  | _ => 0

/-- The mark of a pending fault. -/
def WalkState.marks : WalkState → Nat
  | .halting _ => 1
  | _ => 0

/-- The mark of a current step. -/
def CurrentStep.marks : CurrentStep → Nat
  | .join _ => 1
  | .endPass _ => 1
  | _ => 0

/-- The most marks that a next entry can come to with no further answer: the held step's, and then the fault of an
unreachable successor. -/
def NextEntry.marks : NextEntry → Nat
  | .held _ _ => 2
  | .unreachable _ _ => 1
  | _ => 0

/-- The most marks that a walker can place with no further answer. -/
def Walker.marks (w : Walker) : Nat := w.state.marks + w.current.elim 0 CurrentStep.marks + w.next.marks

/-- The most marks that a player's output can meet at one event. -/
def Player.marksAhead (pl : Player) : Nat := pl.halfA.marks + pl.halfB.marks + pl.walker.marks

theorem CurrentStep.marks_le (x : Option CurrentStep) : x.elim 0 CurrentStep.marks ≤ 1 := by
  rcases x with _ | (_ | _ | _ | _) <;> simp [CurrentStep.marks]

theorem Player.marksAhead_le (pl : Player) : pl.marksAhead ≤ 6 := by
  have half : ∀ x : Half, x.marks ≤ 1 := fun x => by unfold Half.marks; split <;> decide
  have state : pl.walker.state.marks ≤ 1 := by unfold WalkState.marks; split <;> decide
  have next : pl.walker.next.marks ≤ 2 := by unfold NextEntry.marks; split <;> decide
  have current := CurrentStep.marks_le pl.walker.current
  have a := half pl.halfA
  have b := half pl.halfB
  unfold Player.marksAhead Walker.marks
  omega

theorem Player.half_marks (pl : Player) (h : HalfName) :
    pl.halfA.marks + pl.halfB.marks = (pl.half h).marks + (pl.half h.other).marks := by
  cases h
  · rfl
  · exact Nat.add_comm _ _

theorem Player.setHalf_marks (pl : Player) (h : HalfName) (x : Half) :
    (pl.setHalf h x).halfA.marks + (pl.setHalf h x).halfB.marks = x.marks + (pl.half h.other).marks := by
  cases h
  · rfl
  · exact Nat.add_comm _ _

/-- A mark that the walker places into a half is one that it had ahead. -/
theorem Player.setHalf_marksAhead_le (pl : Player) (h : HalfName) (x : Half) (w : Walker)
    (placed : x.marks + w.marks ≤ pl.walker.marks) :
    { pl.setHalf h x with walker := w }.marksAhead ≤ pl.marksAhead := by
  have before := pl.half_marks h
  have after := pl.setHalf_marks h x
  unfold Player.marksAhead
  dsimp only
  omega

theorem modifyWalker_marksAhead_le (s : State) (n : PlayerIx) (f : Walker → Walker)
    (h : (f (s.player n).walker).marks ≤ (s.player n).walker.marks) :
    ((s.modifyWalker n f).player n).marksAhead ≤ (s.player n).marksAhead := by
  rw [modifyWalker_player]
  exact Nat.add_le_add_left h _

theorem takeStep_state (start offset : Nat) (w : Walker) (st : PlaylistStep) (k : StepKind) :
    (takeStep start w offset st k).1.state = w.state := by
  cases k with
  | ret => cases e : w.stack <;> simp only [takeStep, e]
  | _ => rfl

/-- A successor is fetched, or its fault is the one mark that it comes to. -/
theorem setNext_walker (s : State) (n : PlayerIx) (o : Nat) : ∃ x : NextEntry, x.marks ≤ 1 ∧
    (s.setNext n o).player n = { s.player n with walker := { (s.player n).walker with next := x } } := by
  unfold State.setNext
  split
  · rename_i cause _
    exact ⟨.unreachable o cause, Nat.le_refl 1, modifyWalker_player s n _⟩
  · exact ⟨.fetching o, Nat.zero_le 1, (enqueue_player ..).trans (modifyWalker_player s n _)⟩

theorem promote_marksAhead_le (s t : State) (n : PlayerIx) (walking : (s.player n).walker.state = .walking)
    (h : s.promote n = some t) : (t.player n).marksAhead ≤ (s.player n).marksAhead := by
  have halts : ∀ cause, 1 ≤ (s.player n).walker.next.marks →
      ((s.player n).walker.halt cause).marks ≤ (s.player n).walker.marks := fun cause some =>
    some.trans (Nat.le_add_left _ _)
  unfold State.promote at h
  dsimp only at h
  split at h
  · cases h
  · cases h
  · rename_i next
    cases h
    exact modifyWalker_marksAhead_le s n _ (halts _ (by rw [next]; exact Nat.le_refl 1))
  · rename_i offset st next
    have held : (s.player n).walker.next.marks = 2 := by rw [next]; rfl
    split at h
    · rename_i k _ _
      cases h
      obtain ⟨x, few, player⟩ := setNext_walker
        (s.modifyWalker n fun _ => (takeStep (s.player n).start (s.player n).walker offset st k).1) n
        (takeStep (s.player n).start (s.player n).walker offset st k).2
      have current := CurrentStep.marks_le (takeStep (s.player n).start (s.player n).walker offset st k).1.current
      rw [player, modifyWalker_player]
      unfold Player.marksAhead Walker.marks
      dsimp only
      rw [takeStep_state, walking, held]
      omega
    · cases h
      exact modifyWalker_marksAhead_le s n _ (halts _ (by rw [held]; decide))
    · cases h

theorem place_marksAhead_le (s t : State) (n : PlayerIx) (h : s.place n = some t) :
    (t.player n).marksAhead ≤ (s.player n).marksAhead := by
  unfold State.place at h
  dsimp only at h
  split at h <;> cases h
  · rename_i walking play
    rw [enqueue_player, State.setPlayer_player_same]
    refine Player.setHalf_marksAhead_le _ _ _ _ ?_
    split_ifs <;> simp [Walker.marks, Half.marks, walking, play, WalkState.marks, CurrentStep.marks]
  all_goals
    rw [State.setPlayer_player_same]
    refine Player.setHalf_marksAhead_le _ _ _ _ ?_
    simp [Walker.marks, Half.marks, WalkState.marks, CurrentStep.marks, *]

theorem walk_marksAhead_le (n : PlayerIx) (k : Nat) :
    ∀ s : State, ((State.walk n k s).player n).marksAhead ≤ (s.player n).marksAhead := by
  induction k with
  | zero => exact fun _ => Nat.le_refl _
  | succ k ih =>
    intro s
    unfold State.walk
    split
    · exact Nat.le_refl _
    · rename_i t moved
      refine (ih t).trans ?_
      unfold State.walkOnce at moved
      dsimp only at moved
      split at moved
      · exact place_marksAhead_le s t n moved
      · split at moved
        · rename_i walks
          exact promote_marksAhead_le s t n walks.1 moved
        · cases moved

/-- The mark taken at the head is one mark less ahead. -/
theorem emptyCurrent_marksAhead_lt (s : State) (n : PlayerIx) (m : MarkKind)
    (head : (s.player n).half (s.player n).current = .full (.mark m)) :
    ((s.emptyCurrent n).player n).marksAhead < (s.player n).marksAhead := by
  refine (walk_marksAhead_le n walkBound _).trans_lt ?_
  have before := (s.player n).half_marks (s.player n).current
  have after := (s.player n).setHalf_marks (s.player n).current .empty
  rw [head] at before
  rw [State.modifyPlayer_player_same]
  simp only [Player.marksAhead, Player.setHalf_walker, Half.marks] at *
  omega

end Sys2Proof.Machine

namespace Sys2Proof.Machine

/-! ### What a mark leaves of the output (R114, R119 to R121) -/

/-- Neither the output's halves and current half nor the walker have changed. -/
structure Player.SameOutput (x y : Player) : Prop where
  walker : y.walker = x.walker
  halfA : y.halfA = x.halfA
  halfB : y.halfB = x.halfB
  current : y.current = x.current

theorem Player.SameOutput.refl (x : Player) : x.SameOutput x := ⟨rfl, rfl, rfl, rfl⟩

theorem Player.SameOutput.trans {x y z : Player} (a : x.SameOutput y) (b : y.SameOutput z) : x.SameOutput z :=
  ⟨b.walker.trans a.walker, b.halfA.trans a.halfA, b.halfB.trans a.halfB, b.current.trans a.current⟩

theorem Player.SameOutput.half {x y : Player} (a : x.SameOutput y) : y.half y.current = x.half x.current := by
  unfold Player.half
  rw [a.current, a.halfA, a.halfB]

theorem Player.SameOutput.marksAhead {x y : Player} (a : x.SameOutput y) : y.marksAhead = x.marksAhead := by
  unfold Player.marksAhead
  rw [a.walker, a.halfA, a.halfB]

theorem sameOutput_foldl (n : PlayerIx) (f : State → Slot → State)
    (h : ∀ (s : State) j, (s.player n).SameOutput ((f s j).player n)) (l : List Slot) :
    ∀ s : State, (s.player n).SameOutput ((l.foldl f s).player n) := by
  induction l with
  | nil => exact fun s => .refl _
  | cons j l ih => exact fun s => (h s j).trans (ih _)

theorem sameOutput_modifyPlayer (s : State) (n : PlayerIx) (f : Player → Player)
    (h : (s.player n).SameOutput (f (s.player n))) : (s.player n).SameOutput ((s.modifyPlayer n f).player n) := by
  rw [State.modifyPlayer_player_same]
  exact h

theorem sameOutput_joinWaiting (n : PlayerIx) (s : State) (j : Slot) :
    (s.player n).SameOutput ((s.joinWaiting n j).player n) := by
  unfold State.joinWaiting
  split
  · rename_i p ann filler _
    rw [State.joinPlayer, State.modifyPlayer_player_same, enter_player, leaveWaiting_player]
    exact ⟨rfl, rfl, rfl, rfl⟩
  · exact .refl _

theorem sameOutput_joinPoint (s : State) (n : PlayerIx) : (s.player n).SameOutput ((s.joinPoint n).player n) := by
  unfold State.joinPoint
  split
  · exact (sameOutput_foldl n _ (sameOutput_joinWaiting n) _ s).trans
      (sameOutput_modifyPlayer _ n _ ⟨rfl, rfl, rfl, rfl⟩)
  · exact sameOutput_modifyPlayer s n _ ⟨rfl, rfl, rfl, rfl⟩

theorem sameOutput_countListen (n : PlayerIx) (s : State) (j : Slot) :
    (s.player n).SameOutput ((s.countListen j).player n) := by
  unfold State.countListen
  split <;> exact .refl _

theorem sameOutput_completeListener (n : PlayerIx) (cause : Option PlaylistFault) (s : State) (j : Slot) :
    (s.player n).SameOutput ((s.completeListener n cause j).player n) := by
  have left : (s.player n).SameOutput ((s.modifyPlayer n fun pl =>
      { pl with listeners := pl.listeners.filter (fun i => i != j) }).player n) :=
    sameOutput_modifyPlayer s n _ ⟨rfl, rfl, rfl, rfl⟩
  unfold State.completeListener
  dsimp only
  split
  · unfold State.player at *
    rw [attachOrIdle_players, takeOutcome_players]
    exact left
  · exact left

theorem playOn_joins {s : State} {n : PlayerIx} (heard : (s.player n).listeners ≠ []) :
    s.playOn n = s.joinPoint n := by
  unfold State.playOn
  dsimp only
  split <;> exact if_neg fun none => heard none.1

theorem playOn_takes {s : State} {n : PlayerIx} {p : Program} (fresh : (s.player n).fresh = some true)
    (program : (s.player n).program = some p) (waits : s.hasWaiter p = true) : s.playOn n = s.joinPoint n := by
  unfold State.playOn
  simp [program, fresh, waits]

theorem playOn_releases {s : State} {n : PlayerIx} {p : Program} (program : (s.player n).program = some p)
    (none : (s.player n).listeners = []) (left : (s.player n).fresh = some false ∨ s.hasWaiter p = false) :
    s.playOn n = s.releasePlayer n := by
  unfold State.playOn
  rcases left with stale | unawaited
  · simp [program, none, stale]
  · simp [program, none, unawaited]

theorem playOn_cases (s : State) (n : PlayerIx) : s.playOn n = s.releasePlayer n ∨ s.playOn n = s.joinPoint n := by
  unfold State.playOn
  exact ite_eq_or_eq _ _ _

theorem sameOutput_playOn (s : State) (n : PlayerIx) (run : ((s.playOn n).player n).state = .running) :
    (s.player n).SameOutput ((s.playOn n).player n) := by
  rcases playOn_cases s n with e | e <;> rw [e] at run ⊢
  · exact absurd run (releasePlayer_player_same s n).2.1
  · exact sameOutput_joinPoint s n

/-- A mark after which the player is still RUNNING leaves its output and its walker alone. -/
theorem sameOutput_takeMark (s : State) (n : PlayerIx) (m : MarkKind)
    (run : ((s.takeMark n m).player n).state = .running) : (s.player n).SameOutput ((s.takeMark n m).player n) := by
  cases m with
  | join => exact sameOutput_joinPoint s n
  | endPass =>
    exact ((sameOutput_foldl n _ (sameOutput_countListen n) _ s).trans
      (sameOutput_foldl n _ (sameOutput_completeListener n none) _ _)).trans (sameOutput_playOn _ n run)
  | fault cause => exact absurd run (releasePlayer_player_same _ n).2.1

/-! ### The marks at the head of output, without their bound (R113, R116; log 16) -/

theorem takeMarks_mark {s : State} {n : PlayerIx} {m : MarkKind} (k : Nat) (run : (s.player n).state = .running)
    (head : (s.player n).half (s.player n).current = .full (.mark m)) : State.takeMarks n (k + 1) s =
      if ((s.takeMark n m).player n).state = .running then State.takeMarks n k ((s.takeMark n m).emptyCurrent n)
      else s.takeMark n m := by
  rw [State.takeMarks, run, head]

theorem takeMarks_still {s : State} {n : PlayerIx} (k : Nat)
    (none : (s.player n).state = .running → ∀ m, (s.player n).half (s.player n).current ≠ .full (.mark m)) :
    State.takeMarks n k s = s := by
  cases k with
  | zero => rfl
  | succ k =>
    unfold State.takeMarks
    split
    · rename_i m run head
      exact (none run m head).elim
    · rfl

/-- A bound above the marks ahead is not met. -/
theorem takeMarks_bound (n : PlayerIx) (k : Nat) :
    ∀ s : State, (s.player n).marksAhead < k → State.takeMarks n (k + 1) s = State.takeMarks n k s := by
  induction k with
  | zero => exact fun _ => nofun
  | succ k ih =>
    intro s few
    by_cases marked : (s.player n).state = .running ∧ ∃ m, (s.player n).half (s.player n).current = .full (.mark m)
    · obtain ⟨run, m, head⟩ := marked
      rw [takeMarks_mark _ run head, takeMarks_mark _ run head]
      split
      · rename_i runs
        have same := sameOutput_takeMark s n m runs
        have fewer := emptyCurrent_marksAhead_lt (s.takeMark n m) n m (same.half.trans head)
        rw [same.marksAhead] at fewer
        exact ih _ (by omega)
      · rfl
    · have none : (s.player n).state = .running → ∀ m, (s.player n).half (s.player n).current ≠ .full (.mark m) :=
        fun run m head => marked ⟨run, m, head⟩
      rw [takeMarks_still _ none, takeMarks_still _ none]

/-- The fault of a FAULT mark. -/
def Chunk.fault? : Chunk → Option PlaylistFault
  | .mark (.fault cause) => some cause
  | _ => none

theorem takePriming_passed {s : State} {n : PlayerIx} {m : MarkKind} (k : Nat) (prime : (s.player n).state = .priming)
    (head : (s.player n).half (s.player n).current = .full (.mark m)) (passed : m = .join ∨ m = .endPass) :
    State.takePriming n (k + 1) s = State.takePriming n k (s.emptyCurrent n) := by
  rcases passed with rfl | rfl <;> rw [State.takePriming, prime, head]

theorem takePriming_starts {s : State} {n : PlayerIx} {c : Chunk} (k : Nat) (prime : (s.player n).state = .priming)
    (head : (s.player n).half (s.player n).current = .full c) (join : c ≠ .mark .join) (pass : c ≠ .mark .endPass) :
    State.takePriming n (k + 1) s = s.firstPassStart n c.fault? := by
  rw [State.takePriming, prime, head]
  rcases c with codes | frames | (_ | _ | cause)
  · rfl
  · rfl
  · exact absurd rfl join
  · exact absurd rfl pass
  · rfl

theorem takePriming_still {s : State} {n : PlayerIx} (k : Nat)
    (none : (s.player n).state ≠ .priming ∨ ∀ c, (s.player n).half (s.player n).current ≠ .full c) :
    State.takePriming n k s = s := by
  cases k with
  | zero => rfl
  | succ k =>
    unfold State.takePriming
    split
    · rename_i prime head
      exact (none.elim (fun h => h prime) fun h => h _ head).elim
    · rename_i prime head
      exact (none.elim (fun h => h prime) fun h => h _ head).elim
    · rename_i prime head
      exact (none.elim (fun h => h prime) fun h => h _ head).elim
    · rfl

theorem takePriming_bound (n : PlayerIx) (k : Nat) :
    ∀ s : State, (s.player n).marksAhead < k → State.takePriming n (k + 1) s = State.takePriming n k s := by
  induction k with
  | zero => exact fun _ => nofun
  | succ k ih =>
    intro s few
    by_cases full : (s.player n).state = .priming ∧ ∃ c, (s.player n).half (s.player n).current = .full c
    · obtain ⟨prime, c, head⟩ := full
      by_cases passed : ∃ m, c = .mark m ∧ (m = .join ∨ m = .endPass)
      · obtain ⟨m, rfl, passed⟩ := passed
        have fewer := emptyCurrent_marksAhead_lt s n m head
        rw [takePriming_passed _ prime head passed, takePriming_passed _ prime head passed]
        exact ih _ (by omega)
      · have join : c ≠ .mark .join := fun e => passed ⟨.join, e, .inl rfl⟩
        have pass : c ≠ .mark .endPass := fun e => passed ⟨.endPass, e, .inr rfl⟩
        rw [takePriming_starts _ prime head join pass, takePriming_starts _ prime head join pass]
    · have none : (s.player n).state ≠ .priming ∨ ∀ c, (s.player n).half (s.player n).current ≠ .full c := by
        by_contra some
        simp only [not_or, not_forall, not_not] at some
        exact full some
      rw [takePriming_still _ none, takePriming_still _ none]

theorem primed_passed {s : State} {n : PlayerIx} {m : MarkKind} (prime : (s.player n).state = .priming)
    (head : (s.player n).half (s.player n).current = .full (.mark m)) (passed : m = .join ∨ m = .endPass) :
    s.primed n = (s.emptyCurrent n).primed n := by
  have fewer := emptyCurrent_marksAhead_lt s n m head
  have most := (s.player n).marksAhead_le
  exact (takePriming_passed 7 prime head passed).trans (takePriming_bound n 7 _ (by omega)).symm

/-! ### Output at a frame mark (R116, R117) -/

theorem markPlayer_running {s : State} {n : PlayerIx} (run : (s.player n).state = .running) :
    s.markPlayer n =
      let t := State.takeMarks n walkBound (s.modifyPlayer n Player.countWindow)
      if (t.player n).state = .running then t.outputFrame n else t := if_pos run

theorem emptyCurrent_state (s : State) (n : PlayerIx) : ((s.emptyCurrent n).player n).state = (s.player n).state :=
  (seatsStand_emptyCurrent s n).books.state n

/-- A player that plays on after a mark handles the frame mark from what is left of its output. -/
theorem markPlayer_mark {s : State} {n : PlayerIx} {m : MarkKind} (run : (s.player n).state = .running)
    (head : (s.player n).half (s.player n).current = .full (.mark m)) (v : State)
    (hv : v = (s.modifyPlayer n Player.countWindow).takeMark n m) :
    ((v.player n).state ≠ .running → s.markPlayer n = v) ∧
    ((v.player n).state = .running → s.markPlayer n = ((v.emptyCurrent n).setPlayer n
      { (v.emptyCurrent n).player n with
        framesLeft := ((v.emptyCurrent n).player n).framesLeft + 1 }).markPlayer n) := by
  have counted : ((s.modifyPlayer n Player.countWindow).player n).state = .running := by
    rw [State.modifyPlayer_player_same]
    exact run
  have marked : ((s.modifyPlayer n Player.countWindow).player n).half
      ((s.modifyPlayer n Player.countWindow).player n).current = .full (.mark m) := by
    rw [State.modifyPlayer_player_same]
    exact head
  have taken := takeMarks_mark 7 counted marked
  rw [← hv] at taken
  rw [markPlayer_running run, walkBound, taken]
  refine ⟨fun stops => ?_, fun runs => ?_⟩
  · rw [if_neg stops]
    exact if_neg stops
  · have after : ((v.emptyCurrent n).player n).state = .running := (emptyCurrent_state v n).trans runs
    have same := sameOutput_takeMark _ n m (hv ▸ runs)
    rw [← hv] at same
    have fewer := emptyCurrent_marksAhead_lt v n m (same.half.trans marked)
    have most := (v.player n).marksAhead_le
    generalize v.emptyCurrent n = u at after fewer ⊢
    have recount : (u.setPlayer n { u.player n with framesLeft := (u.player n).framesLeft + 1 }).modifyPlayer n
        Player.countWindow = u := by
      unfold State.modifyPlayer
      rw [State.setPlayer_player_same, State.setPlayer_setPlayer]
      exact setPlayer_self u n
    rw [markPlayer_running (by rw [State.setPlayer_player_same]; exact after), recount, if_pos runs, walkBound,
      takeMarks_bound n 7 u (by omega)]

theorem markPlayer_output {s : State} {n : PlayerIx} (run : (s.player n).state = .running)
    (none : ∀ m, (s.player n).half (s.player n).current ≠ .full (.mark m)) :
    s.markPlayer n = (s.setPlayer n (s.player n).countWindow).outputFrame n := by
  have still : State.takeMarks n walkBound (s.modifyPlayer n Player.countWindow) =
      s.modifyPlayer n Player.countWindow := takeMarks_still _ fun _ => by
    rw [State.modifyPlayer_player_same]
    exact none
  rw [markPlayer_running run, still]
  exact if_pos (by rw [State.modifyPlayer_player_same]; exact run)

/-- A chunk with more to come goes on; one that is spent leaves its half EMPTY. -/
theorem outputFrame_setPlayer (s : State) (n : PlayerIx) (x : Player) :
    (x.output.chunkSpent = false → (s.setPlayer n x).outputFrame n = s.setPlayer n x.output) ∧
    (x.output.chunkSpent = true → (s.setPlayer n x).outputFrame n = (s.setPlayer n
      { x.output.setHalf x.output.current .empty with
        current := x.output.current.other
        cursor := 0 }).advanceWalker n) := by
  have out : (s.setPlayer n x).modifyPlayer n Player.output = s.setPlayer n x.output := by
    unfold State.modifyPlayer
    rw [State.setPlayer_player_same, State.setPlayer_setPlayer]
  unfold State.outputFrame
  dsimp only
  rw [out, State.setPlayer_player_same]
  refine ⟨fun more => by rw [more]; rfl, fun spent => ?_⟩
  rw [spent, if_pos rfl]
  unfold State.emptyCurrent State.modifyPlayer
  rw [State.setPlayer_player_same, State.setPlayer_setPlayer]

/-- The player has handled a frame mark in its chunk, with this code. -/
def Player.heardOut (pl : Player) (code : Byte) : Player :=
  { pl with framesLeft := pl.framesLeft - 1, code := code, cursor := pl.cursor + 1 }

theorem Player.setHalf_heardOut (pl : Player) (code : Byte) (h : HalfName) :
    { (pl.heardOut code).setHalf h .empty with current := h.other, cursor := 0 } = { pl.setHalf h .empty with
      framesLeft := pl.framesLeft - 1, code := code, current := h.other, cursor := 0 } := by
  cases h <;> rfl

theorem Player.heardOut_chunkSpent {pl : Player} {c : Chunk} (head : pl.half pl.current = .full c) (code : Byte) :
    (pl.heardOut code).chunkSpent = decide (c.frames ≤ pl.cursor + 1) := by
  have same : (pl.heardOut code).half (pl.heardOut code).current = .full c := head
  unfold Player.chunkSpent
  rw [same]
  rfl

/-- A frame of sound or of silence: the player stands one further in its chunk, or has emptied the half. -/
theorem markPlayer_chunk {s : State} {n : PlayerIx} {c : Chunk} {code : Byte} (run : (s.player n).state = .running)
    (head : (s.player n).half (s.player n).current = .full c) (sounds : ∀ m, c ≠ .mark m)
    (out : (s.player n).countWindow.output = (s.player n).heardOut code) :
    ((s.player n).cursor + 1 < c.frames → s.markPlayer n = s.setPlayer n ((s.player n).heardOut code)) ∧
    ((s.player n).cursor + 1 = c.frames → s.markPlayer n = (s.setPlayer n
      { (s.player n).setHalf (s.player n).current .empty with
        framesLeft := (s.player n).framesLeft - 1
        code := code
        current := (s.player n).current.other
        cursor := 0 }).advanceWalker n) := by
  obtain ⟨more, spent⟩ := outputFrame_setPlayer s n (s.player n).countWindow
  rw [out, Player.heardOut_chunkSpent head] at more spent
  rw [markPlayer_output run fun m marked => sounds m (Half.full.inj (head.symm.trans marked))]
  refine ⟨fun inside => more (decide_eq_false (by omega)), fun last => ?_⟩
  rw [spent (decide_eq_true (by omega)), ← Player.setHalf_heardOut]
  rfl

theorem Player.output_samples {pl : Player} {codes : List Byte} {x : Byte} {c : PlayerCopy}
    (head : pl.half pl.current = .full (.samples codes)) (copy : pl.copy = some c) (code : codes[pl.cursor]? = some x) :
    pl.countWindow.output = pl.heardOut (encodeValue (scaleValue (decodeCode x) c.attenuation)) := by
  have same : pl.countWindow.half pl.countWindow.current = .full (.samples codes) := head
  have kept : pl.countWindow.copy = some c := copy
  have heard : codes.getD pl.countWindow.cursor idleCode = x := by
    rw [List.getD_eq_getElem?_getD]
    exact congrArg (Option.getD · idleCode) code
  unfold Player.output
  rw [same]
  dsimp only
  unfold Player.heardOut
  rw [heard, kept, copy]
  rfl

theorem Player.output_silence {pl : Player} {frames : Nat} (head : pl.half pl.current = .full (.silence frames)) :
    pl.countWindow.output = pl.heardOut 128 := by
  have same : pl.countWindow.half pl.countWindow.current = .full (.silence frames) := head
  unfold Player.output
  rw [same]
  rfl

/-- The player has met a frame mark with no chunk to take from (R117). -/
def Player.underran (pl : Player) : Player :=
  { pl with framesLeft := pl.framesLeft - 1, code := 128, underruns := pl.underruns + 1 }

theorem Player.output_underrun {pl : Player} (empty : ∀ c, pl.half pl.current ≠ .full c) :
    pl.countWindow.output = pl.underran ∧ pl.underran.chunkSpent = false := by
  have counted : ∀ c, pl.countWindow.half pl.countWindow.current ≠ .full c := empty
  have under : ∀ c, pl.underran.half pl.underran.current ≠ .full c := empty
  constructor
  · unfold Player.output
    split
    · exact (counted _ ‹_›).elim
    · exact (counted _ ‹_›).elim
    · rfl
  · unfold Player.chunkSpent
    split
    · exact (under _ ‹_›).elim
    · rfl
    · rfl

/-- Settles O49: a mark at the head is taken and the handling goes on, or one code is output. -/
theorem playerMarked : Obligations.PlayerMarked := by
  rintro s n pl rfl
  refine ⟨fun still => if_neg still, fun m v run head taken => ?_, ⟨rfl, rfl, fun _ => rfl⟩,
    fun codes x c run head copy code => markPlayer_chunk run head nofun (Player.output_samples head copy code),
    fun frames run head => markPlayer_chunk run head nofun (Player.output_silence head), fun run empty => ?_⟩
  · obtain ⟨stops, goesOn⟩ := markPlayer_mark run head v taken
    refine ⟨stops, ?_⟩
    rintro u x runs rfl rfl
    exact goesOn runs
  · obtain ⟨out, unspent⟩ := Player.output_underrun empty
    rw [markPlayer_output run fun m => empty _]
    refine ((outputFrame_setPlayer s n (s.player n).countWindow).1 (by rw [out, unspent])).trans ?_
    rw [out]
    rfl

end Sys2Proof.Machine

namespace Sys2Proof.Machine

/-! ### Join points (R113, R114) -/

theorem State.Booked.waitersFor_filter {s : State} {x : Option PlayerIx} (b : s.Booked s.places x) (p : Program) :
    s.queue.filter (fun e => !(s.waitersFor p).contains e.slot) = s.queue.filter (fun e => e.program != p) := by
  refine List.filter_congr fun e he => ?_
  have place := (b.queued e.slot e.program).mp ⟨e, he, rfl, rfl⟩
  have waits : e.slot ∈ s.waitersFor p ↔ e.program = p := by rw [b.mem_waitersFor, place, Place.queued.injEq]
  rw [Bool.eq_iff_iff]
  simp [waits]

/-- The waiting slots of a program, by their contexts. -/
theorem State.Booked.waitersFor_iff {s : State} {x : Option PlayerIx} (b : s.Booked s.places x) (p : Program)
    (j : Slot) : j ∈ s.waitersFor p ↔ ∃ ann filler, (s.slot j).state = .waiting p ann filler :=
  (b.mem_waitersFor p j).trans (SlotState.place_queued_iff _ p)

theorem State.Booked.joinPoint_taken {s : State} {n : PlayerIx} {p : Program} {x : Option PlayerIx}
    (b : s.Booked s.places x) (fresh : (s.player n).fresh = some true) (program : (s.player n).program = some p) :
    JoinPointTaken n p s (s.joinPoint n) :=
  Machine.joinPoint_taken s n p (b.waitersFor_iff p) (b.waitersFor_nodup p) (b.waitersFor_filter p) fresh program

theorem joinPoint_shut {s : State} {n : PlayerIx} (stale : (s.player n).fresh ≠ some true) :
    s.joinPoint n = s.setPlayer n { s.player n with framesLeft := 0, windowOpen := false } := by
  unfold State.joinPoint
  split
  · exact absurd ‹_› stale
  · rfl

/-- The record of a fresh player after its join point. -/
theorem JoinPointTaken.player_eq {n : PlayerIx} {p : Program} {s t : State} (h : JoinPointTaken n p s t)
    {c : PlayerCopy} (copy : (s.player n).copy = some c) : t.player n = { s.player n with
      listeners := (t.player n).listeners
      framesLeft := c.window.toNat * 80
      windowOpen := decide (c.window ≠ 0) } := by
  have window : (t.player n).windowOpen = decide (c.window ≠ 0) := by
    rw [Bool.eq_iff_iff, h.window c copy, decide_eq_true_iff]
  rw [← window, ← h.frames c copy]
  exact h.player

/-! ### The first pass start (R113) -/

/-- Player n has gone to RUNNING at its first pass start, before the join point. -/
def State.passStarted (s : State) (n : PlayerIx) : State :=
  s.modifyPlayer n fun pl => { pl with state := .running, cursor := 0 }

theorem passStarted_player (s : State) (n : PlayerIx) :
    (s.passStarted n).player n = { s.player n with state := .running, cursor := 0 } :=
  State.modifyPlayer_player_same ..

theorem passStarted_other (s : State) (n m : PlayerIx) (h : m ≠ n) : (s.passStarted n).player m = s.player m :=
  State.modifyPlayer_player_ne _ _ _ _ h

theorem State.Membership.passStarted {s : State} (m : s.Membership) (n : PlayerIx) :
    (s.passStarted n).Booked (s.passStarted n).places (some n) :=
  (((membership_iff_booked s).mp m).except n).modifyPlayer _ rfl

theorem firstPassStart_eq (s : State) (n : PlayerIx) (fault : Option PlaylistFault) : s.firstPassStart n fault =
    if (((s.passStarted n).joinPoint n).player n).listeners = [] then ((s.passStarted n).joinPoint n).releasePlayer n
    else fault.elim ((s.passStarted n).joinPoint n) fun cause => ((s.passStarted n).joinPoint n).faultMark n cause := by
  unfold State.firstPassStart
  cases fault <;> rfl

section Fresh

variable {s : State} {n : PlayerIx} {p : Program}

/-- The join point of a fresh player at its first pass start. -/
theorem State.Membership.firstJoinPoint (m : s.Membership) (fresh : (s.player n).fresh = some true)
    (program : (s.player n).program = some p) :
    JoinPointTaken n p (s.passStarted n) ((s.passStarted n).joinPoint n) :=
  (m.passStarted n).joinPoint_taken (by rw [passStarted_player]; exact fresh) (by rw [passStarted_player]; exact program)

/-- The player's record after it. -/
theorem State.Membership.firstJoinPoint_player (m : s.Membership) (fresh : (s.player n).fresh = some true)
    (program : (s.player n).program = some p) : ((s.passStarted n).joinPoint n).player n = { s.player n with
      state := .running
      cursor := 0
      listeners := (((s.passStarted n).joinPoint n).player n).listeners
      framesLeft := (((s.passStarted n).joinPoint n).player n).framesLeft
      windowOpen := (((s.passStarted n).joinPoint n).player n).windowOpen } := by
  have player := (m.firstJoinPoint fresh program).player
  rw [passStarted_player] at player
  exact player

/-- The player's listeners are then the slots that waited for it. -/
theorem State.Membership.firstListeners (m : s.Membership) (prime : (s.player n).state = .priming)
    (fresh : (s.player n).fresh = some true) (program : (s.player n).program = some p) (j : Slot) :
    j ∈ (((s.passStarted n).joinPoint n).player n).listeners ↔
      ∃ ann filler, (s.slot j).state = .waiting p ann filler := by
  have none : ((s.passStarted n).player n).listeners = [] := by
    rw [passStarted_player]
    exact m.listeners_nil (by rw [prime]; decide)
  rw [(m.firstJoinPoint fresh program).listeners, none, (m.passStarted n).waitersFor_iff p]
  exact or_iff_left (List.not_mem_nil)

theorem State.Membership.hasWaiter_iff (m : s.Membership) (p : Program) :
    s.hasWaiter p = true ↔ ∃ j ann filler, (s.slot j).state = .waiting p ann filler := by
  simp only [State.hasWaiter, List.any_eq_true, beq_iff_eq, ← m.waiting]
  exact ⟨fun ⟨e, mem, program⟩ => ⟨e.slot, e, mem, rfl, program⟩, fun ⟨_, e, mem, _, program⟩ => ⟨e, mem, program⟩⟩

theorem State.Membership.firstListeners_nil (m : s.Membership) (prime : (s.player n).state = .priming)
    (fresh : (s.player n).fresh = some true) (program : (s.player n).program = some p) :
    (((s.passStarted n).joinPoint n).player n).listeners = [] ↔ s.hasWaiter p = false := by
  rw [← Bool.not_eq_true, m.hasWaiter_iff, ← exists_congr (m.firstListeners prime fresh program), not_exists,
    List.eq_nil_iff_forall_not_mem]

/-- With sound at the head the slots that waited have joined, and without any the player has gone FREE. -/
theorem firstPassStart_sounds (m : s.Membership) (prime : (s.player n).state = .priming)
    (fresh : (s.player n).fresh = some true) (program : (s.player n).program = some p) :
    (s.hasWaiter p = false →
      s.firstPassStart n none = ((s.passStarted n).joinPoint n).releasePlayer n) ∧
    (s.hasWaiter p = true → s.firstPassStart n none = (s.passStarted n).joinPoint n) := by
  rw [firstPassStart_eq]
  refine ⟨fun unawaited => if_pos ((m.firstListeners_nil prime fresh program).mpr unawaited), fun awaited => if_neg ?_⟩
  rw [m.firstListeners_nil prime fresh program, awaited]
  decide

/-- What the first pass start leaves, with listeners or without. -/
theorem firstPassStart_frame (m : s.Membership) (prime : (s.player n).state = .priming)
    (fresh : (s.player n).fresh = some true) (program : (s.player n).program = some p) :
    (s.firstPassStart n none).queue = s.queue.filter (fun e => e.program != p) ∧
    (∀ k, k ≠ n → (s.firstPassStart n none).player k = s.player k) ∧
    (∀ j ann filler, (s.slot j).state = .waiting p ann filler →
      ((s.firstPassStart n none).slot j).state = .playing p ann n ann.listens (s.player n).underruns) ∧
    ∀ j, (∀ ann filler, (s.slot j).state ≠ .waiting p ann filler) → (s.firstPassStart n none).slot j = s.slot j := by
  have joined := m.firstJoinPoint fresh program
  have others : ∀ k, k ≠ n → ((s.passStarted n).joinPoint n).player k = s.player k := fun k other =>
    (joined.players k other).trans (passStarted_other s n k other)
  have underruns : ((s.passStarted n).player n).underruns = (s.player n).underruns := by rw [passStarted_player]
  have playing := joined.joined
  rw [underruns] at playing
  obtain ⟨frees, sounds⟩ := firstPassStart_sounds m prime fresh program
  cases awaited : s.hasWaiter p with
  | false =>
    rw [frees awaited]
    refine ⟨(releasePlayer_queue _ n).trans joined.queue, fun k other =>
      (releasePlayer_other _ n k other).trans (others k other), fun j ann filler waits => ?_, fun j h => ?_⟩
    · rw [releasePlayer_slot]
      exact playing j ann filler waits
    · rw [releasePlayer_slot]
      exact joined.others j h
  | true =>
    rw [sounds awaited]
    exact ⟨joined.queue, others, playing, joined.others⟩

end Fresh

/-! ### Fills (R113, R132) -/

@[simp] theorem Player.setHalf_gen (pl : Player) (h : HalfName) (x : Half) : (pl.setHalf h x).gen = pl.gen := by
  cases h <;> rfl

@[simp] theorem Player.setHalf_copy (pl : Player) (h : HalfName) (x : Half) : (pl.setHalf h x).copy = pl.copy := by
  cases h <;> rfl

@[simp] theorem Player.setHalf_current (pl : Player) (h : HalfName) (x : Half) :
    (pl.setHalf h x).current = pl.current := by
  cases h <;> rfl

@[simp] theorem Player.setHalf_underruns (pl : Player) (h : HalfName) (x : Half) :
    (pl.setHalf h x).underruns = pl.underruns := by
  cases h <;> rfl

@[simp] theorem Player.setHalf_code (pl : Player) (h : HalfName) (x : Half) : (pl.setHalf h x).code = pl.code := by
  cases h <;> rfl

theorem exec_fillComplete {s : State} {r : OwnRequest} {data : Word} {n : PlayerIx} {h : HalfName} (settled : s.Settled)
    (last : s.LastWordOf r) (kind : r.kind = .fill n h) : exec (.fillComplete data) s =
      .next (s.delivered.fillDone n h r.gen (r.advance data).answer).finish :=
  congrArg Host.Outcome.next (takeEnds_complete settled last
    (by simp only [OwnRequest.advance_kind, OwnRequest.advance_gen, kind]))

/-- Player n's half is FULL with these codes. -/
def State.halfFilled (s : State) (n : PlayerIx) (h : HalfName) (codes : List Byte) : State :=
  s.modifyPlayer n fun pl => pl.setHalf h (.full (.samples codes))

theorem halfFilled_player (s : State) (n : PlayerIx) (h : HalfName) (codes : List Byte) :
    (s.halfFilled n h codes).player n = (s.player n).setHalf h (.full (.samples codes)) :=
  State.modifyPlayer_player_same ..

theorem halfFilled_other (s : State) (n : PlayerIx) (h : HalfName) (codes : List Byte) (m : PlayerIx) (other : m ≠ n) :
    (s.halfFilled n h codes).player m = s.player m := State.modifyPlayer_player_ne _ _ _ _ other

theorem State.Membership.halfFilled {s : State} (m : s.Membership) (n : PlayerIx) (h : HalfName) (codes : List Byte) :
    (s.halfFilled n h codes).Membership :=
  (seatsStand_modifyPlayer s n _ (Player.setHalf_listeners ..) (Player.setHalf_state ..)).membership m

theorem State.Membership.delivered {s : State} (m : s.Membership) : s.delivered.Membership :=
  SeatsStand.membership (s := s) (.of_banks rfl rfl rfl) m

theorem fillDone_filled {s : State} {n : PlayerIx} {h : HalfName} {first length : Nat} {gen : Option Generation}
    (filling : (s.player n).half h = .filling first length) (same : gen = some (s.player n).gen) (ws : List Word) :
    s.fillDone n h gen ws = (s.halfFilled n h (codesOf first length ws)).primed n := by
  unfold State.fillDone
  rw [filling]
  exact if_pos same

/-- The fill of a PRIMING player's current half is its first pass start. -/
theorem halfFilled_primed {s : State} {n : PlayerIx} {h : HalfName} (prime : (s.player n).state = .priming)
    (current : (s.player n).current = h) (codes : List Byte) :
    (s.halfFilled n h codes).primed n = (s.halfFilled n h codes).firstPassStart n none := by
  refine takePriming_starts (c := .samples codes) 7 ?_ ?_ nofun nofun
  · rw [halfFilled_player, Player.setHalf_state, prime]
  · rw [halfFilled_player, Player.setHalf_current, current, Player.setHalf_half]

theorem primed_starts {s : State} {n : PlayerIx} {c : Chunk} (prime : (s.player n).state = .priming)
    (head : (s.player n).half (s.player n).current = .full c) (join : c ≠ .mark .join) (pass : c ≠ .mark .endPass) :
    s.primed n = s.firstPassStart n c.fault? := takePriming_starts 7 prime head join pass

/-- Settles O48: the first pass start at a fill; what a PRIMING player takes; and the join point. -/
theorem firstPassStarts : Obligations.FirstPassStarts := by
  refine ⟨fun s r data n h p c first length settled last kind m filling gen prime current fresh program copy => ?_,
    ?_, ?_⟩
  · have runs := exec_fillComplete (data := data) settled last kind
    have moves := moves_fillDone s.delivered n h r.gen (r.advance data).answer
    rw [fillDone_filled (s := s.delivered) filling gen, halfFilled_primed (s := s.delivered) prime current] at runs moves
    generalize codesOf first length (r.advance data).answer = codes at runs moves
    have player := halfFilled_player s.delivered n h codes
    have m' := m.delivered.halfFilled n h codes
    have prime' : ((s.delivered.halfFilled n h codes).player n).state = .priming := by
      rw [player, Player.setHalf_state]; exact prime
    have fresh' : ((s.delivered.halfFilled n h codes).player n).fresh = some true := by
      rw [player, Player.setHalf_fresh]; exact fresh
    have program' : ((s.delivered.halfFilled n h codes).player n).program = some p := by
      rw [player, Player.setHalf_program]; exact program
    obtain ⟨queue, others, joined, stay⟩ := firstPassStart_frame m' prime' fresh' program'
    obtain ⟨frees, sounds⟩ := firstPassStart_sounds m' prime' fresh' program'
    have started := m'.firstJoinPoint_player fresh' program'
    refine ⟨_, runs, completed_moves s _ moves, (finish_queue _).trans queue, fun k other => ?_,
      fun j ann filler waits => ?_, fun j h => ?_, fun unawaited => ?_, fun awaited => ?_⟩
    · exact (finish_player _ k).trans ((others k other).trans (halfFilled_other _ n h codes k other))
    · rw [player, Player.setHalf_underruns] at joined
      rw [finish_slot]
      exact joined j ann filler waits
    · rw [finish_slot]
      exact stay j h
    · rw [frees unawaited]
      refine Freed.finish (Freed.before (releasePlayer_freed _ n) ?_ ?_)
      · exact (congrArg Player.gen started).trans (by rw [player, Player.setHalf_gen]; rfl)
      · exact (congrArg Player.underruns started).trans (by rw [player, Player.setHalf_underruns]; rfl)
    · rw [sounds awaited, finish_player]
      have copy' : (((s.delivered.halfFilled n h codes).passStarted n).player n).copy = some c := by
        rw [passStarted_player, player, Player.setHalf_copy]; exact copy
      have point := m'.firstJoinPoint fresh' program'
      exact ⟨congrArg Player.state started, congrArg Player.cursor started, point.frames c copy', point.window c copy',
        (congrArg Player.code started).trans (by rw [player, Player.setHalf_code]; rfl),
        m'.firstListeners prime' fresh' program'⟩
  · rintro s n pl rfl
    refine ⟨takePriming_still _, fun m prime head passed => primed_passed prime head passed,
      fun c u prime head join pass joined => ?_⟩
    have starts := (primed_starts prime head join pass).trans (firstPassStart_eq s n c.fault?)
    obtain rfl : u = (s.passStarted n).joinPoint n := joined
    rw [starts]
    refine ⟨fun none => if_pos none, fun some => ⟨?_, fun sounds => ?_⟩⟩
    · rintro cause rfl
      exact if_neg some
    · have none : c.fault? = .none := by
        unfold Chunk.fault?
        split
        · exact absurd rfl (sounds _)
        · rfl
      rw [none]
      exact if_neg some
  · rintro s n p t rfl m program
    refine ⟨fun stale => joinPoint_shut (by rw [stale]; decide), fun c fresh copy => ?_⟩
    have joined := ((membership_iff_booked s).mp m).joinPoint_taken fresh program
    refine ⟨joined.queue, joined.rrw, joined.players, joined.player_eq copy, fun j => ?_, joined.joined, joined.others⟩
    rw [joined.listeners, mem_waitersFor s m p, or_comm]

end Sys2Proof.Machine

namespace Sys2Proof.Machine

/-! ### Completions at an event whose earlier part moved no limit and no record (R118) -/

theorem AfterTaken.before {s u t : State} {j : Slot} {ann : AnnFields} (h : AfterTaken u t j ann)
    (boot : u.boot = s.boot) : AfterTaken s t j ann := by
  have limit : u.limit = s.limit := by unfold State.limit; rw [boot]
  have base : u.programBase = s.programBase := by unfold State.programBase; rw [boot]
  refine ⟨h.idle, fun q next below => ?_, fun q next beyond => h.fault q next (by rw [limit]; exact beyond)⟩
  have begun := h.attaching q next (by rw [limit]; exact below)
  unfold AttachBegun at begun ⊢
  rwa [base] at begun

/-- ANN_DONE of a stay that began at the underrun total `mark`. -/
theorem annRecord_stay (s : State) (j : Slot) (p : Program) (cause : Option PlaylistFault) (total mark : Frame) :
    annRecord s j p cause (total - mark) = { slotRecord s j .annDone p (cause.elim 0 PlaylistFault.code) with
      impaired := total != mark
      faulted := cause.isSome
      underruns := BitVec.ofNat 16 (min (total - mark).toNat 65535) } := by
  have impaired : (total - mark != 0) = (total != mark) := by
    rw [Bool.eq_iff_iff, bne_iff_ne, bne_iff_ne, ne_eq, ne_eq, sub_eq_zero]
  unfold annRecord
  rw [impaired]
  cases cause <;> rfl

/-! ### FAULT marks (R121) -/

/-- Every listener of player n has completed with the fault, and the player has gone FREE. -/
structure FaultTaken (n : PlayerIx) (cause : PlaylistFault) (s t : State) : Prop where
  after : ∀ j ∈ (s.player n).listeners, ∀ p ann m r mark, (s.slot j).state = .playing p ann m r mark →
    AfterTaken s t j ann
  record : ∀ older j newer, (s.player n).listeners = older ++ j :: newer → ∀ p ann m r mark,
    (s.slot j).state = .playing p ann m r mark → (∀ q, ann.after = some q → q.val < s.limit) →
    HandedOver s t (s.recordsOf older) (annRecord s j p (some cause) ((s.player n).underruns - mark))
  others : ∀ j, j ∉ (s.player n).listeners → t.slot j = s.slot j
  players : ∀ m, m ≠ n → t.player m = s.player m
  queue : t.queue = s.queue
  gens : t.gens = s.gens
  freed : Freed s t n

theorem completeListener_gens (n : PlayerIx) (cause : Option PlaylistFault) (s : State) (j : Slot) :
    (s.completeListener n cause j).gens = s.gens := by
  unfold State.completeListener
  dsimp only
  split
  · rw [attachOrIdle_gens, takeOutcome_gens, State.modifyPlayer_gens]
  · rfl

theorem State.Booked.faultMark_taken {s : State} {n : PlayerIx} (b : s.Booked s.places (some n))
    (cause : PlaylistFault) : FaultTaken n cause s (s.faultMark n cause) := by
  have done := completeListeners_completed n (some cause) (s.player n).listeners s (b.listeners_nodup n) fun j listens => by
    obtain ⟨p, ann, r, mark, state⟩ := (SlotState.place_listening_iff _ n).mp ((b.listening j n).mp listens)
    exact ⟨p, ann, n, r, mark, state⟩
  have gens := foldl_kept State.gens (fun u j => u.completeListener n (some cause) j)
    (completeListener_gens n (some cause)) (s.player n).listeners s
  unfold State.faultMark
  generalize (s.player n).listeners.foldl (fun u j => u.completeListener n (some cause) j) s = v at done gens ⊢
  refine ⟨fun j listens p ann m r mark state => ?_, fun older j newer split p ann m r mark state exists_ => ?_,
    fun j other => ?_, fun m other => ?_, ?_, ?_, ?_⟩
  · exact (done.after j listens p ann m r mark state).after (releasePlayer_slot v n j) (keepsReads_releasePlayer j v n)
  · exact (done.record older j newer split p ann m r mark state exists_).after (calm_releasePlayer _ v n)
  · rw [releasePlayer_slot]
    exact done.others j other
  · rw [releasePlayer_other v n m other]
    exact done.players m other
  · rw [releasePlayer_queue, done.queue]
  · rw [releasePlayer_gens, gens]
  · exact (releasePlayer_freed v n).before (by rw [done.player]) (by rw [done.player])

/-! ### Listens are counted (R119) -/

theorem countListen_slot_same {s : State} {j : Slot} {p : Program} {ann : AnnFields} {n : PlayerIx} {r : Nat}
    {mark : Frame} (h : (s.slot j).state = .playing p ann n r mark) :
    (s.countListen j).slot j = { s.slot j with state := .playing p ann n (r - 1) mark } := by
  unfold State.countListen
  rw [h]
  exact State.setSlot_slot_same ..

theorem countListen_slot_ne (s : State) (j i : Slot) (h : i ≠ j) : (s.countListen j).slot i = s.slot i := by
  unfold State.countListen
  split
  · exact State.setSlot_slot_ne _ _ _ _ h
  · rfl

/-- Counting reaches the contexts alone. -/
theorem countListens_withSlots (l : List Slot) : ∀ s : State, ∃ x, l.foldl State.countListen s = s.withSlots x := by
  induction l with
  | nil => exact fun s => ⟨s.slots, rfl⟩
  | cons j l ih =>
    intro s
    have one : ∃ x, s.countListen j = s.withSlots x := by
      unfold State.countListen
      split
      · exact ⟨_, rfl⟩
      · exact ⟨s.slots, rfl⟩
    obtain ⟨x, first⟩ := one
    obtain ⟨y, rest⟩ := ih (s.withSlots x)
    exact ⟨y, by rw [List.foldl_cons, first, rest]; rfl⟩

theorem countListens_slot (l : List Slot) (once : l.Nodup) (s : State) (j : Slot) :
    (∀ p ann n r mark, j ∈ l → (s.slot j).state = .playing p ann n r mark →
      ((l.foldl State.countListen s).slot j).state = .playing p ann n (r - 1) mark) ∧
    (j ∉ l → (l.foldl State.countListen s).slot j = s.slot j) := by
  constructor
  · intro p ann n r mark mem state
    obtain ⟨u, before, turn⟩ := foldl_at State.slot State.countListen (fun t i k => countListen_slot_ne t i k) l once j
      mem s
    rw [turn, countListen_slot_same (by rw [before]; exact state)]
  · induction l generalizing s with
    | nil => exact fun _ => rfl
    | cons i l ih =>
      intro other
      rw [List.mem_cons, not_or] at other
      exact (ih (List.nodup_cons.mp once).2 _ other.2).trans (countListen_slot_ne s i j other.1)

/-! ### Listeners leave at a pass end (R87, R118, R119) -/

/-- The pass has been counted, and the listeners that have heard all have left. -/
def State.passHeard (s : State) (n : PlayerIx) : State :=
  let t := (s.player n).listeners.foldl State.countListen s
  ((t.player n).listeners.filter t.heardAll).foldl (fun u j => u.completeListener n none j) t

theorem passEnd_eq (s : State) (n : PlayerIx) : s.passEnd n = (s.passHeard n).playOn n := rfl

/-- What a pass end has done to the listeners before the player plays on or goes FREE. -/
structure PassHeard (n : PlayerIx) (s v : State) : Prop where
  booked : v.Booked v.places (some n)
  player : v.player n = { s.player n with listeners := (v.player n).listeners }
  players : ∀ m, m ≠ n → v.player m = s.player m
  queue : v.queue = s.queue
  listeners : ∀ j, j ∈ (v.player n).listeners ↔
    ∃ p ann r mark, (s.slot j).state = .playing p ann n r mark ∧ 2 ≤ r
  staying : ∀ j p ann r mark, (s.slot j).state = .playing p ann n r mark → 2 ≤ r →
    (v.slot j).state = .playing p ann n (r - 1) mark
  others : ∀ j, (∀ p ann r mark, (s.slot j).state ≠ .playing p ann n r mark) → v.slot j = s.slot j
  left : ∀ done : List Slot, done.Pairwise (fun i j => i < j) →
    (∀ j, j ∈ done ↔ ∃ p ann r mark, (s.slot j).state = .playing p ann n r mark ∧ r ≤ 1) →
    ∀ older j newer p ann r mark, done = older ++ j :: newer → (s.slot j).state = .playing p ann n r mark →
      AfterTaken s v j ann ∧ ((∀ q, ann.after = some q → q.val < s.limit) →
        HandedOver s v (s.recordsOf older) (annRecord s j p none ((s.player n).underruns - mark)))

/-- A listener has heard all once its last pass is counted. -/
theorem heardAll_counted {s : State} (m : s.Membership) {n : PlayerIx} {j : Slot} {p : Program} {ann : AnnFields}
    {r : Nat} {mark : Frame} (state : (s.slot j).state = .playing p ann n r mark) :
    ((s.player n).listeners.foldl State.countListen s).heardAll j = decide (r ≤ 1) := by
  have once := ((membership_iff_booked s).mp m).listeners_nodup n
  have counted := (countListens_slot (s.player n).listeners once s j).1 p ann n r mark
    ((m.playing j n).mpr ⟨p, ann, r, mark, state⟩) state
  unfold State.heardAll
  rw [counted, Bool.eq_iff_iff]
  simp only [beq_iff_eq, decide_eq_true_iff]
  omega

theorem State.Membership.passHeard {s : State} (m : s.Membership) (n : PlayerIx) : PassHeard n s (s.passHeard n) := by
  have listens := fun j => m.playing j n
  have once := ((membership_iff_booked s).mp m).listeners_nodup n
  have slots := countListens_slot (s.player n).listeners once s
  have heard := fun j p ann r mark => heardAll_counted m (n := n) (j := j) (p := p) (ann := ann) (r := r) (mark := mark)
  have counted := (SeatsStand.foldl State.countListen seatsStand_countListen (s.player n).listeners s).membership m
  obtain ⟨x, banks⟩ := countListens_withSlots (s.player n).listeners s
  unfold State.passHeard
  dsimp only
  rw [banks] at slots heard counted ⊢
  have leaves : ∀ j, j ∈ (s.player n).listeners.filter (s.withSlots x).heardAll ↔
      ∃ p ann r mark, (s.slot j).state = .playing p ann n r mark ∧ r ≤ 1 := by
    intro j
    rw [List.mem_filter, listens]
    constructor
    · rintro ⟨⟨p, ann, r, mark, state⟩, all⟩
      rw [heard j p ann r mark state, decide_eq_true_iff] at all
      exact ⟨p, ann, r, mark, state, all⟩
    · rintro ⟨p, ann, r, mark, state, all⟩
      exact ⟨⟨p, ann, r, mark, state⟩, by rw [heard j p ann r mark state, decide_eq_true_iff]; exact all⟩
  have ordered := (m.ordered n).filter (s.withSlots x).heardAll
  have playing : ∀ j ∈ (s.player n).listeners.filter (s.withSlots x).heardAll, j ∈ (s.player n).listeners :=
    fun j mem => (List.mem_filter.mp mem).1
  have booked := ((membership_iff_booked _).mp counted).except n
  rw [State.withSlots_player]
  generalize (s.player n).listeners.filter (s.withSlots x).heardAll = done at leaves ordered playing ⊢
  have places : ∀ j ∈ done, (s.withSlots x).places j = .listening n := fun j mem =>
    (booked.listening j n).mp (playing j mem)
  have completed := completeListeners_completed n none done (s.withSlots x) (ordered.imp fun h => ne_of_lt h)
    fun j mem => by
      obtain ⟨p, ann, r, mark, state⟩ := (SlotState.place_listening_iff _ n).mp (places j mem)
      exact ⟨p, ann, n, r, mark, state⟩
  have after := completed.booked booked places
  generalize done.foldl (fun u j => u.completeListener n none j) (s.withSlots x) = v at completed after ⊢
  have kept : ∀ j p ann r mark, (s.slot j).state = .playing p ann n r mark → 2 ≤ r → j ∉ done := by
    intro j p ann r mark state more mem
    obtain ⟨p', ann', r', mark', state', few⟩ := (leaves j).mp mem
    cases state.symm.trans state'
    omega
  have stays : ∀ j, j ∈ (v.player n).listeners ↔
      ∃ p ann r mark, (s.slot j).state = .playing p ann n r mark ∧ 2 ≤ r := by
    intro j
    rw [completed.player, List.mem_filter, State.withSlots_player, listens, Bool.not_eq_true', List.contains_eq_mem,
      decide_eq_false_iff_not]
    constructor
    · rintro ⟨⟨p, ann, r, mark, state⟩, stay⟩
      refine ⟨p, ann, r, mark, state, ?_⟩
      by_contra few
      exact stay ((leaves j).mpr ⟨p, ann, r, mark, state, by omega⟩)
    · rintro ⟨p, ann, r, mark, state, more⟩
      exact ⟨⟨p, ann, r, mark, state⟩, kept j p ann r mark state more⟩
  have playingOn : ∀ j p ann r mark, (s.slot j).state = .playing p ann n r mark →
      ((s.withSlots x).slot j).state = .playing p ann n (r - 1) mark := fun j p ann r mark state =>
    (slots j).1 p ann n r mark ((listens j).mpr ⟨p, ann, r, mark, state⟩) state
  refine ⟨after, ?_, completed.players, completed.queue, stays, fun j p ann r mark state more => ?_, fun j other => ?_,
    fun done' ordered' leaves' older j newer p ann r mark split state => ?_⟩
  · rw [completed.player]
    rfl
  · rw [completed.others j (kept j p ann r mark state more)]
    exact playingOn j p ann r mark state
  · have absent : j ∉ (s.player n).listeners := fun mem => by
      obtain ⟨p, ann, r, mark, state⟩ := (listens j).mp mem
      exact other p ann r mark state
    exact (completed.others j fun mem => absent (playing j mem)).trans ((slots j).2 absent)
  · obtain rfl : done' = done := ordered'.eq_of_mem_iff ordered fun i => (leaves' i).trans (leaves i).symm
    have mem : j ∈ done' := by rw [split]; exact List.mem_append_right _ List.mem_cons_self
    refine ⟨(completed.after j mem p ann n (r - 1) mark (playingOn j p ann r mark state)).before rfl, fun exists_ => ?_⟩
    exact completed.record older j newer split p ann n (r - 1) mark (playingOn j p ann r mark state) exists_

/-! ### The player plays on or goes FREE (R120) -/

/-- A slot in neither the queue nor a listener set is not reached by a player's join point or freeing. -/
theorem State.Booked.playOn_nowhere {v : State} {n : PlayerIx} {p : Program} (b : v.Booked v.places (some n))
    (program : (v.player n).program = some p) {j : Slot} (nowhere : v.places j = .nowhere) :
    (v.playOn n).slot j = v.slot j ∧ KeepsReads j v (v.playOn n) ∧ j ∉ ((v.playOn n).player n).listeners := by
  have unheard : j ∉ (v.player n).listeners := fun mem => by
    have := (b.listening j n).mp mem
    rw [nowhere] at this
    cases this
  have unawaited : j ∉ v.waitersFor p := fun mem => by
    have := (b.mem_waitersFor p j).mp mem
    rw [nowhere] at this
    cases this
  rcases playOn_cases v n with e | e <;> rw [e]
  · refine ⟨releasePlayer_slot v n j, keepsReads_releasePlayer j v n, ?_⟩
    rw [(releasePlayer_player_same v n).1]
    exact List.not_mem_nil
  · by_cases fresh : (v.player n).fresh = some true
    · have point := b.joinPoint_taken fresh program
      refine ⟨point.others j fun ann filler waits => unawaited ((b.waitersFor_iff p j).mpr ⟨ann, filler, waits⟩), ?_,
        fun mem => ((point.listeners j).mp mem).elim unawaited unheard⟩
      unfold State.joinPoint
      rw [fresh, program]
      exact (KeepsReads.foldl j _ _ (fun i mem u => keepsReads_joinWaiting i j (fun e => unawaited (e ▸ mem)) u n) v).trans
        (.of rfl)
    · rw [joinPoint_shut fresh]
      exact ⟨rfl, .of rfl, by rw [State.setPlayer_player_same]; exact unheard⟩

/-- A listener stays through a join point. -/
theorem State.Booked.joinPoint_listener {v : State} {n : PlayerIx} {p : Program} (b : v.Booked v.places (some n))
    (program : (v.player n).program = some p) {j : Slot} (listens : j ∈ (v.player n).listeners) :
    (v.joinPoint n).slot j = v.slot j ∧ j ∈ ((v.joinPoint n).player n).listeners := by
  by_cases fresh : (v.player n).fresh = some true
  · have point := b.joinPoint_taken fresh program
    refine ⟨point.others j fun ann filler waits => ?_, (point.listeners j).mpr (.inr listens)⟩
    obtain ⟨q, ann', r, mark, state⟩ := (SlotState.place_listening_iff _ n).mp ((b.listening j n).mp listens)
    cases state.symm.trans waits
  · rw [joinPoint_shut fresh]
    exact ⟨rfl, by rw [State.setPlayer_player_same]; exact listens⟩

/-- A slot that does not wait for the player's program is not reached by its playing on. -/
theorem State.Booked.playOn_slot {v : State} {n : PlayerIx} {p : Program} (b : v.Booked v.places (some n))
    (program : (v.player n).program = some p) {j : Slot} (free : ∀ ann filler, (v.slot j).state ≠ .waiting p ann filler) :
    (v.playOn n).slot j = v.slot j := by
  rcases playOn_cases v n with e | e <;> rw [e]
  · exact releasePlayer_slot v n j
  · by_cases fresh : (v.player n).fresh = some true
    · exact (b.joinPoint_taken fresh program).others j free
    · rw [joinPoint_shut fresh]
      rfl

/-- Settles O50: what the pass end and the FAULT mark leave of the listeners, the queue and the player. -/
theorem passEnds : Obligations.PassEnds := by
  refine ⟨?_, ?_⟩
  · rintro s n p t rfl m run program
    have heard := m.passHeard n
    have b := heard.booked
    rw [passEnd_eq]
    generalize s.passHeard n = v at heard b ⊢
    have program' : (v.player n).program = some p := by rw [heard.player]; exact program
    have fresh' : (v.player n).fresh = (s.player n).fresh := by rw [heard.player]
    have awaited' : v.hasWaiter p = s.hasWaiter p := by unfold State.hasWaiter; rw [heard.queue]
    refine ⟨fun j ann r mark state more => ?_, fun done ordered leaves older j newer q ann r mark split state => ?_,
      fun all leaves => ?_, fun c fresh copy goesOn => ?_, fun stale => ⟨?_, fun goesOn => ?_⟩, fun j other free => ?_⟩
    · obtain ⟨slot, listens⟩ := b.joinPoint_listener program'
        ((heard.listeners j).mpr ⟨p, ann, r, mark, state, more⟩)
      rw [playOn_joins (List.ne_nil_of_mem ((heard.listeners j).mpr ⟨p, ann, r, mark, state, more⟩)), slot]
      exact ⟨heard.staying j p ann r mark state more, listens⟩
    · obtain ⟨after, record⟩ := heard.left done ordered leaves older j newer q ann r mark split state
      obtain ⟨slot, reads, absent⟩ := b.playOn_nowhere program' after.place
      refine ⟨absent, after.after slot reads, fun exists_ => ?_⟩
      have handed := (record exists_).after (calm_playOn _ v n)
      rw [annRecord_stay] at handed
      exact handed
    · have none : (v.player n).listeners = [] := List.eq_nil_iff_forall_not_mem.mpr fun j listens => by
        obtain ⟨q, ann, r, mark, state, more⟩ := (heard.listeners j).mp listens
        have few := all j q ann r mark state
        omega
      rw [playOn_releases program' none (by rw [fresh', awaited']; exact leaves)]
      exact (releasePlayer_freed v n).before (by rw [heard.player]) (by rw [heard.player])
    · have joins : v.playOn n = v.joinPoint n := by
        rcases goesOn with waits | ⟨j, q, ann, r, mark, state, more⟩
        · exact playOn_takes (fresh'.trans fresh) program' (awaited'.trans waits)
        · exact playOn_joins (List.ne_nil_of_mem ((heard.listeners j).mpr ⟨q, ann, r, mark, state, more⟩))
      have copy' : (v.player n).copy = some c := by rw [heard.player]; exact copy
      have point := b.joinPoint_taken (fresh'.trans fresh) program'
      rw [joins]
      refine ⟨?_, point.frames c copy', point.window c copy', point.queue.trans (by rw [heard.queue]),
        fun j ann filler waits => ?_⟩
      · rw [point.player, heard.player]
        exact run
      · have before : (v.slot j).state = .waiting p ann filler := by
          rw [heard.others j (by rw [waits]; nofun)]
          exact waits
        have underruns : (v.player n).underruns = (s.player n).underruns := by rw [heard.player]
        rw [point.joined j ann filler before, underruns]
    · have shut : v.joinPoint n = v.setPlayer n { v.player n with framesLeft := 0, windowOpen := false } :=
        joinPoint_shut (by rw [fresh', stale]; decide)
      rcases playOn_cases v n with e | e <;> rw [e]
      · rw [releasePlayer_queue, heard.queue]
      · rw [shut]
        exact heard.queue
    · obtain ⟨j, q, ann, r, mark, state, more⟩ := goesOn
      rw [playOn_joins (List.ne_nil_of_mem ((heard.listeners j).mpr ⟨q, ann, r, mark, state, more⟩)),
        joinPoint_shut (by rw [fresh', stale]; decide), State.setPlayer_player_same]
      exact ⟨by rw [heard.player]; exact run, rfl, rfl⟩
    · have same := heard.others j other
      exact (b.playOn_slot program' (by rw [same]; exact free)).trans same
  · rintro s n cause t rfl m
    have taken := (((membership_iff_booked s).mp m).except n).faultMark_taken cause
    refine ⟨taken.freed, taken.players, taken.queue, taken.gens, taken.others,
      fun older j newer q ann r mark split state => ⟨taken.after j ?_ q ann n r mark state, fun exists_ => ?_⟩⟩
    · rw [split]
      exact List.mem_append_right _ List.mem_cons_self
    · have record := taken.record older j newer split q ann n r mark state exists_
      rw [annRecord_stay] at record
      exact record

end Sys2Proof.Machine

namespace Sys2Proof.Machine

/-! ### A player's events reach no other player (R113, R114, R121) -/

theorem joinWaiting_other (s : State) (n : PlayerIx) (j : Slot) (m : PlayerIx) (h : m ≠ n) :
    (s.joinWaiting n j).player m = s.player m := by
  unfold State.joinWaiting
  split
  · rw [State.joinPlayer, State.modifyPlayer_player_ne _ _ _ _ h, enter_player, leaveWaiting_player]
  · rfl

theorem joinPoint_other (s : State) (n m : PlayerIx) (h : m ≠ n) : (s.joinPoint n).player m = s.player m := by
  unfold State.joinPoint
  split
  · rw [State.modifyPlayer_player_ne _ _ _ _ h]
    exact foldl_kept (fun t => t.player m) _ (fun t j => joinWaiting_other t n j m h) _ s
  · exact State.modifyPlayer_player_ne _ _ _ _ h

theorem completeListener_other (s : State) (n : PlayerIx) (cause : Option PlaylistFault) (j : Slot) (m : PlayerIx)
    (h : m ≠ n) : (s.completeListener n cause j).player m = s.player m := by
  have left : (s.modifyPlayer n fun pl => { pl with listeners := pl.listeners.filter (fun i => i != j) }).player m =
      s.player m := State.modifyPlayer_player_ne _ _ _ _ h
  unfold State.completeListener
  dsimp only
  split
  · unfold State.player at *
    rw [attachOrIdle_players, takeOutcome_players]
    exact left
  · exact left

theorem faultMark_other (s : State) (n : PlayerIx) (cause : PlaylistFault) (m : PlayerIx) (h : m ≠ n) :
    (s.faultMark n cause).player m = s.player m :=
  (releasePlayer_other _ n m h).trans
    (foldl_kept (fun t => t.player m) _ (fun t j => completeListener_other t n _ j m h) _ s)

theorem firstPassStart_other (s : State) (n : PlayerIx) (fault : Option PlaylistFault) (m : PlayerIx) (h : m ≠ n) :
    (s.firstPassStart n fault).player m = s.player m := by
  have joined := (joinPoint_other (s.passStarted n) n m h).trans (passStarted_other s n m h)
  rw [firstPassStart_eq]
  split
  · exact (releasePlayer_other _ n m h).trans joined
  · cases fault with
    | none => exact joined
    | some cause => exact (faultMark_other _ n cause m h).trans joined

theorem takePriming_other (n : PlayerIx) (k : Nat) (m : PlayerIx) (h : m ≠ n) :
    ∀ s : State, (State.takePriming n k s).player m = s.player m := by
  induction k with
  | zero => exact fun _ => rfl
  | succ k ih =>
    intro s
    unfold State.takePriming
    split
    · exact firstPassStart_other s n _ m h
    · exact (ih _).trans ((onlyPlayer_emptyCurrent s n).players m h)
    · exact firstPassStart_other s n _ m h
    · rfl

theorem startWalker_other (s : State) (n m : PlayerIx) (h : m ≠ n) : (s.startWalker n).player m = s.player m := by
  unfold State.startWalker State.advanceWalker
  rw [(onlyPlayer_walk n walkBound _).players m h, setNext_other _ n _ m h, modifyWalker_other _ n _ m h]

/-! ### A binding fetch completes (R109, R110) -/

theorem exec_bindingFetchComplete {s : State} {r : OwnRequest} {data : Word} {n : PlayerIx} {p : Program}
    (settled : s.Settled) (last : s.LastWordOf r) (kind : r.kind = .bindingFetch n p) :
    exec (.bindingFetchComplete data) s =
      .next (s.delivered.bindingDone n p r.gen (!r.overtaken) (r.advance data).answer).finish :=
  congrArg Host.Outcome.next (takeEnds_complete settled last
    (by simp only [OwnRequest.advance_kind, OwnRequest.advance_gen, OwnRequest.advance_overtaken, kind]))

/-- Of a copy that passes, the type is ANNOUNCEMENT where it is not TONE. -/
theorem isAnnouncement_of_checkCopy {ws : List Word} (check : checkCopy none ws = none) :
    isAnnouncement ws = !isTone ws := by
  have known : (isTone ws || isAnnouncement ws) = true := by
    by_contra unknown
    unfold checkCopy at check
    rw [Bool.not_eq_true] at unknown
    split at check
    · cases check
    · rw [unknown] at check
      cases check
  have apart : isTone ws = true → isAnnouncement ws = false := by
    unfold isTone isAnnouncement
    intro tone
    rw [eq_of_beq tone]
    rfl
  cases tone : isTone ws with
  | true => exact apart tone
  | false =>
    rw [tone, Bool.false_or] at known
    exact known

theorem checkAnnouncement_eq_none_iff (ws : List Word) :
    checkAnnouncement ws = none ↔ checkCopy none ws = none ∧ isTone ws = false := by
  unfold checkAnnouncement
  cases check : checkCopy none ws with
  | some cause => simp
  | none => simp [isAnnouncement_of_checkCopy check]

section Matching

variable {s : State} {n : PlayerIx} {p : Program} {gen : Option Generation}

theorem bindingDone_discarded (h : gen ≠ some (s.player n).gen) (fresh : Bool) (ws : List Word) :
    s.bindingDone n p gen fresh ws = s := if_neg fun matching => h matching.1

/-- The answer is the one that player n, PRIMING without its copy, waits for. -/
structure State.AwaitsBinding (s : State) (n : PlayerIx) (gen : Option Generation) : Prop where
  gen : gen = some (s.player n).gen
  state : (s.player n).state = .priming
  fresh : (s.player n).fresh = none

theorem State.AwaitsBinding.failed (h : s.AwaitsBinding n gen) (fresh : Bool) {ws : List Word}
    (check : checkAnnouncement ws ≠ none) : s.bindingDone n p gen fresh ws = s.bindingFailed n p := by
  obtain ⟨cause, check⟩ := Option.ne_none_iff_exists'.mp check
  unfold State.bindingDone
  rw [if_pos ⟨h.gen, h.state, h.fresh⟩, check]

theorem State.AwaitsBinding.overtaken (h : s.AwaitsBinding n gen) {ws : List Word}
    (check : checkAnnouncement ws = none) : s.bindingDone n p gen false ws = s.releasePlayer n := by
  unfold State.bindingDone
  rw [if_pos ⟨h.gen, h.state, h.fresh⟩, check]
  rfl

/-- Player n has taken its copy, and its binding is fresh (R110). -/
def State.copyTaken (s : State) (n : PlayerIx) (copy : PlayerCopy) : State :=
  s.modifyPlayer n fun pl => { pl with fresh := some true, copy := some copy }

theorem State.AwaitsBinding.taken (h : s.AwaitsBinding n gen) {ws : List Word}
    (check : checkAnnouncement ws = none) :
    s.bindingDone n p gen true ws = ((s.copyTaken n (playerCopyOf ws)).startWalker n).primed n := by
  unfold State.bindingDone
  rw [if_pos ⟨h.gen, h.state, h.fresh⟩, check]
  rfl

end Matching

/-! ### Waiting entries fault (R109) -/

/-- SLOT_FAULT with BINDING of slot j. -/
def bindingRecord (s : State) (j : Slot) (p : Program) : Outcome := slotRecord s j .slotFault p 6

/-- The slots of `l`, which all wait, have faulted in their order. -/
structure FailedBy (l : List Slot) (s t : State) : Prop where
  faulted : ∀ j ∈ l, ∀ p ann f, (s.slot j).state = .waiting p ann f →
    (t.slot j).state = .fault p ∧ (t.slot j).shadow = (s.slot j).shadow
  record : ∀ older j newer, l = older ++ j :: newer → ∀ p ann f, (s.slot j).state = .waiting p ann f →
    HandedOver s t (s.recordsOf older) (bindingRecord s j p)
  others : ∀ j, j ∉ l → t.slot j = s.slot j
  queue : t.queue = s.queue.filter (fun e => !l.contains e.slot)
  players : t.players = s.players
  fm : t.fm = s.fm
  underWay : t.mra.underWay = s.mra.underWay
  calm : ∀ i, i ∉ l → CalmBut (s.recordsOf l) (slotSource i) s t

theorem leaveWaiting_mra (s : State) (j : Slot) (f : Option GenIx) : (s.leaveWaiting j f).mra = s.mra := by
  unfold State.leaveWaiting
  rw [releaseFiller_mra, leaveQueue_mra]

theorem leaveWaiting_rrw (s : State) (j : Slot) (f : Option GenIx) : (s.leaveWaiting j f).rrw = s.rrw := by
  unfold State.leaveWaiting
  rw [releaseFiller_rrw, leaveQueue_rrw]

theorem leaveWaiting_fm (s : State) (j : Slot) (f : Option GenIx) : (s.leaveWaiting j f).fm = s.fm := by
  unfold State.leaveWaiting
  rw [releaseFiller_fm, leaveQueue_fm]

theorem leaveWaiting_players (s : State) (j : Slot) (f : Option GenIx) : (s.leaveWaiting j f).players = s.players := by
  unfold State.leaveWaiting
  rw [releaseFiller_players, leaveQueue_players]

theorem enter_underWay (s : State) (j : Slot) (st : SlotState) : (s.enter j st).mra.underWay = s.mra.underWay := rfl

theorem reportsHeld_of_mra {s t : State} (h : t.mra = s.mra) : t.reportsHeld = s.reportsHeld := by
  unfold State.reportsHeld State.requestsHeld
  rw [h]

/-- The transition out of WAITING is nothing to the reports. -/
theorem calmBut_leaveWaiting (src : Source) (s : State) (j : Slot) (f : Option GenIx) :
    CalmBut 0 src s (s.leaveWaiting j f) :=
  .quiet (calm_leaveWaiting src s j f) (leaveWaiting_rrw s j f) (reportsHeld_of_mra (leaveWaiting_mra s j f))

theorem failWaiter_failed (s : State) (j : Slot) (p : Program) (ann : AnnFields) (f : Option GenIx)
    (h : (s.slot j).state = .waiting p ann f) : FailedBy [j] s (s.failWaiter j) := by
  have entered : ∀ src, CalmBut 0 src s ((s.leaveWaiting j f).enter j (.fault p)) := fun src =>
    (calmBut_leaveWaiting src s j f).trans (calmBut_enter src _ j _)
  have record : bindingRecord s j p = bindingRecord ((s.leaveWaiting j f).enter j (.fault p)) j p := by
    unfold bindingRecord slotRecord
    rw [enter_fm, leaveWaiting_fm]
  have fails : s.failWaiter j = ((s.leaveWaiting j f).enter j (.fault p)).takeOutcome (bindingRecord s j p) := by
    unfold State.failWaiter
    rw [h, record]
    rfl
  have pend : ((s.leaveWaiting j f).enter j (.fault p)).isPending (slotSource j) = s.isPending (slotSource j) :=
    (entered (slotSource j)).calm.pend
  have slots : ∀ i, (s.failWaiter j).slot i = ((s.leaveWaiting j f).enter j (.fault p)).slot i := fun i => by
    rw [fails, takeOutcome_slot]
  refine ⟨?_, ?_, fun i other => ?_, ?_, ?_, ?_, ?_, fun i other => ?_⟩
  · intro i mem q ann' f' waits
    obtain rfl : i = j := List.mem_singleton.mp mem
    cases h.symm.trans waits
    rw [slots]
    refine ⟨(enter_state _ i _).1, (enter_state _ i _).2.trans (by rw [leaveWaiting_slot])⟩
  · intro older i newer split q ann' f' waits
    cases older with
    | cons x xs => simp at split
    | nil =>
      obtain rfl : j = i := (List.cons.inj split).1
      cases h.symm.trans waits
      have handed := HandedOver.before (o := bindingRecord s j p) (entered (slotSource j)) (takeOutcome_handedOver _ _)
      rw [Nat.zero_add, ← fails] at handed
      exact handed
  · rw [slots, enter_slot, if_neg (by simpa using other), leaveWaiting_slot]
  · rw [fails, takeOutcome_queue, enter_queue, leaveWaiting_queue]
    refine List.filter_congr fun e _ => ?_
    rw [Bool.eq_iff_iff]
    simp
  · rw [fails, takeOutcome_players, enter_players, leaveWaiting_players]
  · rw [fails, takeOutcome_fm, enter_fm, leaveWaiting_fm]
  · rw [fails, takeOutcome_underWay, enter_underWay, leaveWaiting_mra]
  · have ne : j ≠ i := fun e => other (by simp [e])
    have told := (entered (slotSource i)).trans
      (calmBut_takeOutcome (slotSource i) ((s.leaveWaiting j f).enter j (.fault p)) (bindingRecord s j p)
        (slotSource_ne j i ne))
    have count : 0 + (if ((s.leaveWaiting j f).enter j (.fault p)).isPending (bindingRecord s j p).source = true then 0
        else 1) = s.recordsOf [j] := by
      rw [show (bindingRecord s j p).source = slotSource j from rfl, pend]
      unfold State.recordsOf
      cases e : s.isPending (slotSource j) <;> simp [e]
    rw [count, ← fails] at told
    exact told

/-- A run of faults, one for each waiting slot. -/
theorem failWaiters_failed (l : List Slot) : ∀ s : State, l.Nodup →
    (∀ j ∈ l, ∃ p ann f, (s.slot j).state = .waiting p ann f) → FailedBy l s (l.foldl State.failWaiter s) := by
  induction l with
  | nil =>
    exact fun s _ _ => ⟨nofun, fun older j newer split => by simp at split, fun _ _ => rfl, by simp, rfl, rfl, rfl,
      fun _ _ => .quiet (.refl _ _) rfl rfl⟩
  | cons a l ih =>
    intro s once waiting
    obtain ⟨p, ann, f, state⟩ := waiting a List.mem_cons_self
    have first := failWaiter_failed s a p ann f state
    obtain ⟨absent, once⟩ := List.nodup_cons.mp once
    have ne : ∀ j ∈ l, j ∉ [a] := fun j mem here => absent (List.mem_singleton.mp here ▸ mem)
    have slot : ∀ j ∈ l, (s.failWaiter a).slot j = s.slot j := fun j mem => first.others j (ne j mem)
    have rest := ih (s.failWaiter a) once fun j mem => by
      rw [slot j mem]
      exact waiting j (List.mem_cons_of_mem a mem)
    have pend : ∀ older : List Slot, (∀ j ∈ older, j ∈ l) → (s.failWaiter a).recordsOf older = s.recordsOf older :=
      fun older sub => recordsOf_congr older fun j mem => (first.calm j (ne j (sub j mem))).calm.pend
    rw [List.foldl_cons]
    refine ⟨fun j mem q ann' f' waits => ?_, fun older j newer split q ann' f' waits => ?_, fun j other => ?_, ?_,
      rest.players.trans first.players, rest.fm.trans first.fm, rest.underWay.trans first.underWay, fun j other => ?_⟩
    · rcases List.mem_cons.mp mem with rfl | mem
      · rw [rest.others j absent]
        exact first.faulted j (List.mem_singleton_self j) q ann' f' waits
      · rw [← slot j mem]
        exact rest.faulted j mem q ann' f' (by rw [slot j mem]; exact waits)
    · cases older with
      | nil =>
        obtain ⟨rfl, rfl⟩ := List.cons.inj split
        exact HandedOver.after (first.record [] a [] rfl q ann' f' waits) (rest.calm a absent).calm
      | cons x older =>
        obtain rfl : a = x := (List.cons.inj split).1
        have tail : l = older ++ j :: newer := (List.cons.inj split).2
        have mem : j ∈ l := by rw [tail]; exact List.mem_append_right _ List.mem_cons_self
        have record := rest.record older j newer tail q ann' f' (by rw [slot j mem]; exact waits)
        have same : bindingRecord (s.failWaiter a) j q = bindingRecord s j q := by
          unfold bindingRecord slotRecord
          rw [first.fm]
        rw [same, pend older fun i mem => by rw [tail]; exact List.mem_append_left _ mem] at record
        rw [recordsOf_cons]
        exact HandedOver.before (o := bindingRecord s j q) (first.calm j (ne j mem)) record
    · rw [List.mem_cons, not_or] at other
      rw [rest.others j other.2, first.others j (by simpa using other.1)]
    · rw [rest.queue, first.queue, List.filter_filter]
      refine List.filter_congr fun e _ => ?_
      rw [Bool.eq_iff_iff]
      simp [and_comm]
    · rw [List.mem_cons, not_or] at other
      have both := (first.calm j (by simpa using other.1)).trans (rest.calm j other.2)
      rw [pend l fun _ => id, ← recordsOf_cons] at both
      exact both

/-! ### A binding fails (R109, R122) -/

/-- The completion of a read that is no report write takes no record out of the queue. -/
theorem calmBut_delivered {s : State} {r : OwnRequest} (last : s.LastWordOf r) (h : r.kind.isReport = false)
    (src : Source) : CalmBut 0 src s s.delivered :=
  .quiet ⟨rfl, rfl, rfl, fun _ _ waits => waits⟩ rfl (delivered_reportsHeld last h)

theorem calmBut_freePlayer (src : Source) (s : State) (n : PlayerIx) : CalmBut 0 src s (s.freePlayer n) :=
  .quiet (calm_freePlayer src s n) rfl
    (reportsHeld_of_reportWrites (withdraw_reportWrites s _ (readOfPlayer_isServing n)))

/-- The waiting slots of p have faulted and player n, which is not RUNNING, has gone FREE. -/
structure BindingFailed (n : PlayerIx) (p : Program) (s t : State) : Prop where
  freed : Freed s t n
  queue : t.queue = s.queue.filter (fun e => e.program != p)
  faulted : ∀ j ann f, (s.slot j).state = .waiting p ann f →
    (t.slot j).state = .fault p ∧ (t.slot j).shadow = (s.slot j).shadow
  record : ∀ older e newer, s.queue.filter (fun e => e.program == p) = older ++ e :: newer →
    HandedOver s t (s.recordsOf (older.map (fun x => x.slot))) (bindingRecord s e.slot p)
  others : ∀ j, (∀ ann f, (s.slot j).state ≠ .waiting p ann f) → t.slot j = s.slot j
  players : ∀ m, m ≠ n → t.player m = s.player m

theorem State.Membership.bindingFailed_failed {s : State} (m : s.Membership) (n : PlayerIx) (p : Program)
    (idle : s.mra.underWay = none) : BindingFailed n p s (s.bindingFailed n p) := by
  have waiters := mem_waitersFor s m p
  have waiting : ∀ j ∈ s.waitersFor p, ∃ q ann f, ((s.freePlayer n).slot j).state = .waiting q ann f := by
    intro j mem
    obtain ⟨ann, f, state⟩ := (waiters j).mp mem
    exact ⟨p, ann, f, by rw [freePlayer_slot]; exact state⟩
  have failed := failWaiters_failed (s.waitersFor p) (s.freePlayer n) (waitersFor_nodup s m p) waiting
  rw [bindingFailed_eq]
  generalize (s.waitersFor p).foldl State.failWaiter (s.freePlayer n) = u at failed ⊢
  have player : ∀ k, u.player k = (s.freePlayer n).player k := fun k => by unfold State.player; rw [failed.players]
  have noneUnderWay : u.mra.underWay = none := failed.underWay.trans idle
  refine ⟨allocate_freed s u n ?_, ?_, fun j ann f state => ?_, fun older e newer split => ?_, fun j other => ?_,
    fun k other => ?_⟩
  · rw [player, State.freePlayer, State.setPlayer_player_same]
    unfold State.nextPlayerGen State.underWayGen
    rw [noneUnderWay, idle]
  · rw [allocate_queue, failed.queue, freePlayer_queue, waitersFor_filter s m p]
  · rw [allocate_slot]
    have faulted := failed.faulted j ((waiters j).mpr ⟨ann, f, state⟩) p ann f (by rw [freePlayer_slot]; exact state)
    rwa [freePlayer_slot] at faulted
  · have split' : s.waitersFor p = older.map (fun x => x.slot) ++ e.slot :: newer.map (fun x => x.slot) := by
      unfold State.waitersFor
      rw [split, List.map_append, List.map_cons]
    have mem : e.slot ∈ s.waitersFor p := by rw [split']; exact List.mem_append_right _ List.mem_cons_self
    obtain ⟨ann, f, state⟩ := (waiters e.slot).mp mem
    have record := failed.record _ e.slot _ split' p ann f (by rw [freePlayer_slot]; exact state)
    have handed := HandedOver.before (o := bindingRecord s e.slot p) (calmBut_freePlayer (slotSource e.slot) s n) record
    rw [Nat.zero_add] at handed
    exact handed.after (calm_allocate _ u n)
  · rw [allocate_slot, failed.others j, freePlayer_slot]
    intro mem
    obtain ⟨ann, f, state⟩ := (waiters j).mp mem
    exact other ann f state
  · rw [allocate_other u n k other, player, freePlayer_other s n k other]

theorem bindingDone_other (s : State) (n : PlayerIx) (p : Program) (gen : Option Generation) (fresh : Bool)
    (ws : List Word) (m : PlayerIx) (h : m ≠ n) : (s.bindingDone n p gen fresh ws).player m = s.player m := by
  have failing : ∀ (l : List Slot) (u : State), (l.foldl State.failWaiter u).player m = u.player m :=
    foldl_kept (fun t => t.player m) State.failWaiter (fun t j => failWaiter_player t j m)
  unfold State.bindingDone
  split
  · split
    · rw [bindingFailed_eq, allocate_other _ n m h, failing, freePlayer_other s n m h]
    · split
      · unfold State.primed
        rw [takePriming_other n walkBound m h, startWalker_other _ n m h]
        exact State.modifyPlayer_player_ne _ _ _ _ h
      · exact releasePlayer_other s n m h
  · rfl

/-- Settles O42: the answer is discarded, or the binding fails, or an overtaken copy frees the player. -/
theorem bindingFetchFails : Obligations.BindingFetchFails := by
  intro s r data n p settled last kind m
  have moves := moves_bindingDone s.delivered n p r.gen (!r.overtaken) (r.advance data).answer
  refine ⟨_, _, exec_bindingFetchComplete settled last kind, rfl, completed_moves s _ moves, fun other => ?_,
    fun gen prime fresh => ⟨(finish_boot _).trans moves.servingOnly.boot,
      (finish_refetch _).trans moves.servingOnly.refetch,
      fun k other => (finish_player _ k).trans (bindingDone_other s.delivered n p r.gen _ _ k other), fun fails => ?_,
      fun check tone overtaken => ?_⟩⟩
  · rw [bindingDone_discarded (s := s.delivered) other]
    exact discarded_delivered s
  · have awaits : s.delivered.AwaitsBinding n r.gen := ⟨gen, prime, fresh⟩
    have check : checkAnnouncement (r.advance data).answer ≠ none := by
      rw [ne_eq, checkAnnouncement_eq_none_iff]
      rintro ⟨passes, other⟩
      exact fails.elim (fun h => h passes) fun tone => Bool.false_ne_true (other.symm.trans tone)
    rw [awaits.failed (!r.overtaken) check]
    have failed := m.delivered.bindingFailed_failed n p rfl
    refine ⟨(Freed.before (s := s) failed.freed rfl rfl).finish, (finish_queue _).trans failed.queue, fun j ann f state => ?_,
      fun older e newer split => ?_, fun j other => (finish_slot _ j).trans (failed.others j other)⟩
    · rw [finish_slot]
      exact failed.faulted j ann f state
    · have handed := HandedOver.before (o := bindingRecord s e.slot p)
        (calmBut_delivered last (by rw [kind]; rfl) (slotSource e.slot)) (failed.record older e newer split)
      rw [Nat.zero_add] at handed
      exact handed.finish
  · have awaits : s.delivered.AwaitsBinding n r.gen := ⟨gen, prime, fresh⟩
    rw [overtaken, Bool.not_true, awaits.overtaken ((checkAnnouncement_eq_none_iff _).mpr ⟨check, tone⟩)]
    exact ⟨(Freed.before (s := s) (releasePlayer_freed s.delivered n) rfl rfl).finish, (finish_queue _).trans (releasePlayer_queue _ n),
      (finish_slots _).trans (releasePlayer_slots _ n), (finish_gens _).trans (releasePlayer_gens _ n),
      (finish_rrw _).trans (releasePlayer_rrw _ n)⟩

end Sys2Proof.Machine

namespace Sys2Proof.Machine

theorem copyTaken_player (s : State) (n : PlayerIx) (copy : PlayerCopy) :
    (s.copyTaken n copy).player n = { s.player n with fresh := some true, copy := some copy } :=
  State.modifyPlayer_player_same ..

/-! ### The walker starts (R128, R129, R140) -/

theorem setPlayer_modifyWalker (s : State) (n : PlayerIx) (x : Player) (f : Walker → Walker) :
    (s.setPlayer n x).modifyWalker n f = s.setPlayer n { x with walker := f x.walker } := by
  unfold State.modifyWalker State.modifyPlayer
  rw [State.setPlayer_player_same, State.setPlayer_setPlayer]

theorem walk_moves {s t : State} {n : PlayerIx} (moves : s.walkOnce n = some t) (k : Nat) :
    State.walk n (k + 1) s = State.walk n k t := by
  rw [State.walk, moves]

/-- A WALKING walker with no current step has its next entry to promote and nothing to place. -/
theorem walkOnce_promotes {s : State} {n : PlayerIx} (walking : (s.player n).walker.state = .walking)
    (none : (s.player n).walker.current = none) : s.walkOnce n = s.promote n := by
  have nothing : s.place n = .none := by
    unfold State.place
    dsimp only
    rw [walking, none]
  unfold State.walkOnce
  dsimp only
  rw [nothing, if_neg (fun h => Bool.false_ne_true h.2), if_pos ⟨walking, none⟩]

theorem walkOnce_halts {s : State} {n : PlayerIx} {offset : Nat} {cause : PlaylistFault}
    (walking : (s.player n).walker.state = .walking) (none : (s.player n).walker.current = none)
    (next : (s.player n).walker.next = .unreachable offset cause) :
    s.walkOnce n = some (s.modifyWalker n fun w => w.halt cause) := by
  rw [walkOnce_promotes walking none]
  unfold State.promote
  dsimp only
  rw [next]

theorem walkOnce_waits {s : State} {n : PlayerIx} {offset : Nat} (walking : (s.player n).walker.state = .walking)
    (none : (s.player n).walker.current = none) (next : (s.player n).walker.next = .fetching offset) :
    s.walkOnce n = .none := by
  rw [walkOnce_promotes walking none]
  unfold State.promote
  dsimp only
  rw [next]

theorem walkOnce_places_fault {s : State} {n : PlayerIx} {cause : PlaylistFault}
    (halting : (s.player n).walker.state = .halting cause)
    (empty : (s.player n).half (s.player n).walker.nextHalf = .empty) :
    s.walkOnce n = some (s.setPlayer n ((s.player n).placeFull (.mark (.fault cause))
      { (s.player n).walker with state := .stopped, current := none })) := by
  have placed : s.place n = some (s.setPlayer n ((s.player n).placeFull (.mark (.fault cause))
      { (s.player n).walker with state := .stopped, current := none })) := by
    unfold State.place
    dsimp only
    rw [halting]
  unfold State.walkOnce
  dsimp only
  rw [placed]
  exact if_pos ⟨empty, rfl⟩

theorem walkOnce_stopped {s : State} {n : PlayerIx} (stopped : (s.player n).walker.state = .stopped) :
    s.walkOnce n = none := by
  have nothing : s.place n = none := by
    unfold State.place
    dsimp only
    rw [stopped]
  unfold State.walkOnce
  dsimp only
  rw [nothing, stopped]
  simp

/-- A walker that started at an offset, with its next entry there. -/
def Walker.startedAt (start : Nat) (next : NextEntry) : Walker :=
  { Walker.reset with state := .walking, bank := bankOf start, next := next }

/-- Player n's walker has started at an offset. -/
def State.walkerAt (s : State) (n : PlayerIx) (start : Nat) (next : NextEntry) : State :=
  s.setPlayer n { s.player n with walker := Walker.startedAt start next }

theorem walkerAt_player (s : State) (n : PlayerIx) (start : Nat) (next : NextEntry) :
    (s.walkerAt n start next).player n = { s.player n with walker := Walker.startedAt start next } :=
  State.setPlayer_player_same ..

theorem walkerAt_modifyWalker (s : State) (n : PlayerIx) (start : Nat) (next : NextEntry) :
    (s.modifyWalker n fun _ => { Walker.reset with state := .walking, bank := bankOf start }).modifyWalker n
      (fun w => { w with next := next }) = s.walkerAt n start next := setPlayer_modifyWalker s n _ _

/-- Player n's walker has started and fetches its first step, 4 words at AB + start (R128, R129). -/
def State.firstStepFetched (s : State) (n : PlayerIx) (start : Nat) : State :=
  (s.walkerAt n start (.fetching start)).enqueue
    (ownRead (.stepFetch n) (s.player n).gen (s.storeBase + BitVec.ofNat 24 start) 4)

theorem firstStepFetched_player (s : State) (n : PlayerIx) (start : Nat) : (s.firstStepFetched n start).player n =
    { s.player n with walker := Walker.startedAt start (.fetching start) } := walkerAt_player s n start _

/-- With its first step to come the walker has nothing to place and nothing to promote. -/
theorem startWalker_fetching {s : State} {n : PlayerIx} {start : Nat} (at_ : (s.player n).start = start)
    (even : start % 2 = 0) (inside : start + 8 ≤ s.storeSize) : s.startWalker n = s.firstStepFetched n start := by
  have next : (s.modifyWalker n fun _ => { Walker.reset with state := .walking, bank := bankOf start }).setNext n start =
      s.firstStepFetched n start := by
    refine (setNext_reached (s.modifyWalker n _) n start even inside).trans ?_
    rw [walkerAt_modifyWalker, modifyWalker_player]
    rfl
  have player := congrArg Player.walker (firstStepFetched_player s n start)
  unfold State.startWalker State.advanceWalker
  rw [at_, next]
  exact walk_still _ n walkBound (walkOnce_waits (offset := start) (by rw [player]; rfl) (by rw [player]; rfl)
    (by rw [player]; rfl))

theorem stepFault_of {size start : Nat} {cause : PlaylistFault} (h : start % 2 = 1 ∧ cause = .badStep ∨
    start % 2 = 0 ∧ size < start + 8 ∧ cause = .outOfStore) : stepFault size start = some cause := by
  unfold stepFault
  rcases h with ⟨odd, rfl⟩ | ⟨even, beyond, rfl⟩
  · exact if_pos odd
  · rw [if_neg (by omega), if_pos beyond]

/-- The walker of a playlist whose start cannot be read, once its fault is placed. -/
def Walker.faultedAt (start : Nat) : Walker := { Walker.reset with bank := bankOf start, nextHalf := .b }

/-- A start that cannot be read is promoted to a FAULT mark in half A at once. -/
theorem startWalker_faulted {s : State} {n : PlayerIx} {start : Nat} {cause : PlaylistFault}
    (at_ : (s.player n).start = start) (fault : stepFault s.storeSize start = some cause)
    (empty : (s.player n).halfA = .empty) : s.startWalker n = s.setPlayer n { s.player n with
      walker := Walker.faultedAt start
      halfA := .full (.mark (.fault cause)) } := by
  have next : (s.modifyWalker n fun _ => { Walker.reset with state := .walking, bank := bankOf start }).setNext n start =
      s.walkerAt n start (.unreachable start cause) := by
    rw [← walkerAt_modifyWalker]
    unfold State.setNext
    rw [show (s.modifyWalker n fun _ => { Walker.reset with state := .walking, bank := bankOf start }).storeSize =
      s.storeSize from rfl, fault]
  obtain ⟨x, hx⟩ : ∃ x, x = { s.player n with
    walker := (Walker.startedAt start (.unreachable start cause)).halt cause } := ⟨_, rfl⟩
  have halts : (s.walkerAt n start (.unreachable start cause)).walkOnce n = some (s.setPlayer n x) := by
    have player := congrArg Player.walker (walkerAt_player s n start (.unreachable start cause))
    rw [walkOnce_halts (by rw [player]; rfl) (by rw [player]; rfl) (by rw [player]; rfl), hx]
    exact congrArg some (setPlayer_modifyWalker s n _ _)
  have placed : (s.setPlayer n x).walkOnce n = some (s.setPlayer n { s.player n with
      walker := Walker.faultedAt start
      halfA := .full (.mark (.fault cause)) }) := by
    rw [walkOnce_places_fault (cause := cause) (by rw [State.setPlayer_player_same, hx]; rfl)
      (by rw [State.setPlayer_player_same, hx]; exact empty), State.setPlayer_player_same, State.setPlayer_setPlayer, hx]
    rfl
  unfold State.startWalker State.advanceWalker
  rw [at_, next]
  exact ((walk_moves halts 7).trans (walk_moves placed 6)).trans
    (walk_still _ n 6 (walkOnce_stopped (by rw [State.setPlayer_player_same]; rfl)))

/-! ### A FAULT mark at the first pass start (R113, R121) -/

theorem joinWaiting_rrw (s : State) (n : PlayerIx) (j : Slot) : (s.joinWaiting n j).rrw = s.rrw := by
  unfold State.joinWaiting
  split
  · exact leaveWaiting_rrw s j _
  · rfl

theorem joinWaiting_reportsHeld (s : State) (n : PlayerIx) (j : Slot) :
    (s.joinWaiting n j).reportsHeld = s.reportsHeld := by
  unfold State.joinWaiting
  split
  · rename_i p ann filler _
    have entered := reportsHeld_of_reportWrites (enter_reportWrites (s.leaveWaiting j filler) j
      (.playing p ann n ann.listens ((s.leaveWaiting j filler).player n).underruns))
    exact entered.trans (reportsHeld_of_mra (leaveWaiting_mra s j filler))
  · rfl

/-- A join point queues no record. -/
theorem calmBut_joinPoint (src : Source) (s : State) (n : PlayerIx) : CalmBut 0 src s (s.joinPoint n) := by
  refine .quiet (calm_joinPoint src s n) ?_ ?_
  all_goals
    unfold State.joinPoint
    split
  · exact foldl_kept State.rrw _ (fun t j => joinWaiting_rrw t n j) _ s
  · rfl
  · exact foldl_kept State.reportsHeld _ (fun t j => joinWaiting_reportsHeld t n j) _ s
  · rfl

/-- ANN_DONE of a slot that faults at the join point at which it joined. -/
theorem annRecord_joined (s : State) (j : Slot) (p : Program) (cause : PlaylistFault) (total : Frame) :
    annRecord s j p (some cause) (total - total) =
      { slotRecord s j .annDone p cause.code with faulted := true } := by
  rw [annRecord_stay, bne_self_eq_false, sub_self]
  rfl

/-- The slots that waited for p have joined player n and completed with the fault, in increasing order, and the player
has gone FREE. -/
structure FaultedAtStart (n : PlayerIx) (p : Program) (cause : PlaylistFault) (s t : State) : Prop where
  freed : Freed s t n
  queue : t.queue = s.queue.filter (fun e => e.program != p)
  others : ∀ j, (∀ ann f, (s.slot j).state ≠ .waiting p ann f) → t.slot j = s.slot j
  left : ∀ waiting : List Slot, waiting.Pairwise (fun i j => i < j) →
    (∀ j, j ∈ waiting ↔ ∃ ann f, (s.slot j).state = .waiting p ann f) →
    ∀ older j newer ann f, waiting = older ++ j :: newer → (s.slot j).state = .waiting p ann f →
      AfterTaken s t j ann ∧ ((∀ q, ann.after = some q → q.val < s.limit) →
        HandedOver s t (s.recordsOf older) { slotRecord s j .annDone p cause.code with faulted := true })

theorem State.Membership.firstPassStart_faulted {s : State} {n : PlayerIx} {p : Program} (m : s.Membership)
    (prime : (s.player n).state = .priming) (fresh : (s.player n).fresh = some true)
    (program : (s.player n).program = some p) (cause : PlaylistFault) :
    FaultedAtStart n p cause s (s.firstPassStart n (some cause)) := by
  have joined := m.firstJoinPoint fresh program
  have player := m.firstJoinPoint_player fresh program
  have listens := m.firstListeners prime fresh program
  have booked := (m.passStarted n).joinPoint.booked
  have calm : ∀ src, CalmBut 0 src s ((s.passStarted n).joinPoint n) := fun src =>
    (CalmBut.quiet (s := s) (t := s.passStarted n) (.of rfl rfl rfl) rfl rfl).trans (calmBut_joinPoint src (s.passStarted n) n)
  have fm : ((s.passStarted n).joinPoint n).fm = s.fm := (moves_joinPoint (s.passStarted n) n).servingOnly.fm
  have underruns : ((s.passStarted n).player n).underruns = (s.player n).underruns := by rw [passStarted_player]
  have playing := joined.joined
  rw [underruns] at playing
  rw [firstPassStart_eq]
  have before := joined.others
  have queue := joined.queue
  have boot : ((s.passStarted n).joinPoint n).boot = s.boot := joined.boot
  generalize (s.passStarted n).joinPoint n = v at player listens booked calm fm playing before queue boot ⊢
  have gen : (v.player n).gen = (s.player n).gen := by rw [player]
  have total : (v.player n).underruns = (s.player n).underruns := by rw [player]
  split
  · rename_i none
    refine ⟨(releasePlayer_freed v n).before gen total, (releasePlayer_queue v n).trans queue,
      fun j other => (releasePlayer_slot v n j).trans (before j other),
      fun waiting _ waits older j newer ann f split state => ?_⟩
    have listener := (listens j).mpr ⟨ann, f, state⟩
    rw [none] at listener
    cases listener
  · have taken := booked.faultMark_taken cause
    refine ⟨taken.freed.before gen total, taken.queue.trans queue, fun j other => ?_,
      fun waiting ordered waits older j newer ann f split state => ?_⟩
    · refine (taken.others j fun mem => ?_).trans (before j other)
      obtain ⟨ann, f, state⟩ := (listens j).mp mem
      exact other ann f state
    · have same : (v.player n).listeners = waiting :=
        (booked.ordered n).eq_of_mem_iff ordered fun i => (listens i).trans (waits i).symm
      have joins := playing j ann f state
      refine ⟨(taken.after j ((listens j).mpr ⟨ann, f, state⟩) p ann n _ _ joins).before boot, fun exists_ => ?_⟩
      have limit : v.limit = s.limit := by unfold State.limit; rw [boot]
      have record := taken.record older j newer (same.trans split) p ann n _ _ joins (by rw [limit]; exact exists_)
      have stamped : slotRecord v j .annDone p cause.code = slotRecord s j .annDone p cause.code := by
        unfold slotRecord
        rw [fm]
      rw [total, annRecord_joined, stamped, recordsOf_congr older fun i _ => (calm (slotSource i)).calm.pend] at record
      have handed := HandedOver.before (o := { slotRecord s j .annDone p cause.code with faulted := true })
        (calm (slotSource j)) record
      rw [Nat.zero_add] at handed
      exact handed

theorem FaultedAtStart.before {n : PlayerIx} {p : Program} {cause : PlaylistFault} {s u t : State}
    (h : FaultedAtStart n p cause u t) (slot : ∀ j, u.slot j = s.slot j) (queue : u.queue = s.queue) (fm : u.fm = s.fm)
    (gen : (u.player n).gen = (s.player n).gen) (underruns : (u.player n).underruns = (s.player n).underruns)
    (calm : ∀ src, CalmBut 0 src s u) : FaultedAtStart n p cause s t := by
  have boot : u.boot = s.boot := (calm deviceSource).calm.boot
  have limit : u.limit = s.limit := by unfold State.limit; rw [boot]
  refine ⟨h.freed.before gen underruns, h.queue.trans (by rw [queue]), fun j other => ?_,
    fun waiting ordered waits older j newer ann f split state => ?_⟩
  · exact (h.others j (by rw [slot]; exact other)).trans (slot j)
  · obtain ⟨after, record⟩ := h.left waiting ordered (fun i => by rw [slot]; exact waits i) older j newer ann f split
      (by rw [slot]; exact state)
    refine ⟨after.before boot, fun exists_ => ?_⟩
    have stamped : slotRecord u j .annDone p cause.code = slotRecord s j .annDone p cause.code := by
      unfold slotRecord
      rw [fm]
    have told := record (by rw [limit]; exact exists_)
    rw [stamped, recordsOf_congr older fun i _ => (calm (slotSource i)).calm.pend] at told
    have handed := HandedOver.before (o := { slotRecord s j .annDone p cause.code with faulted := true })
      (calm (slotSource j)) told
    rw [Nat.zero_add] at handed
    exact handed

/-! ### A valid copy is taken (R110, R128, R129) -/

section Taken

variable {s : State} {n : PlayerIx} {p : Program}
  (player : s.player n =
    { Player.reset with state := .priming, program := some p, gen := (s.player n).gen })

include player

/-- A start that can be read is fetched, and nothing is FULL yet. -/
theorem copyTaken_fetching (copy : PlayerCopy) (even : copy.start.toNat % 2 = 0)
    (inside : copy.start.toNat + 8 ≤ s.storeSize) : ((s.copyTaken n copy).startWalker n).primed n =
      (s.copyTaken n copy).firstStepFetched n copy.start.toNat := by
  have taken := copyTaken_player s n copy
  have stepped := firstStepFetched_player (s.copyTaken n copy) n copy.start.toNat
  rw [startWalker_fetching (s := s.copyTaken n copy) (by rw [taken]; rfl) even inside]
  refine takePriming_still _ (.inr fun c => ?_)
  rw [stepped, taken, player]
  nofun

/-- A start that cannot be read is the fault of the first pass start. -/
theorem copyTaken_faulted (m : s.Membership) (copy : PlayerCopy) (cause : PlaylistFault)
    (fault : stepFault s.storeSize copy.start.toNat = some cause) :
    FaultedAtStart n p cause s (((s.copyTaken n copy).startWalker n).primed n) := by
  have taken := copyTaken_player s n copy
  have walked := startWalker_faulted (s := s.copyTaken n copy) (n := n) (start := copy.start.toNat)
    (by rw [taken]; rfl) fault (by rw [taken, player]; rfl)
  have placed : (s.copyTaken n copy).startWalker n = s.setPlayer n { s.player n with
      fresh := some true
      copy := some copy
      walker := Walker.faultedAt copy.start.toNat
      halfA := .full (.mark (.fault cause)) } := by
    rw [walked, taken]
    exact State.setPlayer_setPlayer ..
  rw [placed]
  obtain ⟨x, hx⟩ : ∃ x, x = { s.player n with
    fresh := some true
    copy := some copy
    walker := Walker.faultedAt copy.start.toNat
    halfA := .full (.mark (.fault cause)) } := ⟨_, rfl⟩
  rw [← hx]
  have put : (s.setPlayer n x).player n = x := State.setPlayer_player_same ..
  have prime : x.state = .priming := by rw [hx, player]
  have fresh : x.fresh = some true := by rw [hx]
  have program : x.program = some p := by rw [hx, player]
  have head : x.half x.current = .full (.mark (.fault cause)) := by rw [hx, player]; rfl
  have m' := (seatsStand_setPlayer s n x (by rw [hx]) (by rw [hx])).membership m
  rw [primed_starts (c := .mark (.fault cause)) (by rw [put]; exact prime) (by rw [put]; exact head) nofun nofun]
  exact (m'.firstPassStart_faulted (by rw [put]; exact prime) (by rw [put]; exact fresh) (by rw [put]; exact program)
    cause).before (fun _ => rfl) rfl rfl (by rw [put, hx]) (by rw [put, hx]) fun _ => .quiet (.of rfl rfl rfl) rfl rfl

end Taken

/-- Settles O43: the walker starts, or its start is a FAULT mark at the first pass start. -/
theorem bindingFetchTaken : Obligations.BindingFetchTaken := by
  rintro s r data n p ws start settled last kind fresh m player gen answer check tone rfl
  have runs := exec_bindingFetchComplete (data := data) settled last kind
  have moves := moves_bindingDone s.delivered n p r.gen (!r.overtaken) ws
  have others := bindingDone_other s.delivered n p r.gen (!r.overtaken) ws
  have awaits : s.delivered.AwaitsBinding n r.gen :=
    ⟨gen, by rw [delivered_player, player], by rw [delivered_player, player]; rfl⟩
  rw [← answer] at runs
  rw [fresh, Bool.not_false, awaits.taken ((checkAnnouncement_eq_none_iff ws).mpr ⟨check, tone⟩)] at runs moves others
  refine ⟨_, runs, completed_moves s _ moves, (finish_boot _).trans moves.servingOnly.boot,
    (finish_refetch _).trans moves.servingOnly.refetch, fun even inside => ?_, fun cause unreadable => ?_⟩
  · rw [copyTaken_fetching (s := s.delivered) player _ even inside] at others ⊢
    have taken := copyTaken_player s.delivered n (playerCopyOf ws)
    refine ⟨?_, fun k other => (finish_player _ k).trans (others k other), finish_slots _, finish_gens _, finish_queue _,
      finish_rrw _, _, (finish_waiting _ _).mpr ((enqueue_waiting_iff _ _ _).mpr (.inr rfl)), rfl, ?_, rfl, rfl⟩
    · rw [finish_player, firstStepFetched_player, taken]
      rfl
    · exact congrArg (fun x => some x.gen) taken
  · have faulted := (copyTaken_faulted (s := s.delivered) player m.delivered (playerCopyOf ws) cause
      (stepFault_of unreadable)).before (s := s) (fun _ => rfl) rfl rfl rfl rfl
      (calmBut_delivered last (by rw [kind]; rfl))
    refine ⟨faulted.freed.finish, (finish_queue _).trans faulted.queue,
      fun k other => (finish_player _ k).trans (others k other),
      fun j other => (finish_slot _ j).trans (faulted.others j other),
      fun waiting ordered waits older j newer ann f split state => ?_⟩
    obtain ⟨after, record⟩ := faulted.left waiting ordered waits older j newer ann f split state
    exact ⟨after.after (finish_slot _ j) fun q _ waits => (finish_waiting _ q).mpr waits,
      fun exists_ => (record exists_).finish⟩

end Sys2Proof.Machine

namespace Sys2Proof.Machine

/-! ### The codes of a fill (R132) -/

theorem byteAt_cons (w : Word) (ws : List Word) (k : Nat) : byteAt (w :: ws) (k + 2) = byteAt ws k := by
  unfold byteAt wordAt
  rw [Nat.add_mod_right, Nat.add_div_right k (by decide), List.getD_cons_succ]

/-- The bytes of the words read are those that stand at their offsets. -/
theorem bytesOf_getElem? (ws : List Word) : ∀ k, k < 2 * ws.length → (bytesOf ws)[k]? = some (byteAt ws k) := by
  induction ws with
  | nil => exact fun k inside => absurd inside (Nat.not_lt_zero k)
  | cons w ws ih =>
    intro k inside
    match k with
    | 0 => rfl
    | 1 => rfl
    | k + 2 =>
      rw [byteAt_cons, ← ih k (by rw [List.length_cons] at inside; omega)]
      rfl

theorem bytesOf_length (ws : List Word) : (bytesOf ws).length = 2 * ws.length := by
  simp [bytesOf, Nat.mul_comm]

/-- The code at place i of a chunk is the byte i places after the chunk's first. -/
theorem codesOf_getElem? {first length : Nat} {ws : List Word} (whole : first % 2 + length ≤ 2 * ws.length) {i : Nat}
    (inside : i < length) : (codesOf first length ws)[i]? = some (byteAt ws (first % 2 + i)) := by
  rw [codesOf, List.getElem?_take_of_lt inside, List.getElem?_drop]
  exact bytesOf_getElem? ws _ (by omega)

/-- Where the words read hold the whole chunk, none of its codes is missing. -/
theorem codesOf_length_eq {first length : Nat} {ws : List Word} (whole : first % 2 + length ≤ 2 * ws.length) :
    (codesOf first length ws).length = length := by
  rw [codesOf, List.length_take, List.length_drop, bytesOf_length]
  omega

/-- An answer of another generation, or one that no FILLING half waits for, changes nothing (log 26). -/
theorem fillDone_discarded {s : State} {n : PlayerIx} {h : HalfName} {gen : Option Generation}
    (other : gen ≠ some (s.player n).gen ∨ ∀ first length, (s.player n).half h ≠ .filling first length)
    (ws : List Word) : s.fillDone n h gen ws = s := by
  unfold State.fillDone
  split
  · rename_i first length filling
    exact if_neg (other.resolve_right fun none => none first length filling)
  · rfl

theorem onlyPlayer_halfFilled (s : State) (n : PlayerIx) (h : HalfName) (codes : List Byte) :
    OnlyPlayer n s (s.halfFilled n h codes) := onlyPlayer_setPlayer s n _

/-- A RUNNING player takes nothing at a fill (R113). -/
theorem halfFilled_running {s : State} {n : PlayerIx} (run : (s.player n).state = .running) (h : HalfName)
    (codes : List Byte) : (s.halfFilled n h codes).primed n = s.halfFilled n h codes :=
  primed_running _ n (by rw [halfFilled_player, Player.setHalf_state, run])

/-- Where the delivery of an answer reaches one player alone, so does the whole event. -/
theorem OnlyPlayer.finish {n : PlayerIx} {s t : State} (only : OnlyPlayer n s.delivered t) : OnlyPlayer n s t.finish :=
  ⟨(finish_slots t).trans only.slots, (finish_gens t).trans only.gens, (finish_refetch t).trans only.refetch,
    (finish_queue t).trans only.queue, (finish_rrw t).trans only.rrw, (finish_boot t).trans only.boot,
    fun m other => (finish_player t m).trans (only.players m other)⟩

/-- Settles O47: the answer is discarded, or the half is FULL with the bytes from the chunk's first on. -/
theorem fillTaken : Obligations.FillTaken := by
  intro s r data n h settled last kind
  refine ⟨_, _, exec_fillComplete settled last kind, rfl, completed_moves s _ (moves_fillDone ..), fun other => ?_,
    fun first length gen filling run whole => ?_⟩
  · rw [fillDone_discarded (s := s.delivered) other]
    exact discarded_delivered s
  · rw [fillDone_filled (s := s.delivered) filling gen, halfFilled_running (s := s.delivered) run]
    have only := (onlyPlayer_halfFilled s.delivered n h (codesOf first length (r.advance data).answer)).finish
    exact ⟨_, (finish_player _ n).trans (halfFilled_player ..), codesOf_length_eq whole,
      fun i inside => codesOf_getElem? whole inside, only.players, only.slots, only.gens, only.refetch, only.queue,
      only.rrw, only.boot⟩

end Sys2Proof.Machine

namespace Sys2Proof.Machine

/-! ### The walker's moves, one by one (R129 to R133, R137, R139, R140) -/

/-- What can be placed into the next half, which is EMPTY, is placed. -/
theorem walkOnce_places {s t : State} {n : PlayerIx}
    (empty : (s.player n).half (s.player n).walker.nextHalf = .empty) (placed : s.place n = some t) :
    s.walkOnce n = some t := by
  unfold State.walkOnce
  dsimp only
  rw [placed]
  exact if_pos ⟨empty, rfl⟩

/-- With the next half in use, and a current step or a walker that is not WALKING, no move applies. -/
theorem walkOnce_blocked {s : State} {n : PlayerIx} (used : (s.player n).half (s.player n).walker.nextHalf ≠ .empty)
    (busy : (s.player n).walker.state ≠ .walking ∨ (s.player n).walker.current ≠ none) : s.walkOnce n = none := by
  have unpromoted : ¬ ((s.player n).walker.state = .walking ∧ (s.player n).walker.current = none) := fun h =>
    busy.elim (fun other => other h.1) fun other => other h.2
  unfold State.walkOnce
  dsimp only
  rw [if_neg fun h => used h.1, if_neg unpromoted]

/-- The fill of a chunk of player n, in whole words from the one that holds its first code (R132). -/
def State.chunkFill (s : State) (n : PlayerIx) (ref length : Nat) : OwnRequest :=
  ownRead (.fill n (s.player n).walker.nextHalf) (s.player n).gen (s.storeBase + BitVec.ofNat 24 (ref - ref % 2))
    (fillWords ref length)

/-- The fetch of a step of player n, 4 words at its offset (R129). -/
def State.stepRead (s : State) (n : PlayerIx) (offset : Nat) : OwnRequest :=
  ownRead (.stepFetch n) (s.player n).gen (s.storeBase + BitVec.ofNat 24 offset) 4

section Places

variable {s : State} {n : PlayerIx} (walking : (s.player n).walker.state = .walking)

include walking

/-- A PLAY's next chunk is placed FILLING, and its fill is queued (R131, R132). -/
theorem place_play {offset ref count : Nat} (play : (s.player n).walker.current = some (.play offset ref count)) :
    s.place n = some ((s.setPlayer n
        { (s.player n).setHalf (s.player n).walker.nextHalf (.filling ref (chunkLength ref count)) with
          walker := { (s.player n).walker with
            current := if count - chunkLength ref count = 0 then none
              else some (.play offset (ref + chunkLength ref count) (count - chunkLength ref count))
            zeroTime := 0
            nextHalf := (s.player n).walker.nextHalf.other } }).enqueue
      (s.chunkFill n ref (chunkLength ref count))) := by
  unfold State.place
  dsimp only
  rw [walking, play]
  rfl

theorem place_gap {offset count : Nat} (gap : (s.player n).walker.current = some (.gap offset count)) :
    s.place n = some (s.setPlayer n ((s.player n).placeFull (.silence count)
      { (s.player n).walker with current := none, zeroTime := 0 })) := by
  unfold State.place
  dsimp only
  rw [walking, gap]

theorem place_join {offset : Nat} (join : (s.player n).walker.current = some (.join offset)) :
    s.place n = some (s.setPlayer n ((s.player n).placeFull (.mark .join)
      { (s.player n).walker with current := none })) := by
  unfold State.place
  dsimp only
  rw [walking, join]

/-- With its END mark the pass starts again: the stack is empty and the bank is that of the playlist start (R137). -/
theorem place_endPass {offset : Nat} (pass : (s.player n).walker.current = some (.endPass offset)) :
    s.place n = some (s.setPlayer n ((s.player n).placeFull (.mark .endPass)
      { (s.player n).walker with current := none, stack := [], bank := bankOf (s.player n).start })) := by
  unfold State.place
  dsimp only
  rw [walking, pass]

end Places

theorem promote_empty {s : State} {n : PlayerIx} (next : (s.player n).walker.next = .empty) : s.promote n = none := by
  unfold State.promote
  dsimp only
  rw [next]

/-- A held step that fails a check is not taken: the walker halts (R130, R139). -/
theorem promote_fails {s : State} {n : PlayerIx} {offset : Nat} {st : PlaylistStep} {cause : PlaylistFault}
    (next : (s.player n).walker.next = .held offset st)
    (fails : promotionFault s.storeSize (s.player n).walker st = some cause) :
    s.promote n = some (s.modifyWalker n fun w => w.halt cause) := by
  unfold State.promote
  dsimp only
  rw [next]
  dsimp only
  rw [fails]

/-- A held step that passes the checks is taken, and the next entry is set to its successor (R130). -/
theorem promote_takes {s : State} {n : PlayerIx} {offset succ : Nat} {st : PlaylistStep} {k : StepKind} {v : Walker}
    (next : (s.player n).walker.next = .held offset st)
    (passes : promotionFault s.storeSize (s.player n).walker st = none) (kind : stepKind st = some k)
    (taken : takeStep (s.player n).start (s.player n).walker offset st k = (v, succ)) :
    s.promote n = some ((s.modifyWalker n fun _ => v).setNext n succ) := by
  unfold State.promote
  dsimp only
  rw [next]
  dsimp only
  rw [passes, kind]
  dsimp only
  rw [taken]

/-- The walker of a taken step whose successor lies at an odd offset, or beyond the store (R129). -/
theorem taken_unreachable {s : State} {n : PlayerIx} (v : Walker) {offset : Nat} {cause : PlaylistFault}
    (fault : stepFault s.storeSize offset = some cause) : (s.modifyWalker n fun _ => v).setNext n offset =
      s.setPlayer n { s.player n with walker := { v with next := .unreachable offset cause } } := by
  have fault' : stepFault (s.modifyWalker n fun _ => v).storeSize offset = some cause := fault
  unfold State.setNext
  rw [fault']
  exact setPlayer_modifyWalker s n _ _

/-- The walker of a taken step whose successor is fetched (R129). -/
theorem taken_reached {s : State} {n : PlayerIx} (v : Walker) {offset : Nat} (even : offset % 2 = 0)
    (inside : offset + 8 ≤ s.storeSize) : (s.modifyWalker n fun _ => v).setNext n offset =
      (s.setPlayer n { s.player n with walker := { v with next := .fetching offset } }).enqueue
        (s.stepRead n offset) := by
  refine (setNext_reached (s.modifyWalker n fun _ => v) n offset even inside).trans ?_
  rw [modifyWalker_player]
  exact congrArg (fun t => State.enqueue t _) (setPlayer_modifyWalker s n _ _)

/-! ### The walker settles (R140; log 16) -/

/-- A half that a chunk can be placed into counts once. -/
def Half.room : Half → Nat
  | .empty => 1
  | _ => 0

/-- The most moves that a walker has with no further answer: one into each EMPTY half, and the promotions to which its
next entry can come, each of which is one of its marks. -/
def Player.movesAhead (pl : Player) : Nat := pl.halfA.room + pl.halfB.room + pl.walker.next.marks

theorem Half.room_le (x : Half) : x.room ≤ 1 := by
  cases x with
  | empty => exact Nat.le_refl 1
  | filling => exact Nat.zero_le 1
  | full => exact Nat.zero_le 1

theorem Player.movesAhead_le (pl : Player) : pl.movesAhead ≤ 4 := by
  have next : pl.walker.next.marks ≤ 2 := by unfold NextEntry.marks; split <;> decide
  have a := pl.halfA.room_le
  have b := pl.halfB.room_le
  unfold Player.movesAhead
  omega

/-- A chunk placed into an EMPTY half is a move that is no longer ahead. -/
theorem Player.setHalf_movesAhead_lt (pl : Player) (h : HalfName) (x : Half) (w : Walker) (empty : pl.half h = .empty)
    (filled : x.room = 0) (next : w.next = pl.walker.next) :
    { pl.setHalf h x with walker := w }.movesAhead < pl.movesAhead := by
  cases h
  all_goals
    unfold Player.half at empty
    unfold Player.movesAhead Player.setHalf
    dsimp only at empty ⊢
    rw [empty, filled, next]
    simp only [Half.room]
    omega

theorem place_movesAhead_lt {s t : State} {n : PlayerIx}
    (empty : (s.player n).half (s.player n).walker.nextHalf = .empty) (h : s.place n = some t) :
    (t.player n).movesAhead < (s.player n).movesAhead := by
  unfold State.place at h
  dsimp only at h
  split at h <;> cases h
  · rw [enqueue_player, State.setPlayer_player_same]
    exact (s.player n).setHalf_movesAhead_lt _ _ _ empty rfl rfl
  all_goals
    rw [State.setPlayer_player_same]
    exact (s.player n).setHalf_movesAhead_lt _ _ _ empty rfl rfl

theorem Player.walker_movesAhead_lt (pl : Player) (w : Walker) (next : w.next.marks < pl.walker.next.marks) :
    { pl with walker := w }.movesAhead < pl.movesAhead := Nat.add_lt_add_left next _

theorem takeStep_nextHalf (start offset : Nat) (w : Walker) (st : PlaylistStep) (k : StepKind) :
    (takeStep start w offset st k).1.nextHalf = w.nextHalf := by
  cases k with
  | ret => cases e : w.stack <;> simp only [takeStep, e]
  | _ => rfl

/-- A promotion changes the walker alone and keeps its next half; a halted walker has no next entry, and a taken step's
successor is FETCHING or UNREACHABLE. -/
theorem promote_player {s t : State} {n : PlayerIx} (h : s.promote n = some t) :
    ∃ w, t.player n = { s.player n with walker := w } ∧ w.nextHalf = (s.player n).walker.nextHalf ∧
      w.next.marks < (s.player n).walker.next.marks := by
  unfold State.promote at h
  dsimp only at h
  split at h
  · cases h
  · cases h
  · rename_i next
    cases h
    exact ⟨_, modifyWalker_player s n _, rfl, by rw [next]; exact Nat.zero_lt_one⟩
  · rename_i offset st next
    have held : (s.player n).walker.next.marks = 2 := by rw [next]; rfl
    split at h
    · cases h
      obtain ⟨x, few, player⟩ := setNext_walker (s.modifyWalker n fun _ => _) n _
      rw [modifyWalker_player] at player
      exact ⟨_, player, takeStep_nextHalf .., by rw [held]; exact Nat.lt_succ_of_le few⟩
    · cases h
      exact ⟨_, modifyWalker_player s n _, rfl, by rw [held]; exact Nat.zero_lt_two⟩
    · cases h

/-- Each move is one move less ahead. -/
theorem walkOnce_movesAhead_lt {s t : State} {n : PlayerIx} (h : s.walkOnce n = some t) :
    (t.player n).movesAhead < (s.player n).movesAhead := by
  unfold State.walkOnce at h
  dsimp only at h
  split at h
  · rename_i places
    exact place_movesAhead_lt places.1 h
  · split at h
    · obtain ⟨w, player, -, next⟩ := promote_player h
      rw [player]
      exact (s.player n).walker_movesAhead_lt w next
    · cases h

/-- As many moves as lie ahead leave none that applies. -/
theorem walk_settles (n : PlayerIx) (k : Nat) :
    ∀ s : State, (s.player n).movesAhead ≤ k → (State.walk n k s).walkOnce n = none := by
  induction k with
  | zero =>
    intro s ahead
    refine Option.eq_none_iff_forall_ne_some.mpr fun t moved => ?_
    exact Nat.not_lt_zero _ ((walkOnce_movesAhead_lt moved).trans_le ahead)
  | succ k ih =>
    intro s ahead
    cases moved : s.walkOnce n with
    | none => rwa [walk_still s n _ moved]
    | some t =>
      have less := walkOnce_movesAhead_lt moved
      rw [walk_moves moved]
      exact ih t (by omega)

/-- Once no move applies, a further one changes nothing. -/
theorem walk_succ_of_settled {n : PlayerIx} (k : Nat) :
    ∀ s : State, (State.walk n k s).walkOnce n = none → State.walk n (k + 1) s = State.walk n k s := by
  induction k with
  | zero => exact fun s settled => walk_still s n 1 settled
  | succ k ih =>
    intro s settled
    cases moved : s.walkOnce n with
    | none => rw [walk_still s n _ moved, walk_still s n _ moved]
    | some t =>
      rw [walk_moves moved] at settled ⊢
      exact (ih t settled).trans (walk_moves moved k).symm

theorem advanceWalker_settled (s : State) (n : PlayerIx) : (s.advanceWalker n).walkOnce n = none :=
  walk_settles n walkBound s ((s.player n).movesAhead_le.trans (by decide))

theorem advanceWalker_still {s : State} {n : PlayerIx} (still : s.walkOnce n = none) : s.advanceWalker n = s :=
  walk_still s n walkBound still

/-- The advance is the first move and then the advance from there: it does not stop at its bound (log 16). -/
theorem advanceWalker_moves {s t : State} {n : PlayerIx} (moved : s.walkOnce n = some t) :
    s.advanceWalker n = t.advanceWalker n :=
  (walk_moves moved 7).trans
    (walk_succ_of_settled 7 t (walk_settles n 7 t ((t.player n).movesAhead_le.trans (by decide)))).symm

/-- Settles O46: the advance makes every move that applies, and what each move places or promotes. -/
theorem walkerSettles : Obligations.WalkerSettles := by
  refine ⟨fun s n => ⟨advanceWalker_settled s n, advanceWalker_still, fun t => advanceWalker_moves⟩, ?_⟩
  rintro s n pl w rfl rfl
  refine ⟨fun empty => ⟨?_, fun offset count walking gap => walkOnce_places empty (place_gap walking gap),
    fun offset walking join => walkOnce_places empty (place_join walking join),
    fun offset walking pass => walkOnce_places empty (place_endPass walking pass),
    fun cause halting => walkOnce_places_fault halting empty⟩, walkOnce_stopped, walkOnce_blocked,
    fun walking none => ?_⟩
  · rintro offset ref count len walking play rfl
    refine ⟨s.chunkFill n ref (chunkLength ref count), (walkOnce_places empty (place_play walking play)).trans ?_,
      rfl, rfl, rfl, rfl, rfl, rfl, ?_⟩
    · have spent : count - chunkLength ref count = 0 ↔ count = chunkLength ref count := by
        unfold chunkLength
        omega
      simp only [spent]
      rfl
    · exact congrArg (fun codes => (codes + 1) / 2) (Nat.add_comm (chunkLength ref count) (ref % 2))
  · rw [walkOnce_promotes walking none]
    refine ⟨?_, fun o cause next => ?_, fun o st cause next fails => promote_fails next fails,
      fun o st k v succ next passes kind taken => ?_⟩
    · rintro (next | ⟨o, next⟩)
      · exact promote_empty next
      · rw [← walkOnce_promotes walking none]
        exact walkOnce_waits walking none next
    · rw [← walkOnce_promotes walking none]
      exact walkOnce_halts walking none next
    · rw [promote_takes next passes kind taken]
      exact ⟨fun odd => congrArg some (taken_unreachable v (stepFault_of (.inl ⟨odd, rfl⟩))),
        fun even beyond => congrArg some (taken_unreachable v (stepFault_of (.inr ⟨even, beyond, rfl⟩))),
        fun even inside =>
          ⟨s.stepRead n succ, congrArg some (taken_reached v even inside), rfl, rfl, rfl, rfl, rfl, rfl, rfl⟩⟩

end Sys2Proof.Machine

namespace Sys2Proof.Machine

/-! ### The kinds of step and their checks (R130, R138, R174, Table 9-2) -/

/-- The number of a kind of step (R174). -/
def StepKind.number : StepKind → Nat
  | .play => 1
  | .gap => 2
  | .join => 3
  | .call => 4
  | .ret => 5
  | .bank => 6
  | .endPass => 7

theorem StepKind.number_range (k : StepKind) : ¬ (k.number = 0 ∨ 7 < k.number) := by
  cases k <;> decide

/-- Each of the numbers 1 to 7 is a kind's. -/
theorem StepKind.exists_number : ∀ m, ¬ (m = 0 ∨ 7 < m) → ∃ k : StepKind, m = k.number
  | 0, h => absurd (.inl rfl) h
  | 1, _ => ⟨.play, rfl⟩
  | 2, _ => ⟨.gap, rfl⟩
  | 3, _ => ⟨.join, rfl⟩
  | 4, _ => ⟨.call, rfl⟩
  | 5, _ => ⟨.ret, rfl⟩
  | 6, _ => ⟨.bank, rfl⟩
  | 7, _ => ⟨.endPass, rfl⟩
  | m + 8, h => absurd (.inr (by omega)) h

theorem stepKind_eq_some_iff (st : PlaylistStep) (k : StepKind) :
    stepKind st = some k ↔ st.kind.toNat = k.number := by
  unfold stepKind
  constructor
  · intro kind
    split at kind <;> cases kind <;> assumption
  · intro number
    rw [number]
    cases k <;> rfl

theorem stepKind_eq_none_iff (st : PlaylistStep) : stepKind st = none ↔ st.kind.toNat = 0 ∨ 7 < st.kind.toNat := by
  constructor
  · intro unknown
    by_contra range
    obtain ⟨k, number⟩ := StepKind.exists_number _ range
    rw [(stepKind_eq_some_iff st k).mpr number] at unknown
    cases unknown
  · intro bad
    refine Option.eq_none_iff_forall_ne_some.mpr fun k kind => k.number_range ?_
    rwa [← (stepKind_eq_some_iff st k).mp kind]

/-- The checks of a promotion in order, by the number of the kind (Table 9-2). -/
theorem promotionFault_eq (size : Nat) (w : Walker) (st : PlaylistStep) : promotionFault size w st =
    if st.kind.toNat = 0 ∨ 7 < st.kind.toNat then some .badStep
    else if (st.kind.toNat = 1 ∨ st.kind.toNat = 2) ∧ st.count = 0 then some .zeroCount
    else if st.kind.toNat = 1 ∧ size < referenceOf st w.bank + st.count.toNat then some .outOfStore
    else if 3 ≤ st.kind.toNat ∧ 15 ≤ w.zeroTime then some .noAudio
    else if st.kind.toNat = 4 ∧ 4 ≤ w.stack.length then some .stackFull
    else none := by
  unfold promotionFault
  cases kind : stepKind st with
  | none => rw [if_pos ((stepKind_eq_none_iff st).mp kind)]
  | some k =>
    rw [(stepKind_eq_some_iff st k).mp kind, if_neg k.number_range]
    cases k <;> simp [StepKind.number, StepKind.isSilent]

/-- Of five checks in turn, the fault is that of the first that fails. -/
theorem first_fault_iff (bad zero out silent full : Prop) [Decidable bad] [Decidable zero] [Decidable out]
    [Decidable silent] [Decidable full] (fault : Option PlaylistFault)
    (h : fault = if bad then some .badStep else if zero then some .zeroCount else if out then some .outOfStore
      else if silent then some .noAudio else if full then some .stackFull else none) :
    (fault = some .badStep ↔ bad) ∧
    (fault = some .zeroCount ↔ ¬ bad ∧ zero) ∧
    (fault = some .outOfStore ↔ ¬ bad ∧ ¬ zero ∧ out) ∧
    (fault = some .noAudio ↔ ¬ bad ∧ ¬ zero ∧ ¬ out ∧ silent) ∧
    (fault = some .stackFull ↔ ¬ bad ∧ ¬ zero ∧ ¬ out ∧ ¬ silent ∧ full) ∧
    (fault = none ↔ ¬ bad ∧ ¬ zero ∧ ¬ out ∧ ¬ silent ∧ ¬ full) := by
  subst h
  split_ifs <;> simp [*]

/-! ### Calls and their returns (R134 to R136) -/

/-- The bank of a long reference is its high byte (R134). -/
theorem bankOf_referenceOf_long {st : PlaylistStep} (long : st.long = true) (bank : Byte) :
    bankOf (referenceOf st bank) = st.refHigh := by
  have high := st.refHigh.isLt
  have low := st.ref.isLt
  refine BitVec.eq_of_toNat_eq ?_
  rw [bankOf, referenceOf, if_pos long, BitVec.toNat_ofNat]
  omega

/-- What a CALL leaves: its return on the stack, and its reference's bank where it is long (R134). -/
theorem takeStep_call (start offset : Nat) (w : Walker) (st : PlaylistStep) : takeStep start w offset st .call =
    ({ w with
        stack := { offset := offset + 8, savedBank := if st.long then some w.bank else none } :: w.stack
        bank := if st.long then st.refHigh else w.bank
        zeroTime := w.zeroTime + 1 },
      referenceOf st w.bank) := by
  cases long : st.long with
  | true => simp [takeStep, long, bankOf_referenceOf_long long]
  | false => simp [takeStep, long]

/-- A RETURN takes the newest entry of the stack (R135). -/
theorem takeStep_ret_cons {w : Walker} {e : ReturnEntry} {es : List ReturnEntry} (stack : w.stack = e :: es)
    (start offset : Nat) (st : PlaylistStep) : takeStep start w offset st .ret =
      ({ w with stack := es, bank := e.savedBank.getD w.bank, zeroTime := w.zeroTime + 1 }, e.offset) := by
  simp only [takeStep, stack]
  cases e.savedBank <;> rfl

/-- With the stack empty a RETURN is an END (R136). -/
theorem takeStep_ret_nil {w : Walker} (stack : w.stack = []) (start offset : Nat) (st : PlaylistStep) :
    takeStep start w offset st .ret = takeStep start w offset st .endPass := by
  simp only [takeStep, stack]

/-- Settles O45: the fields and kinds of a step, the checks in order, and what each step leaves. -/
theorem stepsTaken : Obligations.StepsTaken := by
  refine ⟨?_, fun st => ⟨stepKind_eq_some_iff st .play, stepKind_eq_some_iff st .gap, stepKind_eq_some_iff st .join,
      stepKind_eq_some_iff st .call, stepKind_eq_some_iff st .ret, stepKind_eq_some_iff st .bank,
      stepKind_eq_some_iff st .endPass, stepKind_eq_none_iff st⟩,
    fun size w st => first_fault_iff _ _ _ _ _ _ (promotionFault_eq size w st),
    fun start offset w st => ⟨rfl, rfl, rfl, rfl, rfl⟩,
    fun start offset back w u v call ret target after called stack => ?_⟩
  · rintro ws st rfl
    exact ⟨rfl, rfl, rfl, rfl, rfl⟩
  · rw [takeStep_call] at called
    obtain ⟨rfl, rfl⟩ := Prod.mk.inj called
    refine ⟨rfl, rfl, rfl, rfl, fun x returned => ?_, fun x y empty returned => ?_⟩
    · rw [takeStep_ret_cons stack] at returned
      obtain ⟨rfl, rfl⟩ := Prod.mk.inj returned
      refine ⟨rfl, rfl, rfl, ?_⟩
      cases call.long <;> rfl
    · rw [takeStep_ret_nil empty] at returned
      obtain ⟨rfl, rfl⟩ := Prod.mk.inj returned
      exact ⟨rfl, rfl, rfl, empty, rfl⟩

end Sys2Proof.Machine

namespace Sys2Proof.Machine

/-! ### A step fetch completes (R129, R130, R139, R140) -/

theorem exec_stepFetchComplete {s : State} {r : OwnRequest} {data : Word} {n : PlayerIx} (settled : s.Settled)
    (last : s.LastWordOf r) (kind : r.kind = .stepFetch n) : exec (.stepFetchComplete data) s =
      .next (s.delivered.stepDone n r.gen (r.advance data).answer).finish :=
  congrArg Host.Outcome.next (takeEnds_complete settled last
    (by simp only [OwnRequest.advance_kind, OwnRequest.advance_gen, kind]))

/-- Player n's next entry is HELD. -/
def State.stepHeld (s : State) (n : PlayerIx) (offset : Nat) (st : PlaylistStep) : State :=
  s.setPlayer n { s.player n with walker := { (s.player n).walker with next := .held offset st } }

theorem stepHeld_player (s : State) (n : PlayerIx) (offset : Nat) (st : PlaylistStep) :
    (s.stepHeld n offset st).player n =
      { s.player n with walker := { (s.player n).walker with next := .held offset st } } :=
  State.setPlayer_player_same ..

theorem stepHeld_next (s : State) (n : PlayerIx) (offset : Nat) (st : PlaylistStep) :
    ((s.stepHeld n offset st).player n).walker.next = .held offset st := by
  rw [stepHeld_player]

theorem stepHeld_gen (s : State) (n : PlayerIx) (offset : Nat) (st : PlaylistStep) :
    ((s.stepHeld n offset st).player n).gen = (s.player n).gen := by
  rw [stepHeld_player]

/-- An answer of another generation, or one that finds the walker not WALKING, changes nothing (log 26). -/
theorem stepDone_discarded {s : State} {n : PlayerIx} {gen : Option Generation}
    (other : gen ≠ some (s.player n).gen ∨ (s.player n).walker.state ≠ .walking) (ws : List Word) :
    s.stepDone n gen ws = s := by
  unfold State.stepDone
  split
  · rename_i walking _
    exact if_neg (other.resolve_right fun still => still walking)
  · rfl

/-- The step that the walker waits for is HELD, and the walker advances. -/
theorem stepDone_held {s : State} {n : PlayerIx} {gen : Option Generation} {offset : Nat}
    (same : gen = some (s.player n).gen) (walking : (s.player n).walker.state = .walking)
    (next : (s.player n).walker.next = .fetching offset) (ws : List Word) :
    s.stepDone n gen ws = ((s.stepHeld n offset (parseStep ws)).advanceWalker n).primed n := by
  unfold State.stepDone
  rw [walking, next]
  exact if_pos same

theorem Player.withWalker_half (pl : Player) (w : Walker) (h : HalfName) :
    { pl with walker := w }.half h = pl.half h := by
  cases h <;> rfl

section Used

variable {s : State} {n : PlayerIx} (used : (s.player n).half (s.player n).walker.nextHalf ≠ .empty)

include used

/-- With no half to place into the walker's moves are promotions. -/
theorem walkOnce_used_promotes {t : State} (moved : s.walkOnce n = some t) : s.promote n = some t := by
  unfold State.walkOnce at moved
  dsimp only at moved
  rw [if_neg fun h => used h.1] at moved
  split at moved
  · exact moved
  · cases moved

/-- A walker that keeps its next half has no half to place into either. -/
theorem used_withWalker {t : State} {w : Walker} (player : t.player n = { s.player n with walker := w })
    (nextHalf : w.nextHalf = (s.player n).walker.nextHalf) :
    (t.player n).half (t.player n).walker.nextHalf ≠ .empty := by
  rw [player, Player.withWalker_half, nextHalf]
  exact used

end Used

/-- With no half to place into the walker alone is changed. -/
theorem walk_used_player (n : PlayerIx) (k : Nat) :
    ∀ s : State, (s.player n).half (s.player n).walker.nextHalf ≠ .empty →
      ∃ w, (State.walk n k s).player n = { s.player n with walker := w } := by
  induction k with
  | zero => exact fun s _ => ⟨_, rfl⟩
  | succ k ih =>
    intro s used
    cases moved : s.walkOnce n with
    | none =>
      rw [walk_still s n _ moved]
      exact ⟨_, rfl⟩
    | some t =>
      obtain ⟨w, player, nextHalf, -⟩ := promote_player (walkOnce_used_promotes used moved)
      obtain ⟨v, walked⟩ := ih t (used_withWalker used player nextHalf)
      rw [walk_moves moved, walked, player]
      exact ⟨v, rfl⟩

section Promoted

variable {s : State} {n : PlayerIx} {offset : Nat} {st : PlaylistStep}
  (used : (s.player n).half (s.player n).walker.nextHalf ≠ .empty) (walking : (s.player n).walker.state = .walking)
  (idle : (s.player n).walker.current = none) (next : (s.player n).walker.next = .held offset st)

include used walking idle next

/-- A held step that fails a check halts the walker, which waits for an EMPTY half to place its fault. -/
theorem advanceWalker_fails {cause : PlaylistFault}
    (fails : promotionFault s.storeSize (s.player n).walker st = some cause) :
    s.advanceWalker n = s.modifyWalker n fun w => w.halt cause := by
  have player := modifyWalker_player s n fun w => w.halt cause
  refine (advanceWalker_moves ((walkOnce_promotes walking idle).trans (promote_fails next fails))).trans ?_
  exact advanceWalker_still (walkOnce_blocked (used_withWalker used player rfl) (.inl (by rw [player]; nofun)))

/-- A held step that passes is taken, and the walker waits for its successor or for an EMPTY half. -/
theorem advanceWalker_takes {k : StepKind} {v : Walker} {succ : Nat}
    (passes : promotionFault s.storeSize (s.player n).walker st = none) (kind : stepKind st = some k)
    (taken : takeStep (s.player n).start (s.player n).walker offset st k = (v, succ)) (even : succ % 2 = 0)
    (inside : succ + 8 ≤ s.storeSize) : s.advanceWalker n =
      (s.setPlayer n { s.player n with walker := { v with next := .fetching succ } }).enqueue (s.stepRead n succ) := by
  have moved := (walkOnce_promotes walking idle).trans (promote_takes next passes kind taken)
  rw [taken_reached v even inside] at moved
  have player : ((s.setPlayer n { s.player n with walker := { v with next := .fetching succ } }).enqueue
      (s.stepRead n succ)).player n = { s.player n with walker := { v with next := .fetching succ } } :=
    (enqueue_player ..).trans (State.setPlayer_player_same ..)
  have state : v.state = .walking := by
    rw [← walking, ← takeStep_state (s.player n).start offset (s.player n).walker st k, taken]
  have nextHalf : v.nextHalf = (s.player n).walker.nextHalf := by
    rw [← takeStep_nextHalf (s.player n).start offset (s.player n).walker st k, taken]
  refine (advanceWalker_moves moved).trans (advanceWalker_still ?_)
  by_cases current : v.current = none
  · exact walkOnce_waits (offset := succ) (by rw [player]; exact state) (by rw [player]; exact current)
      (by rw [player])
  · exact walkOnce_blocked (used_withWalker used player nextHalf) (.inr (by rw [player]; exact current))

end Promoted

/-- Settles O44: the answer is discarded, or the step is HELD and, where nothing can be placed, at most promoted. -/
theorem stepFetchTaken : Obligations.StepFetchTaken := by
  intro s r data n settled last kind
  have runs := exec_stepFetchComplete (data := data) settled last kind
  have moves := moves_stepDone s.delivered n r.gen (r.advance data).answer
  generalize (r.advance data).answer = ws at runs moves ⊢
  refine ⟨_, ws, runs, rfl, completed_moves s _ moves, fun other => ?_, ?_, ?_⟩
  · rw [stepDone_discarded (s := s.delivered) other]
    exact discarded_delivered s
  · rintro offset w u gen rfl walking next rfl
    rw [stepDone_held (s := s.delivered) gen walking next]
    rfl
  · rintro offset w st gen rfl rfl walking next used run
    have held := stepHeld_player s.delivered n offset (parseStep ws)
    have used' := used_withWalker (s := s.delivered) used held rfl
    have walking' : ((s.delivered.stepHeld n offset (parseStep ws)).player n).walker.state = .walking := by
      rw [held]
      exact walking
    have next' := stepHeld_next s.delivered n offset (parseStep ws)
    obtain ⟨v, walked⟩ := walk_used_player n walkBound _ used'
    have run' : (((s.delivered.stepHeld n offset (parseStep ws)).advanceWalker n).player n).state = .running := by
      refine (congrArg Player.state walked).trans ?_
      rw [held]
      exact run
    have only := ((onlyPlayer_setPlayer s.delivered n _).trans (onlyPlayer_walk n walkBound
      (s.delivered.stepHeld n offset (parseStep ws)))).finish
    rw [stepDone_held (s := s.delivered) gen walking next, primed_running _ n run', finish_player]
    refine ⟨only.slots, only.gens, only.refetch, only.queue, only.rrw, only.boot, only.players, ?_, fun busy => ?_,
      fun idle cause fails => ?_, fun idle k succ w' passes known taken even inside => ?_⟩
    · rw [State.advanceWalker, walked, held]
      rfl
    · rw [advanceWalker_still (walkOnce_blocked used' (.inr (by rw [held]; exact busy))), held]
      rfl
    · rw [advanceWalker_fails used' walking' (by rw [held]; exact idle) next' (by rw [held]; exact fails),
        modifyWalker_player, held]
      rfl
    · rw [advanceWalker_takes used' walking' (by rw [held]; exact idle) next' (by rw [held]; exact passes) known
        (by rw [held]; exact taken) even inside, enqueue_player, State.setPlayer_player_same]
      exact ⟨rfl, _, (finish_waiting _ _).mpr ((enqueue_waiting_iff _ _ _).mpr (.inr rfl)), rfl,
        congrArg some (stepHeld_gen s.delivered n offset _), rfl, rfl⟩

end Sys2Proof.Machine

namespace Sys2Proof.Machine

/-! ### Fresh players (R108, R124, R145) -/

theorem Player.isFreshFor_iff (p : Program) (pl : Player) : pl.isFreshFor p = true ↔ pl.program = some p ∧
    (pl.state = .priming ∧ pl.fresh ≠ some false ∨ pl.state = .running ∧ pl.fresh = some true) := by
  simp [Player.isFreshFor]

theorem Player.not_fresh_of_free {pl : Player} (h : pl.state = .free) (p : Program) : pl.isFreshFor p = false := by
  simp [Player.isFreshFor, h]

/-- Where no player has become fresh, there is still at most one for each program. -/
theorem State.OneFreshPlayer.of_fresh {s t : State} (one : s.OneFreshPlayer)
    (h : ∀ n p, (t.player n).isFreshFor p = true → (s.player n).isFreshFor p = true) : t.OneFreshPlayer :=
  fun p n m hn hm => one p n m (h n p hn) (h m p hm)

/-- A player's new record is fresh only for a program of which it was fresh already, or of which no player was. -/
theorem PlayerStep.oneFreshPlayer {s : State} {n : PlayerIx} {x : Player} (step : PlayerStep s n x)
    (one : s.OneFreshPlayer) : (s.setPlayer n x).OneFreshPlayer := by
  intro p k m hk hm
  have alone : ∀ i, x.isFreshFor p = true → (s.player i).isFreshFor p = true → n = i := by
    intro i new old
    rcases step.fresh p new with before | none
    · exact one p n i before old
    · exact absurd old (by rw [none i]; decide)
  rw [State.setPlayer_player] at hk hm
  split at hk <;> split at hm
  · exact ‹k = n›.trans ‹m = n›.symm
  · exact ‹k = n›.trans (alone m hk hm)
  · exact ((alone k hm hk).symm).trans ‹m = n›.symm
  · exact one p k m hk hm

theorem Move.oneFreshPlayer {s t : State} (m : Move s t) (one : s.OneFreshPlayer) : t.OneFreshPlayer := by
  cases m with
  | player n x step => exact step.oneFreshPlayer one
  | outcome o j _ => exact one.of_fresh fun n p fresh => by rwa [takeOutcome_player] at fresh
  | enqueue | withdraw | slot | generator | tones | leave | append => exact one

/-- A reload and RESET leave every player they reach FREE, and no other event but the serving blocks' moves changes one
(R23, R106). -/
theorem Change.oneFreshPlayer {s t : State} (c : Change s t) (one : s.OneFreshPlayer) : t.OneFreshPlayer := by
  cases c.timing with
  | moves m => exact m.keeps (fun _ _ => Move.oneFreshPlayer) one
  | fm => exact one
  | stands same => exact one.of_fresh fun n p fresh => by rwa [same.player n] at fresh
  | reload =>
    refine one.of_fresh fun n p fresh => ?_
    rcases reload_player s n with same | freed
    · rwa [same] at fresh
    · rw [freed, Player.not_fresh_of_free rfl] at fresh
      cases fresh
  | reset b =>
    intro p n m fresh _
    rw [released_player, Player.not_fresh_of_free rfl] at fresh
    cases fresh

/-- Settles O56: each of the changes that make up a step keeps it. -/
theorem oneFreshPlayerKept : Obligations.OneFreshPlayerKept := fun s t one h =>
  step_keeps (fun _ _ => Change.oneFreshPlayer) s t h one

end Sys2Proof.Machine

namespace Sys2Proof.Machine

/-! ### The allocator and the binding of a player (R107, R108, R145, R146) -/

theorem ineligible_iff (s : State) (e : WaitEntry) :
    s.eligible e = false ↔ ∃ m, (s.player m).isFreshFor e.program = true := by
  rw [← Bool.not_eq_true, eligible_iff]
  simp

/-- A binding's own read is the player's only read that waits, and every other request waits on (R107, R108). -/
theorem bindPlayer_waiting_iff (s : State) (n : PlayerIx) (p : Program) (q : OwnRequest) :
    (s.bindPlayer n p).Waiting q ↔ (s.Waiting q ∧ readOfPlayer n q.kind = false) ∨
      q = ownRead (.bindingFetch n p) (s.nextPlayerGen n) (descriptorAddr s.programBase p.val) 16 := by
  rw [← withdraw_waiting_iff]
  exact enqueue_waiting_iff _ _ _

theorem bindPlayer_player (s : State) (n : PlayerIx) (p : Program) : (s.bindPlayer n p).player n =
    { Player.reset with state := .priming, program := some p, gen := s.nextPlayerGen n } :=
  (enqueue_player ..).trans (State.setPlayer_player_same ..)

theorem servingOnly_bindPlayer (s : State) (n : PlayerIx) (p : Program) : ServingOnly s (s.bindPlayer n p) :=
  ⟨rfl, rfl, rfl, rfl, rfl, rfl⟩

/-- Settles O51: the eligible entries, what is fresh, the binding and the freeing. -/
theorem allocatorChooses : Obligations.AllocatorChooses := by
  refine ⟨fun s n => ⟨fun served => ?_, fun older newer e split eligible before after => ?_⟩,
    Player.isFreshFor_iff, ?_, ?_⟩
  · exact allocate_none s n fun e mem => (ineligible_iff s e).mpr (served e mem)
  · exact allocate_some s n older newer e split ((eligible_iff s e).mpr eligible)
      (fun x mem free => before x mem ((eligible_iff s x).mp free))
      (fun x mem free => after x mem ((eligible_iff s x).mp free))
  · rintro s n p t gen rfl rfl
    refine ⟨servingOnly_bindPlayer s n p, rfl, rfl, rfl, rfl, rfl, fun m other => bindPlayer_other s n p m other,
      bindPlayer_player s n p, ⟨_, (bindPlayer_waiting_iff s n p _).mpr (.inr rfl), rfl, rfl, rfl, rfl, rfl⟩,
      fun q waits read => ?_, fun q waits unread => (bindPlayer_waiting_iff s n p q).mpr (.inl ⟨waits, unread⟩)⟩
    rcases (bindPlayer_waiting_iff s n p q).mp waits with ⟨-, unread⟩ | rfl
    · exact absurd read (by rw [unread]; decide)
    · exact ⟨rfl, rfl⟩
  · rintro s n t rfl
    obtain ⟨slots, gens, -, queue, rrw, -, players⟩ := onlyPlayer_releasePlayer s n
    exact ⟨(moves_releasePlayer s n).servingOnly, slots, gens, queue, rrw, players, releasePlayer_freed s n⟩

end Sys2Proof.Machine

namespace Sys2Proof.Machine

/-! ### Wait timeouts (R86, R105, R148) -/

/-- The oldest entry whose deadline is passed (R148). -/
theorem timedOut_oldest {s : State} {older newer : List WaitEntry} {e : WaitEntry}
    (split : s.queue = older ++ e :: newer)
    (before : ∀ x ∈ older, deadlinePassed s.fm.frame x.deadline = false)
    (passed : deadlinePassed s.fm.frame e.deadline = true) : s.timedOut = some e := by
  unfold State.timedOut State.frame
  rw [List.find?_eq_some_iff_append]
  exact ⟨passed, older, newer, split, fun x mem => by rw [before x mem]; rfl⟩

theorem takeTimeout_untaken {s : State} (h : ∀ x ∈ s.queue, deadlinePassed s.fm.frame x.deadline = false) :
    s.takeTimeout = s := by
  have none : s.timedOut = none := List.find?_eq_none.mpr fun x mem => Bool.eq_false_iff.mp (h x mem)
  unfold State.takeTimeout
  rw [none]

theorem takeTimeout_overflows {s : State} {e : WaitEntry} {p : Program} {ann : AnnFields} {filler : Option GenIx}
    (out : s.timedOut = some e) (waits : (s.slot e.slot).state = .waiting p ann filler) : s.takeTimeout =
      (s.leaveWaiting e.slot filler).overflowSlot e.slot p .waitTimeout (ann.maxWait.setWidth 16) := by
  unfold State.takeTimeout
  simp only [out, waits]

/-- A slot has one entry at most, so that its leaving the queue takes that entry alone (R71, R143). -/
theorem State.Membership.queue_without {s : State} (m : s.Membership) {older newer : List WaitEntry} {e : WaitEntry}
    (split : s.queue = older ++ e :: newer) : s.queue.filter (fun x => x.slot != e.slot) = older ++ newer := by
  have once := m.entriesOnce
  rw [split, List.map_append, List.map_cons, List.nodup_middle, ← List.map_append, List.nodup_cons] at once
  rw [split, List.filter_append, List.filter_cons_of_neg (by simp), ← List.filter_append, List.filter_eq_self]
  intro x mem
  exact bne_iff_ne.mpr fun same => once.1 (same ▸ List.mem_map_of_mem mem)

theorem leaveWaiting_generator (s : State) (j : Slot) (filler : Option GenIx) (h : GenIx) :
    (s.leaveWaiting j filler).generator h =
      if filler = some h then releasedGenerator h (s.generator h) else s.generator h := by
  unfold State.leaveWaiting State.releaseFiller
  cases filler with
  | none => rfl
  | some g =>
    dsimp only
    rw [releaseGenerator_generator]
    by_cases same : h = g
    · subst same
      rw [if_pos rfl, if_pos rfl, leaveQueue_generator]
    · rw [if_neg same, if_neg fun e => same (Option.some.inj e).symm, leaveQueue_generator]

/-- A waiting slot that overflows leaves its filler (R86, R105). -/
theorem overflowed_generator (s : State) (j : Slot) (filler : Option GenIx) (p : Program) (k : ReportKind) (d : Word)
    {h : GenIx} (other : h ≠ congestionGen) : ((s.leaveWaiting j filler).overflowSlot j p k d).generator h =
      if filler = some h then releasedGenerator h (s.generator h) else s.generator h := by
  rw [overflowSlot_generator, joinGenerator_generator, if_neg other, leaveWaiting_generator]

/-- A waiting slot that overflows is counted on TG15 (R86, R95). -/
theorem overflowed_congestion (s : State) (j : Slot) {filler : Option GenIx} (p : Program) (k : ReportKind) (d : Word)
    (other : filler ≠ some congestionGen) :
    ((s.leaveWaiting j filler).overflowSlot j p k d).generator congestionGen =
      { s.generator congestionGen with count := (s.generator congestionGen).count + 1 } := by
  rw [overflowSlot_generator, joinGenerator_generator, if_pos rfl, leaveWaiting_generator, if_neg other]

/-- Settles O38: the oldest passed entry is taken as `takeTimeout_overflows` says, or there is none. -/
theorem waitTimeoutTaken : Obligations.WaitTimeoutTaken := by
  refine fun s => ⟨fun older newer e ann filler member split before passed waits => ?_, fun untaken => ?_⟩
  · have kept := (moves_takeTimeout s).servingOnly
    rw [takeTimeout_overflows (timedOut_oldest split before passed) waits] at kept
    refine ⟨_, congrArg (fun t : State => Host.Outcome.next t.finish)
      (takeTimeout_overflows (timedOut_oldest split before passed) waits), ⟨(finish_pending _).trans kept.pending, rfl,
      (finish_pairing _).trans kept.pairing, (finish_boot _).trans kept.boot, (finish_fm _).trans kept.fm,
      (finish_refetch _).trans kept.refetch⟩, ?_⟩
    simp only [finish_queue, finish_slot, finish_players, finish_generator, overflowSlot_slot]
    refine ⟨?_, (enter_state ..).1, ?_, fun i other => ?_, ?_, ?_, ?_, ?_, ?_, Reported.finish ?_⟩
    · exact (slotOutcome_queue ..).trans ((leaveWaiting_queue ..).trans (member.queue_without split))
    · rw [(enter_state ..).2, joinGenerator_slot, leaveWaiting_slot]
    · rw [enter_slot, if_neg other, joinGenerator_slot, leaveWaiting_slot]
    · exact (slotOutcome_players ..).trans (leaveWaiting_players ..)
    · rintro g h rfl apart other
      rw [overflowed_generator _ _ _ _ _ _ other, if_neg fun same => apart (Option.some.inj same).symm]
    · rintro g rfl other
      rw [overflowed_generator _ _ _ _ _ _ other, if_pos rfl]
    · exact overflowed_congestion s e.slot e.program _ _
    · rintro rfl h other
      rw [overflowed_generator _ _ _ _ _ _ other, if_neg nofun]
    · exact enter_slotOutcome_reported s ((s.leaveWaiting e.slot filler).joinGenerator congestionGen)
        (moves_leaveWaiting s e.slot filler).servingOnly.boot (leaveWaiting_fm s e.slot filler)
        (leaveWaiting_rrw s e.slot filler) (reportsHeld_of_mra (leaveWaiting_mra s e.slot filler)) e.slot _ _ _ _
  · refine ⟨_, congrArg (fun t : State => Host.Outcome.next t.finish) (takeTimeout_untaken untaken), ?_⟩
    exact ⟨ControlUnchanged.finish ⟨rfl, rfl, rfl, rfl⟩, SoundUnchanged.finish ⟨rfl, rfl, rfl, rfl, rfl, rfl⟩,
      sameRequests_finish rfl⟩

end Sys2Proof.Machine

namespace Sys2Proof.Machine

/-! ### The arrival decision (R84, R86, R144) -/

theorem attachDone_arrives {s : State} {j : Slot} {p : Program} {g : Option Generation} {ws : List Word}
    (gen : g = some (s.slot j).gen) (state : (s.slot j).state = .attaching p) (fresh : Bool)
    (check : checkCopy (some (highwayOf j)) ws = none) (tone : isTone ws = false) :
    s.attachDone j p g fresh ws = s.arrive j p (annFieldsOf ws) := by
  unfold State.attachDone
  rw [if_pos ⟨gen, state⟩, check]
  exact if_neg (by rw [tone]; decide)

theorem openPlayer_none_iff (s : State) (p : Program) : s.openPlayer p = none ↔
    ∀ n, (s.player n).program = some p → (s.player n).isOpen = false := by
  unfold State.openPlayer
  rw [allPlayers_eq, (find_finRange _).2]
  simp

theorem arrive_open {s : State} {p : Program} {n : PlayerIx} (served : s.openPlayer p = some n) (j : Slot)
    (ann : AnnFields) : s.arrive j p ann = s.joinPlayer n j p ann := by
  unfold State.arrive
  rw [served]

/-- A max wait of 0 goes before a full queue (R144). -/
theorem arrive_refused {s : State} {p : Program} {ann : AnnFields} (unserved : s.openPlayer p = none) (j : Slot)
    (refused : ann.maxWait = 0 ∨ queueLimit ≤ s.queue.length) : s.arrive j p ann =
      s.overflowSlot j p (if ann.maxWait = 0 then .waitTimeout else .queueFull) 0 := by
  unfold State.arrive
  rw [unserved]
  dsimp only
  by_cases impatient : ann.maxWait = 0
  · rw [if_pos impatient, if_pos impatient]
  · rw [if_neg impatient, if_neg impatient, if_pos (refused.resolve_left impatient)]

theorem arrive_queued {s : State} {p : Program} {ann : AnnFields} (unserved : s.openPlayer p = none) (j : Slot)
    (patient : ann.maxWait ≠ 0) (room : s.queue.length < queueLimit) :
    s.arrive j p ann = (s.enqueueSlot j p ann).bindForArrival p := by
  unfold State.arrive
  rw [unserved]
  exact (if_neg patient).trans (if_neg (Nat.not_le.mpr room))

theorem enter_slot_other (s : State) {j i : Slot} (st : SlotState) (other : i ≠ j) :
    (s.enter j st).slot i = s.slot i := by
  rw [enter_slot, if_neg other]

theorem giveFiller_slot_other (s : State) {j i : Slot} (g : GenIx) (other : i ≠ j) :
    (s.giveFiller j g).slot i = s.slot i := by
  unfold State.giveFiller
  split
  · exact State.setSlot_slot_ne s j i _ other
  · rfl

theorem takeFiller_slot_other (s : State) {j i : Slot} (f : Program) (other : i ≠ j) :
    (s.takeFiller j f).slot i = s.slot i := by
  unfold State.takeFiller
  split
  · exact giveFiller_slot_other _ _ other
  · split <;> rfl

theorem enqueueSlot_slot_other (s : State) {j i : Slot} (p : Program) (ann : AnnFields) (other : i ≠ j) :
    (s.enqueueSlot j p ann).slot i = s.slot i := by
  unfold State.enqueueSlot
  dsimp only
  split
  · exact (takeFiller_slot_other _ _ other).trans (enter_slot_other _ _ other)
  · exact enter_slot_other _ _ other

/-- A player may be bound at an enqueue, and nothing else happens there (R145). -/
theorem bindForArrival_cases (s : State) (p : Program) :
    s.bindForArrival p = s ∨ ∃ n, s.bindForArrival p = s.bindPlayer n p := by
  unfold State.bindForArrival
  split
  · exact .inl rfl
  · split
    · exact .inr ⟨_, rfl⟩
    · exact .inl rfl

theorem bindForArrival_slot (s : State) (p : Program) (i : Slot) : (s.bindForArrival p).slot i = s.slot i := by
  rcases bindForArrival_cases s p with same | ⟨n, bound⟩
  · rw [same]
  · rw [bound, bindPlayer_slot]

/-- Wherever an arrival goes, the other contexts stand. -/
theorem arrive_slot_other (s : State) {j i : Slot} (p : Program) (ann : AnnFields) (other : i ≠ j) :
    (s.arrive j p ann).slot i = s.slot i := by
  have refused : ∀ kind, (s.overflowSlot j p kind 0).slot i = s.slot i := fun kind =>
    (overflowSlot_slot ..).trans (enter_slot_other _ _ other)
  unfold State.arrive
  split
  · exact enter_slot_other s _ other
  · split
    · exact refused _
    · split
      · exact refused _
      · exact (bindForArrival_slot ..).trans (enqueueSlot_slot_other s p ann other)

/-- Settles O34: the open player shuts out the others, and max wait 0 goes before a full queue. -/
theorem arrivalServedOrRefused : Obligations.ArrivalServedOrRefused := by
  rintro s r data j p ws ann settled last kind gen state answer check tone one rfl
  have runs := exec_attachFetchComplete (data := data) settled last kind
  rw [← answer, attachDone_arrives (s := s.delivered) gen state _ check tone] at runs
  refine ⟨_, runs, completed_moves s _ (moves_arrive s.delivered j p _),
    fun i other => (finish_slot _ i).trans (arrive_slot_other s.delivered p _ other), fun n bound isOpen => ?_,
    fun closed refused => ?_⟩
  · rw [arrive_open ((openPlayer_some s.delivered p n one).mpr ⟨bound, isOpen⟩)]
    have player : (s.delivered.joinPlayer n j p (annFieldsOf ws)).finish.player n =
        { s.player n with listeners := addListener j (s.player n).listeners } :=
      (finish_player ..).trans (State.modifyPlayer_player_same ..)
    refine ⟨(finish_slot ..).trans (enter_slot_same s.delivered j _ rfl), fun i => ?_, ?_, fun m other => ?_,
      finish_gens _, finish_queue _, finish_rrw _⟩
    · rw [player]
      exact mem_addListener j i _
    · rw [player]
    · exact (finish_player ..).trans (State.modifyPlayer_player_ne _ n m _ other)
  · rw [arrive_refused ((openPlayer_none_iff s.delivered p).mpr closed) j refused]
    simp only [finish_slot, finish_generator, finish_players, finish_queue, overflowSlot_slot, overflowSlot_generator,
      joinGenerator_generator]
    exact ⟨enter_slot_same _ _ _ rfl, if_pos rfl, fun h other => if_neg other, slotOutcome_players ..,
      slotOutcome_queue .., Reported.finish (enter_slotOutcome_reported s (s.delivered.joinGenerator congestionGen)
        rfl rfl rfl (delivered_reportsHeld last (by rw [kind]; rfl)) j (.overflow p) _ p 0)⟩

end Sys2Proof.Machine

namespace Sys2Proof.Machine

/-! ### An arrival waits (R83, R102, R144) -/

/-- The entry of slot j at its arrival (R144). -/
def State.arrivalEntry (s : State) (j : Slot) (p : Program) (ann : AnnFields) : WaitEntry :=
  { slot := j, program := p, priority := ann.priority
    deadline := s.fm.frame + BitVec.ofNat 32 (ann.maxWait.toNat * 800) }

/-- Slot j waits in `u` for p with this filler's generator as its sound source, and is the last in the queue; the
players and the report ring are as in `s`, in which no read of slot j was under way (R83, R102, R144). -/
structure Enqueued (s u : State) (j : Slot) (p : Program) (ann : AnnFields) (filler : Option GenIx) : Prop where
  slot : u.slot j = { s.slot j with state := .waiting p ann filler, gen := (s.slot j).gen + 1 }
  queue : u.queue = s.queue ++ [s.arrivalEntry j p ann]
  players : u.players = s.players
  rrw : u.rrw = s.rrw
  boot : u.boot = s.boot
  underWay : u.mra.underWay = none
  generator : ∀ g, u.generator g =
    if filler = some g then { s.generator g with count := (s.generator g).count + 1 } else s.generator g

/-- Slot j has entered WAITING as the last in the queue, before it takes its filler (R83). -/
def State.entered (s : State) (j : Slot) (p : Program) (ann : AnnFields) : State :=
  (s.withQueue (s.queue ++ [s.arrivalEntry j p ann])).enter j (.waiting p ann none)

theorem entered_enqueued {s : State} (free : s.mra.underWay = none) (j : Slot) (p : Program) (ann : AnnFields) :
    Enqueued s (s.entered j p ann) j p ann none :=
  ⟨enter_slot_same _ j _ free, rfl, rfl, rfl, rfl, free, fun _ => rfl⟩

theorem enqueueSlot_unfilled (s : State) (j : Slot) (p : Program) {ann : AnnFields} (none : ann.filler = none) :
    s.enqueueSlot j p ann = s.entered j p ann := by
  unfold State.enqueueSlot
  rw [none]
  rfl

theorem enqueueSlot_fills (s : State) (j : Slot) (p : Program) {ann : AnnFields} {f : Program}
    (filler : ann.filler = some f) : s.enqueueSlot j p ann = (s.entered j p ann).takeFiller j f := by
  unfold State.enqueueSlot
  rw [filler]
  rfl

/-- The slot takes generator g as its filler (R102). -/
theorem Enqueued.joins {s u : State} {j : Slot} {p : Program} {ann : AnnFields} (e : Enqueued s u j p ann none)
    (g : GenIx) : Enqueued s
      ((u.joinGenerator g).setSlot j { u.slot j with state := .waiting p ann (some g) }) j p ann (some g) := by
  refine ⟨?_, e.queue, e.players, e.rrw, e.boot, e.underWay, fun h => ?_⟩
  · rw [State.setSlot_slot_same, e.slot]
  · have before : ∀ k, u.generator k = s.generator k := fun k => (e.generator k).trans (if_neg (by simp))
    rw [State.setSlot_generator, joinGenerator_generator, before, before]
    by_cases same : h = g
    · rw [if_pos same, if_pos (congrArg some same.symm), same]
    · rw [if_neg same, if_neg fun c => same (Option.some.inj c).symm]

theorem Enqueued.enqueue {s u : State} {j : Slot} {p : Program} {ann : AnnFields} {filler : Option GenIx}
    (e : Enqueued s u j p ann filler) (q : OwnRequest) : Enqueued s (u.enqueue q) j p ann filler :=
  ⟨e.slot, e.queue, e.players, e.rrw, e.boot, e.underWay, e.generator⟩

/-- A fetch of filler f for slot j waits in `u` (R102). -/
def FillerFetched (s u : State) (j : Slot) (f : Program) : Prop :=
  ∃ q, u.Waiting q ∧ q.kind = .fillerFetch j f ∧ q.gen = some (u.slot j).gen ∧ q.length = 16 ∧
    q.addr = s.programBase + BitVec.ofNat 24 (32 * f.val)

/-- What filler an arrival takes in `u`: none where it names none; the fresh generator of the one it names; or else
none, with its fetch queued where it lies below L (R102). -/
structure FillerTaken (s u : State) (j : Slot) (ann : AnnFields) (filler : Option GenIx) : Prop where
  unnamed : ann.filler = none → filler = none
  fresh : ∀ f, ann.filler = some f → ∀ g, (s.generator g).isFreshFor f = true → filler = some g
  lacking : ∀ f, ann.filler = some f → (∀ g, (s.generator g).isFreshFor f = false) →
    filler = none ∧ (f.val < s.limit → FillerFetched s u j f)

theorem fillerTaken_unnamed (s u : State) (j : Slot) {ann : AnnFields} (unnamed : ann.filler = none) :
    FillerTaken s u j ann none :=
  ⟨fun _ => rfl, fun f named => by simp [unnamed] at named, fun f named => by simp [unnamed] at named⟩

theorem fillerTaken_fresh {s : State} (one : s.OneFreshGenerator) (u : State) (j : Slot) {ann : AnnFields} {f : Program}
    (named : ann.filler = some f) {g : GenIx} (fresh : (s.generator g).isFreshFor f = true) :
    FillerTaken s u j ann (some g) := by
  refine ⟨fun unnamed => by simp [named] at unnamed, fun f' same h fresh' => ?_, fun f' same stale => ?_⟩ <;>
    obtain rfl : f = f' := Option.some.inj (named.symm.trans same)
  · exact congrArg some (one f g h fresh fresh')
  · exact absurd fresh (Bool.eq_false_iff.mp (stale g))

theorem fillerTaken_lacking {s u : State} {j : Slot} {ann : AnnFields} {f : Program} (named : ann.filler = some f)
    (stale : ∀ g, (s.generator g).isFreshFor f = false) (fetch : f.val < s.limit → FillerFetched s u j f) :
    FillerTaken s u j ann none := by
  refine ⟨fun _ => rfl, fun f' same g fresh => ?_, fun f' same _ => ?_⟩ <;>
    obtain rfl : f = f' := Option.some.inj (named.symm.trans same)
  · exact absurd fresh (Bool.eq_false_iff.mp (stale g))
  · exact ⟨rfl, fetch⟩

/-- An arrival that finds a place in the queue waits there with its filler (R83, R102, R144). -/
theorem enqueueSlot_enqueued {s : State} (free : s.mra.underWay = none) (one : s.OneFreshGenerator) (j : Slot)
    (p : Program) (ann : AnnFields) : ∃ filler, Enqueued s (s.enqueueSlot j p ann) j p ann filler ∧
      FillerTaken s (s.enqueueSlot j p ann) j ann filler := by
  have entered := entered_enqueued free j p ann
  cases named : ann.filler with
  | none =>
    rw [enqueueSlot_unfilled s j p named]
    exact ⟨none, entered, fillerTaken_unnamed s _ j named⟩
  | some f =>
    rw [enqueueSlot_fills s j p named]
    rcases takeFiller_cases (s.entered j p ann) j f p ann (by rw [entered.slot]) with
      ⟨g, fresh, taken⟩ | ⟨stale, beyond, taken⟩ | ⟨stale, below, taken⟩ <;> rw [taken]
    · exact ⟨some g, entered.joins g, fillerTaken_fresh one _ j named fresh⟩
    · exact ⟨none, entered, fillerTaken_lacking named stale fun below => absurd below (Nat.not_lt.mpr beyond)⟩
    · exact ⟨none, entered.enqueue _, fillerTaken_lacking named stale fun _ =>
        ⟨_, (enqueue_waiting_iff _ _ _).mpr (.inr rfl), rfl, rfl, rfl, rfl⟩⟩

/-! ### A player is bound at an arrival (R108, R145) -/

theorem hasFreshPlayer_iff (s : State) (p : Program) :
    s.hasFreshPlayer p = true ↔ ∃ n, (s.player n).isFreshFor p = true := by
  unfold State.hasFreshPlayer
  rw [allPlayers_eq]
  simp

/-- The lowest-numbered FREE player (R145). -/
theorem freePlayerNumber_some_iff (s : State) (n : PlayerIx) : s.freePlayerNumber = some n ↔
    (s.player n).state = .free ∧ ∀ m, m < n → (s.player m).state ≠ .free := by
  unfold State.freePlayerNumber
  rw [allPlayers_eq, (find_finRange _).1]
  simp

theorem freePlayerNumber_none_iff (s : State) :
    s.freePlayerNumber = none ↔ ∀ n, (s.player n).state ≠ .free := by
  unfold State.freePlayerNumber
  rw [allPlayers_eq, (find_finRange _).2]
  simp

theorem bindForArrival_stands {s : State} {p : Program}
    (h : (∃ n, (s.player n).isFreshFor p = true) ∨ ∀ n, (s.player n).state ≠ .free) : s.bindForArrival p = s := by
  unfold State.bindForArrival
  rcases h with fresh | busy
  · exact if_pos ((hasFreshPlayer_iff s p).mpr fresh)
  · rw [(freePlayerNumber_none_iff s).mpr busy]
    exact ite_self s

theorem bindForArrival_binds {s : State} {p : Program} {n : PlayerIx} (stale : ∀ m, (s.player m).isFreshFor p = false)
    (free : (s.player n).state = .free) (lowest : ∀ m, m < n → (s.player m).state ≠ .free) :
    s.bindForArrival p = s.bindPlayer n p := by
  have none : ¬ s.hasFreshPlayer p = true := by
    rw [hasFreshPlayer_iff]
    exact fun ⟨m, fresh⟩ => Bool.eq_false_iff.mp (stale m) fresh
  unfold State.bindForArrival
  rw [if_neg none, (freePlayerNumber_some_iff s n).mpr ⟨free, lowest⟩]

/-- With no read under way a binding's generation is the next one (R107). -/
theorem nextPlayerGen_unread {s : State} (free : s.mra.underWay = none) (n : PlayerIx) :
    s.nextPlayerGen n = (s.player n).gen + 1 := by
  simp [State.nextPlayerGen, State.underWayGen, free, nextGeneration]

/-- The binding of a player leaves the slots, the generators, the queue and the report ring, and every request that is
not a player's own read. -/
structure BindingFrame (s t : State) : Prop where
  slots : t.slots = s.slots
  gens : t.gens = s.gens
  queue : t.queue = s.queue
  rrw : t.rrw = s.rrw
  waiting : ∀ q, s.Waiting q → q.kind.player? = none → t.Waiting q

theorem bindForArrival_frame (s : State) (p : Program) : BindingFrame s (s.bindForArrival p) := by
  rcases bindForArrival_cases s p with same | ⟨n, bound⟩
  · rw [same]
    exact ⟨rfl, rfl, rfl, rfl, fun _ waits _ => waits⟩
  · rw [bound]
    refine ⟨rfl, rfl, rfl, rfl, fun q waits other => (bindPlayer_waiting_iff s n p q).mpr (.inl ⟨waits, ?_⟩)⟩
    unfold readOfPlayer
    rw [other]
    rfl

/-- Settles O35: `enqueueSlot_enqueued` gives the entry, the slot and its filler, and the binding reaches one player. -/
theorem arrivalQueued : Obligations.ArrivalQueued := by
  rintro s r data j p ws ann settled last kind gen state answer check tone one rfl closed patient room
  have runs := exec_attachFetchComplete (data := data) settled last kind
  rw [← answer, attachDone_arrives (s := s.delivered) gen state _ check tone] at runs
  have completed := completed_moves s _ (moves_arrive s.delivered j p (annFieldsOf ws))
  have others : ∀ i, i ≠ j → (s.delivered.arrive j p (annFieldsOf ws)).finish.slot i = s.slot i := fun i other =>
    (finish_slot _ i).trans (arrive_slot_other s.delivered p _ other)
  rw [arrive_queued (s := s.delivered) ((openPlayer_none_iff s.delivered p).mpr closed) j patient room]
    at runs completed others
  obtain ⟨filler, waits, taken⟩ := enqueueSlot_enqueued (s := s.delivered) rfl one j p (annFieldsOf ws)
  generalize s.delivered.enqueueSlot j p (annFieldsOf ws) = u at runs completed others waits taken
  have frame := bindForArrival_frame u p
  have slot : (u.bindForArrival p).finish.slot j = u.slot j := (finish_slot ..).trans (bindForArrival_slot ..)
  have player : ∀ n, u.player n = s.player n := fun n => by
    unfold State.player
    rw [waits.players]
    rfl
  refine ⟨_, filler, runs, completed, others, (finish_rrw _).trans (frame.rrw.trans waits.rrw),
    (finish_queue _).trans (frame.queue.trans waits.queue), slot.trans waits.slot, taken.unnamed, fun f named =>
    ⟨taken.fresh f named, fun stale => ?_⟩, fun g => ?_, fun kept => ?_, fun n stale free lowest => ?_⟩
  · obtain ⟨lost, fetch⟩ := taken.lacking f named stale
    refine ⟨lost, fun below => ?_⟩
    obtain ⟨q, queued, fetches, carries⟩ := fetch below
    rw [slot]
    exact ⟨q, (finish_waiting _ q).mpr (frame.waiting q queued (by rw [fetches]; rfl)), fetches, carries⟩
  · refine (finish_generator _ g).trans (Eq.trans ?_ (waits.generator g))
    unfold State.generator
    rw [frame.gens]
  · simp only [← player] at kept
    rw [bindForArrival_stands kept, finish_players]
    exact waits.players
  · simp only [← player] at stale free lowest ⊢
    rw [bindForArrival_binds stale free lowest]
    have base : u.programBase = s.programBase := by
      unfold State.programBase
      rw [waits.boot]
      rfl
    rw [← base]
    simp only [finish_player, finish_waiting, bindPlayer_player, nextPlayerGen_unread waits.underWay]
    exact ⟨fun m other => bindPlayer_other u n p m other, trivial, _, (bindPlayer_waiting_iff u n p _).mpr (.inr rfl),
      rfl, congrArg some (nextPlayerGen_unread waits.underWay n), rfl, rfl⟩

end Sys2Proof.Machine

namespace Sys2Proof.Machine

/-! ### The first of the least (R157) -/

/-- What `firstLeast` finds is of no greater rank than any other, and of less than all those before it. -/
theorem firstLeast_split {rank : OwnRequest → Nat} {l : List OwnRequest} {r : OwnRequest}
    (h : firstLeast rank l = some r) : ∃ older newer, l = older ++ r :: newer ∧
      (∀ x ∈ older, rank r < rank x) ∧ ∀ x ∈ newer, rank r ≤ rank x := by
  induction l generalizing r with
  | nil => cases h
  | cons a l ih =>
    unfold firstLeast at h
    cases rest : firstLeast rank l with
    | none =>
      obtain rfl : a = r := by simpa [rest] using h
      exact ⟨[], l, rfl, nofun, by simp [firstLeast_eq_none rest]⟩
    | some b =>
      obtain ⟨older, newer, order, before, after⟩ := ih rest
      simp only [rest] at h
      split at h <;> cases h
      · exact ⟨a :: older, newer, by rw [order]; rfl, by simpa [‹rank r < rank a›] using before, after⟩
      · refine ⟨[], l, rfl, nofun, fun x mem => ?_⟩
        rw [order, List.mem_append, List.mem_cons] at mem
        rcases mem with older | rfl | newer
        · have := before x older; omega
        · omega
        · have := after x newer; omega

theorem firstLeast_least {rank : OwnRequest → Nat} {l : List OwnRequest} {r : OwnRequest}
    (h : firstLeast rank l = some r) : ∀ x ∈ l, rank r ≤ rank x := by
  obtain ⟨older, newer, rfl, before, after⟩ := firstLeast_split h
  simp only [List.mem_append, List.mem_cons]
  rintro x (mem | rfl | mem)
  · exact (before x mem).le
  · exact le_rfl
  · exact after x mem

theorem firstLeast_some {rank : OwnRequest → Nat} {l : List OwnRequest} {x : OwnRequest} (mem : x ∈ l) :
    ∃ r, firstLeast rank l = some r :=
  Option.ne_none_iff_exists'.mp fun none => by simp [firstLeast_eq_none none] at mem

/-- Among those of one rank `firstLeast` finds the first. -/
theorem find_of_firstLeast {rank : OwnRequest → Nat} {l : List OwnRequest} {r : OwnRequest}
    (h : firstLeast rank l = some r) (p : OwnRequest → Bool) (holds : p r = true)
    (same : ∀ x, p x = true → rank x = rank r) : l.find? p = some r := by
  obtain ⟨older, newer, order, before, -⟩ := firstLeast_split h
  refine List.find?_eq_some_iff_append.mpr ⟨holds, older, newer, order, fun x mem => ?_⟩
  rw [Bool.not_eq_true', Bool.eq_false_iff]
  intro hx
  have := before x mem
  have := same x hx
  omega

/-! ### What the MRA picks (R157, R158) -/

/-- Where none is chosen or under way, the MRA's choice is the request it picks (R156). -/
theorem choose_chosen {s : State} (chosen : s.mra.chosen = none) (underWay : s.mra.underWay = none) :
    s.choose.mra.chosen = s.pick := by
  unfold State.choose
  cases pick : s.pick <;> simp [chosen, underWay]

theorem pick_run {s : State} (run : s.boot.device = .run) : s.pick = s.pickRun := by
  unfold State.pick
  rw [run]

theorem pick_boot {s : State} (boot : s.boot.device = .boot) :
    s.pick = s.mra.queued.find? (fun r => r.drain || r.kind.isBoot) := by
  unfold State.pick
  rw [boot]

/-- The step fetches and fills queued, class 1 of R157. -/
def State.soundQueued (s : State) : List OwnRequest := s.mra.queued.filter (fun r => r.kind.sound?.isSome)

theorem mem_soundQueued {s : State} {r : OwnRequest} {n : PlayerIx} (sound : r.kind.sound? = some n) :
    r ∈ s.soundQueued ↔ r ∈ s.mra.queued := by
  simp [State.soundQueued, sound]

/-- The classes of R157 in their order. -/
theorem pickRun_eq (s : State) : s.pickRun = ((firstLeast s.soundRank s.soundQueued).or
    (s.mra.queued.find? (fun r => r.kind.descriptor?.isSome))).or (s.mra.queued.find? (fun r => r.kind.isReport)) := by
  unfold State.pickRun State.soundQueued
  split
  · rename_i sound
    rw [sound]
    rfl
  · rename_i noSound
    rw [noSound]
    split
    · rename_i fetch
      rw [fetch]
      rfl
    · rename_i noFetch
      rw [noFetch]
      rfl

theorem soundRank_of_sound {s : State} {r : OwnRequest} {n : PlayerIx} (sound : r.kind.sound? = some n) :
    s.soundRank r = (s.player n).buffered * 8 + n.val := by
  unfold State.soundRank
  rw [sound]

theorem sound_of_mem_soundQueued {s : State} {r : OwnRequest} (mem : r ∈ s.soundQueued) :
    ∃ n, r.kind.sound? = some n := Option.isSome_iff_exists.mp (List.mem_filter.mp mem).2

/-- A step fetch or fill that is picked is the first of least rank (R157). -/
theorem firstLeast_of_pickRun {s : State} {q : OwnRequest} {n : PlayerIx} (run : s.boot.device = .run)
    (pick : s.pickRun = some q) (sound : q.kind.sound? = some n) :
    firstLeast s.soundRank s.soundQueued = some q := by
  have queued : q ∈ s.soundQueued := (mem_soundQueued sound).mpr (pick_mem s q ((pick_run run).trans pick))
  obtain ⟨r, least⟩ := firstLeast_some (rank := s.soundRank) queued
  rw [pickRun_eq, least] at pick
  exact least.trans pick

/-- While a step fetch or fill is queued one of them is picked, of the player with the fewest buffered frames, then of
the lower number (R157). -/
theorem pickRun_prefers_sound (s : State) {q : OwnRequest} {n : PlayerIx} (queued : q ∈ s.mra.queued)
    (sound : q.kind.sound? = some n) : ∃ r m, s.pickRun = some r ∧ r.kind.sound? = some m ∧
      ((s.player m).buffered < (s.player n).buffered ∨
        ((s.player m).buffered = (s.player n).buffered ∧ m ≤ n)) := by
  have mem : q ∈ s.soundQueued := (mem_soundQueued sound).mpr queued
  obtain ⟨r, least⟩ := firstLeast_some (rank := s.soundRank) mem
  obtain ⟨m, player⟩ := sound_of_mem_soundQueued (firstLeast_mem _ _ _ least)
  refine ⟨r, m, by rw [pickRun_eq, least]; rfl, player, ?_⟩
  have rank := firstLeast_least least q mem
  rw [soundRank_of_sound player, soundRank_of_sound sound] at rank
  rw [Fin.le_def]
  omega

/-- Of one player's step fetches and fills the one picked is the first queued (R157). -/
theorem find_of_pickRun_sound {s : State} {q : OwnRequest} {n : PlayerIx} (run : s.boot.device = .run)
    (pick : s.pickRun = some q) (sound : q.kind.sound? = some n) :
    s.mra.queued.find? (fun x => decide (x.kind.sound? = some n)) = some q := by
  have first := find_of_firstLeast (firstLeast_of_pickRun run pick sound) (fun x => decide (x.kind.sound? = some n))
    (by simp [sound]) fun x same => by rw [soundRank_of_sound (of_decide_eq_true same), soundRank_of_sound sound]
  rw [State.soundQueued, List.find?_filter] at first
  rw [← first]
  congr 1
  funext x
  cases x.kind.sound? <;> simp

theorem pickRun_of_no_sound {s : State} (none : ∀ q ∈ s.mra.queued, q.kind.sound? = none) :
    s.pickRun = (s.mra.queued.find? (fun r => r.kind.descriptor?.isSome)).or
      (s.mra.queued.find? (fun r => r.kind.isReport)) := by
  have empty : s.soundQueued = [] := List.filter_eq_nil_iff.mpr fun q mem => by simp [none q mem]
  rw [pickRun_eq, empty]
  rfl

/-! ### The choice is made at every event (R156) -/

/-- The choice speaks of the own requests and the device state alone. -/
theorem State.ChoiceMade.of_eq {s t : State} (made : s.ChoiceMade) (mra : t.mra = s.mra) (boot : t.boot = s.boot) :
    t.ChoiceMade := by
  unfold State.ChoiceMade State.mayChoose at *
  rwa [mra, boot]

theorem State.ChoiceMade.foldl {α : Type} (f : State → α → State)
    (keeps : ∀ s a, s.ChoiceMade → (f s a).ChoiceMade) (l : List α) :
    ∀ s : State, s.ChoiceMade → (l.foldl f s).ChoiceMade := by
  induction l with
  | nil => exact fun _ => id
  | cons a l ih => exact fun s made => ih _ (keeps s a made)

theorem State.ChoiceMade.closeWindow {s : State} (made : s.ChoiceMade) (n : PlayerIx) :
    (s.closeWindow n).ChoiceMade := by
  unfold State.closeWindow
  split <;> exact made.of_eq rfl rfl

theorem takeTimeouts_choiceMade (k : Nat) : ∀ s : State, s.ChoiceMade → (State.takeTimeouts k s).ChoiceMade := by
  induction k with
  | zero => exact fun _ => id
  | succ k ih =>
    intro s made
    unfold State.takeTimeouts
    split
    · exact ih _ (finish_choiceMade _)
    · exact made

theorem State.ChoiceMade.takeEnds {s : State} (made : s.ChoiceMade) : s.takeEnds.ChoiceMade := by
  unfold State.takeEnds
  split
  · refine takeTimeouts_choiceMade _ _ ?_
    refine .foldl (fun t j => (t.takeDwell j).finish) (fun _ _ _ => finish_choiceMade _) _ _ ?_
    refine .foldl State.closeWindow (fun _ n made => made.closeWindow n) _ _ ?_
    refine .foldl State.endCadenceStep (fun _ _ made => made.of_eq rfl rfl) _ _ ?_
    exact made.of_eq rfl rfl
  · exact made

theorem State.ChoiceMade.tick {s : State} (made : s.ChoiceMade) (n : Nat) : (s.tick n).ChoiceMade :=
  tick_keeps (P := fun s t => s.ChoiceMade → t.ChoiceMade) (fun _ _ _ made => made.of_eq rfl rfl)
    (fun _ _ _ first second => second ∘ first)
    (fun _ _ _ => State.ChoiceMade.takeEnds (finish_choiceMade _)) s n made

theorem EventEnd.choiceMade {s t : State} (event : EventEnd s t) (made : s.ChoiceMade) : t.ChoiceMade := by
  rcases event with ⟨mra, boot⟩ | ⟨underWay, -⟩ | ⟨u, rfl, -⟩
  · exact made.of_eq mra boot
  · intro _ none
    simp [none] at underWay
  · exact finish_choiceMade u

theorem released_choiceMade (b : Byte) (l : List Instr) : (State.released b l).ChoiceMade :=
  fun chosen => nomatch chosen

/-- Where no end of a timer waits, a command is a reset or ends as `exec_eventEnd` says. -/
theorem exec_choiceMade_settled {c : Instr} {s t : State} (made : s.ChoiceMade) (settled : s.Settled)
    (h : exec c s = .next t) : t.ChoiceMade := by
  by_cases reset : ∃ b, c = .reset b
  · obtain ⟨b, rfl⟩ := reset
    cases h
    exact released_choiceMade b s.pending
  · obtain ⟨u, start, event⟩ := exec_eventEnd c s t settled (fun b same => reset ⟨b, same⟩) h
    rcases start with rfl | ⟨_, _, n, _, _, rfl⟩
    · exact event.choiceMade made
    · exact event.choiceMade (made.tick n)

theorem exec_choiceMade {c : Instr} {s t : State} (made : s.ChoiceMade) (h : exec c s = .next t) : t.ChoiceMade := by
  cases c with
  | reset b => cases h; exact released_choiceMade b s.pending
  | cadenceStepEnd g => cases h; exact made.of_eq rfl rfl
  | joinWindowClose n => cases h; exact made.closeWindow n
  | dwellExpiry j => cases h; exact finish_choiceMade _
  | waitTimeout => cases h; exact finish_choiceMade _
  | _ =>
    have runs := h.symm.trans (exec_takeEnds _ s nofun nofun nofun nofun nofun)
    exact exec_choiceMade_settled made.takeEnds (settled_takeEnds s) runs.symm

theorem step_choiceMade (s t : State) (made : s.ChoiceMade) (h : step s = .next t) : t.ChoiceMade := by
  unfold step at h
  split at h
  · cases h; exact made.takeEnds.tick 1
  · rename_i rest _
    exact exec_choiceMade (s := s.withPending rest) (made.of_eq rfl rfl) h

/-! ### A request newly chosen (R156; log 24) -/

/-- The arbiter of `t` is that of a choice made where none was chosen or under way, by the boot and the players of `t`. -/
def ChosenBy (t : State) : Prop :=
  ∃ u : State, u.mra.chosen = none ∧ u.mra.underWay = none ∧ t.boot = u.boot ∧ t.players = u.players ∧
    t.mra = u.choose.mra

/-- The LOADING write of the release is the choice from it alone (log 18). -/
theorem chosenBy_released (b : Byte) (l : List Instr) : ChosenBy (State.released b l) := by
  refine ⟨(State.released b l).withMra
    { queued := [OwnRequest.firstLoading b], chosen := none, underWay := none }, rfl, rfl, rfl, rfl, ?_⟩
  simp [State.choose, State.pick, State.released, State.withMra, OwnRequest.firstLoading, OwnKind.isBoot]

/-- An event that leaves a request chosen that was not has made the choice at its end. -/
theorem EventEnd.chosenBy {s t : State} {r : OwnRequest} (event : EventEnd s t) (chosen : t.mra.chosen = some r)
    (new : ∀ q, s.mra.chosen = some q → q.kind ≠ r.kind ∨ q.gen ≠ r.gen) : ChosenBy t := by
  have notKept : ∀ u, KeepsChoice s u → u.mra.chosen ≠ some r := fun u keeps same => by
    obtain ⟨q, before, kind, gen⟩ := keeps r same
    exact (new q before).elim (· kind) (· gen)
  rcases event with ⟨mra, -⟩ | ⟨-, keeps⟩ | ⟨u, rfl, keeps⟩
  · exact absurd chosen (notKept t (.of_eq (by rw [mra])))
  · exact absurd chosen (notKept t keeps)
  · rcases finish_cases u with ⟨same, -⟩ | ⟨none, underWay, choice, -⟩
    · exact absurd (same ▸ chosen) (notKept u keeps)
    · exact ⟨u, none, underWay, finish_boot u, finish_players u, choice⟩

theorem exec_chosenBy (c : Instr) (s t : State) (r : OwnRequest) (settled : s.Settled)
    (short : ∀ a b n order k, c = .connectionRead a b n order → s.fm.untilExpiry = some k → n ≤ k)
    (h : exec c s = .next t) (chosen : t.mra.chosen = some r)
    (new : ∀ q, s.mra.chosen = some q → q.kind ≠ r.kind ∨ q.gen ≠ r.gen) : ChosenBy t := by
  by_cases reset : ∃ b, c = .reset b
  · obtain ⟨b, rfl⟩ := reset
    cases h
    exact chosenBy_released b s.pending
  · obtain ⟨u, start, event⟩ := exec_eventEnd c s t settled (fun b same => reset ⟨b, same⟩) h
    rcases start with rfl | ⟨a, b, n, order, read, rfl⟩
    · exact event.chosenBy chosen new
    · rw [tick_short s n fun k => short a b n order k read] at event
      exact event.chosenBy chosen new

/-! ### Buffered frames (R112) -/

theorem Player.buffered_running {pl : Player} (running : pl.state = .running) : pl.buffered =
    ((pl.half pl.current).frames - pl.cursor) + (pl.half pl.current.other).frames := if_pos running

theorem Player.buffered_other {pl : Player} (other : pl.state ≠ .running) : pl.buffered = 0 := if_neg other

theorem Half.frames_soundless {h : Half} (soundless : (∀ c, h ≠ .full c) ∨ ∃ m, h = .full (.mark m)) :
    h.frames = 0 := by
  rcases soundless with notFull | ⟨m, rfl⟩
  · cases h with
    | full c => exact absurd rfl (notFull c)
    | empty | filling => rfl
  · rfl

/-! ### The choice in each device state -/

theorem choose_bypass {s : State} (bypass : s.boot.device = .bypass) : s.choose = s := by
  have none : s.pick = none := by unfold State.pick; rw [bypass]
  rcases choose_cases s with same | ⟨r, -, -, -, pick, -⟩
  · exact same
  · exact nomatch none.symm.trans pick

/-- What is chosen was queued, has left the queue, and in BOOT is the boot's or the drain's (R154, R158). -/
theorem choose_takes {s : State} {r : OwnRequest} (none : s.mra.chosen = none) (chosen : s.choose.mra.chosen = some r) :
    r ∈ s.mra.queued ∧ s.choose.mra.queued = s.mra.queued.erase r ∧
      (s.boot.device = .boot → r.drain = true ∨ r.kind.isBoot = true) := by
  rcases choose_cases s with same | ⟨q, queued, -, -, pick, choice⟩
  · rw [same, none] at chosen
    cases chosen
  · rw [choice] at chosen ⊢
    cases chosen
    refine ⟨queued, rfl, fun boot => ?_⟩
    rw [pick_boot boot] at pick
    simpa using List.find?_some pick

/-- In BOOT the oldest request of the boot or the drain is chosen (R158). -/
theorem pick_boot_oldest {s : State} (boot : s.boot.device = .boot) {older newer : List OwnRequest} {r : OwnRequest}
    (order : s.mra.queued = older ++ r :: newer) (own : r.drain = true ∨ r.kind.isBoot = true)
    (others : ∀ q ∈ older, q.drain = false ∧ q.kind.isBoot = false) : s.pick = some r := by
  rw [pick_boot boot]
  refine List.find?_eq_some_iff_append.mpr ⟨by simpa using own, older, newer, order, fun q mem => ?_⟩
  obtain ⟨drain, kind⟩ := others q mem
  simp [drain, kind]

/-- In RUN, of one player's step fetches and fills the one queued first is chosen (R157). -/
theorem pickRun_oldest_sound {s : State} (run : s.boot.device = .run) {older newer : List OwnRequest}
    {r q : OwnRequest} {n : PlayerIx} (order : s.mra.queued = older ++ r :: newer) (sound : r.kind.sound? = some n)
    (others : ∀ x ∈ older, x.kind.sound? ≠ some n) (pick : s.pickRun = some q) (player : q.kind.sound? = some n) :
    q = r := by
  have first : s.mra.queued.find? (fun x => decide (x.kind.sound? = some n)) = some r :=
    List.find?_eq_some_iff_append.mpr ⟨by simp [sound], older, newer, order, fun x mem => by simp [others x mem]⟩
  exact Option.some.inj ((find_of_pickRun_sound run pick player).symm.trans first)

/-- In RUN with no step fetch or fill queued, the oldest descriptor fetch is chosen (R157). -/
theorem pickRun_oldest_descriptor {s : State} (noSound : ∀ q ∈ s.mra.queued, q.kind.sound? = none)
    {older newer : List OwnRequest} {r : OwnRequest} (order : s.mra.queued = older ++ r :: newer)
    (fetch : r.kind.descriptor?.isSome = true) (others : ∀ q ∈ older, q.kind.descriptor? = none) :
    s.pickRun = some r := by
  have first : s.mra.queued.find? (fun x => x.kind.descriptor?.isSome) = some r :=
    List.find?_eq_some_iff_append.mpr ⟨fetch, older, newer, order, fun x mem => by simp [others x mem]⟩
  rw [pickRun_of_no_sound noSound, first]
  rfl

/-- In RUN with no read queued, the oldest report write is chosen (R157). -/
theorem pickRun_oldest_report {s : State} (noSound : ∀ q ∈ s.mra.queued, q.kind.sound? = none)
    (noFetch : ∀ q ∈ s.mra.queued, q.kind.descriptor? = none)
    {older newer : List OwnRequest} {r : OwnRequest} (order : s.mra.queued = older ++ r :: newer)
    (report : r.kind.isReport = true) (others : ∀ q ∈ older, q.kind.isReport = false) : s.pickRun = some r := by
  have none : s.mra.queued.find? (fun x => x.kind.descriptor?.isSome) = none :=
    List.find?_eq_none.mpr fun x mem => by simp [noFetch x mem]
  rw [pickRun_of_no_sound noSound, none]
  exact List.find?_eq_some_iff_append.mpr ⟨report, older, newer, order, fun x mem => by simp [others x mem]⟩

/-- Settles O52: the choice is the request picked, by its class and rank; every event but a reset ends as `EventEnd` says,
from which the step law and the new choice follow. -/
theorem choiceOrder : Obligations.ChoiceOrder := by
  refine ⟨fun s none underWay => ?_, fun pl => ⟨Player.buffered_other, Player.buffered_running⟩,
    fun h => ⟨fun codes full => by rw [full]; rfl, fun frames full => by rw [full]; rfl, Half.frames_soundless⟩,
    step_choiceMade, exec_chosenBy⟩
  have choice := choose_chosen none underWay
  refine ⟨choose_bypass, fun r => choose_takes none, fun boot older r newer order own others =>
    choice.trans (pick_boot_oldest boot order own others), fun run => ?_⟩
  rw [choice, pick_run run]
  exact ⟨fun q n queued sound => pickRun_prefers_sound s queued sound,
    fun older r newer q n order sound others => pickRun_oldest_sound run order sound others,
    fun noSound older r newer order => ⟨pickRun_oldest_descriptor noSound order,
      fun report noFetch => pickRun_oldest_report noSound noFetch order report⟩⟩

end Sys2Proof.Machine

namespace Sys2Proof.Machine

/-! ### What the laws of the report ring read (R163 to R165) -/

/-- What the ring's laws read of a report write: its kind with the source, its address and the drain's mark. -/
def OwnRequest.place (r : OwnRequest) : OwnKind × Addr × Bool := (r.kind, r.addr, r.drain)

/-- The places of the report writes not yet completed, in the order in which they were queued. -/
def State.writePlaces (s : State) : List (OwnKind × Addr × Bool) := s.reportWrites.map OwnRequest.place

theorem unconsumed_eq (s : State) :
    s.unconsumed = s.rrw.order ++ s.writePlaces.filterMap (fun p => p.1.reportSource?) := by
  unfold State.unconsumed State.writePlaces
  rw [List.filterMap_map]
  rfl

/-- The ring in use is the same one. -/
def SameRing (s t : State) : Prop :=
  ∀ rec, t.boot.accepted = some rec → ∃ old, s.boot.accepted = some old ∧ old.rb = rec.rb

theorem SameRing.of_boot {s t : State} (h : t.boot = s.boot) : SameRing s t := fun rec a => ⟨rec, h ▸ a, rfl⟩

/-- The order of the writes reads the ring in use, P, and the places of the writes. -/
theorem State.WritesInOrder.of_places {s t : State} (h : s.WritesInOrder) (ring : SameRing s t)
    (producer : t.rrw.producer = s.rrw.producer) (places : t.writePlaces = s.writePlaces) : t.WritesInOrder := by
  have drain : ∀ u : State, u.reportWrites.Pairwise (fun a b => b.drain = true → a.drain = true) ↔
      u.writePlaces.Pairwise (fun a b => b.2.2 = true → a.2.2 = true) := fun u => by
    rw [State.writePlaces, List.pairwise_map]
    rfl
  refine ⟨fun rec found k r place => ?_, ?_⟩
  · obtain ⟨old, before, rb⟩ := ring rec found
    have there : s.writePlaces[k]? = some r.place := by rw [← places, State.writePlaces, List.getElem?_map, place]; rfl
    rw [State.writePlaces, List.getElem?_map, Option.map_eq_some_iff] at there
    obtain ⟨x, was, same⟩ := there
    have addr : x.addr = r.addr := congrArg (fun p => p.2.1) same
    rw [← addr, ← rb, producer]
    exact h.addresses old before k x was
  · rw [drain, places, ← drain]
    exact h.drainFirst

/-- The laws of the ring while the records of the sources `l`, which have left the order list, are still to be
released (R165): their flags stand, and may still have outcomes held behind them. -/
structure State.RingWhile (s : State) (l : List Source) : Prop where
  once : (l ++ s.unconsumed).Nodup
  flags : ∀ src, s.isPending src = true ↔ src ∈ l ++ s.unconsumed
  held : ∀ src o, s.heldOutcome src = some o → s.isPending src = true ∧ o.source = src
  indices : s.rrw.order.length = (s.rrw.producer - s.rrw.consumer).toNat
  writes : s.WritesInOrder

theorem ringWhile_nil_iff (s : State) : s.RingWhile [] ↔ s.RingLaw ∧ s.WritesInOrder :=
  ⟨fun ⟨once, flags, held, indices, writes⟩ => ⟨⟨once, flags, held, indices⟩, writes⟩,
    fun ⟨⟨once, flags, held, indices⟩, writes⟩ => ⟨once, flags, held, indices, writes⟩⟩

/-- The report ring, the ring in use and the report writes stand. -/
structure RingStands (s t : State) : Prop where
  ring : SameRing s t
  rrw : t.rrw = s.rrw
  places : t.writePlaces = s.writePlaces

theorem RingStands.ringWhile {s t : State} {l : List Source} (h : RingStands s t) (r : s.RingWhile l) :
    t.RingWhile l := by
  obtain ⟨ring, rrw, places⟩ := h
  have unconsumed : t.unconsumed = s.unconsumed := by rw [unconsumed_eq, unconsumed_eq, rrw, places]
  have pending : ∀ src, t.isPending src = s.isPending src := fun src => by unfold State.isPending; rw [rrw]
  have held : ∀ src, t.heldOutcome src = s.heldOutcome src := fun src => by unfold State.heldOutcome; rw [rrw]
  refine ⟨?_, fun src => ?_, fun src o => ?_, ?_, r.writes.of_places ring (by rw [rrw]) places⟩
  · rw [unconsumed]
    exact r.once
  · rw [pending, unconsumed]
    exact r.flags src
  · rw [pending, held]
    exact r.held src o
  · rw [rrw]
    exact r.indices

theorem RingStands.trans {s t u : State} (a : RingStands s t) (b : RingStands t u) : RingStands s u :=
  ⟨fun rec found => by
    obtain ⟨mid, there, rb⟩ := b.ring rec found
    obtain ⟨old, before, same⟩ := a.ring mid there
    exact ⟨old, before, same.trans rb⟩, b.rrw.trans a.rrw, b.places.trans a.places⟩

/-- An operation that leaves the Boot Loader, the ring and the report writes. -/
theorem RingStands.of_writes {s t : State} (boot : t.boot = s.boot) (rrw : t.rrw = s.rrw)
    (writes : t.reportWrites = s.reportWrites) : RingStands s t :=
  ⟨.of_boot boot, rrw, congrArg (List.map OwnRequest.place) writes⟩

theorem RingStands.of_mra {s t : State} (boot : t.boot = s.boot) (rrw : t.rrw = s.rrw) (mra : t.mra = s.mra) :
    RingStands s t := .of_writes boot rrw (reportWrites_of_mra mra)

theorem ringStands_enqueue (s : State) (r : OwnRequest) (h : r.kind.isReport = false) : RingStands s (s.enqueue r) :=
  .of_writes rfl rfl (enqueue_reportWrites s r h)

theorem ringStands_withdraw (s : State) (f : OwnKind → Bool) (h : ∀ k, f k = true → k.isServing = true) :
    RingStands s (s.withdraw f) := .of_writes rfl rfl (withdraw_reportWrites s f h)

theorem ringStands_delivered {s : State} {r : OwnRequest} (last : s.LastWordOf r) (h : r.kind.isReport = false) :
    RingStands s s.delivered := .of_writes rfl rfl (delivered_reportWrites last h)

/-! ### Outcomes are taken (R162, R163) -/

theorem queueReport_unconsumed (s : State) (rb : Addr) (o : Outcome) :
    (s.queueReport rb o).unconsumed = s.unconsumed ++ [o.source] := by
  unfold State.unconsumed
  rw [queueReport_reportWrites, List.filterMap_append, ← List.append_assoc]
  rfl

theorem queueReport_isPending (s : State) (rb : Addr) (o : Outcome) (src : Source) :
    (s.queueReport rb o).isPending src = if o.source = src then true else s.isPending src :=
  ReportRing.setFlag_get _ _ _ _

/-- A report write queued at the next index stands in its place behind the others (R163). -/
theorem State.WritesInOrder.queueReport {s : State} {rec : BootRecord} (h : s.WritesInOrder)
    (accepted : s.boot.accepted = some rec) (o : Outcome) : (s.queueReport rec.rb o).WritesInOrder := by
  refine ⟨fun r found k x place => ?_, ?_⟩
  · obtain rfl := Option.some_inj.mp (accepted.symm.trans found)
    rw [queueReport_reportWrites, List.getElem?_append] at place
    split at place
    · exact h.addresses rec accepted k x place
    · rename_i beyond
      obtain ⟨here, rfl⟩ := List.getElem?_eq_some_iff.mp place
      have last : k = s.reportWrites.length := by simp only [List.length_singleton] at here; omega
      subst last
      simp only [Nat.sub_self, List.getElem_cons_zero]
      rfl
  · rw [queueReport_reportWrites, List.pairwise_append]
    exact ⟨h.drainFirst, List.pairwise_singleton _ _, fun a _ b new => by
      obtain rfl := List.mem_singleton.mp new
      exact nofun⟩

/-- An outcome of a source without an unconsumed record is queued. -/
theorem State.RingWhile.queueReport {s : State} {l : List Source} {rec : BootRecord} (h : s.RingWhile l)
    (accepted : s.boot.accepted = some rec) (o : Outcome) (free : s.isPending o.source = false) :
    (s.queueReport rec.rb o).RingWhile l := by
  have new : o.source ∉ l ++ s.unconsumed := fun mem => by
    rw [(h.flags _).mpr mem] at free
    cases free
  refine ⟨?_, fun src => ?_, fun src x kept => ?_, h.indices, h.writes.queueReport accepted o⟩
  · rw [queueReport_unconsumed, ← List.append_assoc]
    exact List.nodup_append.mpr ⟨h.once, List.nodup_singleton _, fun a mem b hb e => new (by
      rwa [← List.mem_singleton.mp hb, ← e])⟩
  · rw [queueReport_unconsumed, queueReport_isPending, ← List.append_assoc, List.mem_append, ← h.flags,
      List.mem_singleton]
    split
    · simp [‹o.source = src›]
    · simp [Ne.symm ‹¬ o.source = src›]
  · obtain ⟨pending, source⟩ := h.held src x kept
    refine ⟨?_, source⟩
    rw [queueReport_isPending, pending, ite_self]

/-- An outcome of a source with an unconsumed record is held. -/
theorem State.RingWhile.holdOutcome {s : State} {l : List Source} (h : s.RingWhile l) (o : Outcome)
    (pending : s.isPending o.source = true) : (s.holdOutcome o).RingWhile l := by
  refine ⟨h.once, h.flags, fun src x kept => ?_, h.indices, h.writes.of_places (.of_boot rfl) rfl rfl⟩
  unfold State.holdOutcome State.heldOutcome at kept
  rw [State.withRrw_rrw, ReportRing.setHeld_get] at kept
  split at kept
  · obtain rfl : o.source = src := ‹_›
    refine ⟨pending, ?_⟩
    rw [← Option.some_inj.mp kept]
    split <;> rfl
  · exact h.held src x kept

theorem State.RingWhile.takeOutcome {s : State} {l : List Source} (h : s.RingWhile l) (o : Outcome) :
    (s.takeOutcome o).RingWhile l := by
  unfold State.takeOutcome
  split
  · exact h
  · split
    · exact h.holdOutcome o ‹_›
    · exact h.queueReport ‹_› o (Bool.eq_false_iff.mpr ‹_›)

/-! ### Records are released (R165) -/

/-- A source with no unconsumed record and nothing held. -/
def State.clearSource (s : State) (src : Source) : State :=
  s.withRrw ((s.rrw.setFlag src false).setHeld src none)

theorem clearSource_isPending (s : State) (a b : Source) :
    (s.clearSource a).isPending b = if a = b then false else s.isPending b := ReportRing.setFlag_get _ _ _ _

theorem clearSource_heldOutcome (s : State) (a b : Source) :
    (s.clearSource a).heldOutcome b = if a = b then none else s.heldOutcome b := ReportRing.setHeld_get _ _ _ _

/-- A release clears its source, and then takes the outcome that was held (R165). -/
theorem releaseSource_eq (s : State) (src : Source) : s.releaseSource src = match s.heldOutcome src with
    | none => s.clearSource src
    | some o => (s.clearSource src).takeOutcome o := by
  unfold State.releaseSource State.clearSource
  cases held : s.heldOutcome src with
  | none =>
    have still : (s.rrw.setFlag src false).setHeld src none = s.rrw.setFlag src false := by
      unfold ReportRing.setHeld
      rw [← held]
      simp [State.heldOutcome, ReportRing.setFlag]
    rw [still]
  | some o => rfl

theorem State.RingWhile.clearSource {s : State} {src : Source} {l : List Source} (h : s.RingWhile (src :: l)) :
    (s.clearSource src).RingWhile l := by
  obtain ⟨apart, once⟩ := List.nodup_cons.mp h.once
  refine ⟨once, fun other => ?_, fun other o kept => ?_, h.indices, h.writes.of_places (.of_boot rfl) rfl rfl⟩
  · rw [clearSource_isPending]
    split
    · obtain rfl : src = other := ‹_›
      exact iff_of_false Bool.false_ne_true apart
    · rw [h.flags other, List.cons_append, List.mem_cons]
      exact or_iff_right (Ne.symm ‹_›)
  · rw [clearSource_heldOutcome] at kept
    rw [clearSource_isPending]
    split at kept
    · cases kept
    · rw [if_neg ‹_›]
      exact h.held other o kept

theorem State.RingWhile.releaseSource {s : State} {src : Source} {l : List Source} (h : s.RingWhile (src :: l)) :
    (s.releaseSource src).RingWhile l := by
  rw [releaseSource_eq]
  split
  · exact h.clearSource
  · exact h.clearSource.takeOutcome _

theorem State.RingWhile.releaseAll {l : List Source} : ∀ {s : State}, s.RingWhile l →
    (l.foldl State.releaseSource s).RingWhile [] := by
  induction l with
  | nil => exact id
  | cons src l ih => exact fun h => ih h.releaseSource

/-- The part with the consumer copy replaced and C moved past k records, which are still to be released (R165). -/
def State.consumed (s : State) (copy : Word) (k : Nat) : State :=
  s.withRrw { s.rrw with
    consumerCopy := copy
    consumer := s.rrw.consumer + BitVec.ofNat 9 k
    order := s.rrw.order.drop k }

theorem consumerTaken_eq (s : State) (d : Word) (b : Strobes) {copy : Word} {k : Nat}
    (merged : copy = mergeBytes s.rrw.consumerCopy d b) (count : k = s.rrw.releasedCount (requestedIndex copy)) :
    s.consumerTaken d b = (s.rrw.order.take k).foldl State.releaseSource (s.consumed copy k) := by
  subst merged count
  rfl

/-- C moves past k records of the ring, and the order list loses as many. -/
theorem consumed_indices (p c : BitVec 9) (k : Nat) (h : k ≤ (p - c).toNat) :
    (p - c).toNat - k = (p - (c + BitVec.ofNat 9 k)).toNat := by
  have bound := (p - c).isLt
  have small : (BitVec.ofNat 9 k).toNat = k := by rw [BitVec.toNat_ofNat, Nat.mod_eq_of_lt (by omega)]
  bv_omega

theorem State.RingWhile.consumed {s : State} (h : s.RingWhile []) (copy : Word) {k : Nat}
    (written : k ≤ (s.rrw.producer - s.rrw.consumer).toNat) :
    (s.consumed copy k).RingWhile (s.rrw.order.take k) := by
  have same : s.rrw.order.take k ++ (s.consumed copy k).unconsumed = s.unconsumed := by
    show s.rrw.order.take k ++ (s.rrw.order.drop k ++ _) = _
    rw [← List.append_assoc, List.take_append_drop]
    rfl
  refine ⟨same ▸ h.once, fun src => same ▸ h.flags src, h.held, ?_, h.writes.of_places (.of_boot rfl) rfl rfl⟩
  show (s.rrw.order.drop k).length = _
  rw [List.length_drop, h.indices]
  exact consumed_indices _ _ _ written

theorem State.RingWhile.consumerTaken {s : State} (h : s.RingWhile []) (d : Word) (b : Strobes) :
    (s.consumerTaken d b).RingWhile [] := by
  rw [consumerTaken_eq s d b rfl rfl]
  exact (h.consumed _ (Nat.min_le_right _ _)).releaseAll

/-! ### A report write completes (R164) -/

/-- The report write that completes is the first of them. -/
theorem reportWrites_of_lastWord {s : State} {r : OwnRequest} (last : s.LastWordOf r) (h : r.kind.isReport = true) :
    s.reportWrites = r :: s.delivered.reportWrites := by
  unfold State.reportWrites State.requestsHeld
  rw [last.underWay]
  simp [h]

/-- No more records are unconsumed than there are sources. -/
theorem State.RingWhile.order_length {s : State} (h : s.RingWhile []) : s.rrw.order.length ≤ 257 := by
  have once : s.rrw.order.Nodup := (List.sublist_append_left _ _).nodup h.once
  simpa using once.length_le_card

theorem State.RingWhile.reportWritten {s : State} {r : OwnRequest} {src : Source} (h : s.RingWhile [])
    (last : s.LastWordOf r) (kind : r.kind = .reportWrite src) : (s.delivered.reportWritten src).RingWhile [] := by
  have writes := reportWrites_of_lastWord last (by rw [kind]; rfl)
  have unconsumed : (s.delivered.reportWritten src).unconsumed = s.unconsumed := by
    unfold State.unconsumed
    rw [writes, List.filterMap_cons_some (b := src) (by rw [kind]; rfl)]
    show s.rrw.order ++ [src] ++ _ = _
    rw [List.append_assoc]
    rfl
  refine ⟨unconsumed ▸ h.once, fun x => unconsumed ▸ h.flags x, h.held, ?_, fun rec found k x place => ?_, ?_⟩
  · have fits := h.order_length
    have count := h.indices
    show (s.rrw.order ++ [src]).length = (s.rrw.producer + 1 - s.rrw.consumer).toNat
    rw [List.length_append, List.length_singleton]
    bv_omega
  · have was : s.reportWrites[k + 1]? = some x := by rw [writes]; exact place
    have index : (s.rrw.producer + 1).toNat = (s.rrw.producer.toNat + 1) % 512 := by
      rw [BitVec.toNat_add]
      rfl
    rw [h.writes.addresses rec found (k + 1) x was]
    show _ = rec.rb + BitVec.ofNat 24 (16 * (((s.rrw.producer + 1).toNat + k) % 512))
    rw [index, Nat.mod_add_mod, Nat.add_right_comm, Nat.add_assoc]
  · have drain := h.writes.drainFirst
    rw [writes] at drain
    exact (List.pairwise_cons.mp drain).2

theorem State.RingWhile.reportDone {s : State} {r : OwnRequest} {src : Source} (h : s.RingWhile [])
    (last : s.LastWordOf r) (kind : r.kind = .reportWrite src) : (s.delivered.reportDone src).RingWhile [] := by
  have written := h.reportWritten last kind
  unfold State.reportDone
  dsimp only
  split
  · refine (ringStands_enqueue _ _ rfl).ringWhile (RingStands.ringWhile ?_ written)
    exact ⟨fun rec found => ⟨rec, found, rfl⟩, rfl, rfl⟩
  · exact written

/-! ### The choice keeps the order of the report writes (R156 to R158) -/

/-- The first element with a property, taken out of a list, was the first of those that have it. -/
theorem filter_of_find {l : List OwnRequest} {p : OwnRequest → Bool} {r : OwnRequest} (h : l.find? p = some r) :
    l.filter p = r :: (l.erase r).filter p := by
  obtain ⟨holds, before, after, rfl, none⟩ := List.find?_eq_some_iff_append.mp h
  have out : r ∉ before := fun mem => by simpa [holds] using none r mem
  have no : before.filter p = [] := List.filter_eq_nil_iff.mpr fun x mem => by simpa using none x mem
  rw [List.erase_append_right _ out, List.erase_cons_head, List.filter_append, List.filter_append, no,
    List.filter_cons_of_pos holds]
  rfl

theorem filter_erase_of_not {l : List OwnRequest} {p : OwnRequest → Bool} {r : OwnRequest} (h : p r = false) :
    (l.erase r).filter p = l.filter p := by
  by_cases mem : r ∈ l
  · obtain ⟨before, after, -, split, erased⟩ := List.exists_erase_eq mem
    rw [erased, split, List.filter_append, List.filter_append, List.filter_cons_of_neg (by simp [h])]
  · rw [List.erase_of_not_mem mem]

theorem isReport_iff (k : OwnKind) : k.isReport = true ↔ ∃ src, k = .reportWrite src := by
  cases k <;> simp [OwnKind.isReport]

/-- In RUN a report write is picked where no read waits, and is the first queued. -/
theorem find_report_of_pickRun {s : State} {r : OwnRequest} (pick : s.pickRun = some r)
    (report : r.kind.isReport = true) : s.mra.queued.find? (fun x => x.kind.isReport) = some r := by
  obtain ⟨src, kind⟩ := (isReport_iff _).mp report
  rw [pickRun_eq, Option.or_eq_some_iff, Option.or_eq_some_iff] at pick
  rcases pick with (sound | ⟨-, fetch⟩) | ⟨-, first⟩
  · obtain ⟨n, player⟩ := sound_of_mem_soundQueued (firstLeast_mem _ _ _ sound)
    rw [kind] at player
    cases player
  · have := List.find?_some fetch
    rw [kind] at this
    cases this
  · exact first

/-- In BOOT a report write that is picked is of the drain, whose writes precede the others, and is the first queued. -/
theorem find_report_of_pick_boot {l : List OwnRequest} {r : OwnRequest}
    (drainFirst : (l.filter (fun x => x.kind.isReport)).Pairwise (fun a b => b.drain = true → a.drain = true))
    (pick : l.find? (fun x => x.drain || x.kind.isBoot) = some r) (report : r.kind.isReport = true) :
    l.find? (fun x => x.kind.isReport) = some r := by
  obtain ⟨allowed, before, after, rfl, none⟩ := List.find?_eq_some_iff_append.mp pick
  obtain ⟨src, kind⟩ := (isReport_iff _).mp report
  have drain : r.drain = true := by simpa [kind, OwnKind.isBoot] using allowed
  refine List.find?_eq_some_iff_append.mpr ⟨report, before, after, rfl, fun x mem => ?_⟩
  by_contra reports
  have write : x.kind.isReport = true := by simpa using reports
  rw [List.filter_append, List.filter_cons, if_pos report] at drainFirst
  obtain ⟨-, -, ordered⟩ := List.pairwise_append.mp drainFirst
  have earlier := ordered x (List.mem_filter.mpr ⟨mem, write⟩) r List.mem_cons_self drain
  simpa [earlier] using none x mem

/-- A report write that is picked is the first queued. -/
theorem find_report_of_pick {s : State} {r : OwnRequest} (writes : s.WritesInOrder) (chosen : s.mra.chosen = none)
    (underWay : s.mra.underWay = none) (pick : s.pick = some r) (report : r.kind.isReport = true) :
    s.mra.queued.find? (fun x => x.kind.isReport) = some r := by
  unfold State.pick at pick
  split at pick
  · exact find_report_of_pickRun pick report
  · have drain := writes.drainFirst
    unfold State.reportWrites State.requestsHeld at drain
    rw [chosen, underWay] at drain
    exact find_report_of_pick_boot drain pick report
  · cases pick

theorem choose_reportWrites {s : State} (writes : s.WritesInOrder) : s.choose.reportWrites = s.reportWrites := by
  rcases choose_cases s with stands | ⟨r, -, chosen, underWay, pick, choice⟩
  · rw [stands]
  · have before : s.reportWrites = s.mra.queued.filter (fun x => x.kind.isReport) := by
      simp [State.reportWrites, State.requestsHeld, chosen, underWay]
    have after : s.choose.reportWrites = (r :: s.mra.queued.erase r).filter (fun x => x.kind.isReport) := by
      simp [choice, State.reportWrites, State.requestsHeld, underWay]
    rw [before, after, List.filter_cons]
    split
    · exact (filter_of_find (find_report_of_pick writes chosen underWay pick ‹_›)).symm
    · exact filter_erase_of_not (Bool.eq_false_iff.mpr ‹_›)

theorem State.RingWhile.choose {s : State} {l : List Source} (h : s.RingWhile l) : s.choose.RingWhile l :=
  (RingStands.of_writes (choose_boot s) (choose_rrw s) (choose_reportWrites h.writes)).ringWhile h

/-! ### Serving blocks (R154, R162) -/

theorem isReport_of_isServing (k : OwnKind) (h : k.isServing = true) : k.isReport = false := by
  unfold OwnKind.isServing at h
  simp at h
  exact h.2

theorem State.RingWhile.move {s t : State} {l : List Source} (m : Move s t) (h : s.RingWhile l) : t.RingWhile l := by
  cases m with
  | enqueue r serving _ => exact (ringStands_enqueue s r (isReport_of_isServing _ serving)).ringWhile h
  | withdraw f serving => exact (ringStands_withdraw s f serving).ringWhile h
  | outcome o j _ => exact h.takeOutcome o
  | slot | generator | tones | player | leave | append =>
    exact RingStands.ringWhile (s := s) (.of_mra rfl rfl rfl) h

theorem ringStands_startRefetch (s : State) (a : Addr) (c : Program) : RingStands s (s.startRefetch a c) := by
  have withdrawn := ringStands_withdraw s OwnKind.isRefetch fun k refetch => by
    obtain ⟨p, rfl⟩ := (isRefetch_iff k).mp refetch
    rfl
  refine withdrawn.trans (RingStands.trans ?_ (ringStands_enqueue ((s.withdraw OwnKind.isRefetch).withRefetch _) _ rfl))
  exact .of_mra rfl rfl rfl

theorem State.RingWhile.refetchDone {s : State} {l : List Source} (h : s.RingWhile l) (c : Program)
    (g : Option Generation) (ws : List Word) : (s.refetchDone c g ws).RingWhile l := by
  unfold State.refetchDone
  split
  · dsimp only
    split
    · exact RingStands.ringWhile (s := s) (.of_mra rfl rfl rfl) h
    · refine State.RingWhile.takeOutcome ?_ _
      exact RingStands.ringWhile (s := s) (.of_mra rfl rfl rfl) h
  · exact h

/-! ### The boot sequence (R16 to R22, R167) -/

theorem ringStands_withBoot (s : State) (b : BootLoader) (accepted : b.accepted = s.boot.accepted) :
    RingStands s (s.withBoot b) := ⟨fun rec found => ⟨rec, accepted ▸ found, rfl⟩, rfl, rfl⟩

/-- A stage of the boot is entered, and the boot's next request queued. -/
theorem ringStands_bootNext (s : State) (b : BootLoader) (r : OwnRequest) (accepted : b.accepted = s.boot.accepted)
    (h : r.kind.isReport = false) : RingStands s ((s.withBoot b).enqueue r) :=
  (ringStands_withBoot s b accepted).trans (ringStands_enqueue _ r h)

theorem ringStands_recordRead (s : State) (g : Option Generation) (ws : List Word) :
    RingStands s (s.recordRead g ws) := by
  unfold State.recordRead
  split
  · dsimp only
    split <;> exact ringStands_bootNext s _ _ rfl rfl
  · exact .of_mra rfl rfl rfl

theorem ringStands_congestionFetched (s : State) (g : Option Generation) (ws : List Word) :
    RingStands s (s.congestionFetched g ws) := by
  unfold State.congestionFetched
  split
  · exact .of_mra rfl rfl rfl
  · split
    · split
      · exact ringStands_bootNext s _ _ rfl rfl
      · dsimp only
        split <;> exact ringStands_bootNext s _ _ rfl rfl
    · exact .of_mra rfl rfl rfl

theorem ringStands_recordCleared (s : State) (k : Nat) : RingStands s (s.recordCleared k) := by
  unfold State.recordCleared
  split
  · exact .of_mra rfl rfl rfl
  · split <;> exact ringStands_bootNext s _ _ rfl rfl

/-- An empty ring with no report write is lawful. -/
theorem ringWhile_of_empty {s : State} (rrw : s.rrw = ReportRing.reset) (writes : s.reportWrites = []) :
    s.RingWhile [] := by
  have empty : s.unconsumed = [] := by
    unfold State.unconsumed
    rw [rrw, writes]
    rfl
  refine ⟨by rw [empty]; exact .nil, fun src => ?_, fun src o kept => ?_, by rw [rrw]; rfl,
    fun _ _ k r place => ?_, ?_⟩
  · rw [restarted_isPending s rrw, empty]
    simp
  · rw [restarted_heldOutcome s rrw] at kept
    cases kept
  · rw [writes] at place
    cases place
  · rw [writes]
    exact .nil

/-- The ring that the entry to RUN leaves: restarted where it moves, and the accepted one otherwise (R21, R167). -/
theorem State.RingWhile.enterRun {s : State} (h : s.RingWhile []) (idle : s.mra.underWay = none) :
    s.enterRun.RingWhile [] := by
  unfold State.enterRun
  split
  · exact h
  · rename_i w _
    dsimp only
    have bound : ∀ (u : State) (c : Program) (x : Option ToneCopy), (u.bindCongestion c x).rrw = u.rrw := by
      intro u c x
      cases x <;> rfl
    refine State.RingWhile.takeOutcome ?_ _
    split
    · refine ringWhile_of_empty (bound _ _ _) ?_
      rw [reportWrites_of_mra (bindCongestion_eq _ _ _).2]
      exact restartRing_reportWrites s idle
    · rename_i stands
      refine RingStands.ringWhile (s := s) ⟨fun rec found => ?_, bound _ _ _, ?_⟩ h
      · rw [(bindCongestion_eq _ _ _).1] at found
        obtain rfl : w = rec := Option.some_inj.mp found
        unfold BootLoader.ringMoves at stands
        split at stands
        · exact absurd rfl stands
        · exact ⟨_, ‹_›, by simpa using stands⟩
      · exact congrArg (List.map OwnRequest.place) (reportWrites_of_mra (bindCongestion_eq _ _ _).2)

/-! ### Reloads (R16, R160, R167) -/

theorem stopped_reportWrites (s : State) : s.stopped.reportWrites = s.drainWrites :=
  (congrArg (List.filter _) (stopped_requestsHeld s)).trans (drainWrites_filter s)

/-- A reload discards the held outcomes and marks the report writes, and leaves the ring else. -/
theorem State.RingWhile.stopped {s : State} (h : s.RingWhile []) : s.stopped.RingWhile [] := by
  have unconsumed : s.stopped.unconsumed = s.unconsumed := by
    unfold State.unconsumed
    rw [stopped_reportWrites, State.drainWrites, List.filterMap_map]
    rfl
  refine ⟨unconsumed ▸ h.once, fun src => unconsumed ▸ h.flags src, fun src o kept => ?_, h.indices,
    fun rec found k r place => ?_, ?_⟩
  · have none : s.stopped.heldOutcome src = none := Vector.getElem_replicate _
    rw [none] at kept
    cases kept
  · rw [stopped_reportWrites, State.drainWrites, List.getElem?_map, Option.map_eq_some_iff] at place
    obtain ⟨x, was, rfl⟩ := place
    exact h.writes.addresses rec found k x was
  · rw [stopped_reportWrites, State.drainWrites, List.pairwise_map]
    exact h.writes.drainFirst.imp fun _ _ => rfl

theorem State.RingWhile.reload {s : State} (h : s.RingWhile []) : s.reload.RingWhile [] := by
  by_cases none : s.reportWrites = []
  · rw [reload_loading s none]
    exact (ringStands_bootNext _ _ _ (by rfl) (by rfl)).ringWhile h.stopped
  · rw [reload_drain s none]
    exact (ringStands_withBoot _ _ (by rfl)).ringWhile h.stopped

/-! ### Every step -/

/-- Every change of the part keeps the laws of the report ring. -/
theorem Change.ringWhile {s t : State} (c : Change s t) (h : s.RingWhile []) : t.RingWhile [] := by
  have stand : ∀ {u : State}, RingStands s u → u.RingWhile [] := fun stands => stands.ringWhile h
  cases c with
  | serving event => exact event.moves.keeps (fun _ _ => State.RingWhile.move) h
  | pending | bus | pairing | fm => exact stand (.of_mra rfl rfl rfl)
  | device o _ => exact h.takeOutcome o
  | startRefetch a c => exact stand (ringStands_startRefetch s a c)
  | refetch c g ws => exact h.refetchDone c g ws
  | choose => exact h.choose
  | start r chosen underWay =>
    refine stand (.of_writes rfl rfl ?_)
    simp [State.reportWrites, State.requestsHeld, chosen, underWay]
  | underWay r x underWay kind addr drain =>
    refine stand ⟨.of_boot rfl, rfl, ?_⟩
    have place : x.place = r.place := by rw [OwnRequest.place, kind, addr, drain]; rfl
    unfold State.writePlaces State.reportWrites State.requestsHeld
    rw [underWay]
    simp only [State.withMra_mra, Option.toList_some, List.cons_append, List.filter_cons, kind]
    split
    · rw [List.map_cons, List.map_cons, place]
    · rfl
  | delivered r last serving => exact stand (ringStands_delivered last (isReport_of_isServing _ serving))
  | report r src last kind => exact h.reportDone last kind
  | loading r last kind =>
    exact stand ((ringStands_delivered last (by rw [kind]; rfl)).trans (ringStands_bootNext _ _ _ rfl rfl))
  | record r ws last kind =>
    exact stand ((ringStands_delivered last (by rw [kind]; rfl)).trans (ringStands_recordRead _ _ _))
  | congestion r ws last kind =>
    exact stand ((ringStands_delivered last (by rw [kind]; rfl)).trans (ringStands_congestionFetched _ _ _))
  | cleared r n last kind =>
    exact stand ((ringStands_delivered last (by rw [kind]; rfl)).trans (ringStands_recordCleared _ _))
  | run r last kind => exact (stand (ringStands_delivered last (by rw [kind]; rfl))).enterRun rfl
  | bypass r c last kind _ =>
    exact stand ((ringStands_delivered last (by rw [kind]; rfl)).trans (ringStands_withBoot _ _ rfl))
  | consumer d b _ _ => exact h.consumerTaken d b
  | reload => exact h.reload
  | reset b => exact (ringWhile_nil_iff _).mpr ⟨released_ringLaw b _, released_writesInOrder b _⟩

/-- Settles O60: every change keeps the laws of the ring, in the form that also holds amid a release. -/
theorem reportRingKept : Obligations.ReportRingKept := by
  intro s t ring writes run
  exact (ringWhile_nil_iff t).mp
    (step_keeps (fun _ _ => Change.ringWhile) s t run ((ringWhile_nil_iff s).mpr ⟨ring, writes⟩))

end Sys2Proof.Machine

namespace Sys2Proof.Machine

/-! ### One record is released (R165) -/

/-- Where nothing is held behind a record its release clears the source alone. -/
theorem releaseSource_none {s : State} {src : Source} (held : s.heldOutcome src = none) :
    s.releaseSource src = s.clearSource src := by
  rw [releaseSource_eq, held]

/-- The outcome held behind a record is queued at the release of the record (R165). -/
theorem releaseSource_some {s : State} {src : Source} {o : Outcome} {rec : BootRecord}
    (held : s.heldOutcome src = some o) (source : o.source = src) (accepted : s.boot.accepted = some rec) :
    s.releaseSource src = (s.clearSource src).queueReport rec.rb o := by
  have free : ¬ (s.clearSource src).isPending o.source = true := by
    rw [clearSource_isPending, if_pos source.symm]
    exact Bool.false_ne_true
  have taken : (s.clearSource src).boot.accepted = some rec := accepted
  rw [releaseSource_eq, held]
  unfold State.takeOutcome
  simp only [taken, if_neg free]

/-- A release changes the request queue and the report ring alone, and nothing that is under way. -/
theorem releaseSource_frame (s : State) (src : Source) : ∃ m x, s.releaseSource src = (s.withMra m).withRrw x := by
  rw [releaseSource_eq]
  split
  · exact ⟨s.mra, _, rfl⟩
  · obtain ⟨m, x, taken, -⟩ := takeOutcome_frame (s.clearSource src) ‹_›
    exact ⟨m, x, taken⟩

/-- What no release changes of the ring: its indices, phase, order list and consumer copy. -/
def ReportRing.course (x : ReportRing) : BitVec 9 × BitVec 9 × Bool × List Source × Word :=
  (x.producer, x.consumer, x.phase, x.order, x.consumerCopy)

theorem releaseSource_course (s : State) (src : Source) : (s.releaseSource src).rrw.course = s.rrw.course := by
  rw [releaseSource_eq]
  split
  · rfl
  · obtain ⟨producer, consumer, phase, order, copy, -⟩ := takeOutcome_ring (s.clearSource src) ‹_›
    unfold ReportRing.course
    rw [producer, consumer, phase, order, copy]
    rfl

/-- The outcomes held behind the records of a list, one for each. -/
def State.heldBehind (s : State) (l : List Source) : List Source := l.filter (fun x => (s.heldOutcome x).isSome)

/-- The outcomes held behind these sources are their own (R163). -/
def State.HoldsOwn (s : State) (l : List Source) : Prop := ∀ x ∈ l, ∀ o, s.heldOutcome x = some o → o.source = x

/-- For another source, a release is the queuing of a record where one was held. -/
theorem calmBut_releaseSource {s : State} {a src : Source} (other : a ≠ src) (own : s.HoldsOwn [a]) :
    CalmBut (s.heldBehind [a]).length src s (s.releaseSource a) := by
  have cleared : CalmBut 0 src s (s.clearSource a) :=
    ⟨⟨rfl, (clearSource_isPending s a src).trans (if_neg other),
      (clearSource_heldOutcome s a src).trans (if_neg other), fun _ _ waits => waits⟩, rfl, rfl, fun _ => rfl⟩
  cases held : s.heldOutcome a with
  | none =>
    rw [releaseSource_none held]
    simpa [State.heldBehind, held] using cleared
  | some o =>
    have source : o.source = a := own a List.mem_cons_self o held
    have free : (s.clearSource a).isPending o.source = false :=
      (clearSource_isPending s a o.source).trans (if_pos source.symm)
    have taken := cleared.trans (calmBut_takeOutcome src (s.clearSource a) o (source ▸ other))
    rw [releaseSource_eq, held]
    simpa [State.heldBehind, held, free] using taken

/-! ### The records of a list are released, oldest first (R165) -/

theorem heldBehind_congr {s t : State} {l : List Source} (h : ∀ x ∈ l, t.heldOutcome x = s.heldOutcome x) :
    t.heldBehind l = s.heldBehind l := List.filter_congr fun x mem => by rw [h x mem]

theorem State.HoldsOwn.congr {s t : State} {l : List Source} (own : s.HoldsOwn l)
    (h : ∀ x ∈ l, t.heldOutcome x = s.heldOutcome x) : t.HoldsOwn l :=
  fun x mem o held => own x mem o ((h x mem).symm.trans held)

/-- For a source not among them, the releases queue one record for each outcome held behind the others. -/
theorem calmBut_releaseAll {src : Source} {l : List Source} : ∀ {s : State}, l.Nodup → src ∉ l → s.HoldsOwn l →
    CalmBut (s.heldBehind l).length src s (l.foldl State.releaseSource s) := by
  induction l with
  | nil => exact fun _ _ _ => ⟨.refl src _, rfl, rfl, fun _ => rfl⟩
  | cons a l ih =>
    intro s once apart own
    obtain ⟨last, once⟩ := List.nodup_cons.mp once
    obtain ⟨other, apart⟩ := not_or.mp (mt List.mem_cons.mpr apart)
    have first : s.HoldsOwn [a] := fun x mem => own x (List.mem_cons.mpr (.inl (List.mem_singleton.mp mem)))
    have kept : ∀ x ∈ l, (s.releaseSource a).heldOutcome x = s.heldOutcome x := fun x mem =>
      (calmBut_releaseSource (fun e : a = x => last (e ▸ mem)) first).calm.held
    have rest := ih once apart (State.HoldsOwn.congr (fun x mem => own x (List.mem_cons_of_mem a mem)) kept)
    rw [heldBehind_congr kept] at rest
    have total : (s.heldBehind (a :: l)).length = (s.heldBehind [a]).length + (s.heldBehind l).length := by
      unfold State.heldBehind
      rw [← List.length_append, ← List.filter_append]
      rfl
    rw [total]
    exact (calmBut_releaseSource (Ne.symm other) first).trans rest

/-- A source in the midst of a list is released after those before it, and the releases after it leave it. -/
theorem releaseAll_at {s : State} {before after : List Source} {src : Source} (once : (before ++ src :: after).Nodup)
    (own : s.HoldsOwn (before ++ src :: after)) :
    ∃ t, CalmBut (s.heldBehind before).length src s t ∧
      Calm src (t.releaseSource src) ((before ++ src :: after).foldl State.releaseSource s) := by
  obtain ⟨earlier, rest, apart⟩ := List.nodup_append.mp once
  obtain ⟨last, later⟩ := List.nodup_cons.mp rest
  let t := before.foldl State.releaseSource s
  have passed : ∀ x ∈ src :: after, CalmBut (s.heldBehind before).length x s t := fun x mem =>
    calmBut_releaseAll earlier (fun there => apart x there x mem rfl)
      fun y there => own y (List.mem_append_left _ there)
  have ownRest : t.HoldsOwn (src :: after) :=
    State.HoldsOwn.congr (fun x mem => own x (List.mem_append_right _ mem)) fun x mem => (passed x mem).calm.held
  have ownHere : t.HoldsOwn [src] := fun x mem => ownRest x (List.mem_singleton.mp mem ▸ List.mem_cons_self)
  have ownAfter : (t.releaseSource src).HoldsOwn after :=
    State.HoldsOwn.congr (fun x mem => ownRest x (List.mem_cons_of_mem _ mem)) fun x mem =>
      (calmBut_releaseSource (fun e : src = x => last (e ▸ mem)) ownHere).calm.held
  refine ⟨t, passed src List.mem_cons_self, ?_⟩
  rw [List.foldl_append, List.foldl_cons]
  exact (calmBut_releaseAll later last ownAfter).calm

/-- A released source with nothing held behind its record is no longer flagged. -/
theorem releaseAll_cleared {s : State} {l : List Source} {src : Source} (once : l.Nodup) (own : s.HoldsOwn l)
    (mem : src ∈ l) (held : s.heldOutcome src = none) :
    (l.foldl State.releaseSource s).isPending src = false := by
  obtain ⟨before, after, rfl⟩ := List.append_of_mem mem
  obtain ⟨t, earlier, later⟩ := releaseAll_at once own
  rw [later.pend, releaseSource_none (earlier.calm.held.trans held), clearSource_isPending, if_pos rfl]

/-- The i-th member of the part of a list with a property has i such members before it in the list. -/
theorem split_of_filter_getElem {l : List Source} {p : Source → Bool} {i : Nat} {src : Source}
    (h : (l.filter p)[i]? = some src) : ∃ before after, l = before ++ src :: after ∧ (before.filter p).length = i := by
  obtain ⟨inside, here⟩ := List.getElem?_eq_some_iff.mp h
  have parts : l.filter p = (l.filter p).take i ++ src :: (l.filter p).drop (i + 1) := by
    rw [← here, List.cons_getElem_drop_succ, List.take_append_drop]
  obtain ⟨front, back, rfl, first, rest⟩ := List.filter_eq_append_iff.mp parts
  obtain ⟨gap, after, rfl, none, -, -⟩ := List.filter_eq_cons_iff.mp rest
  refine ⟨front ++ gap, after, (List.append_assoc ..).symm, ?_⟩
  rw [List.filter_append, List.filter_eq_nil_iff.mpr none, List.append_nil, first, List.length_take]
  omega

/-- The i-th outcome held behind released records takes the i-th index after those of the writes (R163, R165). -/
theorem releaseAll_requeued {s : State} {l : List Source} {src : Source} {i : Nat} {o : Outcome} {rec : BootRecord}
    (once : l.Nodup) (own : s.HoldsOwn l) (accepted : s.boot.accepted = some rec)
    (place : (s.heldBehind l)[i]? = some src) (held : s.heldOutcome src = some o) :
    (l.foldl State.releaseSource s).isPending src = true ∧
      (l.foldl State.releaseSource s).heldOutcome src = none ∧ WaitsAt s (l.foldl State.releaseSource s) rec i o := by
  obtain ⟨before, after, rfl, count⟩ := split_of_filter_getElem place
  obtain ⟨t, earlier, later⟩ := releaseAll_at once own
  have source : o.source = src := own src (List.mem_append_right _ List.mem_cons_self) o held
  have writes : t.reportsHeld = s.reportsHeld + i :=
    (earlier.queued (by rw [accepted]; rfl)).trans (by rw [← count]; rfl)
  have queued := releaseSource_some (earlier.calm.held.trans held) source (by rw [earlier.calm.boot]; exact accepted)
  rw [queued] at later
  refine ⟨?_, ?_, _, later.wait _ rfl (.inl (List.mem_append_right _ List.mem_cons_self)), rfl, ?_, ?_⟩
  · rw [later.pend, queueReport_isPending, if_pos source]
  · rw [later.held]
    exact (clearSource_heldOutcome t src src).trans (if_pos rfl)
  · rw [← earlier.producer, Nat.add_assoc, ← writes]
    rfl
  · rw [← earlier.producer, ← earlier.phase, Nat.add_assoc, ← writes]
    rfl

/-! ### A store to the consumer word (R4, R165) -/

theorem releaseAll_frame (l : List Source) : ∀ s : State, ∃ m x,
    l.foldl State.releaseSource s = (s.withMra m).withRrw x := by
  induction l with
  | nil => exact fun s => ⟨s.mra, s.rrw, rfl⟩
  | cons a l ih =>
    intro s
    obtain ⟨m, x, first⟩ := releaseSource_frame s a
    obtain ⟨n, y, rest⟩ := ih (s.releaseSource a)
    refine ⟨n, y, ?_⟩
    rw [List.foldl_cons, rest, first]
    rfl

/-- A store to the consumer word changes the request queue and the report ring alone. -/
theorem consumerTaken_frame (s : State) (d : Word) (b : Strobes) : ∃ m x,
    s.consumerTaken d b = (s.withMra m).withRrw x := by
  obtain ⟨m, x, frame⟩ := releaseAll_frame _ (s.consumed _ _)
  refine ⟨m, x, ?_⟩
  rw [consumerTaken_eq s d b rfl rfl, frame]
  rfl

/-- Of the blocks in turn one alone takes a store that the others leave, once, wherever its turn comes (R4; log 10). -/
theorem takeStores_once {s : State} {q : Request} {data : Word} {x : StoreTaker}
    (others : ∀ t y, t.boot = s.boot → y ≠ x → State.takeStore q data t y = t)
    (boot : (State.takeStore q data s x).boot = s.boot) (l : List StoreTaker) (once : l.count x = 1) :
    l.foldl (State.takeStore q data) s = State.takeStore q data s x := by
  have untaken : ∀ (l : List StoreTaker) (t : State), l.count x = 0 → t.boot = s.boot →
      l.foldl (State.takeStore q data) t = t := fun l t none boot =>
    foldl_still _ t l fun y mem => others t y boot fun e => List.count_eq_zero.mp none (e ▸ mem)
  obtain ⟨before, after, rfl⟩ := List.append_of_mem (List.count_pos_iff.mp (by omega : 0 < l.count x))
  rw [List.count_append, List.count_cons_self] at once
  rw [List.foldl_append, List.foldl_cons, untaken before s (by omega) rfl]
  exact untaken after _ (by omega) boot

/-- A store to the consumer word, in no other watched range, is taken by the Report Ring Writer (R4). -/
theorem takeStores_consumer (s : State) (q : Request) (data : Word) (consumer : s.isConsumerWord q.addr = true)
    (entry : s.connectionEntry q.addr = none) (program : s.programAt q.addr = none) (l : List StoreTaker)
    (once : l.count .consumer = 1) :
    l.foldl (State.takeStore q data) s = s.consumerTaken data q.strobes := by
  have taken : State.takeStore q data s .consumer = s.consumerTaken data q.strobes := if_pos consumer
  have stands := (bootStands_consumerTaken s data q.strobes).boot
  rw [takeStores_once (fun t y boot other => ?_) (by rw [taken]; exact stands) l once, taken]
  have outside : t.programAt q.addr = none := by
    rw [← program]
    unfold State.programAt State.ranges
    rw [boot]
  unfold State.takeStore
  cases y with
  | connection => simp only [(connectionEntry_of_boot boot _).trans entry]
  | program => simp only [outside]
  | consumer => exact absurd rfl other

/-- Whichever command brings it, memory's acceptance of a store to the consumer word ends the store and is taken by the
Report Ring Writer. -/
theorem exec_consumer_store {s : State} {q : Request} {data : Word} {c : Instr} (hc : IsAcceptance c)
    (settled : s.Settled) (port : s.StoreOnPort q data) (consumer : s.isConsumerWord q.addr = true)
    (entry : s.connectionEntry q.addr = none) (program : s.programAt q.addr = none)
    (command : s.isCommandWord q.addr = false) :
    ∃ b, exec c s = .next ((s.withBus b).consumerTaken data q.strobes).finish ∧
      Ended s ((s.withBus b).consumerTaken data q.strobes).finish q.master .stored := by
  obtain ⟨l, accepts, order⟩ := acceptance_eq s q data c hc settled port
  obtain ⟨b, hb⟩ : ∃ b, s.freePort.endTo q.master .stored = s.withBus b := ⟨_, endTo_frame _ _ _⟩
  have other : ¬ (s.withBus b).isCommandWord q.addr = true := fun h => Bool.false_ne_true (command.symm.trans h)
  have taken := takeStores_consumer (s.withBus b) q data consumer entry program l
    ((order.count_eq .consumer).trans (by decide))
  unfold State.storeAccepted at accepts
  dsimp only at accepts
  rw [hb, if_neg other, taken] at accepts
  obtain ⟨m, x, frame⟩ := consumerTaken_frame (s.withBus b) data q.strobes
  refine ⟨b, accepts, ended_finish ?_⟩
  rw [hb, frame]
  rfl

/-- A word is known by its bytes (R1). -/
theorem word_ext {v w : Word} (low : lowByte v = lowByte w) (high : highByte v = highByte w) : v = w := by
  have l := congrArg BitVec.toNat low
  have h := congrArg BitVec.toNat high
  rw [lowByte_toNat, lowByte_toNat] at l
  rw [highByte_toNat, highByte_toNat] at h
  exact BitVec.eq_of_toNat_eq (by omega)

/-- Settles O16: the store is the release of the records up to the requested index, each as the lemmas above say. -/
theorem consumerStoreTaken : Obligations.ConsumerStoreTaken := by
  intro s q data copy c rec k hc settled port accepted consumer entry program command law low high count
  obtain ⟨b, accepts, ended⟩ := exec_consumer_store hc settled port consumer entry program command
  obtain ⟨m, x, frame⟩ := consumerTaken_frame (s.withBus b) data q.strobes
  have merged : copy = mergeBytes s.rrw.consumerCopy data q.strobes :=
    word_ext (low.trans (lowByte_wordOf _ _).symm) (high.trans (highByte_wordOf _ _).symm)
  have released := consumerTaken_eq (s.withBus b) data q.strobes merged count
  have once : (s.rrw.order.take k).Nodup :=
    ((List.take_sublist _ _).trans (List.sublist_append_left _ _)).nodup law.once
  have own : ((s.withBus b).consumed copy k).HoldsOwn (s.rrw.order.take k) :=
    fun src _ o held => (law.held src o held).2
  have course : ((s.withBus b).consumerTaken data q.strobes).rrw.course =
      ((s.withBus b).consumed copy k).rrw.course := by
    rw [released]
    exact foldl_kept (fun t : State => t.rrw.course) _ releaseSource_course _ _
  simp only [ReportRing.course, Prod.mk.injEq] at course
  obtain ⟨producer, indices, phase, order, copied⟩ := course
  refine ⟨_, accepts, ended, ControlUnchanged.finish (by rw [frame]; exact ⟨rfl, rfl, rfl, rfl⟩), ?_, ?_, ?_, ?_, ?_,
    ?_, ?_, ?_, ?_, ?_, fun src mem held => ?_, fun i src o place held => ?_, fun src apart => ?_, ?_⟩
  · rw [finish_slots, frame]; rfl
  · rw [finish_gens, frame]; rfl
  · rw [finish_refetch, frame]; rfl
  · rw [finish_players, frame]; rfl
  · rw [finish_queue, frame]; rfl
  · rw [finish_rrw]; exact copied
  · rw [finish_rrw]; exact indices
  · rw [finish_rrw]; exact producer
  · rw [finish_rrw]; exact phase
  · rw [finish_rrw]; exact order
  · rw [finish_isPending, released]
    exact releaseAll_cleared once own mem held
  · obtain ⟨pending, empty, waits⟩ := releaseAll_requeued once own accepted place held
    unfold WaitsAt at *
    simp only [finish_isPending, finish_heldOutcome, finish_waiting]
    rw [released]
    exact ⟨pending, empty, waits⟩
  · have calm := (calmBut_releaseAll once apart own).calm
    rw [finish_isPending, finish_heldOutcome, released]
    exact ⟨calm.pend, calm.held⟩
  · unfold State.attn
    rw [bne_iff_ne]

end Sys2Proof.Machine

namespace Sys2Proof.Machine

/-! ### REPORT_WRITE_COMPLETE (R16, R164) -/

theorem exec_reportWriteComplete {s : State} {r : OwnRequest} {src : Source} (h : s.Settled) (last : s.LastWordOf r)
    (kind : r.kind = .reportWrite src) :
    exec .reportWriteComplete s = .next (s.delivered.reportDone src).finish :=
  congrArg Host.Outcome.next (takeEnds_complete h last (by simp only [OwnRequest.advance_kind, kind]))

/-- The drain is over where the write that completes was the last of it (R16). -/
theorem reportDone_drained (s : State) (src : Source) (stage : s.boot.stage = some .drain)
    (drained : s.drainLeft = false) : s.reportDone src = ((s.reportWritten src).withBoot
      { s.boot with stage := some .loading }).enqueue (statusRequest s.boot.bootsel .loading) := if_pos ⟨stage, drained⟩

/-- Anywhere else the completion of a report write leads to no stage of the boot. -/
theorem reportDone_undrained (s : State) (src : Source) (h : s.boot.stage ≠ some .drain ∨ s.drainLeft = true) :
    s.reportDone src = s.reportWritten src := by
  refine if_neg fun ⟨stage, drained⟩ => ?_
  rcases h with h | h
  · exact h stage
  · exact Bool.false_ne_true (drained.symm.trans h)

/-- Beside the Boot Loader and the request queue, the completion of a report write is the ring's. -/
theorem reportDone_frame (s : State) (src : Source) : ∃ b m,
    s.reportDone src = ((s.reportWritten src).withBoot b).withMra m ∧ m.underWay = s.mra.underWay := by
  refine ⟨(s.reportDone src).boot, (s.reportDone src).mra, ?_, ?_⟩ <;> unfold State.reportDone <;> dsimp only <;>
    split <;> rfl

/-- Settles O53: the ring and the frame in every case, and the drain's end where no write of it is left. -/
theorem reportWriteTaken : Obligations.ReportWriteTaken := by
  intro s r src settled last kind
  obtain ⟨b, m, frame, underWay⟩ := reportDone_frame s.delivered src
  have ring : (s.delivered.reportDone src).finish.rrw = (s.delivered.reportWritten src).rrw := by
    rw [finish_rrw, frame]
    rfl
  refine ⟨_, exec_reportWriteComplete settled last kind, ?_, ?_, ?_, ?_, ?_, ?_, ring, ?_, fun undrained => ?_,
    fun stage drained => ?_⟩
  · refine completed_finish ?_ ?_ ?_ ?_ ?_ <;> rw [frame]
    · rfl
    · rfl
    · rfl
    · rfl
    · exact underWay
  · rw [finish_slots, frame]; rfl
  · rw [finish_gens, frame]; rfl
  · rw [finish_refetch, frame]; rfl
  · rw [finish_players, frame]; rfl
  · rw [finish_queue, frame]; rfl
  · unfold State.attn
    rw [ring, bne_iff_ne]
    rfl
  · have left : s.boot.stage ≠ some .drain ∨ s.delivered.drainLeft = true :=
      undrained.imp_right List.any_eq_true.mpr
    rw [finish_boot, reportDone_undrained _ src left]
    exact ⟨rfl, finish_requestsHeld _⟩
  · have none : s.delivered.drainLeft = false := List.any_eq_false.mpr fun q held => by simp [drained q held]
    rw [finish_boot, reportDone_drained s.delivered src stage none]
    exact ⟨rfl, statusRequest s.boot.bootsel .loading,
      (finish_requestsHeld _).trans (.of_eq (List.append_assoc _ _ _).symm), rfl, rfl, rfl⟩

end Sys2Proof.Machine

namespace Sys2Proof.Machine

/-! ### Report records (R175, R176) -/

/-- The bits of a record's flags byte (Table 13-6). -/
theorem flags_bits (o : Outcome) : o.flags.getLsbD 0 = o.impaired ∧ o.flags.getLsbD 1 = o.faulted ∧
    o.flags.getLsbD 2 = o.superseded ∧ o.flags.toNat < 8 := by
  unfold Outcome.flags
  generalize o.impaired = impaired, o.faulted = faulted, o.superseded = superseded
  revert impaired faulted superseded
  decide

theorem wordOfNat_toNat {n : Nat} (h : n < 65536) : (wordOfNat n).toNat = n :=
  (BitVec.toNat_ofNat n 16).trans (Nat.mod_eq_of_lt h)

/-- A frame count is its high word and then its low word. -/
theorem frame_words (f : Frame) : f.extractLsb' 16 16 ++ f.extractLsb' 0 16 = f := by
  refine BitVec.eq_of_toNat_eq ?_
  have bound := f.isLt
  rw [BitVec.toNat_append, BitVec.extractLsb'_toNat, BitVec.extractLsb'_toNat,
    ← Nat.shiftLeft_add_eq_or_of_lt (Nat.mod_lt _ (by decide))]
  simp only [Nat.shiftLeft_eq, Nat.shiftRight_eq_div_pow]
  omega

/-- The words of a record, by their offsets (Table 13-6). -/
theorem recordWords_words (o : Outcome) (phase : Bool) :
    wordAt (recordWords o phase) 0 = wordOf o.flags o.kind.code ∧
    wordAt (recordWords o phase) 2 = wordOfNat o.source.val ∧
    wordAt (recordWords o phase) 4 = wordOfNat o.program.val ∧ wordAt (recordWords o phase) 6 = o.detail ∧
    wordAt (recordWords o phase) 8 = o.stamp.extractLsb' 0 16 ∧
    wordAt (recordWords o phase) 10 = o.stamp.extractLsb' 16 16 ∧
    wordAt (recordWords o phase) 12 = o.underruns ∧
    wordAt (recordWords o phase) 14 = if phase then 1 else 0 := ⟨rfl, rfl, rfl, rfl, rfl, rfl, rfl, rfl⟩

theorem recordWords_kind (o : Outcome) (phase : Bool) : byteAt (recordWords o phase) 0 = o.kind.code :=
  lowByte_wordOf o.flags o.kind.code

theorem recordWords_flags (o : Outcome) (phase : Bool) : byteAt (recordWords o phase) 1 = o.flags :=
  highByte_wordOf o.flags o.kind.code

/-- Settles O30: each word of a record by its offset, and the numbers of the codes by evaluation. -/
theorem reportRecordLayout : Obligations.ReportRecordLayout := by
  refine ⟨fun o phase => ?_, rfl, rfl, rfl, rfl, fun _ => rfl, rfl⟩
  obtain ⟨-, source, program, detail, low, high, underruns, lap⟩ := recordWords_words o phase
  obtain ⟨impaired, faulted, superseded, small⟩ := flags_bits o
  have sources := o.source.isLt
  have programs := o.program.isLt
  rw [recordWords_flags, source, program, low, high]
  exact ⟨rfl, recordWords_kind o phase, impaired, faulted, superseded, small, wordOfNat_toNat (by omega),
    wordOfNat_toNat (by omega), detail, frame_words o.stamp, underruns, lap⟩

end Sys2Proof.Machine

namespace Sys2Proof.Machine

/-! ### The queue of commands is no command's to change -/

theorem recordRead_pending (s : State) (g : Option Generation) (ws : List Word) :
    (s.recordRead g ws).pending = s.pending := by
  unfold State.recordRead
  split
  · dsimp only
    split <;> rfl
  · rfl

theorem congestionFetched_pending (s : State) (g : Option Generation) (ws : List Word) :
    (s.congestionFetched g ws).pending = s.pending := by
  unfold State.congestionFetched
  split
  · rfl
  · split
    · split
      · rfl
      · dsimp only
        split <;> rfl
    · rfl

theorem recordCleared_pending (s : State) (k : Nat) : (s.recordCleared k).pending = s.pending := by
  unfold State.recordCleared
  split
  · rfl
  · split <;> rfl

theorem enterRun_pending (s : State) : s.enterRun.pending = s.pending := by
  unfold State.enterRun
  split
  · rfl
  · dsimp only
    refine (takeOutcome_pending _ _).trans ?_
    cases s.boot.congestionCopy <;> dsimp only [State.bindCongestion] <;> split <;> rfl

theorem refetchDone_pending (s : State) (c : Program) (g : Option Generation) (ws : List Word) :
    (s.refetchDone c g ws).pending = s.pending := by
  unfold State.refetchDone
  split
  · dsimp only
    split
    · rfl
    · exact takeOutcome_pending _ _
  · rfl

theorem reportDone_pending (s : State) (src : Source) : (s.reportDone src).pending = s.pending := by
  obtain ⟨b, m, frame, -⟩ := reportDone_frame s src
  rw [frame]
  rfl

/-- A completion leaves the queue of commands where its delivery does. -/
theorem complete_pending (s : State) (d : Word) (f : OwnRequest → State → Option State)
    (h : ∀ r t u, f r t = some u → u.pending = t.pending) : (s.complete d f).pending = s.pending := by
  rcases complete_cases s d f with e | ⟨r, u, -, delivers, e⟩
  · rw [e]
  · rw [e, finish_pending, h _ _ u delivers, delivered_pending]

theorem programTaken_pending (s : State) (p : Program) : (s.programTaken p).pending = s.pending := by
  rw [programTaken_eq, (refetchFor_only _ p).control.pending]
  exact (staled_staled s p).control.pending

theorem takeStore_pending (r : Request) (d : Word) (s : State) (x : StoreTaker) :
    (State.takeStore r d s x).pending = s.pending := by
  cases x <;> dsimp only [State.takeStore] <;> split
  · exact (moves_connectionTaken _ _ _ _).servingOnly.pending
  · rfl
  · exact programTaken_pending _ _
  · rfl
  · obtain ⟨m, x, frame⟩ := consumerTaken_frame s d r.strobes
    rw [frame]
    rfl
  · rfl

theorem endTo_pending (s : State) (m : Master) (e : Ending) : (s.freePort.endTo m e).pending = s.pending := by
  rw [endTo_frame, State.withBus_pending]

theorem storeAccepted_pending (s : State) (r : Request) (d : Word) (l : List StoreTaker) :
    (s.storeAccepted r d l).pending = s.pending := by
  unfold State.storeAccepted
  dsimp only
  split
  · exact (reload_control _).1.trans (endTo_pending _ _ _)
  · rw [finish_pending, foldl_kept State.pending _ (takeStore_pending r d), endTo_pending]

theorem readAnswered_pending (s : State) (r : Request) (d : Word) : (s.readAnswered r d).pending = s.pending := by
  unfold State.readAnswered
  dsimp only
  rw [finish_pending]
  split
  · rw [(moves_adoptionChecked _ _ _).servingOnly.pending, endTo_pending]
  · exact endTo_pending _ _ _

theorem acceptStore_pending (s : State) (l : List StoreTaker) : (s.acceptStore l).pending = s.pending := by
  unfold State.acceptStore
  split
  · split
    · exact storeAccepted_pending _ _ _ _
    · rfl
  all_goals rfl

theorem answerRead_pending (s : State) (d : Word) : (s.answerRead d).pending = s.pending := by
  unfold State.answerRead
  split
  · split
    · exact readAnswered_pending _ _ _
    · rfl
  all_goals rfl

theorem completePassing_pending (s : State) (d : Word) : (s.completePassing d).pending = s.pending := by
  unfold State.completePassing
  split
  · split
    · exact readAnswered_pending _ _ _
    · exact storeAccepted_pending _ _ _ _
  all_goals rfl

theorem engineMark_pending (s : State) (order : List MarkTask) : (s.engineMark order).pending = s.pending := by
  unfold State.engineMark
  dsimp only
  split
  · refine (handMark_kept _ order ?_).pending.trans (takeOutcome_pending _ _)
    exact congrArg FrameMonitor.endsOpen (takeOutcome_fm _ _)
  · exact (handMark_kept _ order rfl).pending

theorem arriveRequest_pending (s : State) (r : Request) (n : Nat) (order : List MarkTask) :
    (s.arriveRequest r n order).pending = s.pending := by
  have ticked : (s.tick n).pending = s.pending := (tick_control s n).2.1
  unfold State.arriveRequest
  dsimp only
  rw [← ticked]
  split
  · rfl
  · split
    · refine (finish_pending _).trans ?_
      split
      · exact engineMark_pending _ order
      · rfl
    · rfl
    · exact finish_pending _

theorem flywheelMark_pending (s : State) (k : Nat) (order : List MarkTask) :
    (s.flywheelMark k order).pending = s.pending := (handMark_kept _ order rfl).pending

theorem windowExpired_pending (s : State) (order : List MarkTask) : (s.windowExpired order).pending = s.pending := by
  unfold State.windowExpired
  split
  · split
    · rfl
    · exact flywheelMark_pending s 1 order
    all_goals rfl
  · rfl

theorem flywheelExpired_pending (s : State) (order : List MarkTask) :
    (s.flywheelExpired order).pending = s.pending := by
  unfold State.flywheelExpired
  split
  · split
    · split
      · exact flywheelMark_pending s 2 order
      · exact takeOutcome_pending _ _
    all_goals rfl
  · rfl

theorem wordDone_pending (s : State) (d : Word) : (s.wordDone d).pending = s.pending := by
  unfold State.wordDone
  split
  · split
    · exact grant_pending _
    · rfl
  · rfl

theorem startBurst_pending (s : State) : s.startBurst.pending = s.pending := by
  unfold State.startBurst
  split <;> rfl

/-- Settles O3: each command answers a next state by its definition, with the queue kept as the lemmas above say. -/
theorem everyCommandCompletes : Obligations.EveryCommandCompletes := by
  intro c s
  have ends : ∀ {u : State}, exec c s = .next u → u.pending = s.takeEnds.pending →
      ∃ t, exec c s = .next t ∧ t.pending = s.pending :=
    fun e kept => ⟨_, e, kept.trans (takeEnds_kept s).pending⟩
  have take : ∀ {d : Word} {f : OwnRequest → State → Option State}, exec c s = .next (s.takeEnds.complete d f) →
      (∀ r u v, f r u = some v → v.pending = u.pending) → ∃ t, exec c s = .next t ∧ t.pending = s.pending :=
    fun e kept => ends e (complete_pending _ _ _ kept)
  cases c with
  | reset b => exact ⟨_, rfl, rfl⟩
  | connectionRead | virtualRead | passingRequest => exact ends rfl (arriveRequest_pending _ _ _ _)
  | passingCompletion d => exact ends rfl (completePassing_pending _ d)
  | adoptionCheck d => exact ends rfl (answerRead_pending _ d)
  | connectionStore | programStore | consumerStore | commandStore => exact ends rfl (acceptStore_pending _ _)
  | windowExpiry order => exact ends rfl ((finish_pending _).trans (windowExpired_pending _ order))
  | flywheelExpiry order => exact ends rfl ((finish_pending _).trans (flywheelExpired_pending _ order))
  | cadenceStepEnd g => exact ⟨_, rfl, (moves_endCadenceStep s g).servingOnly.pending⟩
  | joinWindowClose n => exact ⟨_, rfl, (moves_closeWindow s n).servingOnly.pending⟩
  | dwellExpiry j => exact ⟨_, rfl, (finish_pending _).trans (moves_takeDwell s j).servingOnly.pending⟩
  | waitTimeout => exact ⟨_, rfl, (finish_pending _).trans (moves_takeTimeout s).servingOnly.pending⟩
  | burstWordComplete d => exact ends rfl (wordDone_pending _ d)
  | ownBurstStart => exact ends rfl (startBurst_pending _)
  | failureWriteComplete =>
    refine take rfl fun r u v h => ?_
    split at h
    · split at h <;> cases h
      rfl
    · cases h
  | loadingWriteComplete =>
    exact take rfl fun r u v h => by split at h <;> cases h; rfl
  | recordReadComplete d =>
    exact take rfl fun r u v h => by split at h <;> cases h; exact recordRead_pending _ _ _
  | congestionFetchComplete d =>
    exact take rfl fun r u v h => by split at h <;> cases h; exact congestionFetched_pending _ _ _
  | ringClearWriteComplete =>
    exact take rfl fun r u v h => by split at h <;> cases h; exact recordCleared_pending _ _
  | runningWriteComplete =>
    exact take rfl fun r u v h => by split at h <;> cases h; exact enterRun_pending _
  | attachFetchComplete d =>
    exact take rfl fun r u v h => by split at h <;> cases h; exact (moves_attachDone _ _ _ _ _ _).servingOnly.pending
  | fillerFetchComplete d =>
    exact take rfl fun r u v h => by split at h <;> cases h; exact (moves_fillerDone _ _ _ _ _ _).servingOnly.pending
  | refetchComplete d =>
    exact take rfl fun r u v h => by split at h <;> cases h; exact refetchDone_pending _ _ _ _
  | bindingFetchComplete d =>
    exact take rfl fun r u v h => by split at h <;> cases h; exact (moves_bindingDone _ _ _ _ _ _).servingOnly.pending
  | stepFetchComplete d =>
    exact take rfl fun r u v h => by split at h <;> cases h; exact (moves_stepDone _ _ _ _).servingOnly.pending
  | fillComplete d =>
    exact take rfl fun r u v h => by split at h <;> cases h; exact (moves_fillDone _ _ _ _ _).servingOnly.pending
  | reportWriteComplete =>
    exact take rfl fun r u v h => by split at h <;> cases h; exact reportDone_pending _ _

/-- Settles O1, by the definition of a step. -/
theorem frontCommandStep : Obligations.FrontCommandStep := by
  intro s c rest front
  unfold step
  rw [front]

end Sys2Proof.Machine
